-- ==== Sys2Proof/Word.lean ====
section
/-!
DEFINITION. The word types of the machine (spec 00 R4, 04 R100, 06 R126) and their plainest arithmetic.
-/
namespace Sys2Proof

/-- A register-space or memory word. -/
abbrev W64 := BitVec 64
/-- One byte. -/
abbrev Byte := BitVec 8
/-- A 12-bit register field (06 R127, 04 R100). -/
abbrev Reg := BitVec 12
/-- An instruction word (06 R126). -/
abbrev Word96 := BitVec 96
/-- A fetch line (05 R106). -/
abbrev Line := BitVec 512

/-- A Nat as a 64-bit word, modulo 2^64. -/
def w64 (n : Nat) : W64 := BitVec.ofNat 64 n
/-- An Int as a 64-bit word, modulo 2^64. -/
def w64i (i : Int) : W64 := BitVec.ofInt 64 i
/-- Bits [lo+n-1:lo] of a word, as a Nat. -/
def bitsOf {w : Nat} (x : BitVec w) (lo n : Nat) : Nat := (x.toNat >>> lo) % 2 ^ n
/-- Bit i of a word. -/
def bitOf {w : Nat} (x : BitVec w) (i : Nat) : Bool := x.getLsbD i
/-- Sign extension to 64 bits. -/
def sx64 {w : Nat} (x : BitVec w) : W64 := x.signExtend 64
/-- Zero extension to 64 bits. -/
def zx64 {w : Nat} (x : BitVec w) : W64 := x.setWidth 64
/-- A Bool as a word. -/
def b64 (b : Bool) : W64 := if b then 1 else 0
/-- A Bool as a Nat. -/
def bN (b : Bool) : Nat := if b then 1 else 0

end Sys2Proof
end

