-- ==== Sys2Proof/Machine/Table.lean ====
section
/-!
DEFINITION. Sparse tables keyed by Nat in one canonical form, keys strictly rising and no entry equal to the
value an unlisted key has. Memory is such a table of bytes.
-/
namespace Sys2Proof.Machine

/-- A sparse table. -/
abbrev Tbl (α : Type) := List (Nat × α)

/-- The value at a key; `d` where no entry stands. -/
def tget {α : Type} (d : α) : Tbl α → Nat → α
  | [], _ => d
  | (k, v) :: t, i => if i = k then v else tget d t i

/-- Insert or replace, keeping the keys rising. -/
def tput {α : Type} : Tbl α → Nat → α → Tbl α
  | [], i, x => [(i, x)]
  | (k, v) :: t, i, x => if i < k then (i, x) :: (k, v) :: t else if i = k then (i, x) :: t else (k, v) :: tput t i x

/-- Remove a key. -/
def tdel {α : Type} : Tbl α → Nat → Tbl α
  | [], _ => []
  | (k, v) :: t, i => if i = k then t else (k, v) :: tdel t i

/-- Set a key: an entry equal to the default is not listed. -/
def tset {α : Type} [DecidableEq α] (d : α) (t : Tbl α) (i : Nat) (x : α) : Tbl α :=
  if x = d then tdel t i else tput t i x

/-- The canonical form, with every key above `lo` (none: no bound). -/
def twf {α : Type} [DecidableEq α] (d : α) : Option Nat → Tbl α → Bool
  | _, [] => true
  | lo, (k, v) :: t => (match lo with | none => true | some l => decide (l < k)) && decide (v ≠ d) && twf d (some k) t

/-- A memory: physical or space addresses to bytes; an unlisted byte reads 0 (log 3). -/
abbrev Memory := Tbl Byte

/-- One byte. -/
def Memory.get (m : Memory) (a : Nat) : Byte := tget 0 m a
/-- Store one byte. -/
def Memory.set (m : Memory) (a : Nat) (b : Byte) : Memory := tset 0 m a b
/-- The canonical form of a memory. -/
def Memory.wf (m : Memory) : Bool := twf (0 : Byte) none m

/-- `n` bytes from `a`, lowest first. -/
def Memory.bytes (m : Memory) (a : Nat) : Nat → List Byte
  | 0 => []
  | n + 1 => m.get a :: m.bytes (a + 1) n
/-- Store bytes upward from `a`. -/
def Memory.setBytes (m : Memory) (a : Nat) : List Byte → Memory
  | [] => m
  | b :: bs => (m.set a b).setBytes (a + 1) bs

/-- Bytes as a number, little-endian (00 R4). -/
def leNat : List Byte → Nat
  | [] => 0
  | b :: bs => b.toNat + 256 * leNat bs
/-- The `n` low bytes of a number, little-endian. -/
def leBytes (x : Nat) : Nat → List Byte
  | 0 => []
  | n + 1 => BitVec.ofNat 8 x :: leBytes (x / 256) n

/-- An aligned number of `n` bytes. -/
def Memory.le (m : Memory) (a n : Nat) : Nat := leNat (m.bytes a n)
/-- Store a number of `n` bytes. -/
def Memory.setLe (m : Memory) (a n x : Nat) : Memory := m.setBytes a (leBytes x n)

/-- Zero the bytes from `a` for `n`: unlist them. -/
def Memory.clear (m : Memory) (a n : Nat) : Memory := m.filter fun c => !(a ≤ c.1 && c.1 < a + n)
/-- The listed bytes of a range, moved to start at `b`. -/
def Memory.slice (m : Memory) (a n b : Nat) : Memory :=
  (m.filter fun c => a ≤ c.1 && c.1 < a + n).map fun c => (c.1 - a + b, c.2)
/-- Store every byte of a listing. -/
def Memory.overlay (m : Memory) (l : Memory) : Memory := l.foldl (fun m c => m.set c.1 c.2) m

/-- Replace element i of a list, when it exists. -/
def lset {α : Type} : List α → Nat → α → List α
  | [], _, _ => []
  | _ :: t, 0, y => y :: t
  | x :: t, i + 1, y => x :: lset t i y
/-- Remove element i. -/
def ldel {α : Type} : List α → Nat → List α
  | [], _ => []
  | _ :: t, 0 => t
  | x :: t, i + 1 => x :: ldel t i
/-- The first index at which a test holds. -/
def lfind {α : Type} (p : α → Bool) : List α → Option Nat
  | [] => none
  | x :: t => if p x then some 0 else (lfind p t).map (· + 1)
/-- Update every element that a test picks. -/
def lmapIf {α : Type} (p : α → Bool) (f : α → α) (l : List α) : List α := l.map fun x => if p x then f x else x

end Sys2Proof.Machine
end

