-- ==== Sys2Proof/Syntax.lean ====
section
/-!
DEFINITION. The instructions and the steps of the opcode table, one constructor per row of
spec/opcode_table.json (spec 06 R143; spec 95). Instruction constructors hold the decoded fields of their
form. A row that is a step of another agent holds what the outside world chooses for it; which unit acts is
the schedule's choice, in `State.sel`.
-/
namespace Sys2Proof

/-- Integer types, 06 R129 codes 0x0 to 0x7. -/
inductive IntTy | i8 | i16 | i32 | i64 | n8 | n16 | n32 | n64
  deriving DecidableEq, Repr
/-- The two full-rate floating types. -/
inductive FpTy | f64 | f32
  deriving DecidableEq, Repr
/-- Every type of R129 but the reserved code. -/
inductive Ty
  | i8 | i16 | i32 | i64 | n8 | n16 | n32 | n64 | f16 | bf16 | f32 | f64 | e4m3 | e5m2 | b4
  deriving DecidableEq, Repr
/-- The types atomics admit (14 R325). -/
inductive AmoTy | i32 | i64 | n32 | n64
  deriving DecidableEq, Repr
/-- Rounding-mode fields an instruction that rounds admits (02 R49). -/
inductive RmF | rne | rtz | rdn | rup | rmm | dyn
  deriving DecidableEq, Repr
/-- Comparison of `cmp` and `vcmp` (06 R146). -/
inductive Cc | eq | ne | lt | ge
  deriving DecidableEq, Repr
/-- Comparison of `cmpi` (06 R146). -/
inductive CcI | eq | ne | lt | ge | ltn | gen
  deriving DecidableEq, Repr
/-- Comparison of `vfcmp` (06 R146). -/
inductive CcF | eq | ne | lt | ge | un
  deriving DecidableEq, Repr
/-- Width codes of the scalar loads (06 R146). -/
inductive LdW | i8 | i16 | i32 | i64 | n8 | n16 | n32
  deriving DecidableEq, Repr
/-- Width codes of the scalar stores (06 R146). -/
inductive StW | b8 | b16 | b32 | b64
  deriving DecidableEq, Repr
/-- Scopes (06 R130). -/
inductive Scope | core | row | clu | dev | sys
  deriving DecidableEq, Repr
/-- Memory spaces with a code (09 R210). -/
inductive Space | mem | spad | clu | die
  deriving DecidableEq, Repr
/-- Cache levels of `pref` and `cmo`. -/
inductive Level | l1 | l2 | l3
  deriving DecidableEq, Repr
/-- Kinds of `fence`. -/
inductive FenceKind | all | ld | st
  deriving DecidableEq, Repr
/-- Operations of `amo`. -/
inductive AmoOp | add | and | or | xor | min | max | swap
  deriving DecidableEq, Repr
/-- The queues `qstat` names (07 R177). -/
inductive QSel | qd | qc | mn | me | ms | mw
  deriving DecidableEq, Repr
/-- The operations of `vfsgn` (08 R193). -/
inductive SgnOp | copy | ncopy | xor
  deriving DecidableEq, Repr
/-- Classes of a slot (05 R106). -/
inductive Cls | s | d | e | b
  deriving DecidableEq, Repr

/-- The id fields of the E form (06 R140). -/
structure EIds where
  cid : BitVec 6
  p1 : BitVec 6
  p2 : BitVec 6
  v1 : Bool
  v2 : Bool
  deriving DecidableEq, Repr

/-- Which channel, as copy events name it: a core's or a bound copy engine's (09 R227, 17 R351). -/
inductive ChanRef
  | core (c : Nat) (ch : Nat)
  | eng (g : Nat) (ch : Nat)
  deriving DecidableEq, Repr

/-- Which id space holds a command: a core's or the sequencer's own (11 R273). -/
inductive CmdRef
  | core (c : Nat) (pos : Nat)
  | seq (r : Nat) (pos : Nat)
  deriving DecidableEq, Repr

/-- Who waits on a demand fetch (18 R366). -/
inductive Waiter
  | core (c : Nat)     -- its scalar stream, or its dispatcher
  | data (c : Nat)     -- its data stream
  | chan (ch : ChanRef)
  | cmd (c : CmdRef)
  | seq (r : Nat)
  | eng (g : Nat)
  | launch (a : Nat)
  deriving DecidableEq, Repr

/-- A request of the board link (21 R407). -/
inductive Mctp
  | setCap (watts : Nat)   -- PLDM: set the power cap
  | getCap                 -- PLDM: read the power cap
  | getSensor (kind unit : Nat)   -- PLDM: read a sensor: 0 a compute die, 1 a base die, 2 a stack, 3 the package's power
  | spdm                   -- SPDM: identity, with the certificates of R400
  deriving DecidableEq, Repr

/-- The readings of one poll of the management controller (21 R405): tenths of a degree and watts. -/
structure Sensors where
  compute : List Nat
  base : List Nat
  hbm : List Nat
  watts : Nat
  deriving DecidableEq, Repr

/-- Where a register access goes, and of how many bytes it is (03 R59). -/
structure RegAt where
  off : Nat
  width : Nat
  deriving DecidableEq, Repr
/-- What the host reads: BAR0 at an offset, or memory at a physical address. -/
inductive HostPlace | bar0 (off : Nat) | mem (pa : Nat)
  deriving DecidableEq, Repr

/-- The machine's steps, one constructor per row of the opcode table. -/
inductive Instr
  -- steps of the host, the front end, the engines and the other agents
  | doorbell (q : Nat) (v : BitVec 32)
  | externalSignal (q : Nat) (v : W64)
  | peerSignal (tenant dev lid status : Nat)
  | featAccWrite (k : Nat) (v : W64)
  | registerWrite (bar0 : Bool) (off : RegAt) (v : W64)
  | mailboxUnknown (cmd : BitVec 8)
  | formatWindowWrite (n k : Nat) (v : W64)
  | switchRegisterWrite (k : Nat) (v : W64)
  | monselWrite (off : Nat) (v : W64)
  | sluiceUnitReport (asid vpage : Nat) (reached : Bool)
  | teamFault (i : Nat) (code : Nat)
  | lineFetch (c : Nat) (line : W64)
  | demandFetchServed (w : Waiter) (frame : Nat)
  | demandTimeout (w : Waiter)
  | machineCheck (c : Nat) (pa : Nat)
  | hostWrite (pa : Nat) (bytes : List Byte)
  | hostRead (pa : HostPlace) (n : Nat)
  | copyStart (ch : ChanRef)
  | copyChunk (ch : ChanRef)
  | copyComplete (ch : ChanRef)
  | commandStart (k : CmdRef)
  | commandRetire (k : CmdRef)
  | sluiceMove (asid : Nat) (va : W64) (dest : Option Nat)
  | sensorPoll (r : Sensors)
  | timeAlign (t : Nat)
  -- row 0x0 (07 R155)
  | add (ty : IntTy) (d a b : Reg)
  | sub (ty : IntTy) (d a b : Reg)
  | mul (ty : IntTy) (d a b : Reg)
  | mulh (ty : IntTy) (d a b : Reg)
  | div (ty : IntTy) (d a b : Reg)
  | rem (ty : IntTy) (d a b : Reg)
  | and (ty : IntTy) (d a b : Reg)
  | or (ty : IntTy) (d a b : Reg)
  | xor (ty : IntTy) (d a b : Reg)
  | shl (ty : IntTy) (d a b : Reg)
  | shr (ty : IntTy) (d a b : Reg)
  | rotr (ty : IntTy) (d a b : Reg)
  | min (ty : IntTy) (d a b : Reg)
  | max (ty : IntTy) (d a b : Reg)
  -- row 0x1 (07 R156 to R162); `n` tells `.n64` from `.i64`
  | cmp (cc : Cc) (ty : IntTy) (d a b : Reg)
  | sel (n : Bool) (d a b c : Reg)
  | mov (n : Bool) (d a : Reg)
  | bext (n : Bool) (d a b c : Reg)
  | bins (d a b c : Reg)
  | clz (ty : IntTy) (d a : Reg)
  | ctz (ty : IntTy) (d a : Reg)
  | popc (ty : IntTy) (d a : Reg)
  | brev (ty : IntTy) (d a : Reg)
  | bswap (ty : IntTy) (d a : Reg)
  | adda (k : BitVec 2) (d a b : Reg)
  | madd (ty : IntTy) (d a b c : Reg)
  | sext (ty : IntTy) (d a : Reg)
  | zext (ty : IntTy) (d a : Reg)
  | addk (n : Bool) (d a : Reg) (kw : BitVec 3) (ko : BitVec 17)
  | movk (n : Bool) (d : Reg) (kw : BitVec 3) (ko : BitVec 17)
  -- row 0x2 (07 R163, R164)
  | li (d : Reg) (imm : BitVec 54)
  | addi (d a : Reg) (imm : BitVec 54)
  | andi (d a : Reg) (imm : BitVec 54)
  | ori (d a : Reg) (imm : BitVec 54)
  | xori (d a : Reg) (imm : BitVec 54)
  | shli (d a : Reg) (sh : BitVec 6)
  | shri (d a : Reg) (sh : BitVec 6)
  | srai (d a : Reg) (sh : BitVec 6)
  | cmpi (cc : CcI) (d a : Reg) (imm : BitVec 54)
  | lih (d a : Reg) (imm : BitVec 32)
  | muli (d a : Reg) (imm : BitVec 54)
  | maxi (d a : Reg) (imm : BitVec 54)
  | lpc (d : Reg) (imm : BitVec 54)
  | mini (d a : Reg) (imm : BitVec 54)
  -- row 0x3 (07 R166 to R168)
  | beq (slot : BitVec 3) (a b : Reg) (off : BitVec 41)
  | bne (slot : BitVec 3) (a b : Reg) (off : BitVec 41)
  | blt (slot : BitVec 3) (a b : Reg) (off : BitVec 41)
  | bge (slot : BitVec 3) (a b : Reg) (off : BitVec 41)
  | bltn (slot : BitVec 3) (a b : Reg) (off : BitVec 41)
  | bgen (slot : BitVec 3) (a b : Reg) (off : BitVec 41)
  | j (slot : BitVec 3) (off : BitVec 41)
  | call (slot : BitVec 3) (d : Reg) (off : BitVec 41)
  | jr (a : Reg)
  | callr (d a : Reg)
  | ret (a : Reg)
  -- row 0x4 (07 R169 to R177)
  | win (a b : Reg)
  | wini (delta : BitVec 22) (size : BitVec 12)
  | winqBase (d : Reg)
  | winqSize (d : Reg)
  | mfs (d : Reg) (num : BitVec 12)
  | mts (a : Reg) (num : BitVec 12)
  | mtsCodeimg (a : Reg) (n : BitVec 3)
  | mtsFcsr (a : Reg)
  | mtsRbb (a : Reg)
  | wlt (d a b : Reg)
  | qstat (d : Reg) (q : QSel)
  -- row 0x5 (10 R251 to R254)
  | ld (w : LdW) (d a : Reg) (imm : BitVec 54)
  | st (w : StW) (d a : Reg) (imm : BitVec 54)
  | ldx (ty : IntTy) (d a b : Reg)
  | stx (ty : IntTy) (d a b : Reg)
  | pref (lv : Level) (a : Reg) (imm : BitVec 54)
  | cmoClean (lv : Level) (a : Reg)
  | cmoInval (lv : Level) (a : Reg)
  | cmoFlush (lv : Level) (a : Reg)
  | lds (w : LdW) (d a : Reg) (imm : BitVec 54)
  | sts (w : StW) (d a : Reg) (imm : BitVec 54)
  | ldc (w : LdW) (d a : Reg) (imm : BitVec 54)
  | stc (w : StW) (d a : Reg) (imm : BitVec 54)
  | ldd (w : LdW) (d a : Reg) (imm : BitVec 54)
  | std (w : StW) (d a : Reg) (imm : BitVec 54)
  -- row 0x6 (10 R255 to R258)
  | vld (d a m : Reg) (ofs : BitVec 42)
  | vst (d a m : Reg) (ofs : BitVec 42)
  | vlds (d a b m : Reg)
  | vsts (d a b m : Reg)
  | vgat (d a b m : Reg)
  | vsct (d a b m : Reg)
  | ldl (d a b m : Reg)
  | stl (d a b m : Reg)
  | vlsp (d a m : Reg) (ofs : BitVec 42)
  | vssp (d a m : Reg) (ofs : BitVec 42)
  | vlcl (d a m : Reg) (ofs : BitVec 42)
  | vscl (d a m : Reg) (ofs : BitVec 42)
  | vldd (d a m : Reg) (ofs : BitVec 42)
  | vstd (d a m : Reg) (ofs : BitVec 42)
  -- row 0x7 (10 R260 to R269)
  | send (d a b c : Reg) (src dst : Space)
  | sendb (d a b c : Reg) (src dst : Space)
  | chctlOpen (d a b : Reg)
  | chctlClose (d : Reg)
  | chctlReset (d : Reg)
  | cwait (d a b : Reg)
  | crpop (d a : Reg) (try_ : Bool)
  | seal (a : Reg) (sp : Space)
  | alloc (d a : Reg) (nf : Bool)
  | free (a : Reg)
  | chq (d a : Reg)
  -- row 0x8 (08 R186 to R189)
  | vadd (sat : Bool) (ty : IntTy) (d a b m : Reg)
  | vsub (sat : Bool) (ty : IntTy) (d a b m : Reg)
  | vmul (ty : IntTy) (d a b m : Reg)
  | vmulh (ty : IntTy) (d a b m : Reg)
  | vdiv (ty : IntTy) (d a b m : Reg)
  | vrem (ty : IntTy) (d a b m : Reg)
  | vand (ty : IntTy) (d a b m : Reg)
  | vor (ty : IntTy) (d a b m : Reg)
  | vxor (ty : IntTy) (d a b m : Reg)
  | vshl (ty : IntTy) (d a b m : Reg)
  | vshr (ty : IntTy) (d a b m : Reg)
  | vmin (ty : IntTy) (d a b m : Reg)
  | vmax (ty : IntTy) (d a b m : Reg)
  | vcmp (cc : Cc) (ty : IntTy) (d a b m : Reg)
  | vsel (d a b c m : Reg)
  | vabs (w : StW) (d a m : Reg)
  -- row 0x9 (08 R190 to R195)
  | vfadd (ty : FpTy) (rm : RmF) (d a b m : Reg)
  | vfsub (ty : FpTy) (rm : RmF) (d a b m : Reg)
  | vfmul (ty : FpTy) (rm : RmF) (d a b m : Reg)
  | vfdiv (ty : FpTy) (rm : RmF) (d a b m : Reg)
  | vfsqrt (ty : FpTy) (rm : RmF) (d a m : Reg)
  | vfmin (ty : FpTy) (d a b m : Reg)
  | vfmax (ty : FpTy) (d a b m : Reg)
  | vfabs (ty : FpTy) (d a m : Reg)
  | vfneg (ty : FpTy) (d a m : Reg)
  | vfsgn (op : SgnOp) (ty : FpTy) (d a b m : Reg)
  | vfcls (ty : FpTy) (d a m : Reg)
  | vfcmp (cc : CcF) (ty : FpTy) (d a b m : Reg)
  | vcvt (td ts : Ty) (rm : RmF) (sat : Bool) (part : BitVec 3) (d a m : Reg)
  | vfrint (ty : FpTy) (rm : RmF) (d a m : Reg)
  | vfscl (ty : FpTy) (rm : RmF) (d a b m : Reg)
  -- row 0xa (08 R196 to R198)
  | vfma (ty : FpTy) (rm : RmF) (d a b c m : Reg)
  | vfms (ty : FpTy) (rm : RmF) (d a b c m : Reg)
  | vfnma (ty : FpTy) (rm : RmF) (d a b c m : Reg)
  | vfnms (ty : FpTy) (rm : RmF) (d a b c m : Reg)
  | vfaddk (ty : FpTy) (rm : RmF) (d a m : Reg) (kw : BitVec 3) (ko : BitVec 17)
  | vfmulk (ty : FpTy) (rm : RmF) (d a m : Reg) (kw : BitVec 3) (ko : BitVec 17)
  | vaddk (ty : IntTy) (d a m : Reg) (kw : BitVec 3) (ko : BitVec 17)
  | vmulk (ty : IntTy) (d a m : Reg) (kw : BitVec 3) (ko : BitVec 17)
  | vbcast (d a m : Reg)
  | vbcastk (d m : Reg) (kw : BitVec 3) (ko : BitVec 17)
  | vins (d a b : Reg)
  | vext (d a b : Reg)
  | vmask (d a m : Reg)
  -- row 0xb (08 R199 to R203)
  | vperm (d a b m : Reg)
  | vrot (d a b m : Reg)
  | vzip (hi : Bool) (d a b m : Reg)
  | vunzip (hi : Bool) (d a b m : Reg)
  | vcompress (d a b : Reg)
  | vexpand (d a b : Reg)
  | vredadd (ty : IntTy) (d a m : Reg)
  | vredmin (ty : IntTy) (d a m : Reg)
  | vredmax (ty : IntTy) (d a m : Reg)
  | vfredadd (ty : FpTy) (rm : RmF) (d a m : Reg)
  | vfredmin (ty : FpTy) (d a m : Reg)
  | vfredmax (ty : FpTy) (d a m : Reg)
  | vredand (ty : IntTy) (d a m : Reg)
  | vredor (ty : IntTy) (d a m : Reg)
  | vmcnt (d a m : Reg)
  | vredxor (ty : IntTy) (d a m : Reg)
  -- row 0xc (08 R205 to R208)
  | xclr (m : Reg)
  | xfma (neg : Bool) (a b m : Reg)
  | xadd (neg : Bool) (a m : Reg)
  | xsum (m : Reg)
  | xsgn (d m : Reg)
  | xrnd (rm : RmF) (d m : Reg)
  | xst (a m : Reg)
  | xld (a m : Reg)
  -- row 0xd (11 R281 to R288)
  | tld (ty : Ty) (sp : Space) (d a : Reg) (ids : EIds)
  | tst (ty : Ty) (sp : Space) (d a : Reg) (ids : EIds)
  | tzero (d : Reg) (ids : EIds)
  | mma (ty : Ty) (g ad nb na : Bool) (d a b : Reg) (ids : EIds)
  | amov (ty : Ty) (sat : Bool) (d a b : Reg) (ids : EIds)
  | ast (sp : Space) (d a : Reg) (ids : EIds)
  | ald (sp : Space) (d a : Reg) (ids : EIds)
  | azero (d : Reg) (ids : EIds)
  | mwait (seq : Bool) (d : Reg) (cid : BitVec 6)
  -- row 0xe (14)
  | ldacq (w : LdW) (sc : Scope) (sp : Space) (d a : Reg) (ofs : BitVec 52)
  | strel (w : StW) (sc : Scope) (sp : Space) (d a : Reg) (ofs : BitVec 52)
  | fence (k : FenceKind) (sc : Scope)
  | amo (op : AmoOp) (ty : AmoTy) (sc : Scope) (sp : Space) (ord : BitVec 2) (d a b : Reg)
  | cas (ty : AmoTy) (sc : Scope) (sp : Space) (ord : BitVec 2) (d a b c : Reg)
  | famo (ty : FpTy) (rm : RmF) (sc : Scope) (sp : Space) (ord : BitVec 2) (d a b : Reg)
  | barArrive (d a : Reg)
  | barWait (d a b : Reg)
  | barSync (d a : Reg)
  | barInit (sc : Scope) (a b : Reg)
  | fork (a : Reg)
  | jdec (sc : Scope) (a : Reg)
  | msg (a b : Reg)
  | dqopPop (d : Reg)
  | dqopSteal (d a : Reg)
  | dqopCount (d : Reg)
  | hand (role : BitVec 4) (rcv : BitVec 4) (pipe : BitVec 3) (a : Reg) (lmap : BitVec 16)
  | tbindMyrole (d : Reg)
  | tbindMembers (d a : Reg)
  -- row 0xf (19)
  | trap (a : Reg)
  | tlbiAsid (a : Reg)
  | tlbiPage (a b : Reg)
  | asidctl (d a b : Reg)
  | wdctlGet (d : Reg)
  | wdctlSet (a : Reg)
  | partctlSplit (d a : Reg)
  | partctlMerge (d a : Reg)
  | evpost (a b : Reg)
  | loopc (slot : BitVec 3) (d a : Reg) (off : BitVec 41)
  | vdotx (n : Bool) (d a b c m : Reg)
  | tldq (ty : Ty) (d a b : Reg) (ids : EIds)
  | swapw (d a : Reg)
  -- the last rows of the table
  | mctpMessage (m : Mctp)
  | unassignedOpcode (code : BitVec 8) (faddr : W64) (data : Bool)
  -- rows without fields: those of other agents read their unit from `State.sel` and `State.sel2`
  | regq
  | unregq
  | unregqDrained
  | qresume
  | lcancel
  | tendef
  | asidset
  | tenset
  | tenres
  | nodectl
  | pflush
  | getlog
  | updwrite
  | updarm
  | updsvn
  | ident
  | queueHelperVisit
  | launchAccept
  | launchPlace
  | teamBind
  | launchEnd
  | releaseFlush
  | completionEvent
  | dispatch
  | stealAttempt
  | loadLevel
  | joinDecrementApply
  | arrivalApply
  | messageArrival
  | watchdogStop
  | gangJoin
  | allocReply
  | partctlReply
  | switchTick
  | dieQuiet
  | tenantSave
  | tenantRestore
  | lateSwitch
  | graceStop
  | deviceReset
  | boot
  | nop
  | done
  | tret
  | tlbiAll
  | isync
  | halt
  | pendingRegisterWriteLands
  | watchdogDrainAbandoned
  deriving DecidableEq, Repr

end Sys2Proof
end

