-- ==== Sys2Proof/Machine/State.lean ====
section
/-!
DEFINITION. The whole state of the device as plain data, and its reset. INVENTORY.md lists every piece with the
rule that names it. Tables are sparse: an unlisted key holds the reset value.
-/
namespace Sys2Proof.Machine

/-- Who executes the present step (log 1). -/
inductive Agent
  | core (c : Nat)   -- the scalar stream of a core, at its next slot
  | data (c : Nat)   -- the data stream of a core, at the oldest instruction it has not issued
  | seq (r : Nat)    -- a row sequencer bound as a role
  | eng (g : Nat)    -- a cluster copy engine bound as a role
  deriving DecidableEq, Repr

/-- A cached copy that may be replaced at any time (05 R123, 09 R245, 13 R319; log 6). -/
inductive DropKind
  | l1tlb | ctlb | l1i | latt | dict | seqLine | engLine
  | l1d       -- a line of a core's L1D (09 R213)
  | l2 | l3   -- a line of an L2 or of an L3 (09 R214, R215)
  deriving DecidableEq, Repr

/-- One choice of the schedule (log 1). -/
inductive Move
  | slot (c : Nat) (lag : Bool)            -- core c's next slot; `lag` leaves a data instruction to its stream
  | data (c : Nat)                         -- core c's data stream
  | seq (r : Nat)
  | eng (g : Nat)
  | act (i : Instr) (sel sel2 : Nat)       -- a step of another agent, and which unit takes it
  | drop (k : DropKind) (u i : Nat)        -- unit u's i-th entry of such a cache is replaced
  | over (c n : Nat)                       -- core c's next n slots pass the memory accesses its data stream holds (10 R250)
  deriving DecidableEq, Repr, Inhabited

/-- A task record's four words (01 R7). -/
structure Rec where
  code : W64 := 0
  frame : W64 := 0
  arg : W64 := 0
  ctrl : W64 := 0
  deriving DecidableEq, Repr, Inhabited

/-- A ready-ring entry: the record, its source address, launch and restart count travel together (01 R9, 14 R411). -/
structure Entry where
  tr : Rec
  src : W64
  origin : Nat        -- partition core index it was made on (18 R363)
  launch : Option Nat
  restarts : Nat
  passed : Nat        -- ready-ring dispatches of higher classes since it was added (01 R34)
  deriving DecidableEq, Repr, Inhabited

/-- An inbox entry (14 R336). -/
structure Msg where
  tr : Rec
  payload : List W64
  src : W64
  launch : Option Nat
  deriving DecidableEq, Repr, Inhabited

/-- A system-ring entry. -/
inductive SysEntry
  | fault (code : Nat) (faddr fpc : W64) (tr : Rec) (origin : Nat) (launch : Option Nat)   -- 18 R363
  | sys (tr : Rec) (launch : Option Nat)                                                   -- 14 R331
  | overflow (line : Nat) (sharer : Nat)                                                    -- 13 R295
  | firmware (tr : Rec)                                                                    -- 19 R376
  deriving DecidableEq, Repr, Inhabited

/-- What reaches a core's queues (14 R328). -/
inductive Arrival
  | decr (off : Nat) (launch : Option Nat)
  | ready (e : Entry)
  | msg (m : Msg)
  deriving DecidableEq, Repr, Inhabited

/-- What a posting agent holds while the links toward a core are full (14 R328). -/
inductive Posted
  | sys (e : SysEntry)
  | arr (a : Arrival)
  deriving DecidableEq, Repr, Inhabited
/-- A write of the front end (13 R296). -/
structure FeWrite where
  pa : Nat
  bytes : List Byte
  deriving DecidableEq, Repr, Inhabited

/-- Kinds of running task. -/
inductive TaskKind
  | normal | fault | sys | firmware | member
  deriving DecidableEq, Repr, Inhabited

/-- The running task of a core. -/
structure Task where
  kind : TaskKind
  tr : Rec
  src : W64
  origin : Nat        -- partition core index its record was made on (18 R363)
  launch : Option Nat
  restarts : Nat
  asid : Nat
  answers : Nat       -- the fault a fault task answers (18 R363), else 0
  deriving DecidableEq, Repr, Inhabited

/-- A late register write (04 R102). -/
inductive PendKind
  | data | alloc | partctl
  deriving DecidableEq, Repr, Inhabited
structure Pend where
  word : Nat
  kind : PendKind
  val : W64
  fw : Bool           -- the word is of the firmware register space
  deriving DecidableEq, Repr, Inhabited

/-- A byte of a space: 0 ordinary memory, 1 to 3 the scratchpads, then its core or die, and its offset. -/
structure Place where
  space : Nat
  unit : Nat
  off : Nat
  deriving DecidableEq, Repr, Inhabited
/-- A word that one stream of a core has loaded and nothing has read since: a store of the other stream to the same bytes
may still be what it holds (10 R250). -/
structure Loaded where
  core : Nat
  data : Bool         -- the data stream loaded it
  word : Nat
  place : Place
  n : Nat
  signed : Bool
  deriving DecidableEq, Repr, Inhabited
/-- What a granule held before a store of a core's scalar stream (10 R250). -/
structure Was where
  core : Nat
  place : Place
  bytes : List Byte
  deriving DecidableEq, Repr, Inhabited

/-- A format window's registers (09 R219). -/
structure FmtWin where
  ctl : W64 := 0
  size : W64 := 0
  scale : W64 := 0
  xb : W64 := 0
  deriving DecidableEq, Repr, Inhabited
/-- Where an access lands; `so` of ordinary memory: SO by its page, or uncached (13 R298, 03 R62). -/
inductive Loc
  | phys (pa : Nat) (so : Bool)
  | ali (w : FmtWin) (pa : Nat)
  | dcr (off : Nat)
  | spad (c off : Nat)
  | clu (c off : Nat)
  | die (d off : Nat)
  deriving DecidableEq, Repr
/-- A translation that an engine is using (09 R247): the number of a 4 KiB virtual page, and a place on it. -/
structure Pin where
  page : Nat
  place : Loc
  deriving DecidableEq, Repr

/-- A data-stream instruction the scalar stream has passed (04 R96). -/
structure Deferred where
  pc : W64
  instr : Instr
  seq : Nat
  resume : Option Nat
  vals : List W64                -- the words it read, once lanes below `resume` are done (10 R249)
  popped : List (Nat × W64)      -- the queue words among them, by queue: 0 to 3 the ports, 4 `qd`, 5 `qc`
  lines : List Nat               -- the register-store lines its fields name
  deriving DecidableEq, Repr

/-- What to take back when a data instruction faults (18 R356). -/
inductive Undo
  | word (seq i : Nat) (old : W64)
  | qdPush (seq : Nat)
  | qcPop (seq : Nat) (v : W64)
  | portPop (seq dir : Nat) (v : W64)
  deriving DecidableEq, Repr

/-- A register-store line (04 R102). -/
structure RsLine where
  tag : Nat
  pa : Nat
  dirty : Bool
  words : List W64
  deriving DecidableEq, Repr, Inhabited

/-- An exact lane accumulator (02 R54). -/
structure XAcc where
  n : Int := 0
  pinf : Bool := false
  ninf : Bool := false
  xnan : Bool := false
  deriving DecidableEq, Repr, Inhabited

/-- A named barrier (14 R327). -/
structure Bar where
  expect : Nat := 0
  arrived : Nat := 0
  phase : Nat := 0
  scope : Scope := .core
  deriving DecidableEq, Repr

/-- A latched code image (05 R112, R113). -/
structure CodeImg where
  vbase : Nat
  nlines : Nat
  ndict : Nat
  latt : Nat
  dict : Nat
  body : Nat
  bodylen : Nat
  deriving DecidableEq, Repr, Inhabited
structure CodeImgReg where
  raw : W64 := 0
  img : Option CodeImg := none
  deriving DecidableEq, Repr, Inhabited

/-- An expanded line in an L1I or a line buffer (05 R118). -/
structure L1Line where
  asid : Nat
  line : W64
  bits : Line
  mask : Nat
  deriving DecidableEq, Repr

/-- A cached constant line, LATT entry or dictionary entry (05 R122, R123). -/
structure CacheEnt where
  asid : Nat
  addr : Nat
  bytes : List Byte
  deriving DecidableEq, Repr

/-- A line fill that has read some of its granules: their bytes, by virtual address over 8 (05 R125). -/
structure PartFill where
  asid : Nat
  line : W64
  got : Tbl (List Byte)
  deriving DecidableEq, Repr

/-- A line an L2 holds (09 R214, R217): its die, its way, and the row that filled it, which owns it. -/
structure L2Line where
  die : Nat
  line : Nat
  way : Nat
  row : Nat
  deriving DecidableEq, Repr, Inhabited

/-- A cached translation (09 R245). -/
structure TlbEnt where
  asid : Nat
  va : Nat
  size : Nat
  pa : Nat
  ok : Nat
  d : Bool
  u : Bool
  x : Bool
  w : Bool
  r : Bool
  deriving DecidableEq, Repr

/-- An outstanding demand fetch (18 R366). -/
structure Demand where
  asid : Nat
  va : Nat
  waited : Nat
  limit : Nat
  expired : Bool
  deriving DecidableEq, Repr

/-- A layout record as read (01 R20). -/
structure Layout where
  base : Nat
  n0 : Nat
  n1 : Nat
  n2 : Nat
  s0 : Nat
  s1 : Int
  s2 : Int
  esize : Nat
  space : Nat
  deriving DecidableEq, Repr, Inhabited

/-- A channel binding (09 R227). -/
structure Binding where
  id : Nat
  cons : Option (Nat × Nat)     -- consumer core (physical) and CWP
  consIdx : Nat                 -- its partition core index
  ring : Option (Nat × Nat)     -- ring's core (physical) and base offset
  logn : Nat
  deriving DecidableEq, Repr, Inhabited

/-- A copy (10 R261, R262). -/
structure Copy where
  tag : Nat
  bind : Binding
  issuer : Nat
  asid : Nat
  sup : Bool
  launch : Option Nat
  dlim : Nat
  src : Nat
  dst : Nat
  sspace : Space
  dspace : Space
  len : Nat
  kind : Bool                    -- some page of either side is SO, so all its accesses are (13 R299)
  block : Bool                   -- `sendb`: src and dst address layout records
  lay : Option (Layout × Layout)
  started : Bool
  moved : Nat                    -- bytes delivered
  c0 : Nat                       -- stream bytes before this copy
  olds : Tbl Byte                -- source bytes this copy's own writes have replaced, by source address
  seen : Tbl Byte := []          -- source granules read whole and not all delivered, by source address (13 R315)
  pinS : Option Pin := none      -- the translation each side is using (09 R247)
  pinD : Option Pin := none
  outcome : Option (Nat × Nat × Nat)   -- OUTCOME, FCODE, FADDR once the bytes are over
  demand : Option Demand
  deriving DecidableEq, Repr

/-- What a channel still has to do, in issue order (10 R260). -/
inductive ChanItem
  | copy (c : Copy)
  | reset
  deriving DecidableEq, Repr
structure Chan where
  bind : Option Binding := none
  stop : Option Nat := none      -- the binding that is stopped (09 R232)
  items : List ChanItem := []
  deriving DecidableEq, Repr

/-- Cells of a core's tiles, scale slots and accumulators, as ranges: the first of each and how many. -/
structure MatCells where
  tiles : List (Nat × Nat) := []
  scales : List (Nat × Nat) := []
  accs : List (Nat × Nat) := []
  deriving DecidableEq, Repr, Inhabited
/-- Tiles, scale slots and accumulators of a core before a command's effect, and what that wrote. -/
structure MatImage where
  tiles : Memory
  scales : Memory
  accs : Tbl (BitVec 32)
  wrote : MatCells := {}
  deriving DecidableEq, Repr, Inhabited
/-- Matrix commands (11). -/
inductive CmdOp
  | tld | tst | tzero | mma | amov | ast | ald | azero | tldq
  deriving DecidableEq, Repr, Inhabited
structure Cmd where
  no : Nat                 -- issue number
  cid : Nat
  op : CmdOp
  ty : Ty
  d : Nat                  -- tile or accumulator
  a : Nat                  -- tile A or accumulator, by operation
  b : Nat
  wa : Nat                 -- word read from A: a record address or BASE
  wb : Nat                 -- word read from B: a window or S1
  sp : Space
  fl : Nat                 -- FLAGS
  cfgD : Nat               -- latched TCFG values
  cfgA : Nat
  cfgB : Nat
  cfgBs : List Nat         -- tile B's values on a row's cores, latched when a sequencer's command starts (R289)
  olds : List (Nat × MatImage)   -- what cores held before each unordered command that retired since it started (R275)
  rows : Nat               -- rows it has moved
  pin : Option Pin := none -- the translation its rows are using (11 R281)
  so : Bool                -- some page of its array is SO, so all its accesses are (13 R299)
  deps : List Nat          -- issue numbers of the predecessors
  core : Nat
  asid : Nat
  sup : Bool
  launch : Option Nat
  dlim : Nat
  gangNo : Nat
  joined : Bool
  started : Bool
  lay : Option Layout
  outcome : Option (Nat × Nat)   -- OUTCOME and FCODE once refused
  demand : Option Demand
  deriving DecidableEq, Repr

/-- A stopped task whose data stream still drains (18 R364): cycles since the stop, and whether it is a member that a
team fault has stopped and counted already (R368). -/
structure StopAt where
  waited : Nat
  counted : Bool
  deriving DecidableEq, Repr

/-- What a core's dispatcher has taken and not yet started, or the deque it is reaching into (14 R329, R332). -/
inductive Taken
  | sys (e : SysEntry)
  | entry (e : Entry) (payload : List W64)
  | pop
  | steal (v : Nat)
  deriving DecidableEq, Repr, Inhabited

/-- The state of one core. -/
structure Core where
  pc : W64 := 0
  task : Option Task := none
  sup : Bool := false
  inTrap : Bool := false
  trapCode : Nat := 0
  trapReq : Bool := false
  requeued : Bool := false
  role : Nat := 0
  inst : Option Nat := none
  wbase : W64 := 0
  wlim : W64 := 1
  wfb : W64 := 0
  wfl : W64 := 1
  rbb : W64 := 0
  rbl : W64 := 0
  dwb : W64 := 0
  twb : W64 := 0
  twl : W64 := 1
  tvec : W64 := 0
  fcsr : W64 := 0
  fpc : W64 := 0
  fcause : W64 := 0
  faddr : W64 := 0
  fstep : W64 := 0
  lstart : W64 := 0
  fwb : W64 := 0
  fwl : W64 := 1
  tcfg : Tbl W64 := []
  cwb : Tbl W64 := []
  cwp : Tbl W64 := []
  codeimg : Tbl CodeImgReg := []
  tasklim : W64 := 0x400000
  demandlim : W64 := 0x200000
  tasklimL : Nat := 0x400000
  demandlimL : Nat := 0x200000
  wd : Nat := 0
  cycle : Nat := 0
  resume : Option Nat := none
  barAt : Option (W64 × Nat × Nat × Nat) := none   -- a `bar.sync` that has arrived: its PC, home core, barrier, phase
  barPop : List (Nat × W64) := []                  -- the queue word that names its barrier, by queue as in `Deferred`
  qd : List W64 := []
  qc : List W64 := []
  portN : List W64 := []
  portE : List W64 := []
  portS : List W64 := []
  portW : List W64 := []
  dq : List Deferred := []
  undo : List Undo := []
  seq : Nat := 0
  pend : List Pend := []
  rs : Tbl RsLine := []
  fwregs : Tbl W64 := []
  xa : Tbl XAcc := []
  tiles : Memory := []
  scales : Memory := []            -- scale bytes, each XOR 0x28, its reset value (11 R270)
  accs : Tbl (BitVec 32) := []
  cmds : List Cmd := []
  cmdNo : Nat := 0
  recs : List (Nat × W64) := []
  gang : Nat := 0
  spad : Memory := []
  cspad : Memory := []
  slices : Memory := []
  bars : Tbl Bar := []
  chans : Tbl Chan := []
  sysring : List SysEntry := []
  inbox : List Msg := []
  ready : List Entry := []
  held : List Arrival := []
  heldSys : List SysEntry := []
  inboxRun : Nat := 0
  stealPos : Nat := 0
  stealAt : Nat := 0
  levelAt : Nat := 0
  halted : Bool := false
  taken : Option Taken := none
  lastRun : Option Nat := none       -- the launch of the last task but firmware's; none where it had none (05 R124)
  dqLaunch : Option Nat := none
  l1i : List L1Line := []
  kcache : List CacheEnt := []
  lattc : List CacheEnt := []
  dictc : List CacheEnt := []
  l1tlb : List TlbEnt := []
  demand : Option Demand := none            -- of the scalar stream and the dispatcher
  demandD : Option Demand := none           -- of the data stream
  part : Option PartFill := none
  quiescing : Bool := false
  stopAt : Option StopAt := none
  ending : Option (Nat × W64) := none       -- the fault, and its address, that ends the task once its commands have
                                            -- retired (11 R277)
  deriving DecidableEq, Repr

/-- A row sequencer (11 R273, R289). -/
structure SeqUnit where
  inst : Option Nat := none
  role : Nat := 0
  pc : W64 := 0
  asid : Nat := 0
  halted : Bool := true
  cmds : List Cmd := []
  cmdNo : Nat := 0
  recs : List (Nat × W64) := []
  gangRef : List Nat := []        -- gang numbers of the row that a watchdog refused (11 R277)
  lines : List L1Line := []
  part : Option PartFill := none
  dlim : Nat := 0                 -- `DEMANDLIM` as latched at the instance's start (18 R364)
  demand : Option Demand := none
  deriving DecidableEq, Repr

/-- A cluster copy engine bound as a role (17 R350, R351). -/
structure EngUnit where
  inst : Option Nat := none
  role : Nat := 0
  pc : W64 := 0
  asid : Nat := 0
  halted : Bool := true
  words : Tbl W64 := []
  chans : Tbl Chan := []
  lines : List L1Line := []
  part : Option PartFill := none
  dlim : Nat := 0                 -- `DEMANDLIM` as latched at the instance's start (18 R364)
  demand : Option Demand := none
  deriving DecidableEq, Repr

/-- A directory entry (13 R294): a core number names a sharer, 2048 the host. -/
structure DirEnt where
  owner : Option Nat := none
  sharers : List Nat := []
  ovf : Bool := false
  bcast : Bool := false
  deriving DecidableEq, Repr, Inhabited

/-- A byte the L3 still holds while a core's cache holds a newer one (13 R319). -/
structure StaleByte where
  old : Byte
  core : Nat
  deriving DecidableEq, Repr, Inhabited

/-- A counter pair (21 R397). -/
structure Mon where
  sel : W64 := 0
  cnt : W64 := 0
  deriving DecidableEq, Repr, Inhabited

/-- An event the monitors have yet to count (21 R398). -/
structure MonEvent where
  ev : Nat
  core : Nat
  n : Nat
  tenant : Option Nat
  deriving DecidableEq, Repr

/-- A registered queue (03 R63 to R70): the snapshot, held or evicted, and the values that the device itself keeps of
the QCB fields it writes. -/
structure Queue where
  q : Nat
  qcb : Nat
  held : Bool                -- the snapshot is held
  base : Nat
  logsz : Nat
  prio : Nat
  tenant : Nat
  asid : Nat
  evbase : Nat
  evlog : Nat
  head : Nat
  tail : Nat
  bell : Option Nat          -- a doorbell recorded and not yet acted on
  status : Nat
  evhead : Nat
  ovcnt : Nat
  draining : Bool            -- UNREGQ has stopped intake
  served : Nat
  deriving DecidableEq, Repr, Inhabited

/-- Launch states (03 R76). -/
inductive LState
  | accepted | waiting | gated | placing | running | ending | done
  deriving DecidableEq, Repr, Inhabited
structure Region where
  name : Nat
  space : Nat
  keep : Bool
  off : Nat
  size : Nat
  deriving DecidableEq, Repr, Inhabited
structure Launch where
  no : Nat                   -- acceptance number
  q : Nat
  tenant : Nat
  lid : Nat
  part : Nat
  asid : Nat
  lfl : Nat
  nent : Nat
  rth : Nat
  team : Nat
  wset : Nat
  cev : Nat
  enta : Nat
  preds : List Nat
  ent : Rec
  raw : List Byte
  slotPa : Nat
  st : LState
  entries : List (Rec × W64)
  desc : List Byte
  regions : List Region
  extents : List (Nat × Nat)
  record : Bool
  rootK : Option Nat
  released : Bool
  ninst : Nat
  ndisp : Nat
  nfault : Nat
  time : Nat                 -- fabric time at which it ended (01 R33)
  faults : Bool
  fcode : Nat
  strag : Bool
  reason : Nat
  pfail : Bool
  flushed : Bool
  published : Bool           -- its completion event is written, or its KIND 8 entry (21 R393)
  posted : Bool := false     -- and so is its KIND 1 or 2 entry
  demand : Option Demand
  deriving DecidableEq, Repr, Inhabited

/-- A filed signal (03 R79): device 2^22 stands for the host. -/
structure Signal where
  dev : Nat
  lid : Nat
  status : Nat
  deriving DecidableEq, Repr, Inhabited

/-- A pipe queue of a sending and receiving pair (14 R341). -/
structure Pipe where
  pipe : Nat
  srole : Nat
  rrole : Nat
  sender : Nat
  receiver : Nat
  entries : List (List W64)
  deriving DecidableEq, Repr, Inhabited

inductive InstState
  | queued | running | draining | ended
  deriving DecidableEq, Repr, Inhabited
/-- A team instance (01 R25, 14 R339 to R344). -/
structure Inst where
  launch : Nat
  k : Nat
  st : InstState
  prog : W64
  clu : Bool
  nroles : Nat
  roles : List (Nat × Nat × Nat × Nat)   -- KIND, WHERE, WWORDS, MEMBERS of role e + 1
  drift : Nat
  row : Nat                               -- first row bound
  cores : List (Nat × Nat)                -- core members and their roles
  live : List Nat
  counts : Tbl Nat                        -- hand counts by core
  pipes : List Pipe
  faulted : Bool                          -- a team fault has ended it
  seqs : List (Nat × Nat)                 -- row sequencers and their roles
  eng : Option (Nat × Nat)                -- copy engine and its role
  deriving DecidableEq, Repr, Inhabited

/-- A tenant's definition (03 R73). -/
structure Tenant where
  rsbase : W64
  rsstride : W64
  rswords : Nat
  dwb : Nat
  twb : Nat
  twl : Nat
  tvec : W64
  tasklim : W64
  demandlim : W64
  ways : Nat
  hasid : Nat
  deriving DecidableEq, Repr, Inhabited

/-- Where a node stands in a switch (18 R371 to R374). -/
inductive Phase
  | steady
  | quiesce (tickNs : Nat)
  | saved
  deriving DecidableEq, Repr, Inhabited
structure Node where
  n : Nat
  tset : List Nat
  resident : Option Nat
  requests : List Nat
  partReq : Option (Bool × Nat)    -- a split (true) or merge waiting for the tick, and the node it names
  phase : Phase
  quiet : List Nat                 -- dies that have reported quiet
  late : List Nat                  -- dies that were not quiet at the deadline
  judged : Bool                    -- the deadline has passed
  graced : Bool                    -- the grace period has passed
  used : Bool                      -- a tenant has been resident
  gone : Option Nat := none        -- the tenant that the last switch took off (18 R372)
  deriving DecidableEq, Repr, Inhabited

/-- What a tenant switch saves of one core (18 R372). -/
structure SavedCore where
  ready : List Entry
  inbox : List Msg
  held : List Arrival
  spad : Memory
  cspad : Memory
  chans : Tbl Chan
  cwp : Tbl W64
  bars : Tbl Bar
  codeimg : Tbl CodeImgReg
  cwb : Tbl W64
  tasklim : W64
  demandlim : W64
  rbb : W64
  rbl : W64
  dwb : W64
  twb : W64
  twl : W64
  tvec : W64
  inboxRun : Nat
  dqLaunch : Option Nat
  deriving DecidableEq, Repr, Inhabited
structure Saved where
  tenant : Nat
  node : Nat
  cores : List SavedCore
  dies : List Memory
  deriving DecidableEq, Repr, Inhabited

/-- A partition control at the front end (19 R384). -/
structure PartCtl where
  merge : Bool
  node : Nat
  core : Option Nat      -- the core that asks; none for NODECTL
  reg : Reg              -- its D field
  word : Nat             -- the absolute word that D names
  fw : Bool              -- the word is of the firmware register space
  decided : Option Nat
  waits : Bool
  deriving DecidableEq, Repr, Inhabited

/-- A page that Sluice holds below (18 R366): its leaf entry and contents. -/
structure FarPage where
  asid : Nat
  va : Nat
  size : Nat
  bytes : Memory
  deriving DecidableEq, Repr, Inhabited

/-- An entry of the measurement log (21 R401). -/
structure MLogEnt where
  layer : Nat
  kind : Nat
  version : Nat
  imgid : Nat
  digest : List Byte
  deriving DecidableEq, Repr, Inhabited
/-- An entry of the management event log (21 R406). -/
structure EvLogEnt where
  seq : Nat
  time : Nat
  kind : Nat
  sev : Nat
  data : List Byte
  chain : List Byte
  deriving DecidableEq, Repr, Inhabited
/-- The management side (21 R400 to R407). -/
structure Mgmt where
  copyA : Memory := []                 -- the image copies in flash, as bytes
  copyB : Memory := []
  selB : Bool := false                 -- copy B is selected for the next reset
  runB : Bool := false                 -- copy B runs
  armed : Bool := false                -- UPDARM selected the copy and it has not reached layer 2 yet
  fails : Nat := 0
  keyDigests : List (List Byte) := []
  floor : Nat := 0
  bootCount : Nat := 0
  layer : Nat := 2                     -- the boot layer that runs (log 19)
  mlog : List MLogEnt := []
  m1 : List Byte := []                 -- the digests of the layer images that run, M(1) and M(2)
  m2 : List Byte := []
  evlog : List EvLogEnt := []
  evseq : Nat := 0
  cap : Nat := 2800
  reply : List Byte := []
  clocks : Tbl Nat := []               -- main clock of a throttled compute die, MHz
  causes : Tbl (List Nat) := []        -- the sensors that throttle a compute die: 0 power, then its own (21 R405)
  sensors : Sensors := { compute := [], base := [], hbm := [], watts := 0 }   -- the last readings
  shut : Bool := false
  alive : Bool := true                 -- a valid image copy was found
  deriving DecidableEq, Repr

/-- The device. -/
structure State where
  cur : Agent := .core 0
  lag : Bool := false
  passing : Bool := false    -- the slot's stores may pass what the data stream holds (10 R250, log 57)
  slotCls : Cls := .s        -- the class of the slot that executes (05 R110): it sends a `nop` to its stream
  sel : Nat := 0
  sel2 : Nat := 0
  agenda : List Move := []
  freeCtr : Nat := 0
  cores : Tbl Core := []
  seqs : Tbl SeqUnit := []
  engs : Tbl EngUnit := []
  ctlb : Tbl (List TlbEnt) := []
  ways : Tbl W64 := []
  dspad : Tbl Memory := []
  heaps : Tbl (List Byte) := []
  mem : Memory := []
  stale : Tbl StaleByte := []
  l1d : Tbl (List Nat) := []          -- the lines of each core's L1D
  l2 : List L2Line := []
  l3 : List Nat := []
  dir : Tbl DirEnt := []
  ovtab : Tbl (List Nat) := []
  poison : List Nat := []
  fw : Tbl FmtWin := []
  heaptab : Tbl W64 := []
  swtick : W64 := 1000000
  swdead : W64 := 50
  swgrace : W64 := 200
  mons : Tbl Mon := []
  monq : List MonEvent := []
  roots : Tbl W64 := []
  asidOwner : Tbl Nat := []
  tenants : Tbl (Option Tenant) := []
  nodes : List Node := []
  saved : List Saved := []
  parts : List PartCtl := []
  featacc : Tbl W64 := []
  featlock : Bool := false
  featerr : Bool := false
  mbcmd : BitVec 32 := 0
  mbstat : BitVec 32 := 0
  mbarg : Tbl W64 := []
  mbRefuse : Bool := false           -- the command was issued after a late FEATACC write (03 R61)
  mbBusy : Bool := false             -- the command is under way
  queues : List Queue := []
  helperAt : Tbl Nat := []
  servedNo : Nat := 0
  launches : List Launch := []
  acceptNo : Nat := 0
  signals : Tbl (List Signal) := []
  insts : Tbl (Option Inst) := []
  instNo : Nat := 0
  bindNo : Nat := 0
  net : List (Nat × Nat × Arrival) := []
  loads : List Loaded := []           -- newest first
  was : List Was := []                -- newest first
  posts : List (Nat × Posted) := []   -- posts that the directory, a dispatcher or the front end holds (14 R328)
  feq : List FeWrite := []            -- front-end writes that wait at the directory (13 R296)
  pages : List FarPage := []
  frames : List (Nat × Nat) := []     -- near-memory frames free for Sluice, and their sizes (18 R366)
  unreach : List (Nat × Nat) := []
  raised : List (Nat × Nat) := []     -- unreachable units whose first access has raised 0x0e (03 R84)
  asked : List (Nat × Nat) := []      -- units that gated launches have asked Sluice for, in order (03 R83)
  hostData : List Byte := []
  time : Nat := 0
  hold : Nat := 0
  lastTick : Nat := 0
  mgmt : Mgmt := {}
  deriving DecidableEq, Repr

/-- The whole machine stops only by a management shutdown, which keeps the device in reset until the next power
cycle (21 R405): raised by `step`; safe, nothing is claimed of a machine without a clock. -/
inductive Fault
  | shutDown
  deriving DecidableEq, Repr

/-- Rejections by name. `notModelled` would be raised by an arm of `exec` that has no meaning; no arm has it.
Safe: it claims nothing. -/
inductive Refusal
  | notModelled (mnemonic : String)
  deriving DecidableEq, Repr

/-- The machine right after device reset: node 1 alone is active with an empty tenant set and no resident tenant
(04 R90), every byte and register at its reset value. -/
def State.reset : State :=
  { nodes := [{ n := 1, tset := [], resident := none, requests := [], partReq := none, phase := .steady,
                quiet := [], late := [], judged := false, graced := false, used := false }] }

end Sys2Proof.Machine
end

