-- ==== Sys2Proof/Config.lean ====
section
/-!
DEFINITION. What the part fixes, and the free values: constants with no body, so that no proof sees what they
are. Each is named in the assumption log.
-/
namespace Sys2Proof.Config

/-! ## Free values -/

/-- The schedule past the end of `State.agenda` (log 1). -/
opaque freeMove : Nat → Machine.Move
/-- A choice the spec leaves open, fresh for each count (log 6). -/
opaque freeNat : Nat → Nat
/-- Cycles the acting core's clock advances in a step, less one (log 5). -/
opaque freeCycles : Nat → Nat
/-- Nanoseconds fabric time advances in a step (log 5). -/
opaque freeNanos : Nat → Nat
/-- How many arrivals beyond one the links toward a core hold (log 21). -/
opaque linkRoomExtra : Nat → Nat
/-- The queue key (log 18). -/
opaque queueKey : Nat → List Byte
/-- HMAC-SHA-384 and SHA-384 (log 18). -/
opaque hmac384 : List Byte → List Byte → List Byte
opaque sha384 : List Byte → List Byte
/-- ECDSA P-384: signing under a derived key, verifying, and the public key of a key (log 18). -/
opaque ecdsaSign : List Byte → List Byte → List Byte
opaque ecdsaVerify : List Byte → List Byte → List Byte → Bool
opaque ecdsaPublic : List Byte → List Byte
/-- An X.509 certificate of a public key, signed with a key, in DER (log 18). -/
opaque x509 : List Byte → List Byte → List Byte
/-- The certificate that Quinvos gives a device identity key at manufacture (log 18). -/
opaque identityCert : List Byte → List Byte
/-- The device secret in fuses (log 18). -/
opaque deviceSecret : List Byte
/-- The numeric code of a kind of management log entry, and an answer of the board link (log 19). -/
opaque logKind : Nat → Nat
/-- Which kind of image an identifier names, beyond the layers' (log 19). -/
opaque imageKind : Nat → Nat
opaque spdmReply : List (List Byte) → List Byte
/-- The data bytes and the severity of a kind of management log entry, how a signature fills its entry, and how many
blocks of 256 entries the log holds (log 19). -/
opaque logData : Nat → List Byte
opaque logSev : Nat → Nat
opaque logSig : List Byte → List Byte
opaque logBlocks : Nat

/-- The stepping (21 R408): 0 for the first (log 19). -/
opaque stepping : Nat

/-! ## Amounts (00 R2) -/

def nCores : Nat := 2048
def spadSize : Nat := 0x40000
def dieShare : Nat := 0x100000
def sliceSize : Nat := 0x1000

/-- Depth of `qd`, `qc`, a port direction and a pipe queue (04 R98, R99; 14 R341). -/
def qdDepth : Nat := 16
def qcDepth : Nat := 8
def portDepth : Nat := 4
def pipeDepth : Nat := 16

/-- The physical map (09 R409). -/
def devEnd : Nat := 0xc000000000
def hostBase : Nat := 0x8000000000000
def aliasBase : Nat := 0xf000000000000
def dcrBase : Nat := 0xfff0000000000
def physEnd : Nat := 0x10000000000000

/-- Entries the management log holds (21 R406): at least one block (log 19). -/
def logEntries : Nat := 256 * (logBlocks + 1)

/-- Arrivals the links toward core c hold (14 R328): at least one (log 21). -/
def linkRoom (c : Nat) : Nat := linkRoomExtra c + 1

end Sys2Proof.Config
end

