-- ==== Sys2Proof/WellFormed.lean ====
section
/-!
DEFINITION. What the encoding demands of an instruction's fields beyond their widths (spec 06 R138, R140,
R141, R147 order 3; 07 R173; 08 R195; 11 R279). Every instruction the decoder answers is well formed.
-/
namespace Sys2Proof

/-- System register numbers that R173 assigns. -/
def sysRegAssigned (n : Nat) : Bool :=
  n ≤ 0x009 || n == 0x010 || (0x020 ≤ n && n ≤ 0x026) || (0x030 ≤ n && n ≤ 0x034) ||
  (0x040 ≤ n && n ≤ 0x057) || (0x060 ≤ n && n ≤ 0x062) || (0x070 ≤ n && n ≤ 0x077) ||
  (0x080 ≤ n && n ≤ 0x087)

/-- Numbers whose `mts` is a row of its own in the opcode table. -/
def sysRegSplit (n : Nat) : Bool := n == 0x004 || n == 0x010 || (0x080 ≤ n && n ≤ 0x087)

/-- Bits of a type (R129); `.b4` elements have four. -/
def Ty.width : Ty → Nat
  | .i8 | .n8 | .e4m3 | .e5m2 => 8
  | .i16 | .n16 | .f16 | .bf16 => 16
  | .i32 | .n32 | .f32 => 32
  | .i64 | .n64 | .f64 => 64
  | .b4 => 4

/-- The integer types. -/
def Ty.isInt : Ty → Bool
  | .i8 | .i16 | .i32 | .i64 | .n8 | .n16 | .n32 | .n64 => true
  | _ => false

/-- The eight-bit floating formats. -/
def Ty.isFp8 : Ty → Bool
  | .e4m3 | .e5m2 => true
  | _ => false

/-- Types `tld`, `tst` and `tldq` admit (R279). -/
def Ty.tileOk : Ty → Bool
  | .i64 | .n64 | .f64 => false
  | _ => true

/-- Types `mma` admits (R279). -/
def Ty.mmaOk : Ty → Bool
  | .i8 | .n8 | .f16 | .bf16 | .e4m3 | .e5m2 | .b4 => true
  | _ => false

/-- Types `amov` admits (R279). -/
def Ty.amovOk : Ty → Bool
  | .i64 | .n64 | .f64 | .b4 => false
  | _ => true

/-- The constraints of R195 on a conversion. -/
def vcvtOk (td ts : Ty) (sat : Bool) (part : BitVec 3) : Bool :=
  td != .b4 && ts != .b4 && (!sat || td.isFp8 || (td.isInt && ts.isInt)) &&
  part.toNat < Nat.max td.width ts.width / Nat.min td.width ts.width

/-- The constraints of R140 on the id fields. -/
def EIds.ok (i : EIds) : Bool := (i.v1 || i.p1 == 0) && (i.v2 || i.p2 == 0) && (!i.v2 || i.v1)

/-- The constraints of R141 on a hand-over. -/
def handOk (role rcv : BitVec 4) (lmap : BitVec 16) : Bool :=
  role != 0 && rcv != 0 && rcv != role && lmap != 0

/-- Well-formed instructions: those some encoding stands for; every step of another agent is well formed. -/
def WellFormed : Instr → Bool
  | .mfs _ n => sysRegAssigned n.toNat
  | .mts _ n => sysRegAssigned n.toNat && !sysRegSplit n.toNat
  | .vcvt td ts _ sat part _ _ _ => vcvtOk td ts sat part
  | .tld ty _ _ _ ids => ty.tileOk && ids.ok
  | .tst ty _ _ _ ids => ty.tileOk && ids.ok
  | .tldq ty _ _ _ ids => ty.tileOk && ids.ok
  | .tzero _ ids => ids.ok
  | .azero _ ids => ids.ok
  | .ast _ _ _ ids => ids.ok
  | .ald _ _ _ ids => ids.ok
  | .mma ty _ _ _ _ _ _ _ ids => ty.mmaOk && ids.ok
  | .amov ty sat _ _ _ ids => ty.amovOk && (!sat || ty.isFp8) && ids.ok
  | .hand role rcv _ _ lmap => handOk role rcv lmap
  | _ => true

end Sys2Proof
end

