-- ==== Sys2Proof/Decode.lean ====
section
/-!
DEFINITION. Instruction words and instructions (spec 06): the decoder, total, rejecting by name, and the
encoder, both written from the encoding tables of R127 to R146. A rejection is the illegal-instruction
fault of R147 orders 1 to 3.
-/
namespace Sys2Proof

/-- Why a slot's bits are no instruction (06 R147 orders 1 to 3). -/
inductive Reject
  | classNotAdmitted
  | unassignedOpcode
  | badFunction
  | reservedField
  | badType
  | badRounding
  | badScope
  | badModifier
  | badImmediate
  | badForm
  deriving DecidableEq, Repr

/-! ## Fields -/

/-- The common frame of R127 over a 54-bit remainder. -/
def pkH (role : BitVec 4) (opc : BitVec 8) (fn : BitVec 6) (d a : Reg) (low : BitVec 54) : Word96 :=
  role ++ opc ++ fn ++ d ++ a ++ low

def fRole (w : Word96) : BitVec 4 := w.extractLsb' 92 4
def fOpc (w : Word96) : BitVec 8 := w.extractLsb' 84 8
def fFn (w : Word96) : BitVec 6 := w.extractLsb' 78 6
def fD (w : Word96) : Reg := w.extractLsb' 66 12
def fA (w : Word96) : Reg := w.extractLsb' 54 12
def fLow (w : Word96) : BitVec 54 := w.extractLsb' 0 54

/-- The R form's remainder (R127, R128). -/
def pkR (b c m : Reg) (rm : BitVec 3) (ty ty2 : BitVec 4) (sc : BitVec 3) (fl : BitVec 4) : BitVec 54 :=
  b ++ c ++ m ++ rm ++ ty ++ ty2 ++ sc ++ fl

def rB (x : BitVec 54) : Reg := x.extractLsb' 42 12
def rC (x : BitVec 54) : Reg := x.extractLsb' 30 12
def rM (x : BitVec 54) : Reg := x.extractLsb' 18 12
def rRm (x : BitVec 54) : BitVec 3 := x.extractLsb' 15 3
def rTy (x : BitVec 54) : BitVec 4 := x.extractLsb' 11 4
def rTy2 (x : BitVec 54) : BitVec 4 := x.extractLsb' 7 4
def rSc (x : BitVec 54) : BitVec 3 := x.extractLsb' 4 3
def rFl (x : BitVec 54) : BitVec 4 := x.extractLsb' 0 4

/-- The K form's remainder (R137). -/
def pkK (kw : BitVec 3) (ko : BitVec 17) (z : BitVec 4) (m : Reg) (rm : BitVec 3) (ty ty2 : BitVec 4)
    (sc : BitVec 3) (fl : BitVec 4) : BitVec 54 :=
  kw ++ ko ++ z ++ m ++ rm ++ ty ++ ty2 ++ sc ++ fl

def kKw (x : BitVec 54) : BitVec 3 := x.extractLsb' 51 3
def kKo (x : BitVec 54) : BitVec 17 := x.extractLsb' 34 17
def kZ (x : BitVec 54) : BitVec 4 := x.extractLsb' 30 4

/-- The J form's remainder (R139). -/
def pkJ (b : Reg) (z : BitVec 1) (off : BitVec 41) : BitVec 54 := b ++ z ++ off
def jZ (x : BitVec 54) : BitVec 1 := x.extractLsb' 41 1
def jOff (x : BitVec 54) : BitVec 41 := x.extractLsb' 0 41

/-- The E form's remainder (R140). -/
def pkE (b : Reg) (cid p1 p2 : BitVec 6) (v1 v2 : BitVec 1) (z1 : BitVec 7) (ty : BitVec 4) (z2 : BitVec 7)
    (fl : BitVec 4) : BitVec 54 :=
  b ++ cid ++ p1 ++ p2 ++ v1 ++ v2 ++ z1 ++ ty ++ z2 ++ fl
def eCid (x : BitVec 54) : BitVec 6 := x.extractLsb' 36 6
def eP1 (x : BitVec 54) : BitVec 6 := x.extractLsb' 30 6
def eP2 (x : BitVec 54) : BitVec 6 := x.extractLsb' 24 6
def eV1 (x : BitVec 54) : BitVec 1 := x.extractLsb' 23 1
def eV2 (x : BitVec 54) : BitVec 1 := x.extractLsb' 22 1
def eZ1 (x : BitVec 54) : BitVec 7 := x.extractLsb' 15 7
def eZ2 (x : BitVec 54) : BitVec 7 := x.extractLsb' 4 7

/-- The H form's remainder (R141). -/
def pkHand (rcv : BitVec 4) (pipe : BitVec 3) (z1 : BitVec 1) (lmap : BitVec 16) (z2 : BitVec 30) : BitVec 54 :=
  rcv ++ pipe ++ z1 ++ lmap ++ z2
def hRcv (x : BitVec 54) : BitVec 4 := x.extractLsb' 50 4
def hPipe (x : BitVec 54) : BitVec 3 := x.extractLsb' 47 3
def hZ1 (x : BitVec 54) : BitVec 1 := x.extractLsb' 46 1
def hLmap (x : BitVec 54) : BitVec 16 := x.extractLsb' 30 16
def hZ2 (x : BitVec 54) : BitVec 30 := x.extractLsb' 0 30

/-- The subfields of I-form immediates (R138; 07 R170, R172; 10 R255; 14 R322). -/
def pkVec (m : Reg) (ofs : BitVec 42) : BitVec 54 := m ++ ofs
def iM (x : BitVec 54) : Reg := x.extractLsb' 42 12
def iOfs (x : BitVec 54) : BitVec 42 := x.extractLsb' 0 42
def pkAcq (sp : BitVec 2) (ofs : BitVec 52) : BitVec 54 := sp ++ ofs
def iSp (x : BitVec 54) : BitVec 2 := x.extractLsb' 52 2
def iOfs52 (x : BitVec 54) : BitVec 52 := x.extractLsb' 0 52
def pkWini (z : BitVec 20) (delta : BitVec 22) (size : BitVec 12) : BitVec 54 := z ++ delta ++ size
def iZ20 (x : BitVec 54) : BitVec 20 := x.extractLsb' 34 20
def iDelta (x : BitVec 54) : BitVec 22 := x.extractLsb' 12 22
def iNum (x : BitVec 54) : BitVec 12 := x.extractLsb' 0 12
def pkNum (z : BitVec 42) (num : BitVec 12) : BitVec 54 := z ++ num
def iZ42 (x : BitVec 54) : BitVec 42 := x.extractLsb' 12 42
def pkSh (z : BitVec 48) (sh : BitVec 6) : BitVec 54 := z ++ sh
def iZ48 (x : BitVec 54) : BitVec 48 := x.extractLsb' 6 48
def iSh (x : BitVec 54) : BitVec 6 := x.extractLsb' 0 6
def pkLih (z : BitVec 22) (v : BitVec 32) : BitVec 54 := z ++ v
def iZ22 (x : BitVec 54) : BitVec 22 := x.extractLsb' 32 22
def iV32 (x : BitVec 54) : BitVec 32 := x.extractLsb' 0 32

/-! ## Codes (R129, R130, R146, 02 R49, 09 R210) -/

def IntTy.code : IntTy → BitVec 4
  | .i8 => 0 | .i16 => 1 | .i32 => 2 | .i64 => 3 | .n8 => 4 | .n16 => 5 | .n32 => 6 | .n64 => 7
def intTy? (c : BitVec 4) : Option IntTy :=
  match c.toNat with
  | 0 => some .i8 | 1 => some .i16 | 2 => some .i32 | 3 => some .i64
  | 4 => some .n8 | 5 => some .n16 | 6 => some .n32 | 7 => some .n64 | _ => none
def FpTy.code : FpTy → BitVec 4
  | .f32 => 0xa | .f64 => 0xb
def fpTy? (c : BitVec 4) : Option FpTy :=
  match c.toNat with
  | 0xa => some .f32 | 0xb => some .f64 | _ => none
def Ty.code : Ty → BitVec 4
  | .i8 => 0 | .i16 => 1 | .i32 => 2 | .i64 => 3 | .n8 => 4 | .n16 => 5 | .n32 => 6 | .n64 => 7
  | .f16 => 8 | .bf16 => 9 | .f32 => 0xa | .f64 => 0xb | .e4m3 => 0xc | .e5m2 => 0xd | .b4 => 0xe
def ty? (c : BitVec 4) : Option Ty :=
  match c.toNat with
  | 0 => some .i8 | 1 => some .i16 | 2 => some .i32 | 3 => some .i64
  | 4 => some .n8 | 5 => some .n16 | 6 => some .n32 | 7 => some .n64
  | 8 => some .f16 | 9 => some .bf16 | 0xa => some .f32 | 0xb => some .f64
  | 0xc => some .e4m3 | 0xd => some .e5m2 | 0xe => some .b4 | _ => none
def AmoTy.code : AmoTy → BitVec 4
  | .i32 => 2 | .i64 => 3 | .n32 => 6 | .n64 => 7
def amoTy? (c : BitVec 4) : Option AmoTy :=
  match c.toNat with
  | 2 => some .i32 | 3 => some .i64 | 6 => some .n32 | 7 => some .n64 | _ => none
def RmF.code : RmF → BitVec 3
  | .rne => 0 | .rtz => 1 | .rdn => 2 | .rup => 3 | .rmm => 4 | .dyn => 7
def rmF? (c : BitVec 3) : Option RmF :=
  match c.toNat with
  | 0 => some .rne | 1 => some .rtz | 2 => some .rdn | 3 => some .rup | 4 => some .rmm | 7 => some .dyn
  | _ => none
def Cc.code : Cc → BitVec 6
  | .eq => 0 | .ne => 1 | .lt => 2 | .ge => 3
def cc? (c : BitVec 6) : Option Cc :=
  match c.toNat with
  | 0 => some .eq | 1 => some .ne | 2 => some .lt | 3 => some .ge | _ => none
def CcI.code : CcI → BitVec 6
  | .eq => 0 | .ne => 1 | .lt => 2 | .ge => 3 | .ltn => 4 | .gen => 5
def ccI? (c : BitVec 6) : Option CcI :=
  match c.toNat with
  | 0 => some .eq | 1 => some .ne | 2 => some .lt | 3 => some .ge | 4 => some .ltn | 5 => some .gen | _ => none
def CcF.code : CcF → BitVec 6
  | .eq => 0 | .ne => 1 | .lt => 2 | .ge => 3 | .un => 6
def ccF? (c : BitVec 6) : Option CcF :=
  match c.toNat with
  | 0 => some .eq | 1 => some .ne | 2 => some .lt | 3 => some .ge | 6 => some .un | _ => none
def LdW.code : LdW → BitVec 3
  | .i8 => 0 | .i16 => 1 | .i32 => 2 | .i64 => 3 | .n8 => 4 | .n16 => 5 | .n32 => 6
def ldW? (c : BitVec 3) : Option LdW :=
  match c.toNat with
  | 0 => some .i8 | 1 => some .i16 | 2 => some .i32 | 3 => some .i64
  | 4 => some .n8 | 5 => some .n16 | 6 => some .n32 | _ => none
def StW.code : StW → BitVec 2
  | .b8 => 0 | .b16 => 1 | .b32 => 2 | .b64 => 3
def stW (c : BitVec 2) : StW :=
  match c.toNat with
  | 0 => .b8 | 1 => .b16 | 2 => .b32 | _ => .b64
def Scope.code : Scope → BitVec 3
  | .core => 0 | .row => 1 | .clu => 2 | .dev => 3 | .sys => 4
def scope? (c : BitVec 3) : Option Scope :=
  match c.toNat with
  | 0 => some .core | 1 => some .row | 2 => some .clu | 3 => some .dev | 4 => some .sys | _ => none
def Space.code : Space → BitVec 2
  | .mem => 0 | .spad => 1 | .clu => 2 | .die => 3
def space (c : BitVec 2) : Space :=
  match c.toNat with
  | 0 => .mem | 1 => .spad | 2 => .clu | _ => .die
def Level.code : Level → BitVec 2
  | .l1 => 0 | .l2 => 1 | .l3 => 2
def level? (c : BitVec 2) : Option Level :=
  match c.toNat with
  | 0 => some .l1 | 1 => some .l2 | 2 => some .l3 | _ => none
def FenceKind.code : FenceKind → BitVec 6
  | .all => 0 | .ld => 1 | .st => 2
def fenceKind? (c : BitVec 6) : Option FenceKind :=
  match c.toNat with
  | 0 => some .all | 1 => some .ld | 2 => some .st | _ => none
def AmoOp.code : AmoOp → BitVec 6
  | .add => 0 | .and => 1 | .or => 2 | .xor => 3 | .min => 4 | .max => 5 | .swap => 6
def amoOp? (c : BitVec 6) : Option AmoOp :=
  match c.toNat with
  | 0 => some .add | 1 => some .and | 2 => some .or | 3 => some .xor
  | 4 => some .min | 5 => some .max | 6 => some .swap | _ => none
def QSel.code : QSel → BitVec 6
  | .qd => 0 | .qc => 1 | .mn => 2 | .me => 3 | .ms => 4 | .mw => 5
def qsel? (c : BitVec 6) : Option QSel :=
  match c.toNat with
  | 0 => some .qd | 1 => some .qc | 2 => some .mn | 3 => some .me | 4 => some .ms | 5 => some .mw | _ => none
def SgnOp.code : SgnOp → BitVec 6
  | .copy => 0 | .ncopy => 1 | .xor => 2
def sgnOp? (c : BitVec 6) : Option SgnOp :=
  match c.toNat with
  | 0 => some .copy | 1 => some .ncopy | 2 => some .xor | _ => none
def n64Code (n : Bool) : BitVec 4 := if n then 7 else 3
/-- `.i64` or `.n64` only. -/
def n64? (c : BitVec 4) : Option Bool :=
  match c.toNat with
  | 3 => some false | 7 => some true | _ => none
def absW? (c : BitVec 4) : Option StW :=
  match c.toNat with
  | 0 => some .b8 | 1 => some .b16 | 2 => some .b32 | 3 => some .b64 | _ => none
def absCode (w : StW) : BitVec 4 := w.code.setWidth 4
def bit1 (b : Bool) : BitVec 1 := if b then 1 else 0

/-! ## Decoding -/

/-- Continue when the condition holds, else reject. -/
def need (c : Bool) (e : Reject) (k : Except Reject Instr) : Except Reject Instr := if c then k else .error e
/-- Continue with the decoded value, else reject. -/
def want {α : Type} (o : Option α) (e : Reject) (k : α → Except Reject Instr) : Except Reject Instr :=
  match o with
  | some x => k x
  | none => .error e

/-- Which fields of the R or K form an instruction uses; every other must be zero (R128, R131). -/
structure Use where
  d : Bool := false
  a : Bool := false
  b : Bool := false
  c : Bool := false
  m : Bool := false
  rm : Bool := false
  ty : Bool := false
  ty2 : Bool := false
  sc : Bool := false
  fl : Bool := false

/-- The unused fields of an R-form word are zero. -/
def okR (u : Use) (w : Word96) : Bool :=
  let x := fLow w
  (u.d || fD w == 0) && (u.a || fA w == 0) && (u.b || rB x == 0) && (u.c || rC x == 0) && (u.m || rM x == 0) &&
  (u.rm || rRm x == 0) && (u.ty || rTy x == 0) && (u.ty2 || rTy2 x == 0) && (u.sc || rSc x == 0) &&
  (u.fl || rFl x == 0)

/-- The unused fields of a K-form word are zero (R137). -/
def okK (u : Use) (w : Word96) : Bool :=
  let x := fLow w
  (u.d || fD w == 0) && (u.a || fA w == 0) && (kZ x == 0) && (u.m || rM x == 0) &&
  (u.rm || rRm x == 0) && (u.ty || rTy x == 0) && (u.ty2 || rTy2 x == 0) && (u.sc || rSc x == 0) &&
  (u.fl || rFl x == 0)

def fn0 (w : Word96) (k : Except Reject Instr) : Except Reject Instr := need (fFn w == 0) .badFunction k
def useR (u : Use) (w : Word96) (k : Except Reject Instr) : Except Reject Instr := need (okR u w) .reservedField k
def useK (u : Use) (w : Word96) (k : Except Reject Instr) : Except Reject Instr := need (okK u w) .reservedField k

/-- `op.ty D, A, B` of rows 0x0 and 0x1 (07 R154). -/
def pInt3 (k : IntTy → Reg → Reg → Reg → Instr) (w : Word96) : Except Reject Instr :=
  fn0 w <| useR { d := true, a := true, b := true, ty := true } w <|
  want (intTy? (rTy (fLow w))) .badType fun ty => .ok (k ty (fD w) (fA w) (rB (fLow w)))
/-- `op.ty D, A`. -/
def pInt2 (k : IntTy → Reg → Reg → Instr) (w : Word96) : Except Reject Instr :=
  fn0 w <| useR { d := true, a := true, ty := true } w <|
  want (intTy? (rTy (fLow w))) .badType fun ty => .ok (k ty (fD w) (fA w))
/-- R-form operands only, no TAIL. -/
def pR (u : Use) (k : Reg → Reg → Reg → Reg → Instr) (w : Word96) : Except Reject Instr :=
  useR u w <| .ok (k (fD w) (fA w) (rB (fLow w)) (rC (fLow w)))
/-- I form with the whole immediate (R138). -/
def pI (useD useA : Bool) (k : Reg → Reg → BitVec 54 → Instr) (w : Word96) : Except Reject Instr :=
  fn0 w <| need ((useD || fD w == 0) && (useA || fA w == 0)) .reservedField <|
  .ok (k (fD w) (fA w) (fLow w))
/-- I form with a shift amount 0 to 63 (07 R163). -/
def pSh (k : Reg → Reg → BitVec 6 → Instr) (w : Word96) : Except Reject Instr :=
  fn0 w <| need (iZ48 (fLow w) == 0) .badImmediate <| .ok (k (fD w) (fA w) (iSh (fLow w)))
/-- J form (R139). -/
def pJ (useD useA useB : Bool) (k : BitVec 3 → Reg → Reg → Reg → BitVec 41 → Instr) (w : Word96) :
    Except Reject Instr :=
  need ((fFn w).extractLsb' 3 3 == 0 && jZ (fLow w) == 0 && (useD || fD w == 0) && (useA || fA w == 0) &&
    (useB || rB (fLow w) == 0)) .reservedField <|
  .ok (k ((fFn w).extractLsb' 0 3) (fD w) (fA w) (rB (fLow w)) (jOff (fLow w)))
/-- I-form scalar load: FN is the width. -/
def pLd (k : LdW → Reg → Reg → BitVec 54 → Instr) (w : Word96) : Except Reject Instr :=
  need ((fFn w).extractLsb' 3 3 == 0) .badFunction <|
  want (ldW? ((fFn w).extractLsb' 0 3)) .badFunction fun lw => .ok (k lw (fD w) (fA w) (fLow w))
/-- I-form scalar store. -/
def pSt (k : StW → Reg → Reg → BitVec 54 → Instr) (w : Word96) : Except Reject Instr :=
  need ((fFn w).extractLsb' 2 4 == 0) .badFunction <|
  .ok (k (stW ((fFn w).extractLsb' 0 2)) (fD w) (fA w) (fLow w))
/-- I-form vector access (10 R255). -/
def pVec (k : Reg → Reg → Reg → BitVec 42 → Instr) (w : Word96) : Except Reject Instr :=
  fn0 w <| .ok (k (fD w) (fA w) (iM (fLow w)) (iOfs (fLow w)))
/-- R-form vector access or whole-lane move with a mask. -/
def pVr (k : Reg → Reg → Reg → Reg → Instr) (w : Word96) : Except Reject Instr :=
  fn0 w <| useR { d := true, a := true, b := true, m := true } w <|
  .ok (k (fD w) (fA w) (rB (fLow w)) (rM (fLow w)))
/-- `op.ty D, A, B ?m` over integers (08 R186). -/
def pVi (k : IntTy → Reg → Reg → Reg → Reg → Instr) (w : Word96) : Except Reject Instr :=
  fn0 w <| useR { d := true, a := true, b := true, m := true, ty := true } w <|
  want (intTy? (rTy (fLow w))) .badType fun ty => .ok (k ty (fD w) (fA w) (rB (fLow w)) (rM (fLow w)))
/-- As `pVi`, with `.sat` in FLAGS[0]. -/
def pVis (k : Bool → IntTy → Reg → Reg → Reg → Reg → Instr) (w : Word96) : Except Reject Instr :=
  fn0 w <| useR { d := true, a := true, b := true, m := true, ty := true, fl := true } w <|
  need ((rFl (fLow w)).extractLsb' 1 3 == 0) .badModifier <|
  want (intTy? (rTy (fLow w))) .badType fun ty =>
  .ok (k ((rFl (fLow w)).getLsbD 0) ty (fD w) (fA w) (rB (fLow w)) (rM (fLow w)))
/-- `op.ty D, A ?m` over integers. -/
def pVi2 (k : IntTy → Reg → Reg → Reg → Instr) (w : Word96) : Except Reject Instr :=
  fn0 w <| useR { d := true, a := true, m := true, ty := true } w <|
  want (intTy? (rTy (fLow w))) .badType fun ty => .ok (k ty (fD w) (fA w) (rM (fLow w)))
/-- Floating `op.ty D, A, B ?m` that rounds (08 R190). -/
def pF3r (k : FpTy → RmF → Reg → Reg → Reg → Reg → Instr) (w : Word96) : Except Reject Instr :=
  fn0 w <| useR { d := true, a := true, b := true, m := true, ty := true, rm := true } w <|
  want (fpTy? (rTy (fLow w))) .badType fun ty => want (rmF? (rRm (fLow w))) .badRounding fun rm =>
  .ok (k ty rm (fD w) (fA w) (rB (fLow w)) (rM (fLow w)))
def pF2r (k : FpTy → RmF → Reg → Reg → Reg → Instr) (w : Word96) : Except Reject Instr :=
  fn0 w <| useR { d := true, a := true, m := true, ty := true, rm := true } w <|
  want (fpTy? (rTy (fLow w))) .badType fun ty => want (rmF? (rRm (fLow w))) .badRounding fun rm =>
  .ok (k ty rm (fD w) (fA w) (rM (fLow w)))
def pF3 (k : FpTy → Reg → Reg → Reg → Reg → Instr) (w : Word96) : Except Reject Instr :=
  fn0 w <| useR { d := true, a := true, b := true, m := true, ty := true } w <|
  want (fpTy? (rTy (fLow w))) .badType fun ty => .ok (k ty (fD w) (fA w) (rB (fLow w)) (rM (fLow w)))
def pF2 (k : FpTy → Reg → Reg → Reg → Instr) (w : Word96) : Except Reject Instr :=
  fn0 w <| useR { d := true, a := true, m := true, ty := true } w <|
  want (fpTy? (rTy (fLow w))) .badType fun ty => .ok (k ty (fD w) (fA w) (rM (fLow w)))
def pFma (k : FpTy → RmF → Reg → Reg → Reg → Reg → Reg → Instr) (w : Word96) : Except Reject Instr :=
  fn0 w <| useR { d := true, a := true, b := true, c := true, m := true, ty := true, rm := true } w <|
  want (fpTy? (rTy (fLow w))) .badType fun ty => want (rmF? (rRm (fLow w))) .badRounding fun rm =>
  .ok (k ty rm (fD w) (fA w) (rB (fLow w)) (rC (fLow w)) (rM (fLow w)))
/-- K-form floating (08 R197). -/
def pFk (k : FpTy → RmF → Reg → Reg → Reg → BitVec 3 → BitVec 17 → Instr) (w : Word96) : Except Reject Instr :=
  fn0 w <| useK { d := true, a := true, m := true, ty := true, rm := true } w <|
  want (fpTy? (rTy (fLow w))) .badType fun ty => want (rmF? (rRm (fLow w))) .badRounding fun rm =>
  .ok (k ty rm (fD w) (fA w) (rM (fLow w)) (kKw (fLow w)) (kKo (fLow w)))
def pIk (k : IntTy → Reg → Reg → Reg → BitVec 3 → BitVec 17 → Instr) (w : Word96) : Except Reject Instr :=
  fn0 w <| useK { d := true, a := true, m := true, ty := true } w <|
  want (intTy? (rTy (fLow w))) .badType fun ty =>
  .ok (k ty (fD w) (fA w) (rM (fLow w)) (kKw (fLow w)) (kKo (fLow w)))
/-- The id fields (R140). -/
def idsOf (w : Word96) : EIds :=
  { cid := eCid (fLow w), p1 := eP1 (fLow w), p2 := eP2 (fLow w),
    v1 := eV1 (fLow w) == 1, v2 := eV2 (fLow w) == 1 }
/-- E form: which of A, B, TY and FLAGS are used. -/
def pE (useA useB useTy : Bool) (flMask : BitVec 4) (k : Word96 → Except Reject Instr) (w : Word96) :
    Except Reject Instr :=
  fn0 w <| need (eZ1 (fLow w) == 0 && eZ2 (fLow w) == 0 && (useA || fA w == 0) && (useB || rB (fLow w) == 0) &&
    (useTy || rTy (fLow w) == 0) && (rFl (fLow w) &&& ~~~ flMask) == 0) .reservedField <|
  need (idsOf w).ok .badForm <| k w

def decRow0 (col : Nat) (w : Word96) : Except Reject Instr :=
  match col with
  | 1 => fn0 w <| pR {} (fun _ _ _ _ => .nop) w
  | 2 => pInt3 .add w
  | 3 => pInt3 .sub w
  | 4 => pInt3 .mul w
  | 5 => pInt3 .mulh w
  | 6 => pInt3 .div w
  | 7 => pInt3 .rem w
  | 8 => pInt3 .and w
  | 9 => pInt3 .or w
  | 10 => pInt3 .xor w
  | 11 => pInt3 .shl w
  | 12 => pInt3 .shr w
  | 13 => pInt3 .rotr w
  | 14 => pInt3 .min w
  | 15 => pInt3 .max w
  | _ => .error .unassignedOpcode

def decRow1 (col : Nat) (w : Word96) : Except Reject Instr :=
  match col with
  | 0 => useR { d := true, a := true, b := true, ty := true } w <|
      want (cc? (fFn w)) .badFunction fun cc => want (intTy? (rTy (fLow w))) .badType fun ty =>
      .ok (.cmp cc ty (fD w) (fA w) (rB (fLow w)))
  | 1 => fn0 w <| useR { d := true, a := true, b := true, c := true, ty := true } w <|
      want (n64? (rTy (fLow w))) .badType fun n => .ok (.sel n (fD w) (fA w) (rB (fLow w)) (rC (fLow w)))
  | 2 => fn0 w <| useR { d := true, a := true, ty := true } w <|
      want (n64? (rTy (fLow w))) .badType fun n => .ok (.mov n (fD w) (fA w))
  | 3 => fn0 w <| useR { d := true, a := true, b := true, c := true, ty := true } w <|
      want (n64? (rTy (fLow w))) .badType fun n => .ok (.bext n (fD w) (fA w) (rB (fLow w)) (rC (fLow w)))
  | 4 => fn0 w <| useR { d := true, a := true, b := true, c := true, ty := true } w <|
      need (rTy (fLow w) == 3) .badType <| .ok (.bins (fD w) (fA w) (rB (fLow w)) (rC (fLow w)))
  | 5 => pInt2 .clz w
  | 6 => pInt2 .ctz w
  | 7 => pInt2 .popc w
  | 8 => pInt2 .brev w
  | 9 => pInt2 .bswap w
  | 10 => fn0 w <| useR { d := true, a := true, b := true, ty := true, fl := true } w <|
      need (rTy (fLow w) == 3) .badType <| need ((rFl (fLow w)).extractLsb' 2 2 == 0) .badModifier <|
      .ok (.adda ((rFl (fLow w)).extractLsb' 0 2) (fD w) (fA w) (rB (fLow w)))
  | 11 => fn0 w <| useR { d := true, a := true, b := true, c := true, ty := true } w <|
      want (intTy? (rTy (fLow w))) .badType fun ty => .ok (.madd ty (fD w) (fA w) (rB (fLow w)) (rC (fLow w)))
  | 12 => pInt2 .sext w
  | 13 => pInt2 .zext w
  | 14 => fn0 w <| useK { d := true, a := true, ty := true } w <|
      want (n64? (rTy (fLow w))) .badType fun n => .ok (.addk n (fD w) (fA w) (kKw (fLow w)) (kKo (fLow w)))
  | 15 => fn0 w <| useK { d := true, ty := true } w <|
      want (n64? (rTy (fLow w))) .badType fun n => .ok (.movk n (fD w) (kKw (fLow w)) (kKo (fLow w)))
  | _ => .error .unassignedOpcode

def decRow2 (col : Nat) (w : Word96) : Except Reject Instr :=
  match col with
  | 0 => pI true false (fun d _ i => .li d i) w
  | 1 => pI true true .addi w
  | 2 => pI true true .andi w
  | 3 => pI true true .ori w
  | 4 => pI true true .xori w
  | 5 => pSh .shli w
  | 6 => pSh .shri w
  | 7 => pSh .srai w
  | 8 => want (ccI? (fFn w)) .badFunction fun cc => .ok (.cmpi cc (fD w) (fA w) (fLow w))
  | 9 => fn0 w <| need (iZ22 (fLow w) == 0) .badImmediate <| .ok (.lih (fD w) (fA w) (iV32 (fLow w)))
  | 10 => pI true true .muli w
  | 11 => pI true true .maxi w
  | 12 => pI true false (fun d _ i => .lpc d i) w
  | 13 => pI true true .mini w
  | _ => .error .unassignedOpcode

def decRow3 (col : Nat) (w : Word96) : Except Reject Instr :=
  match col with
  | 0 => pJ false true true (fun s _ a b o => .beq s a b o) w
  | 1 => pJ false true true (fun s _ a b o => .bne s a b o) w
  | 2 => pJ false true true (fun s _ a b o => .blt s a b o) w
  | 3 => pJ false true true (fun s _ a b o => .bge s a b o) w
  | 4 => pJ false true true (fun s _ a b o => .bltn s a b o) w
  | 5 => pJ false true true (fun s _ a b o => .bgen s a b o) w
  | 6 => pJ false false false (fun s _ _ _ o => .j s o) w
  | 7 => pJ true false false (fun s d _ _ o => .call s d o) w
  | 8 => fn0 w <| pR { a := true } (fun _ a _ _ => .jr a) w
  | 9 => fn0 w <| pR { d := true, a := true } (fun d a _ _ => .callr d a) w
  | 10 => fn0 w <| pR { a := true } (fun _ a _ _ => .ret a) w
  | _ => .error .unassignedOpcode

/-- `mts` by register number: the rows the table splits off, and the rest (07 R173). -/
def decMts (a : Reg) (n : BitVec 12) : Except Reject Instr :=
  if n == 0x004 then .ok (.mtsRbb a)
  else if n == 0x010 then .ok (.mtsFcsr a)
  else if 0x080 ≤ n.toNat && n.toNat ≤ 0x087 then .ok (.mtsCodeimg a (n.extractLsb' 0 3))
  else need (sysRegAssigned n.toNat) .badImmediate <| .ok (.mts a n)

def decRow4 (col : Nat) (w : Word96) : Except Reject Instr :=
  match col with
  | 0 => fn0 w <| pR { a := true, b := true } (fun _ a b _ => .win a b) w
  | 1 => fn0 w <| need (fD w == 0 && fA w == 0) .reservedField <| need (iZ20 (fLow w) == 0) .badImmediate <|
      .ok (.wini (iDelta (fLow w)) (iNum (fLow w)))
  | 2 =>
      if fFn w == 0 then pR { d := true } (fun d _ _ _ => .winqBase d) w
      else need (fFn w == 1) .badFunction <| pR { d := true } (fun d _ _ _ => .winqSize d) w
  | 3 => fn0 w <| need (fA w == 0) .reservedField <|
      need (iZ42 (fLow w) == 0 && sysRegAssigned (iNum (fLow w)).toNat) .badImmediate <|
      .ok (.mfs (fD w) (iNum (fLow w)))
  | 4 => fn0 w <| need (fD w == 0) .reservedField <| need (iZ42 (fLow w) == 0) .badImmediate <|
      decMts (fA w) (iNum (fLow w))
  | 5 => fn0 w <| pR { d := true, a := true, b := true } (fun d a b _ => .wlt d a b) w
  | 6 => want (qsel? (fFn w)) .badFunction fun q => pR { d := true } (fun d _ _ _ => .qstat d q) w
  | _ => .error .unassignedOpcode

def decRow5 (col : Nat) (w : Word96) : Except Reject Instr :=
  match col with
  | 0 => pLd .ld w
  | 1 => pSt .st w
  | 2 => pInt3 .ldx w
  | 3 => pInt3 .stx w
  | 4 => need ((fFn w).extractLsb' 2 4 == 0) .badFunction <|
      want (level? ((fFn w).extractLsb' 0 2)) .badFunction fun lv =>
      need (fD w == 0) .reservedField <| .ok (.pref lv (fA w) (fLow w))
  | 5 => need ((fFn w).extractLsb' 4 2 == 0) .badFunction <|
      want (level? ((fFn w).extractLsb' 2 2)) .badFunction fun lv =>
      match ((fFn w).extractLsb' 0 2).toNat with
      | 0 => pR { a := true } (fun _ a _ _ => .cmoClean lv a) w
      | 1 => pR { a := true } (fun _ a _ _ => .cmoInval lv a) w
      | 2 => pR { a := true } (fun _ a _ _ => .cmoFlush lv a) w
      | _ => .error .badFunction
  | 6 => pLd .lds w
  | 7 => pSt .sts w
  | 8 => pLd .ldc w
  | 9 => pSt .stc w
  | 10 => pLd .ldd w
  | 11 => pSt .std w
  | _ => .error .unassignedOpcode

def decRow6 (col : Nat) (w : Word96) : Except Reject Instr :=
  match col with
  | 0 => pVec .vld w
  | 1 => pVec .vst w
  | 2 => pVr .vlds w
  | 3 => pVr .vsts w
  | 4 => pVr .vgat w
  | 5 => pVr .vsct w
  | 6 => pVr .ldl w
  | 7 => pVr .stl w
  | 8 => pVec .vlsp w
  | 9 => pVec .vssp w
  | 10 => pVec .vlcl w
  | 11 => pVec .vscl w
  | 12 => pVec .vldd w
  | 13 => pVec .vstd w
  | _ => .error .unassignedOpcode

def decRow7 (col : Nat) (w : Word96) : Except Reject Instr :=
  let fl := rFl (fLow w)
  match col with
  | 0 => fn0 w <| useR { d := true, a := true, b := true, c := true, fl := true } w <|
      .ok (.send (fD w) (fA w) (rB (fLow w)) (rC (fLow w)) (space (fl.extractLsb' 0 2)) (space (fl.extractLsb' 2 2)))
  | 1 => fn0 w <| useR { d := true, a := true, b := true, c := true, fl := true } w <|
      .ok (.sendb (fD w) (fA w) (rB (fLow w)) (rC (fLow w)) (space (fl.extractLsb' 0 2)) (space (fl.extractLsb' 2 2)))
  | 2 =>
      match (fFn w).toNat with
      | 0 => pR { d := true, a := true, b := true } (fun d a b _ => .chctlOpen d a b) w
      | 1 => pR { d := true } (fun d _ _ _ => .chctlClose d) w
      | 2 => pR { d := true } (fun d _ _ _ => .chctlReset d) w
      | _ => .error .badFunction
  | 3 => fn0 w <| pR { d := true, a := true, b := true } (fun d a b _ => .cwait d a b) w
  | 4 => fn0 w <| useR { d := true, a := true, fl := true } w <| need (fl.extractLsb' 1 3 == 0) .badModifier <|
      .ok (.crpop (fD w) (fA w) (fl.getLsbD 0))
  | 5 => fn0 w <| useR { a := true, fl := true } w <| need (fl.extractLsb' 2 2 == 0) .badModifier <|
      .ok (.seal (fA w) (space (fl.extractLsb' 0 2)))
  | 6 => fn0 w <| useR { d := true, a := true, fl := true } w <| need (fl.extractLsb' 1 3 == 0) .badModifier <|
      .ok (.alloc (fD w) (fA w) (fl.getLsbD 0))
  | 7 => fn0 w <| pR { a := true } (fun _ a _ _ => .free a) w
  | 8 => fn0 w <| pR { d := true, a := true } (fun d a _ _ => .chq d a) w
  | _ => .error .unassignedOpcode

def decRow8 (col : Nat) (w : Word96) : Except Reject Instr :=
  match col with
  | 0 => pVis .vadd w
  | 1 => pVis .vsub w
  | 2 => pVi .vmul w
  | 3 => pVi .vmulh w
  | 4 => pVi .vdiv w
  | 5 => pVi .vrem w
  | 6 => pVi .vand w
  | 7 => pVi .vor w
  | 8 => pVi .vxor w
  | 9 => pVi .vshl w
  | 10 => pVi .vshr w
  | 11 => pVi .vmin w
  | 12 => pVi .vmax w
  | 13 => useR { d := true, a := true, b := true, m := true, ty := true } w <|
      want (cc? (fFn w)) .badFunction fun cc => want (intTy? (rTy (fLow w))) .badType fun ty =>
      .ok (.vcmp cc ty (fD w) (fA w) (rB (fLow w)) (rM (fLow w)))
  | 14 => fn0 w <| useR { d := true, a := true, b := true, c := true, m := true } w <|
      .ok (.vsel (fD w) (fA w) (rB (fLow w)) (rC (fLow w)) (rM (fLow w)))
  | 15 => fn0 w <| useR { d := true, a := true, m := true, ty := true } w <|
      want (absW? (rTy (fLow w))) .badType fun x => .ok (.vabs x (fD w) (fA w) (rM (fLow w)))
  | _ => .error .unassignedOpcode

def decRow9 (col : Nat) (w : Word96) : Except Reject Instr :=
  match col with
  | 0 => pF3r .vfadd w
  | 1 => pF3r .vfsub w
  | 2 => pF3r .vfmul w
  | 3 => pF3r .vfdiv w
  | 4 => pF2r .vfsqrt w
  | 5 => pF3 .vfmin w
  | 6 => pF3 .vfmax w
  | 7 => pF2 .vfabs w
  | 8 => pF2 .vfneg w
  | 9 => useR { d := true, a := true, b := true, m := true, ty := true } w <|
      want (sgnOp? (fFn w)) .badFunction fun op => want (fpTy? (rTy (fLow w))) .badType fun ty =>
      .ok (.vfsgn op ty (fD w) (fA w) (rB (fLow w)) (rM (fLow w)))
  | 10 => pF2 .vfcls w
  | 11 => useR { d := true, a := true, b := true, m := true, ty := true } w <|
      want (ccF? (fFn w)) .badFunction fun cc => want (fpTy? (rTy (fLow w))) .badType fun ty =>
      .ok (.vfcmp cc ty (fD w) (fA w) (rB (fLow w)) (rM (fLow w)))
  | 12 => fn0 w <| useR { d := true, a := true, m := true, ty := true, ty2 := true, rm := true, fl := true } w <|
      want (ty? (rTy (fLow w))) .badType fun td => want (ty? (rTy2 (fLow w))) .badType fun ts =>
      want (rmF? (rRm (fLow w))) .badRounding fun rm =>
      need (vcvtOk td ts ((rFl (fLow w)).getLsbD 0) ((rFl (fLow w)).extractLsb' 1 3)) .badModifier <|
      .ok (.vcvt td ts rm ((rFl (fLow w)).getLsbD 0) ((rFl (fLow w)).extractLsb' 1 3) (fD w) (fA w) (rM (fLow w)))
  | 13 => pF2r .vfrint w
  | 14 => pF3r .vfscl w
  | _ => .error .unassignedOpcode

/-- MASK must be 0xfff (08 R183). -/
def pUnmasked (k : Reg → Reg → Reg → Instr) (w : Word96) : Except Reject Instr :=
  fn0 w <| useR { d := true, a := true, b := true, m := true } w <| need (rM (fLow w) == 0xfff) .badModifier <|
  .ok (k (fD w) (fA w) (rB (fLow w)))

def decRowA (col : Nat) (w : Word96) : Except Reject Instr :=
  match col with
  | 0 => pFma .vfma w
  | 1 => pFma .vfms w
  | 2 => pFma .vfnma w
  | 3 => pFma .vfnms w
  | 4 => pFk .vfaddk w
  | 5 => pFk .vfmulk w
  | 6 => pIk .vaddk w
  | 7 => pIk .vmulk w
  | 8 => fn0 w <| useR { d := true, a := true, m := true } w <| .ok (.vbcast (fD w) (fA w) (rM (fLow w)))
  | 9 => fn0 w <| useK { d := true, m := true } w <|
      .ok (.vbcastk (fD w) (rM (fLow w)) (kKw (fLow w)) (kKo (fLow w)))
  | 10 => pUnmasked .vins w
  | 11 => pUnmasked .vext w
  | 12 => fn0 w <| useR { d := true, a := true, m := true } w <| .ok (.vmask (fD w) (fA w) (rM (fLow w)))
  | _ => .error .unassignedOpcode

/-- `vzip` and `vunzip`: FLAGS[0] is `.hi` (08 R200). -/
def pZip (k : Bool → Reg → Reg → Reg → Reg → Instr) (w : Word96) : Except Reject Instr :=
  fn0 w <| useR { d := true, a := true, b := true, m := true, fl := true } w <|
  need ((rFl (fLow w)).extractLsb' 1 3 == 0) .badModifier <|
  .ok (k ((rFl (fLow w)).getLsbD 0) (fD w) (fA w) (rB (fLow w)) (rM (fLow w)))

def decRowB (col : Nat) (w : Word96) : Except Reject Instr :=
  match col with
  | 0 => pVr .vperm w
  | 1 => pVr .vrot w
  | 2 => pZip .vzip w
  | 3 => pZip .vunzip w
  | 4 => pUnmasked .vcompress w
  | 5 => pUnmasked .vexpand w
  | 6 => pVi2 .vredadd w
  | 7 => pVi2 .vredmin w
  | 8 => pVi2 .vredmax w
  | 9 => pF2r .vfredadd w
  | 10 => pF2 .vfredmin w
  | 11 => pF2 .vfredmax w
  | 12 => pVi2 .vredand w
  | 13 => pVi2 .vredor w
  | 14 => fn0 w <| useR { d := true, a := true, m := true } w <| .ok (.vmcnt (fD w) (fA w) (rM (fLow w)))
  | 15 => pVi2 .vredxor w
  | _ => .error .unassignedOpcode

def decRowC (col : Nat) (w : Word96) : Except Reject Instr :=
  let x := fLow w
  match col with
  | 0 => fn0 w <| useR { m := true } w <| .ok (.xclr (rM x))
  | 1 => fn0 w <| useR { a := true, b := true, m := true, ty := true, fl := true } w <|
      need (rTy x == 0xb) .badType <| need ((rFl x).extractLsb' 1 3 == 0) .badModifier <|
      .ok (.xfma ((rFl x).getLsbD 0) (fA w) (rB x) (rM x))
  | 2 => fn0 w <| useR { a := true, m := true, ty := true, fl := true } w <|
      need (rTy x == 0xb) .badType <| need ((rFl x).extractLsb' 1 3 == 0) .badModifier <|
      .ok (.xadd ((rFl x).getLsbD 0) (fA w) (rM x))
  | 3 => fn0 w <| useR { m := true } w <| .ok (.xsum (rM x))
  | 4 => fn0 w <| useR { d := true, m := true } w <| .ok (.xsgn (fD w) (rM x))
  | 5 => fn0 w <| useR { d := true, m := true, ty := true, rm := true } w <|
      need (rTy x == 0xb) .badType <| want (rmF? (rRm x)) .badRounding fun rm => .ok (.xrnd rm (fD w) (rM x))
  | 6 => fn0 w <| useR { a := true, m := true } w <| .ok (.xst (fA w) (rM x))
  | 7 => fn0 w <| useR { a := true, m := true } w <| .ok (.xld (fA w) (rM x))
  | _ => .error .unassignedOpcode

def decRowD (col : Nat) (w : Word96) : Except Reject Instr :=
  let x := fLow w
  match col with
  | 0 => pE true false true 3 (fun w => want (ty? (rTy x)) .badType fun ty => need ty.tileOk .badType <|
      .ok (.tld ty (space ((rFl x).extractLsb' 0 2)) (fD w) (fA w) (idsOf w))) w
  | 1 => pE true false true 3 (fun w => want (ty? (rTy x)) .badType fun ty => need ty.tileOk .badType <|
      .ok (.tst ty (space ((rFl x).extractLsb' 0 2)) (fD w) (fA w) (idsOf w))) w
  | 2 => pE false false false 0 (fun w => .ok (.tzero (fD w) (idsOf w))) w
  | 3 => pE true true true 15 (fun w => want (ty? (rTy x)) .badType fun ty => need ty.mmaOk .badType <|
      .ok (.mma ty ((rFl x).getLsbD 3) ((rFl x).getLsbD 2) ((rFl x).getLsbD 1) ((rFl x).getLsbD 0)
        (fD w) (fA w) (rB x) (idsOf w))) w
  | 4 => pE true true true 1 (fun w => want (ty? (rTy x)) .badType fun ty =>
      need (ty.amovOk && (!(rFl x).getLsbD 0 || ty.isFp8)) .badType <|
      .ok (.amov ty ((rFl x).getLsbD 0) (fD w) (fA w) (rB x) (idsOf w))) w
  | 5 => pE true false false 3 (fun w => .ok (.ast (space ((rFl x).extractLsb' 0 2)) (fD w) (fA w) (idsOf w))) w
  | 6 => pE true false false 3 (fun w => .ok (.ald (space ((rFl x).extractLsb' 0 2)) (fD w) (fA w) (idsOf w))) w
  | 7 => pE false false false 0 (fun w => .ok (.azero (fD w) (idsOf w))) w
  | 8 => fn0 w <| need (fA w == 0 && rB x == 0 && eP1 x == 0 && eP2 x == 0 && eV1 x == 0 && eV2 x == 0 &&
      eZ1 x == 0 && rTy x == 0 && eZ2 x == 0 && (rFl x).extractLsb' 1 3 == 0) .reservedField <|
      .ok (.mwait ((rFl x).getLsbD 0) (fD w) (eCid x))
  | _ => .error .unassignedOpcode

def decRowE (col : Nat) (w : Word96) : Except Reject Instr :=
  let x := fLow w
  let fl := rFl x
  match col with
  | 0 => want (scope? ((fFn w).extractLsb' 3 3)) .badFunction fun sc =>
      want (ldW? ((fFn w).extractLsb' 0 3)) .badFunction fun lw =>
      .ok (.ldacq lw sc (space (iSp x)) (fD w) (fA w) (iOfs52 x))
  | 1 => want (scope? ((fFn w).extractLsb' 3 3)) .badFunction fun sc =>
      need ((fFn w).extractLsb' 2 1 == 0) .badFunction <|
      .ok (.strel (stW ((fFn w).extractLsb' 0 2)) sc (space (iSp x)) (fD w) (fA w) (iOfs52 x))
  | 2 => want (fenceKind? (fFn w)) .badFunction fun k => useR { sc := true } w <|
      want (scope? (rSc x)) .badScope fun sc => .ok (.fence k sc)
  | 3 => want (amoOp? (fFn w)) .badFunction fun op =>
      useR { d := true, a := true, b := true, ty := true, sc := true, fl := true } w <|
      want (amoTy? (rTy x)) .badType fun ty => want (scope? (rSc x)) .badScope fun sc =>
      .ok (.amo op ty sc (space (fl.extractLsb' 2 2)) (fl.extractLsb' 0 2) (fD w) (fA w) (rB x))
  | 4 => fn0 w <| useR { d := true, a := true, b := true, c := true, ty := true, sc := true, fl := true } w <|
      want (amoTy? (rTy x)) .badType fun ty => want (scope? (rSc x)) .badScope fun sc =>
      .ok (.cas ty sc (space (fl.extractLsb' 2 2)) (fl.extractLsb' 0 2) (fD w) (fA w) (rB x) (rC x))
  | 5 => fn0 w <| useR { d := true, a := true, b := true, ty := true, sc := true, rm := true, fl := true } w <|
      want (fpTy? (rTy x)) .badType fun ty => want (scope? (rSc x)) .badScope fun sc =>
      want (rmF? (rRm x)) .badRounding fun rm =>
      .ok (.famo ty rm sc (space (fl.extractLsb' 2 2)) (fl.extractLsb' 0 2) (fD w) (fA w) (rB x))
  | 6 =>
      match (fFn w).toNat with
      | 0 => pR { d := true, a := true } (fun d a _ _ => .barArrive d a) w
      | 1 => pR { d := true, a := true, b := true } (fun d a b _ => .barWait d a b) w
      | 2 => pR { d := true, a := true } (fun d a _ _ => .barSync d a) w
      | 3 => useR { a := true, b := true, sc := true } w <|
          want (scope? (rSc x)) .badScope fun sc => .ok (.barInit sc (fA w) (rB x))
      | _ => .error .badFunction
  | 7 => fn0 w <| pR { a := true } (fun _ a _ _ => .fork a) w
  | 8 => fn0 w <| useR { a := true, sc := true } w <|
      want (scope? (rSc x)) .badScope fun sc => .ok (.jdec sc (fA w))
  | 9 => fn0 w <| pR {} (fun _ _ _ _ => .done) w
  | 10 => fn0 w <| pR { a := true, b := true } (fun _ a b _ => .msg a b) w
  | 11 =>
      match (fFn w).toNat with
      | 0 => pR { d := true } (fun d _ _ _ => .dqopPop d) w
      | 1 => pR { d := true, a := true } (fun d a _ _ => .dqopSteal d a) w
      | 2 => pR { d := true } (fun d _ _ _ => .dqopCount d) w
      | _ => .error .badFunction
  | 12 => fn0 w <| need (fD w == 0 && hZ1 x == 0 && hZ2 x == 0) .reservedField <|
      need (handOk (fRole w) (hRcv x) (hLmap x)) .badForm <|
      .ok (.hand (fRole w) (hRcv x) (hPipe x) (fA w) (hLmap x))
  | 13 =>
      match (fFn w).toNat with
      | 0 => pR { d := true } (fun d _ _ _ => .tbindMyrole d) w
      | 1 => pR { d := true, a := true } (fun d a _ _ => .tbindMembers d a) w
      | _ => .error .badFunction
  | _ => .error .unassignedOpcode

def decRowF (col : Nat) (w : Word96) : Except Reject Instr :=
  let x := fLow w
  match col with
  | 0 => fn0 w <| pR { a := true } (fun _ a _ _ => .trap a) w
  | 1 => fn0 w <| pR {} (fun _ _ _ _ => .tret) w
  | 2 =>
      match (fFn w).toNat with
      | 0 => pR {} (fun _ _ _ _ => .tlbiAll) w
      | 1 => pR { a := true } (fun _ a _ _ => .tlbiAsid a) w
      | 2 => pR { a := true, b := true } (fun _ a b _ => .tlbiPage a b) w
      | _ => .error .badFunction
  | 3 => fn0 w <| pR { d := true, a := true, b := true } (fun d a b _ => .asidctl d a b) w
  | 4 => fn0 w <| pR {} (fun _ _ _ _ => .isync) w
  | 5 =>
      match (fFn w).toNat with
      | 0 => pR { d := true } (fun d _ _ _ => .wdctlGet d) w
      | 1 => pR { a := true } (fun _ a _ _ => .wdctlSet a) w
      | _ => .error .badFunction
  | 6 =>
      match (fFn w).toNat with
      | 0 => pR { d := true, a := true } (fun d a _ _ => .partctlSplit d a) w
      | 1 => pR { d := true, a := true } (fun d a _ _ => .partctlMerge d a) w
      | _ => .error .badFunction
  | 7 => fn0 w <| pR { a := true, b := true } (fun _ a b _ => .evpost a b) w
  | 8 => fn0 w <| pR {} (fun _ _ _ _ => .halt) w
  | 12 => pJ true true false (fun s d a _ o => .loopc s d a o) w
  | 13 => fn0 w <| useR { d := true, a := true, b := true, c := true, m := true, ty := true } w <|
      match (rTy x).toNat with
      | 0 => .ok (.vdotx false (fD w) (fA w) (rB x) (rC x) (rM x))
      | 4 => .ok (.vdotx true (fD w) (fA w) (rB x) (rC x) (rM x))
      | _ => .error .badType
  | 14 => pE true true true 0 (fun w => want (ty? (rTy x)) .badType fun ty => need ty.tileOk .badType <|
      .ok (.tldq ty (fD w) (fA w) (rB x) (idsOf w))) w
  | 15 => fn0 w <| pR { d := true, a := true } (fun d a _ _ => .swapw d a) w
  | _ => .error .unassignedOpcode

/-- The opcode map (R143). ROLE is read only by the H form: every other slot of its role is executed alike. -/
def decode (w : Word96) : Except Reject Instr :=
  let col := (fOpc w).toNat % 16
  match (fOpc w).toNat / 16 with
  | 0 => decRow0 col w
  | 1 => decRow1 col w
  | 2 => decRow2 col w
  | 3 => decRow3 col w
  | 4 => decRow4 col w
  | 5 => decRow5 col w
  | 6 => decRow6 col w
  | 7 => decRow7 col w
  | 8 => decRow8 col w
  | 9 => decRow9 col w
  | 10 => decRowA col w
  | 11 => decRowB col w
  | 12 => decRowC col w
  | 13 => decRowD col w
  | 14 => decRowE col w
  | _ => decRowF col w

/-- The classes an opcode admits (R144): `none` for `nop`, which admits all. -/
def opcClass (opc : Nat) : Option Cls :=
  if opc == 0x01 then none
  else if opc == 0x40 || opc == 0x41 then some .b
  else if opc ≤ 0x5f then some .s
  else if opc ≤ 0x6f then some .d
  else if opc ≤ 0x72 then some .e
  else if opc ≤ 0x7f then some .s
  else if opc ≤ 0xcf then some .d
  else if opc == 0xd8 then some .s
  else if opc ≤ 0xdf then some .e
  else if opc == 0xe2 || opc == 0xf1 || opc == 0xf4 || opc == 0xff then some .b
  else if opc == 0xfd then some .d
  else if opc == 0xfe then some .e
  else some .s

/-- A slot: the class of its line word, then the word (R147 order 1, then 2 and 3). -/
def decodeSlot (cls : Cls) (w : Word96) : Except Reject Instr :=
  match opcClass (fOpc w).toNat with
  | none => decode w
  | some c => need (c == cls) .classNotAdmitted (decode w)

/-! ## Encoding -/

/-- An R-form word with ROLE 0 (R127, R128). -/
def eR (opc : BitVec 8) (fn : BitVec 6) (d a b c m : Reg) (rm : BitVec 3) (ty ty2 : BitVec 4) (sc : BitVec 3)
    (fl : BitVec 4) : Word96 := pkH 0 opc fn d a (pkR b c m rm ty ty2 sc fl)
/-- A K-form word (R137). -/
def eK (opc : BitVec 8) (d a : Reg) (kw : BitVec 3) (ko : BitVec 17) (m : Reg) (rm : BitVec 3) (ty : BitVec 4) :
    Word96 := pkH 0 opc 0 d a (pkK kw ko 0 m rm ty 0 0 0)
/-- A J-form word (R139). -/
def eJ (opc : BitVec 8) (slot : BitVec 3) (d a b : Reg) (off : BitVec 41) : Word96 :=
  pkH 0 opc (0#3 ++ slot) d a (pkJ b 0 off)
/-- An E-form word (R140). -/
def eE (opc : BitVec 8) (d a b : Reg) (i : EIds) (ty fl : BitVec 4) : Word96 :=
  pkH 0 opc 0 d a (pkE b i.cid i.p1 i.p2 (bit1 i.v1) (bit1 i.v2) 0 ty 0 fl)

/-- The word of an instruction (R127 to R146), with ROLE 0 but in the H form; `none` for a step of another
agent, which has no encoding. -/
def encode : Instr → Option Word96
  | .nop => some (eR 0x01 0 0 0 0 0 0 0 0 0 0 0)
  | .add ty d a b => some (eR 0x02 0 d a b 0 0 0 ty.code 0 0 0)
  | .sub ty d a b => some (eR 0x03 0 d a b 0 0 0 ty.code 0 0 0)
  | .mul ty d a b => some (eR 0x04 0 d a b 0 0 0 ty.code 0 0 0)
  | .mulh ty d a b => some (eR 0x05 0 d a b 0 0 0 ty.code 0 0 0)
  | .div ty d a b => some (eR 0x06 0 d a b 0 0 0 ty.code 0 0 0)
  | .rem ty d a b => some (eR 0x07 0 d a b 0 0 0 ty.code 0 0 0)
  | .and ty d a b => some (eR 0x08 0 d a b 0 0 0 ty.code 0 0 0)
  | .or ty d a b => some (eR 0x09 0 d a b 0 0 0 ty.code 0 0 0)
  | .xor ty d a b => some (eR 0x0a 0 d a b 0 0 0 ty.code 0 0 0)
  | .shl ty d a b => some (eR 0x0b 0 d a b 0 0 0 ty.code 0 0 0)
  | .shr ty d a b => some (eR 0x0c 0 d a b 0 0 0 ty.code 0 0 0)
  | .rotr ty d a b => some (eR 0x0d 0 d a b 0 0 0 ty.code 0 0 0)
  | .min ty d a b => some (eR 0x0e 0 d a b 0 0 0 ty.code 0 0 0)
  | .max ty d a b => some (eR 0x0f 0 d a b 0 0 0 ty.code 0 0 0)
  | .cmp cc ty d a b => some (eR 0x10 cc.code d a b 0 0 0 ty.code 0 0 0)
  | .sel n d a b c => some (eR 0x11 0 d a b c 0 0 (n64Code n) 0 0 0)
  | .mov n d a => some (eR 0x12 0 d a 0 0 0 0 (n64Code n) 0 0 0)
  | .bext n d a b c => some (eR 0x13 0 d a b c 0 0 (n64Code n) 0 0 0)
  | .bins d a b c => some (eR 0x14 0 d a b c 0 0 3 0 0 0)
  | .clz ty d a => some (eR 0x15 0 d a 0 0 0 0 ty.code 0 0 0)
  | .ctz ty d a => some (eR 0x16 0 d a 0 0 0 0 ty.code 0 0 0)
  | .popc ty d a => some (eR 0x17 0 d a 0 0 0 0 ty.code 0 0 0)
  | .brev ty d a => some (eR 0x18 0 d a 0 0 0 0 ty.code 0 0 0)
  | .bswap ty d a => some (eR 0x19 0 d a 0 0 0 0 ty.code 0 0 0)
  | .adda k d a b => some (eR 0x1a 0 d a b 0 0 0 3 0 0 (k.setWidth 4))
  | .madd ty d a b c => some (eR 0x1b 0 d a b c 0 0 ty.code 0 0 0)
  | .sext ty d a => some (eR 0x1c 0 d a 0 0 0 0 ty.code 0 0 0)
  | .zext ty d a => some (eR 0x1d 0 d a 0 0 0 0 ty.code 0 0 0)
  | .addk n d a kw ko => some (eK 0x1e d a kw ko 0 0 (n64Code n))
  | .movk n d kw ko => some (eK 0x1f d 0 kw ko 0 0 (n64Code n))
  | .li d i => some (pkH 0 0x20 0 d 0 i)
  | .addi d a i => some (pkH 0 0x21 0 d a i)
  | .andi d a i => some (pkH 0 0x22 0 d a i)
  | .ori d a i => some (pkH 0 0x23 0 d a i)
  | .xori d a i => some (pkH 0 0x24 0 d a i)
  | .muli d a i => some (pkH 0 0x2a 0 d a i)
  | .maxi d a i => some (pkH 0 0x2b 0 d a i)
  | .mini d a i => some (pkH 0 0x2d 0 d a i)
  | .shli d a sh => some (pkH 0 0x25 0 d a (pkSh 0 sh))
  | .shri d a sh => some (pkH 0 0x26 0 d a (pkSh 0 sh))
  | .srai d a sh => some (pkH 0 0x27 0 d a (pkSh 0 sh))
  | .cmpi cc d a i => some (pkH 0 0x28 cc.code d a i)
  | .lih d a v => some (pkH 0 0x29 0 d a (pkLih 0 v))
  | .lpc d i => some (pkH 0 0x2c 0 d 0 i)
  | .beq s a b o => some (eJ 0x30 s 0 a b o)
  | .bne s a b o => some (eJ 0x31 s 0 a b o)
  | .blt s a b o => some (eJ 0x32 s 0 a b o)
  | .bge s a b o => some (eJ 0x33 s 0 a b o)
  | .bltn s a b o => some (eJ 0x34 s 0 a b o)
  | .bgen s a b o => some (eJ 0x35 s 0 a b o)
  | .j s o => some (eJ 0x36 s 0 0 0 o)
  | .call s d o => some (eJ 0x37 s d 0 0 o)
  | .jr a => some (eR 0x38 0 0 a 0 0 0 0 0 0 0 0)
  | .callr d a => some (eR 0x39 0 d a 0 0 0 0 0 0 0 0)
  | .ret a => some (eR 0x3a 0 0 a 0 0 0 0 0 0 0 0)
  | .win a b => some (eR 0x40 0 0 a b 0 0 0 0 0 0 0)
  | .wini dl sz => some (pkH 0 0x41 0 0 0 (pkWini 0 dl sz))
  | .winqBase d => some (eR 0x42 0 d 0 0 0 0 0 0 0 0 0)
  | .winqSize d => some (eR 0x42 1 d 0 0 0 0 0 0 0 0 0)
  | .mfs d n => some (pkH 0 0x43 0 d 0 (pkNum 0 n))
  | .mts a n => some (pkH 0 0x44 0 0 a (pkNum 0 n))
  | .mtsCodeimg a n => some (pkH 0 0x44 0 0 a (pkNum 0 (0x010#9 ++ n)))
  | .mtsFcsr a => some (pkH 0 0x44 0 0 a (pkNum 0 0x010))
  | .mtsRbb a => some (pkH 0 0x44 0 0 a (pkNum 0 0x004))
  | .wlt d a b => some (eR 0x45 0 d a b 0 0 0 0 0 0 0)
  | .qstat d q => some (eR 0x46 q.code d 0 0 0 0 0 0 0 0 0)
  | .ld w d a i => some (pkH 0 0x50 (0#3 ++ w.code) d a i)
  | .lds w d a i => some (pkH 0 0x56 (0#3 ++ w.code) d a i)
  | .ldc w d a i => some (pkH 0 0x58 (0#3 ++ w.code) d a i)
  | .ldd w d a i => some (pkH 0 0x5a (0#3 ++ w.code) d a i)
  | .st w d a i => some (pkH 0 0x51 (0#4 ++ w.code) d a i)
  | .sts w d a i => some (pkH 0 0x57 (0#4 ++ w.code) d a i)
  | .stc w d a i => some (pkH 0 0x59 (0#4 ++ w.code) d a i)
  | .std w d a i => some (pkH 0 0x5b (0#4 ++ w.code) d a i)
  | .ldx ty d a b => some (eR 0x52 0 d a b 0 0 0 ty.code 0 0 0)
  | .stx ty d a b => some (eR 0x53 0 d a b 0 0 0 ty.code 0 0 0)
  | .pref lv a i => some (pkH 0 0x54 (0#4 ++ lv.code) 0 a i)
  | .cmoClean lv a => some (eR 0x55 (0#2 ++ lv.code ++ 0#2) 0 a 0 0 0 0 0 0 0 0)
  | .cmoInval lv a => some (eR 0x55 (0#2 ++ lv.code ++ 1#2) 0 a 0 0 0 0 0 0 0 0)
  | .cmoFlush lv a => some (eR 0x55 (0#2 ++ lv.code ++ 2#2) 0 a 0 0 0 0 0 0 0 0)
  | .vld d a m o => some (pkH 0 0x60 0 d a (pkVec m o))
  | .vst d a m o => some (pkH 0 0x61 0 d a (pkVec m o))
  | .vlsp d a m o => some (pkH 0 0x68 0 d a (pkVec m o))
  | .vssp d a m o => some (pkH 0 0x69 0 d a (pkVec m o))
  | .vlcl d a m o => some (pkH 0 0x6a 0 d a (pkVec m o))
  | .vscl d a m o => some (pkH 0 0x6b 0 d a (pkVec m o))
  | .vldd d a m o => some (pkH 0 0x6c 0 d a (pkVec m o))
  | .vstd d a m o => some (pkH 0 0x6d 0 d a (pkVec m o))
  | .vlds d a b m => some (eR 0x62 0 d a b 0 m 0 0 0 0 0)
  | .vsts d a b m => some (eR 0x63 0 d a b 0 m 0 0 0 0 0)
  | .vgat d a b m => some (eR 0x64 0 d a b 0 m 0 0 0 0 0)
  | .vsct d a b m => some (eR 0x65 0 d a b 0 m 0 0 0 0 0)
  | .ldl d a b m => some (eR 0x66 0 d a b 0 m 0 0 0 0 0)
  | .stl d a b m => some (eR 0x67 0 d a b 0 m 0 0 0 0 0)
  | .send d a b c s t => some (eR 0x70 0 d a b c 0 0 0 0 0 (t.code ++ s.code))
  | .sendb d a b c s t => some (eR 0x71 0 d a b c 0 0 0 0 0 (t.code ++ s.code))
  | .chctlOpen d a b => some (eR 0x72 0 d a b 0 0 0 0 0 0 0)
  | .chctlClose d => some (eR 0x72 1 d 0 0 0 0 0 0 0 0 0)
  | .chctlReset d => some (eR 0x72 2 d 0 0 0 0 0 0 0 0 0)
  | .cwait d a b => some (eR 0x73 0 d a b 0 0 0 0 0 0 0)
  | .crpop d a t => some (eR 0x74 0 d a 0 0 0 0 0 0 0 (0#3 ++ bit1 t))
  | .seal a sp => some (eR 0x75 0 0 a 0 0 0 0 0 0 0 (0#2 ++ sp.code))
  | .alloc d a nf => some (eR 0x76 0 d a 0 0 0 0 0 0 0 (0#3 ++ bit1 nf))
  | .free a => some (eR 0x77 0 0 a 0 0 0 0 0 0 0 0)
  | .chq d a => some (eR 0x78 0 d a 0 0 0 0 0 0 0 0)
  | .vadd sat ty d a b m => some (eR 0x80 0 d a b 0 m 0 ty.code 0 0 (0#3 ++ bit1 sat))
  | .vsub sat ty d a b m => some (eR 0x81 0 d a b 0 m 0 ty.code 0 0 (0#3 ++ bit1 sat))
  | .vmul ty d a b m => some (eR 0x82 0 d a b 0 m 0 ty.code 0 0 0)
  | .vmulh ty d a b m => some (eR 0x83 0 d a b 0 m 0 ty.code 0 0 0)
  | .vdiv ty d a b m => some (eR 0x84 0 d a b 0 m 0 ty.code 0 0 0)
  | .vrem ty d a b m => some (eR 0x85 0 d a b 0 m 0 ty.code 0 0 0)
  | .vand ty d a b m => some (eR 0x86 0 d a b 0 m 0 ty.code 0 0 0)
  | .vor ty d a b m => some (eR 0x87 0 d a b 0 m 0 ty.code 0 0 0)
  | .vxor ty d a b m => some (eR 0x88 0 d a b 0 m 0 ty.code 0 0 0)
  | .vshl ty d a b m => some (eR 0x89 0 d a b 0 m 0 ty.code 0 0 0)
  | .vshr ty d a b m => some (eR 0x8a 0 d a b 0 m 0 ty.code 0 0 0)
  | .vmin ty d a b m => some (eR 0x8b 0 d a b 0 m 0 ty.code 0 0 0)
  | .vmax ty d a b m => some (eR 0x8c 0 d a b 0 m 0 ty.code 0 0 0)
  | .vcmp cc ty d a b m => some (eR 0x8d cc.code d a b 0 m 0 ty.code 0 0 0)
  | .vsel d a b c m => some (eR 0x8e 0 d a b c m 0 0 0 0 0)
  | .vabs ty d a m => some (eR 0x8f 0 d a 0 0 m 0 (absCode ty) 0 0 0)
  | .vfadd ty rm d a b m => some (eR 0x90 0 d a b 0 m rm.code ty.code 0 0 0)
  | .vfsub ty rm d a b m => some (eR 0x91 0 d a b 0 m rm.code ty.code 0 0 0)
  | .vfmul ty rm d a b m => some (eR 0x92 0 d a b 0 m rm.code ty.code 0 0 0)
  | .vfdiv ty rm d a b m => some (eR 0x93 0 d a b 0 m rm.code ty.code 0 0 0)
  | .vfscl ty rm d a b m => some (eR 0x9e 0 d a b 0 m rm.code ty.code 0 0 0)
  | .vfsqrt ty rm d a m => some (eR 0x94 0 d a 0 0 m rm.code ty.code 0 0 0)
  | .vfrint ty rm d a m => some (eR 0x9d 0 d a 0 0 m rm.code ty.code 0 0 0)
  | .vfmin ty d a b m => some (eR 0x95 0 d a b 0 m 0 ty.code 0 0 0)
  | .vfmax ty d a b m => some (eR 0x96 0 d a b 0 m 0 ty.code 0 0 0)
  | .vfabs ty d a m => some (eR 0x97 0 d a 0 0 m 0 ty.code 0 0 0)
  | .vfneg ty d a m => some (eR 0x98 0 d a 0 0 m 0 ty.code 0 0 0)
  | .vfcls ty d a m => some (eR 0x9a 0 d a 0 0 m 0 ty.code 0 0 0)
  | .vfsgn op ty d a b m => some (eR 0x99 op.code d a b 0 m 0 ty.code 0 0 0)
  | .vfcmp cc ty d a b m => some (eR 0x9b cc.code d a b 0 m 0 ty.code 0 0 0)
  | .vcvt td ts rm sat part d a m => some (eR 0x9c 0 d a 0 0 m rm.code td.code ts.code 0 (part ++ bit1 sat))
  | .vfma ty rm d a b c m => some (eR 0xa0 0 d a b c m rm.code ty.code 0 0 0)
  | .vfms ty rm d a b c m => some (eR 0xa1 0 d a b c m rm.code ty.code 0 0 0)
  | .vfnma ty rm d a b c m => some (eR 0xa2 0 d a b c m rm.code ty.code 0 0 0)
  | .vfnms ty rm d a b c m => some (eR 0xa3 0 d a b c m rm.code ty.code 0 0 0)
  | .vfaddk ty rm d a m kw ko => some (eK 0xa4 d a kw ko m rm.code ty.code)
  | .vfmulk ty rm d a m kw ko => some (eK 0xa5 d a kw ko m rm.code ty.code)
  | .vaddk ty d a m kw ko => some (eK 0xa6 d a kw ko m 0 ty.code)
  | .vmulk ty d a m kw ko => some (eK 0xa7 d a kw ko m 0 ty.code)
  | .vbcast d a m => some (eR 0xa8 0 d a 0 0 m 0 0 0 0 0)
  | .vbcastk d m kw ko => some (eK 0xa9 d 0 kw ko m 0 0)
  | .vins d a b => some (eR 0xaa 0 d a b 0 0xfff 0 0 0 0 0)
  | .vext d a b => some (eR 0xab 0 d a b 0 0xfff 0 0 0 0 0)
  | .vmask d a m => some (eR 0xac 0 d a 0 0 m 0 0 0 0 0)
  | .vperm d a b m => some (eR 0xb0 0 d a b 0 m 0 0 0 0 0)
  | .vrot d a b m => some (eR 0xb1 0 d a b 0 m 0 0 0 0 0)
  | .vzip hi d a b m => some (eR 0xb2 0 d a b 0 m 0 0 0 0 (0#3 ++ bit1 hi))
  | .vunzip hi d a b m => some (eR 0xb3 0 d a b 0 m 0 0 0 0 (0#3 ++ bit1 hi))
  | .vcompress d a b => some (eR 0xb4 0 d a b 0 0xfff 0 0 0 0 0)
  | .vexpand d a b => some (eR 0xb5 0 d a b 0 0xfff 0 0 0 0 0)
  | .vredadd ty d a m => some (eR 0xb6 0 d a 0 0 m 0 ty.code 0 0 0)
  | .vredmin ty d a m => some (eR 0xb7 0 d a 0 0 m 0 ty.code 0 0 0)
  | .vredmax ty d a m => some (eR 0xb8 0 d a 0 0 m 0 ty.code 0 0 0)
  | .vfredmin ty d a m => some (eR 0xba 0 d a 0 0 m 0 ty.code 0 0 0)
  | .vfredmax ty d a m => some (eR 0xbb 0 d a 0 0 m 0 ty.code 0 0 0)
  | .vredand ty d a m => some (eR 0xbc 0 d a 0 0 m 0 ty.code 0 0 0)
  | .vredor ty d a m => some (eR 0xbd 0 d a 0 0 m 0 ty.code 0 0 0)
  | .vredxor ty d a m => some (eR 0xbf 0 d a 0 0 m 0 ty.code 0 0 0)
  | .vfredadd ty rm d a m => some (eR 0xb9 0 d a 0 0 m rm.code ty.code 0 0 0)
  | .vmcnt d a m => some (eR 0xbe 0 d a 0 0 m 0 0 0 0 0)
  | .xclr m => some (eR 0xc0 0 0 0 0 0 m 0 0 0 0 0)
  | .xfma g a b m => some (eR 0xc1 0 0 a b 0 m 0 0xb 0 0 (0#3 ++ bit1 g))
  | .xadd g a m => some (eR 0xc2 0 0 a 0 0 m 0 0xb 0 0 (0#3 ++ bit1 g))
  | .xsum m => some (eR 0xc3 0 0 0 0 0 m 0 0 0 0 0)
  | .xsgn d m => some (eR 0xc4 0 d 0 0 0 m 0 0 0 0 0)
  | .xrnd rm d m => some (eR 0xc5 0 d 0 0 0 m rm.code 0xb 0 0 0)
  | .xst a m => some (eR 0xc6 0 0 a 0 0 m 0 0 0 0 0)
  | .xld a m => some (eR 0xc7 0 0 a 0 0 m 0 0 0 0 0)
  | .tld ty sp d a i => some (eE 0xd0 d a 0 i ty.code (0#2 ++ sp.code))
  | .tst ty sp d a i => some (eE 0xd1 d a 0 i ty.code (0#2 ++ sp.code))
  | .tzero d i => some (eE 0xd2 d 0 0 i 0 0)
  | .mma ty g ad nb na d a b i => some (eE 0xd3 d a b i ty.code (bit1 g ++ bit1 ad ++ bit1 nb ++ bit1 na))
  | .amov ty sat d a b i => some (eE 0xd4 d a b i ty.code (0#3 ++ bit1 sat))
  | .ast sp d a i => some (eE 0xd5 d a 0 i 0 (0#2 ++ sp.code))
  | .ald sp d a i => some (eE 0xd6 d a 0 i 0 (0#2 ++ sp.code))
  | .azero d i => some (eE 0xd7 d 0 0 i 0 0)
  | .mwait q d cid => some (pkH 0 0xd8 0 d 0 (pkE 0 cid 0 0 0 0 0 0 0 (0#3 ++ bit1 q)))
  | .ldacq w sc sp d a o => some (pkH 0 0xe0 (sc.code ++ w.code) d a (pkAcq sp.code o))
  | .strel w sc sp d a o => some (pkH 0 0xe1 (sc.code ++ 0#1 ++ w.code) d a (pkAcq sp.code o))
  | .fence k sc => some (eR 0xe2 k.code 0 0 0 0 0 0 0 0 sc.code 0)
  | .amo op ty sc sp od d a b => some (eR 0xe3 op.code d a b 0 0 0 ty.code 0 sc.code (sp.code ++ od))
  | .cas ty sc sp od d a b c => some (eR 0xe4 0 d a b c 0 0 ty.code 0 sc.code (sp.code ++ od))
  | .famo ty rm sc sp od d a b => some (eR 0xe5 0 d a b 0 0 rm.code ty.code 0 sc.code (sp.code ++ od))
  | .barArrive d a => some (eR 0xe6 0 d a 0 0 0 0 0 0 0 0)
  | .barWait d a b => some (eR 0xe6 1 d a b 0 0 0 0 0 0 0)
  | .barSync d a => some (eR 0xe6 2 d a 0 0 0 0 0 0 0 0)
  | .barInit sc a b => some (eR 0xe6 3 0 a b 0 0 0 0 0 sc.code 0)
  | .fork a => some (eR 0xe7 0 0 a 0 0 0 0 0 0 0 0)
  | .jdec sc a => some (eR 0xe8 0 0 a 0 0 0 0 0 0 sc.code 0)
  | .done => some (eR 0xe9 0 0 0 0 0 0 0 0 0 0 0)
  | .msg a b => some (eR 0xea 0 0 a b 0 0 0 0 0 0 0)
  | .dqopPop d => some (eR 0xeb 0 d 0 0 0 0 0 0 0 0 0)
  | .dqopSteal d a => some (eR 0xeb 1 d a 0 0 0 0 0 0 0 0)
  | .dqopCount d => some (eR 0xeb 2 d 0 0 0 0 0 0 0 0 0)
  | .hand role rcv pipe a lm => some (pkH role 0xec 0 0 a (pkHand rcv pipe 0 lm 0))
  | .tbindMyrole d => some (eR 0xed 0 d 0 0 0 0 0 0 0 0 0)
  | .tbindMembers d a => some (eR 0xed 1 d a 0 0 0 0 0 0 0 0)
  | .trap a => some (eR 0xf0 0 0 a 0 0 0 0 0 0 0 0)
  | .tret => some (eR 0xf1 0 0 0 0 0 0 0 0 0 0 0)
  | .tlbiAll => some (eR 0xf2 0 0 0 0 0 0 0 0 0 0 0)
  | .tlbiAsid a => some (eR 0xf2 1 0 a 0 0 0 0 0 0 0 0)
  | .tlbiPage a b => some (eR 0xf2 2 0 a b 0 0 0 0 0 0 0)
  | .asidctl d a b => some (eR 0xf3 0 d a b 0 0 0 0 0 0 0)
  | .isync => some (eR 0xf4 0 0 0 0 0 0 0 0 0 0 0)
  | .wdctlGet d => some (eR 0xf5 0 d 0 0 0 0 0 0 0 0 0)
  | .wdctlSet a => some (eR 0xf5 1 0 a 0 0 0 0 0 0 0 0)
  | .partctlSplit d a => some (eR 0xf6 0 d a 0 0 0 0 0 0 0 0)
  | .partctlMerge d a => some (eR 0xf6 1 d a 0 0 0 0 0 0 0 0)
  | .evpost a b => some (eR 0xf7 0 0 a b 0 0 0 0 0 0 0)
  | .halt => some (eR 0xf8 0 0 0 0 0 0 0 0 0 0 0)
  | .loopc s d a o => some (eJ 0xfc s d a 0 o)
  | .vdotx n d a b c m => some (eR 0xfd 0 d a b c m 0 (if n then 4 else 0) 0 0 0)
  | .tldq ty d a b i => some (eE 0xfe d a b i ty.code 0)
  | .swapw d a => some (eR 0xff 0 d a 0 0 0 0 0 0 0 0)
  | _ => none

/-! ## The opcode table's numbering -/

/-- The instruction of a word numbered as the opcode table numbers bits: bit 0 is the least significant bit of
the first byte (R126 gives byte j of an instruction bits [8j+7:8j]). Bits at and above 96 are not the instruction's. -/
def decodeTableWord (_nbits w : Nat) : Option Instr := (decode (BitVec.ofNat 96 w)).toOption

end Sys2Proof
end

