-- ==== Sys2Proof/Machine/Ops.lean ====
section
/-!
DEFINITION. The named operations every meaning is built from: partitions, the register store, translation,
memory in every space, queues and arrivals, events, and taking a trap and returning from one.
-/
namespace Sys2Proof.Machine

/-! ## How an instruction ends -/

/-- A fault as its raising rule gives it (18 R355, R358). -/
structure TrapInfo where
  code : Nat
  addr : W64 := 0
  lane : Option Nat := none
  micro : Bool := false
  step : Nat := 0
  unit : Option (Nat × Nat) := none   -- of a residency fault, the 2 MiB unit: its address space and number (03 R84)
  deriving DecidableEq, Repr

/-- Why an instruction does not complete in this step. -/
inductive Stop
  | wait (d : Option Demand)                  -- it waits and has no effect yet
  | waitLane (l : Nat) (vals : List W64) (d : Option Demand)   -- lanes below l are done, lane l waits (10 R249)
  | trap (f : TrapInfo)
  | machine (pa : Nat) (code : Nat := 0x12) (lane : Bool := false)   -- a machine check (18 R369): a poisoned line, or 0x11
                                              -- for line parity; `lane`: met at a lane, those below it done (10 R249)
  | team (code : Nat)                         -- a team fault (18 R368)
  deriving DecidableEq, Repr

/-- A meaning: it reads and changes the state, and ends or stops. -/
abbrev M := EStateM Stop State

def trapAt {α : Type} (code : Nat) (addr : W64) : M α := throw (.trap { code := code, addr := addr })
def waitNow {α : Type} : M α := throw (.wait none)
def check (c : Bool) (code : Nat) (addr : W64) : M Unit := if c then pure () else trapAt code addr
def readyWhen (c : Bool) : M Unit := if c then pure () else waitNow

/-! ## Cores and partitions (00 R3, 04 R89, R93) -/

def State.core (s : State) (c : Nat) : Core := tget {} s.cores c
def State.setCore (s : State) (c : Nat) (k : Core) : State := { s with cores := tput s.cores c k }
def State.seqU (s : State) (r : Nat) : SeqUnit := tget {} s.seqs r
def State.setSeq (s : State) (r : Nat) (u : SeqUnit) : State := { s with seqs := tput s.seqs r u }
def State.engU (s : State) (g : Nat) : EngUnit := tget {} s.engs g
def State.setEng (s : State) (g : Nat) (u : EngUnit) : State := { s with engs := tput s.engs g u }

/-- The core member of lowest number of an instance: a bound copy engine stands in its partition (log 46). -/
def State.leadOf (s : State) (i : Nat) : Nat :=
  match tget none s.insts i with
  | some x => x.cores.foldl (fun m c => Nat.min m c.1) 2047
  | none => 0
/-- The core whose partition a copy engine acts in. -/
def State.engCore (s : State) (g : Nat) : Nat :=
  match (s.engU g).inst with
  | some i => s.leadOf i
  | none => 32 * g
/-- The core whose streams, or in whose partition, the present step acts. -/
def State.actor (s : State) : Nat :=
  match s.cur with
  | .core c => c
  | .data c => c
  | .seq r => 8 * r
  | .eng g => s.engCore g

def me : M Nat := do return (← get).actor
def myCore : M Core := do let s ← get; return s.core s.actor
def modCore (c : Nat) (f : Core → Core) : M Unit := modify fun s => s.setCore c (f (s.core c))
def modMe (f : Core → Core) : M Unit := do modCore (← me) f

def rowOf (c : Nat) : Nat := c / 8
def cluOf (c : Nat) : Nat := c / 32
def dieOf (c : Nat) : Nat := c / 256

def log2Fuel : Nat → Nat → Nat
  | 0, _ => 0
  | f + 1, n => if n < 2 then 0 else log2Fuel f (n / 2) + 1
/-- Depth of a node (R89). -/
def nodeDepth (n : Nat) : Nat := log2Fuel 10 n
def nodeRow0 (n : Nat) : Nat := (n - 2 ^ nodeDepth n) * 2 ^ (8 - nodeDepth n)
def nodeRows (n : Nat) : Nat := 256 / 2 ^ nodeDepth n
def nodeCores (n : Nat) : Nat := 2048 / 2 ^ nodeDepth n
def nodeHasRow (n r : Nat) : Bool := nodeRow0 n ≤ r && r < nodeRow0 n + nodeRows n
/-- The active node that holds a row; node 1 where none is listed. -/
def State.nodeOfRow (s : State) (r : Nat) : Nat :=
  match s.nodes.find? (fun x => nodeHasRow x.n r) with
  | some x => x.n
  | none => 1
def State.nodeOf (s : State) (c : Nat) : Nat := s.nodeOfRow (rowOf c)
def State.node? (s : State) (n : Nat) : Option Node := s.nodes.find? fun x => x.n == n
def State.setNode (s : State) (n : Nat) (f : Node → Node) : State :=
  { s with nodes := lmapIf (fun x => x.n == n) f s.nodes }
/-- First core and core count of a core's partition. -/
def State.base (s : State) (c : Nat) : Nat := 8 * nodeRow0 (s.nodeOf c)
def State.nP (s : State) (c : Nat) : Nat := nodeCores (s.nodeOf c)
/-- Partition core index (R93). -/
def State.pidx (s : State) (c : Nat) : Nat := c - s.base c
def State.resident (s : State) (c : Nat) : Option Nat := (s.node? (s.nodeOf c)).bind (·.resident)
def State.tenantDef (s : State) (t : Nat) : Option Tenant := tget none s.tenants t
/-- Home ASID of the resident tenant (03 R73); 0 where none is resident. -/
def State.hasid (s : State) (c : Nat) : Nat :=
  match (s.resident c).bind s.tenantDef with
  | some t => t.hasid
  | none => 0
def nodeCoreList (n : Nat) : List Nat := (List.range (nodeCores n)).map (· + 8 * nodeRow0 n)

/-- The ASID the running task translates in; firmware tasks lie outside every ASID (19 R376). -/
def Core.asid (k : Core) : Nat := match k.task with | some t => t.asid | none => 0
def Core.isFw (k : Core) : Bool := match k.task with | some t => t.kind == .firmware | none => false
def Core.launch (k : Core) : Option Nat := k.task.bind (·.launch)

/-- Features (03 R60 to R62): offered bits and acceptance. -/
def featOffered : Nat := 0x7f
def State.feat (s : State) (bit : Nat) : Bool := bitOf (tget 0 s.featacc 0) bit
def State.ovsub (s : State) : Bool := s.feat 1
def State.xacc (s : State) : Bool := s.feat 5
def State.depr (s : State) : Bool := s.feat 0

/-- A value the spec leaves open, fresh each time (log 6). -/
def draw : M Nat := do
  let s ← get
  set { s with freeCtr := s.freeCtr + 1 }
  return Config.freeNat s.freeCtr

/-- Let the monitors count an event for a tenant, or for none (21 R398). -/
def State.noteFor (s : State) (ev core n : Nat) (t : Option Nat) : State :=
  if s.mons.isEmpty then s else { s with monq := s.monq ++ [{ ev := ev, core := core, n := n, tenant := t }] }
/-- The tenant whose work an event is (21 R398): the resident one's, but none's where the core runs firmware, nor, of the
events that go by cycles, where it runs nothing. 2048 + c names an agent of core c's row or cluster. -/
def State.workOf (s : State) (ev core : Nat) : Option Nat :=
  let k := s.core core
  if core < 2048 && (k.isFw || (k.task.isNone && (ev == 0x1 || ev == 0x14 || ev == 0x15))) then none
  else s.resident (core % 2048)
/-- Let the monitors count an event of a core (21 R398). -/
def State.note (s : State) (ev core n : Nat) : State := s.noteFor ev core n (s.workOf ev core)
def note (ev core n : Nat) : M Unit := modify fun s => s.note ev core n

/-! ## Physical memory and coherence (09 R409, 13 R293 to R297, R319) -/

inductive PKind
  | device | host | alias_ | dcr | unassigned
  deriving DecidableEq, Repr
def physKind (pa : Nat) : PKind :=
  if pa < Config.devEnd then .device
  else if pa < Config.hostBase then .unassigned
  else if pa < Config.aliasBase then .host
  else if pa < Config.dcrBase then .alias_
  else .dcr

def xorSlices (n w x : Nat) : Nat → Nat
  | 0 => 0
  | k + 1 => (((x >>> (w * k)) % 2 ^ n) ^^^ xorSlices n w x k)
/-- Home core of a line (R293). -/
def homeOf (pa : Nat) : Nat := xorSlices 11 11 (pa >>> 6) 5

def lineOf (pa : Nat) : Nat := pa / 64
def State.poisoned (s : State) (pa : Nat) : Bool := s.poison.contains (lineOf pa)
/-- The host link answers an access to this address with an error (09 R409): a line of host memory in the list. -/
def State.linkError (s : State) (pa : Nat) : Bool := physKind pa == .host && s.poisoned pa

/-- The n-th draw of a free choice below a bound (log 6). -/
def State.freeBelow (s : State) (n : Nat) : Nat := Config.freeNat s.freeCtr % n
def State.spent (s : State) : State := { s with freeCtr := s.freeCtr + 1 }

/-- Room in the links toward a core for one more system-ring arrival (14 R328, log 21). -/
def State.sysRoom (s : State) (c : Nat) : Bool :=
  (s.core c).heldSys.length < Config.linkRoom c &&
  !s.posts.any fun x => x.1 == c && (match x.2 with | .sys _ => true | .arr _ => false)
/-- A system-ring arrival (14 R328): onto the ring, into its held sequence, or held by its sender. -/
def State.postSys (s : State) (c : Nat) (e : SysEntry) : State :=
  let k := s.core c
  if k.sysring.length < 64 && k.heldSys.isEmpty then s.setCore c { k with sysring := k.sysring ++ [e], halted := false }
  else if s.sysRoom c then s.setCore c { k with heldSys := k.heldSys ++ [e], halted := false }
  else { s with posts := s.posts ++ [(c, .sys e)] }

/-! ### Who accesses a line

A core's number; 2048 for the host, the front end and the peers; 4096 + r for an engine of row r; 8192 + c for a fetch or
a constant read of core c, which its L1D does not hold (log 51). -/

def hostAgent : Nat := 2048
def rowAgent (r : Nat) : Nat := 4096 + r
def fetchAgent (c : Nat) : Nat := 8192 + c
/-- The sharer that an agent counts as in the directory (13 R294). -/
def sharerOf (who : Nat) : Nat := if who < 4096 then who else if who < 8192 then 8 * (who - 4096) else who - 8192
/-- The row a fill is made for. -/
def fillRow (who : Nat) : Nat := rowOf (sharerOf who)

/-! ### The caches (09 R213 to R217, log 51) -/

/-- Whether a line may be cached: host memory only while CXLC is accepted (03 R62, 09 R409). -/
def State.cached (s : State) (line : Nat) : Bool := physKind (64 * line) != .host || s.feat 2
/-- The L2 slice and set of a line (R214). -/
def l2Slice (line : Nat) : Nat := xorSlices 8 8 line 6
def l2Set (line : Nat) : Nat := line / 2 ^ 8 % 2 ^ 7
/-- The L1D set of a line (R213). -/
def l1dSet (line : Nat) : Nat := line % 128
/-- The stack that serves a line of device memory, and its base die (R215). -/
def stackOf (line : Nat) : Nat := line / 64 % 12
def baseDieOf (line : Nat) : Nat := stackOf line / 3
/-- Lines an L3 holds: 512 MiB (00 R2). -/
def l3Lines : Nat := 2 ^ 23

/-- Whether the L1D of a core or the L2 of its die holds a line. -/
def State.lineHeld (s : State) (c line : Nat) : Bool :=
  (tget [] s.l1d c).contains line || s.l2.any fun x => x.die == dieOf c && x.line == line
/-- Dirty bytes of a line that no cache holds any more have reached the L3 (13 R319). -/
def State.dropUnheld (s : State) (line : Nat) : State :=
  if s.stale.isEmpty then s
  else { s with stale := s.stale.filter fun x => !(lineOf x.1 == line && !s.lineHeld x.2.core line) }
/-- Remove the n-th element that a test picks. -/
def delNth {α : Type} (p : α → Bool) : Nat → List α → List α
  | _, [] => []
  | n, x :: t => if p x then (match n with | 0 => t | n + 1 => x :: delNth p n t) else x :: delNth p n t
/-- A line enters a core's L1D: a full set gives one line up (R213). -/
def State.l1dFill (s : State) (c line : Nat) : State :=
  let l := tget [] s.l1d c
  let same (x : Nat) : Bool := l1dSet x == l1dSet line
  if l.length < 8 || (l.filter same).length < 8 then { s with l1d := tput s.l1d c (line :: l) }
  else
    let i := s.freeBelow 8
    let v := (l.filter same).getD i 0
    ({ s with l1d := tput s.l1d c (line :: delNth same i l) }.spent).dropUnheld v
/-- A line of device memory enters its base die's L3 (R215). -/
def State.l3Fill (s : State) (line : Nat) : State :=
  let same (x : Nat) : Bool := baseDieOf x == baseDieOf line
  if physKind (64 * line) != .device || s.l3.contains line then s
  else if s.l3.length < l3Lines || (s.l3.filter same).length < l3Lines then { s with l3 := line :: s.l3 }
  else { s with l3 := line :: delNth same (s.freeBelow l3Lines) s.l3 }.spent
/-- A line enters an L2 for a row, in a way of the row's mask; with a mask of 0 it enters none (R217). -/
def State.l2Fill (s : State) (row line : Nat) : State :=
  let d := row / 32
  if s.l2.any fun x => x.die == d && x.line == line then s
  else
    let s := (s.l3Fill line).note 0x10 (8 * row) 1
    let ways := (List.range 16).filter fun w => bitOf (tget 0xffff s.ways row) w
    if ways.isEmpty then s
    else
      let w := ways.getD (s.freeBelow ways.length) 0
      let hit (x : L2Line) : Bool :=
        x.die == d && l2Set x.line == l2Set line && l2Slice x.line == l2Slice line && x.way == w
      let new : L2Line := { die := d, line := line, way := w, row := row }
      match s.l2.find? hit with
      | none => { s with l2 := new :: s.l2 }.spent
      | some v => ({ s with l2 := new :: s.l2.filter fun x => !hit x }.spent).dropUnheld v.line
/-- A line comes to an agent through the caches of its die; a hit changes nothing but replacement (R217). -/
def State.fill (s : State) (who line : Nat) : State :=
  if who == hostAgent || !s.cached line then s
  else if 4096 ≤ who then s.l2Fill (fillRow who) line
  else if (tget [] s.l1d who).contains line then s
  else ((s.note 0x8 who 1).l2Fill (rowOf who) line).l1dFill who line
/-- Every cache drops the lines that a test picks. -/
def State.uncache (s : State) (p : Nat → Bool) : State :=
  { s with l1d := s.l1d.map fun (x : Nat × List Nat) => (x.1, x.2.filter fun l => !p l),
           l2 := s.l2.filter fun x => !p x.line }
/-- Valid lines of a row (R218). -/
def State.owned (s : State) (row : Nat) : Nat := (s.l2.filter fun x => x.row == row).length

/-! ### The directory (13 R293 to R297) -/

/-- The directory has already counted a sharer of an overflowed line (R295). -/
def State.ovfKnown (s : State) (line who : Nat) : Bool :=
  let h := homeOf (64 * line)
  let k := s.core h
  let is (e : SysEntry) : Bool := match e with | .overflow l w => l == line && w == who | _ => false
  (tget [] s.ovtab line).contains who || (k.sysring ++ k.heldSys).any is ||
  (match k.taken with | some (.sys e) => is e | _ => false) ||
  s.posts.any fun x => match x.2 with | .sys e => is e | .arr _ => false
/-- A read joins a line's sharers; a fifth overflows it (R295). -/
def State.share (s : State) (who line : Nat) : State :=
  let e := tget {} s.dir line
  if e.owner == some who || e.sharers.contains who || e.bcast then s
  else match e.owner with
  | some o => { s with dir := tput s.dir line { e with owner := none, sharers := [o, who] } }
  | none =>
    if e.sharers.length < 4 && !e.ovf then { s with dir := tput s.dir line { e with sharers := e.sharers ++ [who] } }
    else if s.ovfKnown line who then s
    else
      let h := homeOf (64 * line)
      let s := if e.ovf then s else s.noteFor 0x12 h 1 (s.resident h)
      { s with dir := tput s.dir line { e with ovf := true } }.postSys h (.overflow line who)
/-- A read of a line: the directory counts its reader, and the caches fill. -/
def State.dirRead (s : State) (who line : Nat) : State :=
  if s.cached line then (s.share (sharerOf who) line).fill who line else s

/-- Whether an overflow task for a line is still to run on its home core (R296). -/
def State.ovfBusy (s : State) (line : Nat) : Bool :=
  let k := s.core (homeOf (64 * line))
  let is (e : SysEntry) : Bool := match e with | .overflow l _ => l == line | _ => false
  (k.sysring ++ k.heldSys).any is || (match k.taken with | some (.sys e) => is e | _ => false) ||
  s.posts.any fun x => match x.2 with | .sys e => is e | .arr _ => false

/-- A write by `who` may be performed now: it waits for a line's overflow tasks, but not one of the home core itself
(R296, R297). -/
def State.mayWrite (s : State) (who line : Nat) : Bool :=
  let e := tget {} s.dir line
  !(e.ovf && !e.bcast && who != homeOf (64 * line) && s.ovfBusy line)

/-- The dirty bytes of a line pass to its new holder; what the host writes leaves none behind. -/
def State.retag (s : State) (who line : Nat) : State :=
  if s.stale.isEmpty then s
  else if who == hostAgent then { s with stale := s.stale.filter fun x => lineOf x.1 != line }
  else { s with stale := lmapIf (fun x => lineOf x.1 == line) (fun x => (x.1, { x.2 with core := sharerOf who })) s.stale }
/-- A performed write leaves its writer the only holder of the line (R297). -/
def State.dirWrite (s : State) (who line : Nat) : State :=
  if !s.cached line then s
  else
    let e := tget {} s.dir line
    if e.owner == some (sharerOf who) && !e.ovf then s.fill who line
    else
      let d := dieOf (sharerOf who)
      let host := who == hostAgent
      let s := { s with
        dir := tput s.dir line { owner := some (sharerOf who) }, ovtab := tdel s.ovtab line,
        l1d := s.l1d.map fun (x : Nat × List Nat) => if x.1 == who then x else (x.1, x.2.filter (· != line)),
        l2 := s.l2.filter fun x => x.line != line || (x.die == d && !host) }
      (s.retag who line).fill who line

/-- Keep what the L3 still holds of the bytes a dirty line has changed (R319). -/
def State.keepStale (s : State) (who pa : Nat) : Nat → State
  | 0 => s
  | n + 1 =>
    let s := s.keepStale who pa n
    match s.stale.find? (fun x => x.1 == pa + n) with
    | some x => { s with stale := tput s.stale (pa + n) { x.2 with core := who } }
    | none => { s with stale := tput s.stale (pa + n) { old := s.mem.get (pa + n), core := who } }
def State.dropStale (s : State) (pa n : Nat) : State :=
  { s with stale := s.stale.filter fun x => !(pa ≤ x.1 && x.1 < pa + n) }

/-! ## Format windows (09 R219 to R226) -/

def rangesMeet (a n b m : Nat) : Bool := 0 < n && 0 < m && a < b + m && b < a + n

def FmtWin.en (w : FmtWin) : Bool := bitOf w.ctl 0
def FmtWin.fmt (w : FmtWin) : Nat := bitsOf w.ctl 2 2
def FmtWin.pbase (w : FmtWin) : Nat := 4096 * bitsOf w.ctl 12 40
def FmtWin.len (w : FmtWin) : Nat := 4096 * bitsOf w.size 12 28
def FmtWin.sbase (w : FmtWin) : Nat := 64 * bitsOf w.scale 6 46
def FmtWin.xbase (w : FmtWin) : Nat := 4096 * bitsOf w.xb 12 40
def FmtWin.xlen (w : FmtWin) : Nat := if w.fmt == 0 then 4 * w.len else 2 * w.len
def State.fwin (s : State) (n : Nat) : FmtWin := tget {} s.fw n
/-- The windows whose aliases exist: the enabled ones, while FMT4 is accepted (03 R62). -/
def State.winList (s : State) : List (Nat × FmtWin) := if s.feat 6 then s.fw.filter fun x => x.2.en else []

/-- Base value of a four-bit code in halves (02 R47). -/
def codeHalves (ty c : Nat) : Nat :=
  match ty with
  | 0 => 2 * (if c < 8 then c else 16 - c)
  | 1 => [0, 1, 2, 3, 4, 6, 8, 12].getD (c % 8) 0
  | 2 => [0, 2, 4, 8, 16, 32, 64, 128].getD (c % 8) 0
  | _ => [0, 2, 4, 6, 8, 12, 16, 24].getD (c % 8) 0

/-- A positive dyadic h · 2^(e) of at most eight significant bits as BF16 magnitude bits (normal range). -/
def bf16Mag (h : Nat) (e : Int) : Nat :=
  if h = 0 then 0
  else
    let l := log2Fuel 16 h
    let ex := (e + l + 127).toNat
    ex * 128 + (h * 2 ^ (7 - l)) % 128

/-- The expanded value of a code (02 R48): BF16 bits. -/
def expandCode (scale c : Nat) : Nat :=
  if scale % 64 = 63 then 0x7fc0
  else
    let ty := scale / 64
    let neg := 8 ≤ c
    bf16Mag (codeHalves ty c) ((scale % 64 : Int) - 41) + (if neg then 0x8000 else 0)

/-- An eight-bit float as BF16 (09 R223): exact, infinities kept, every NaN 0x7fc0. -/
def expand8 (e5m2 : Bool) (x : Nat) : Nat :=
  let sg := (x / 128) * 0x8000
  let m := x % 128
  if e5m2 then
    let e := m / 4
    let f := m % 4
    if e = 31 then (if f = 0 then 0x7f80 + sg else 0x7fc0)
    else if e = 0 then bf16Mag f (-16) + sg
    else (e + 112) * 128 + f * 32 + sg
  else
    if m = 127 then 0x7fc0
    else
      let e := m / 8
      let f := m % 8
      if e = 0 then bf16Mag f (-9) + sg else (e + 120) * 128 + f * 16 + sg

/-- Expanded element e of a window (R223). -/
def State.expandElem (s : State) (w : FmtWin) (e : Nat) : Nat :=
  if w.fmt == 0 then
    let byte := (s.mem.get (w.pbase + e / 2)).toNat
    let code := if e % 2 = 0 then byte % 16 else byte / 16
    expandCode (s.mem.get (w.sbase + e / 32)).toNat code
  else expand8 (w.fmt == 2) (s.mem.get (w.pbase + e)).toNat

/-- The window whose expanded range holds an address. -/
def State.aliasWin (s : State) (pa : Nat) : Option FmtWin :=
  (s.winList.find? fun x => x.2.xbase ≤ pa && pa < x.2.xbase + x.2.xlen).map (·.2)
/-- One byte of an expanded alias. -/
def State.aliasByte (s : State) (w : FmtWin) (pa : Nat) : Byte :=
  let o := pa - w.xbase
  BitVec.ofNat 8 (s.expandElem w (o / 2) >>> (8 * (o % 2)))
def State.aliasBytes (s : State) (w : FmtWin) (pa : Nat) : Nat → List Byte
  | 0 => []
  | n + 1 => s.aliasByte w pa :: s.aliasBytes w (pa + 1) n

/-- The poisoned line a byte of an expanded alias is filled from: its packed line or its scale line (18 R369). -/
def State.aliasBad (s : State) (w : FmtWin) (pa : Nat) : Option Nat :=
  let e := (pa - w.xbase) / 2
  let p := if w.fmt == 0 then w.pbase + e / 2 else w.pbase + e
  if s.poisoned p then some p
  else if w.fmt == 0 && s.poisoned (w.sbase + e / 32) then some (w.sbase + e / 32)
  else none
def State.aliasBadN (s : State) (w : FmtWin) (pa n : Nat) : Option Nat :=
  (List.range n).findSome? fun i => s.aliasBad w (pa + i)

/-- Lines of the expanded alias that are made from a byte, and the packed line that a scale byte describes (R225). -/
def FmtWin.madeFrom (w : FmtWin) (pa l : Nat) : Bool :=
  let x := 64 * l
  let widened (e n : Nat) : Bool := rangesMeet x 64 (w.xbase + 2 * e) (2 * n)
  let packed (o n : Nat) : Bool := if w.fmt == 0 then widened (2 * o) (2 * n) else widened o n
  if w.pbase ≤ pa && pa < w.pbase + w.len then packed (pa - w.pbase) 1
  else if w.fmt == 0 && w.sbase ≤ pa && pa < w.sbase + w.len / 16 then
    packed (16 * (pa - w.sbase)) 16 || l == lineOf (w.pbase + 16 * (pa - w.sbase))
  else false
/-- A write to a packed or a scale byte leaves no cached copy of what is made from it (R225). -/
def State.aliasInval (s : State) (pa n : Nat) : State :=
  if s.winList.isEmpty then s
  else
    let hit (l : Nat) : Bool := s.winList.any fun w => (List.range n).any fun i => w.2.madeFrom (pa + i) l
    let gone := (s.l2.map (·.line) ++ s.l1d.flatMap (·.2)).filter hit
    gone.foldl State.dropUnheld (s.uncache hit)

/-- The granule a place lies in. -/
def Place.gran (p : Place) : Place := { p with off := p.off / 8 * 8 }
/-- Agent `who` has written n bytes of a space: what the streams of any other core knew of them holds no longer (10 R250,
13 R311; log 57). -/
def State.clobber (s : State) (who space unit off n : Nat) : State :=
  let hit (core : Nat) (p : Place) : Bool :=
    core != who && p.space == space && p.unit == unit && rangesMeet p.gran.off 8 off n
  if s.loads.isEmpty && s.was.isEmpty then s
  else { s with loads := s.loads.filter fun x => !hit x.core x.place, was := s.was.filter fun x => !hit x.core x.place }

/-- The marks of a store of n bytes by agent `who`: the directory and the caches, and what the L3 still holds; `thru`
writes through to the L3 (R319). -/
def State.storeMarks (s : State) (who pa n : Nat) (thru : Bool) : State :=
  let s := s.dirWrite who (lineOf pa)
  if thru || who == hostAgent || !s.cached (lineOf pa) then s.dropStale pa n
  else (s.keepStale (sharerOf who) pa n).dropUnheld (lineOf pa)
/-- Store bytes to device or host memory as agent `who`. A store of whole lines clears their poison (18 R369). -/
def State.storePhys (s : State) (who pa : Nat) (bs : List Byte) (thru : Bool) : State :=
  let n := bs.length
  let s := s.storeMarks who pa n thru
  let s := { s with mem := s.mem.setBytes pa bs,
                    poison := s.poison.filter fun l => !(pa ≤ 64 * l && 64 * l + 64 ≤ pa + n) }
  (s.aliasInval pa n).clobber who 0 0 pa n

/-- The scale byte a packed four-bit block at a physical address carries as sideband (R222, 11 R282). -/
def State.sideband (s : State) (pa : Nat) : Option Byte :=
  (s.winList.find? fun x => x.2.fmt == 0 && x.2.pbase ≤ pa && pa < x.2.pbase + x.2.len).map fun x =>
    s.mem.get (x.2.sbase + (pa - x.2.pbase) / 16)

/-- The conditions of R220 for enabling window n with these registers. A size of 0, which R219 does not admit, refuses
too (log 59, DESIGN CHOICE). -/
def State.fwOk (s : State) (n : Nat) (w : FmtWin) : Bool :=
  let slen := if w.fmt == 0 then w.len / 16 else 0
  w.fmt != 3 && 0 < w.len && w.pbase + w.len ≤ Config.devEnd &&
  (if w.fmt == 0 then w.sbase + slen ≤ Config.devEnd else w.sbase == 0) &&
  Config.aliasBase ≤ w.xbase && w.xbase + w.xlen ≤ Config.dcrBase && s.feat 6 &&
  s.winList.all fun x => x.1 == n ||
    ([(w.pbase, w.len), (w.sbase, slen), (w.xbase, w.xlen)].all fun r =>
      !(rangesMeet r.1 r.2 x.2.pbase x.2.len) && !(rangesMeet r.1 r.2 x.2.xbase x.2.xlen) &&
      !(x.2.fmt == 0 && rangesMeet r.1 r.2 x.2.sbase (x.2.len / 16)))

/-- A store to register k of format window n (R219, R220, R226). -/
def State.fwWrite (s : State) (n k : Nat) (v : W64) : State :=
  let w := s.fwin n
  let put (w : FmtWin) : State := { s with fw := tput s.fw n w }
  if k == 0 then
    let en := bitOf v 0
    let fields : W64 := v &&& 0x000ffffffffff00c#64
    let err : W64 := w.ctl &&& 2
    -- clearing EN leaves no cached line of the expanded range (R226)
    if w.en then (if en then s
      else (put { w with ctl := w.ctl &&& ~~~1#64 }).uncache fun l => rangesMeet (64 * l) 64 w.xbase w.xlen)
    else if en then
      let w1 : FmtWin := { w with ctl := fields }
      if s.fwOk n w1 then put { w with ctl := fields ||| 1 } else put { w with ctl := fields ||| 2 }
    else put { w with ctl := fields ||| err }
  else if w.en then s
  else if k == 1 then put { w with size := v &&& 0x000000fffffff000#64 }
  else if k == 2 then put { w with scale := v &&& 0x000fffffffffffc0#64 }
  else put { w with xb := v &&& 0x000ffffffffff000#64 }

/-! ## The device control region (09 R216, R218, R221, R236; 18 R370; 21 R396, R397) -/

/-- The level of a counter register: 0 core, 1 cluster, 2 die. -/
def monLevel (off : Nat) : Option Nat :=
  if 0x100000 ≤ off && off < 0x180000 && (off % 0x100) < 0x80 then some 0
  else if 0x180000 ≤ off && off < 0x188000 && (off % 0x200) < 0x100 then some 1
  else if 0x190000 ≤ off && off < 0x192000 && (off % 0x400) < 0x200 then some 2
  else none
/-- The levels that admit an event (R399). -/
def monAdmits (lv ev : Nat) : Bool :=
  ev ≤ 0x000f || ev == 0x0014 || (lv ≥ 1 && (ev == 0x0010 || ev == 0x0013)) ||
  (lv == 2 && (ev == 0x0011 || ev == 0x0012 || ev == 0x0015))
def Mon.ev (m : Mon) : Nat := bitsOf m.sel 0 16
def Mon.arg (m : Mon) : Nat := bitsOf m.sel 20 8

/-- A store to MONSEL (R397): OVF is write-one-to-clear. -/
def State.monselWrite (s : State) (off : Nat) (v : W64) : State :=
  match monLevel off with
  | none => s
  | some lv =>
    if off % 16 != 0 || !monAdmits lv (bitsOf v 0 16) then s
    else
      let m := tget {} s.mons (off / 16)
      let ovf : W64 := m.sel &&& ~~~v &&& 0x40000000#64
      { s with mons := tput s.mons (off / 16) { m with sel := (v &&& 0xaff0ffff#64) ||| ovf } }

/-- A store to a switch register (R370): k 0 SWTICK, 1 SWDEAD, 2 SWGRACE. -/
def State.switchWrite (s : State) (k : Nat) (v : W64) : State :=
  let t : W64 := v &&& 0xffffffff#64
  let d : W64 := v &&& 0xfffff#64
  -- ticks fall at multiples of the new period from now on (log 60)
  if k == 0 then (if t.toNat < 10000 then s else { s with swtick := t, lastTick := s.time })
  else if k == 1 then (if s.swgrace.toNat < d.toNat then s else { s with swdead := d })
  else if d.toNat < s.swdead.toNat then s else { s with swgrace := d }

/-- A 64-bit read of a register at an offset of the region; an offset not assigned reads zero. -/
def State.dcrRead (s : State) (off : Nat) : W64 :=
  if 0x1000 ≤ off && off < 0x1200 then
    let w := s.fwin ((off - 0x1000) / 32)
    match (off / 8) % 4 with | 0 => w.ctl | 1 => w.size | 2 => w.scale | _ => w.xb
  else if 0x2000 ≤ off && off < 0x2800 then tget 0xffff s.ways ((off - 0x2000) / 8)
  else if 0x2800 ≤ off && off < 0x3000 then w64 (s.owned ((off - 0x2800) / 8))
  else if 0x3000 ≤ off && off < 0x3800 then tget 0 s.heaptab ((off - 0x3000) / 8)
  else if off == 0x4000 then s.swtick
  else if off == 0x4008 then s.swdead
  else if off == 0x4010 then s.swgrace
  else match monLevel off with
  | none => 0
  | some _ =>
    let m := tget {} s.mons (off / 16)
    if off % 16 == 0 then m.sel
    -- a level event reads the current level: the lines that row ARG of the die owns (21 R397 to R399); a die has 32 rows
    else if m.ev == 0x11 then
      w64 (if m.arg < 32 then s.owned (32 * ((off - 0x190000) / 0x400) + m.arg) else 0)
    else m.cnt

/-- A 64-bit store to the region (R6: RO and RSV fields ignore it). -/
def State.dcrWrite (s : State) (off : Nat) (v : W64) : State :=
  if 0x1000 ≤ off && off < 0x1200 then s.fwWrite ((off - 0x1000) / 32) ((off / 8) % 4) v
  else if 0x2000 ≤ off && off < 0x2800 then { s with ways := tput s.ways ((off - 0x2000) / 8) (v &&& 0xffff#64) }
  else if 0x3000 ≤ off && off < 0x3800 then
    { s with heaptab := tput s.heaptab ((off - 0x3000) / 8) (v &&& 0x000fffffffffffc1#64) }
  else if off == 0x4000 then s.switchWrite 0 v
  else if off == 0x4008 then s.switchWrite 1 v
  else if off == 0x4010 then s.switchWrite 2 v
  else match monLevel off with
  | none => s
  | some _ =>
    if off % 16 == 0 then s.monselWrite off v
    else
      let m := tget {} s.mons (off / 16)
      if m.ev == 0x11 then s else { s with mons := tput s.mons (off / 16) { m with cnt := v } }

/-! ## Translation (09 R241 to R245) -/

inductive Acc
  | load | store | fetch | maint | fill
  deriving DecidableEq, Repr

/-- Why a translation fails: the code of R243, and whether the page is only absent. -/
inductive XFail
  | notPresent
  | protection
  | machine (pa : Nat)     -- the walk, or what it records, reads a poisoned line (18 R369)
  | busy                   -- what the walk records must wait for an overflowed line (13 R296)
  deriving DecidableEq, Repr

def canonical57 (va : Nat) : Bool := va / 2 ^ 56 == 0 || va / 2 ^ 56 == 255

/-- The canonical form of a 57-bit virtual address. -/
def canonOf (x : Nat) : Nat := if x.testBit 56 then x % 2 ^ 57 + (2 ^ 64 - 2 ^ 57) else x % 2 ^ 57

def pteRsv (e : Nat) : Bool :=
  (e >>> 60) % 4 != 0 || (e >>> 52) % 8 != 0 || (e >>> 8) % 16 != 0 || (e >>> 62) % 4 == 3
def pteBit (e i : Nat) : Bool := (e >>> i) % 2 == 1
def ptePpn (e : Nat) : Nat := 4096 * ((e >>> 12) % 2 ^ 40)

/-- Permission at a leaf (R242, R243). A register-store fill asks only for a valid translation (04 R102, log 8). -/
def permits (u x w r : Bool) (acc : Acc) (user : Bool) : Bool :=
  match acc with
  | .fill => true
  | .load => r && (!user || u)
  | .store => w && (!user || u)
  | .fetch => x && (!user || u)
  | .maint => (r || w) && (!user || u)

/-- Sixteen level-0 entries that form a 64 KiB page (R244). -/
def groupOk (m : Memory) (ea e : Nat) : Bool :=
  let g := ea / 128 * 128
  let first := m.le g 8
  let mask := 0xc00000000000001f
  ptePpn first % 65536 == 0 &&
  (List.range 16).all fun i =>
    let x := m.le (g + 8 * i) 8
    pteBit x 0 && pteBit x 59 && Nat.land x mask == Nat.land e mask && ptePpn x == ptePpn first + 4096 * i

/-- The walk (R241): the translation, and the entries read, leaf first. -/
def walkFrom (m : Memory) (va : Nat) (acc : Acc) (user : Bool) : Nat → Nat → List Nat → Except XFail (TlbEnt × List Nat)
  | 0, _, _ => .error .protection
  | lv + 1, table, read =>
    let ea := table + 8 * ((va >>> (12 + 9 * lv)) % 512)
    let e := m.le ea 8
    if !pteBit e 0 then .error .notPresent
    else if pteRsv e || (3 ≤ lv && pteBit e 7) then .error .protection
    else if lv == 0 || (lv ≤ 2 && pteBit e 7) then
      let sz := 4096 * 512 ^ lv
      if ptePpn e % sz != 0 then .error .protection
      else
        let u := pteBit e 4
        let k := physKind (ptePpn e)
        if k == .unassigned || (k == .dcr && u) || !permits u (pteBit e 3) (pteBit e 2) (pteBit e 1) acc user then
          .error .protection
        else
          let big := lv == 0 && pteBit e 59 && groupOk m ea e
          let size := if big then 65536 else sz
          let pa0 := if big then ptePpn e / 65536 * 65536 else ptePpn e
          .ok ({ asid := 0, va := va / size * size, size := size, pa := pa0, ok := (e >>> 62) % 4,
                 d := pteBit e 6 || acc == .store, u := u, x := pteBit e 3, w := pteBit e 2, r := pteBit e 1 },
               ea :: read)
    else walkFrom m va acc user lv (ptePpn e) (ea :: read)

/-- The entries that a walk reads, in order; of a 64 KiB group those of both its lines (R244). -/
def walkReads (m : Memory) (va : Nat) : Nat → Nat → List Nat
  | 0, _ => []
  | lv + 1, table =>
    let ea := table + 8 * ((va >>> (12 + 9 * lv)) % 512)
    let e := m.le ea 8
    if pteBit e 0 && !pteRsv e && lv == 0 && pteBit e 59 then [ea, ea / 128 * 128, ea / 128 * 128 + 64]
    else if !pteBit e 0 || pteRsv e || lv == 0 || pteBit e 7 then [ea] else ea :: walkReads m va lv (ptePpn e)

/-- Set A in every entry read, and D in the leaf for a store (R242). -/
def setAD (m : Memory) (store : Bool) : List Nat → Bool → Memory
  | [], _ => m
  | ea :: t, leaf =>
    let b0 := m.get ea
    let v : Byte := b0 ||| (if leaf && store then 0x60#8 else 0x20#8)
    setAD (m.set ea v) store t false

/-- Where cached translations stand: a core's L1 TLB before its cluster's, a cluster's alone, or none. -/
inductive TlbAt
  | core (c : Nat)
  | clu (g : Nat)
  | none
  deriving DecidableEq, Repr

def tlbHit (l : List TlbEnt) (asid va : Nat) (acc : Acc) (user : Bool) : Option TlbEnt :=
  l.find? fun t => t.asid == asid && t.va ≤ va && va < t.va + t.size && permits t.u t.x t.w t.r acc user &&
    (acc != .store || t.d)

/-- 2 MiB page number (03 R81). -/
def vpage (va : Nat) : Nat := va / 0x200000

/-- One atomic update of a word of memory by the recording unit (03 R82, 13 R296, 18 R369). -/
def State.atomicWord (s : State) (pa n : Nat) (f : Nat → Nat) : Except XFail State :=
  if s.poisoned pa then .error (.machine pa)
  else if !s.mayWrite hostAgent (lineOf pa) then .error .busy
  else .ok (s.storePhys hostAgent pa (leBytes (f (s.mem.le pa n)) n) true)
/-- Where a word of a launch's working set stands: none where no valid readable translation to memory does. -/
def State.wsetAt (s : State) (asid va : Nat) : Option Nat :=
  match walkFrom s.mem va .load false 5 (4096 * bitsOf (tget 0 s.roots asid) 12 40) [] with
  | .ok (e, _) =>
    let pa := e.pa + (va - e.va)
    if physKind pa == .device || physKind pa == .host then some pa else none
  | .error _ => none
/-- Record an installed translation in the launch's working set (03 R82): bits set by atomic OR, else LOST. Where the header's
page or the extent's has no valid readable translation, no bit is set and no installation counts as lost (log 74, DESIGN
CHOICE). -/
def State.recordPage (s : State) (launch : Option Nat) (asid : Nat) (t : TlbEnt) : Except XFail State :=
  match launch.bind (fun a => s.launches.find? fun l => l.no == a && l.record && l.asid == asid) with
  | none => .ok s
  | some l =>
    let n := if t.size ≤ 0x200000 then 1 else t.size / 0x200000
    let pages := (List.range n).map fun j => t.va / 0x200000 * 0x200000 + j * 0x200000
    let at_ (p : Nat) : Option Nat := lfind (fun e => e.1 ≤ p && p < e.1 + 64 * 0x200000) l.extents
    let mark (ext : Nat) (s : State) (p : Nat) : Except XFail State := match at_ p with
      | some i =>
        match s.wsetAt asid (ext + 16 * i + 8) with
        | some pa => s.atomicWord pa 8 fun x => Nat.lor x (2 ^ ((p - (l.extents.getD i (0, 0)).1) / 0x200000))
        | none => .ok s
      | none => .ok s
    if pages.any fun p => (at_ p).isSome then
      -- the extent table stands where the working-set header says
      match s.wsetAt asid (l.wset + 16) with
      | some pa => if s.poisoned pa then .error (.machine pa) else pages.foldlM (mark (s.mem.le pa 8)) s
      | none => .ok s
    -- no extent covers the page: one more lost installation
    else match s.wsetAt asid (l.wset + 24) with
      | some pa => s.atomicWord pa 4 fun x => if x = 0xffffffff then x else x + 1
      | none => .ok s

/-- A translation enters a core's L1 TLB of 64 entries, or a cluster's TLB of 2,048 (R245). -/
def State.l1tlbAdd (s : State) (c : Nat) (t : TlbEnt) : State :=
  let l := (s.core c).l1tlb
  if l.length < 64 then s.setCore c { s.core c with l1tlb := t :: l }
  else (s.setCore c { s.core c with l1tlb := t :: ldel l (s.freeBelow 64) }).spent
def State.ctlbAdd (s : State) (g : Nat) (t : TlbEnt) : State :=
  let l := tget [] s.ctlb g
  if l.length < 2048 then { s with ctlb := tput s.ctlb g (t :: l) }
  else { s with ctlb := tput s.ctlb g (t :: ldel l (s.freeBelow 2048)) }.spent

/-- A translation: through the caches, else by a walk that installs it (R241 to R245). -/
def State.xlate (s : State) (where_ : TlbAt) (launch : Option Nat) (asid va : Nat) (acc : Acc) (user : Bool) :
    Except XFail (Nat × TlbEnt × State) :=
  let root := tget 0 s.roots asid
  if !canonical57 (va / 2 ^ 0 % 2 ^ 64) then .error .protection
  else if !bitOf root 0 then .error .protection
  else
    let l1 := match where_ with | .core c => (s.core c).l1tlb | _ => []
    let g := match where_ with | .core c => some (cluOf c) | .clu g => some g | .none => none
    let l2 := match g with | some g => tget [] s.ctlb g | none => []
    match tlbHit l1 asid va acc user with
    | some t => .ok (t.pa + (va - t.va), t, s)
    | none =>
      match tlbHit l2 asid va acc user with
      | some t =>
        let s := match where_ with
          | .core c => s.l1tlbAdd c t
          | _ => s
        .ok (t.pa + (va - t.va), t, s)
      | none =>
        match (walkReads s.mem va 5 (4096 * bitsOf root 12 40)).find? s.poisoned with
        | some ea => .error (.machine ea)
        | none =>
        match walkFrom s.mem va acc user 5 (4096 * bitsOf root 12 40) [] with
        | .error e => .error e
        | .ok (t, read) =>
          let t := { t with asid := asid }
          let s := { s with mem := setAD s.mem (acc == .store) read true }
          let s := match where_ with
            | .core c => s.l1tlbAdd c t
            | _ => s
          match g with
          | none => .ok (t.pa + (va - t.va), t, s)
          | some g =>
            match (s.ctlbAdd g t).recordPage launch asid t with
            | .ok s => .ok (t.pa + (va - t.va), t, s)
            | .error e => .error e

/-- Where the leaf entry of a page of a size stands, whatever its V bit (R241). -/
def leafEntry (m : Memory) (va size : Nat) : Nat → Nat → Option Nat
  | 0, _ => none
  | lv + 1, table =>
    let ea := table + 8 * ((va >>> (12 + 9 * lv)) % 512)
    let e := m.le ea 8
    if size == 4096 * 512 ^ lv then some ea
    else if !pteBit e 0 || pteBit e 7 then none
    else leafEntry m va size lv (ptePpn e)
def State.leafOf (s : State) (asid va size : Nat) : Option Nat :=
  let root := tget 0 s.roots asid
  if bitOf root 0 then leafEntry s.mem va size 5 (4096 * bitsOf root 12 40) else none
/-- The page that Sluice holds below an address (18 R366). -/
def State.farPage (s : State) (asid va : Nat) : Option FarPage :=
  s.pages.find? fun p => p.asid == asid && p.va ≤ va && va < p.va + p.size
def State.heldBelow (s : State) (asid va : Nat) : Bool := (s.farPage asid va).isSome
/-- Whether the page of an address is SO, as a translation now finds it, or, of a page that Sluice holds below, as its leaf
entry says (13 R299). -/
def State.pageSo (s : State) (where_ : TlbAt) (asid va : Nat) (acc : Acc) (user : Bool) : Bool :=
  match s.xlate where_ none asid va acc user with
  | .ok (_, t, _) => t.ok == 1
  | .error _ =>
    match (s.farPage asid va).bind fun p => s.leafOf asid p.va p.size with
    | some ea => s.mem.le ea 8 / 2 ^ 62 % 4 == 1
    | none => false

def State.unreachable (s : State) (asid va : Nat) : Bool := s.unreach.contains (asid, vpage va)

/-- What an access meets where no valid translation stands (09 R243, 18 R366). -/
inductive Miss
  | fault (code : Nat)
  | demand
  deriving DecidableEq, Repr
/-- A residency fault on a unit has been raised: of an unreachable one the first access alone raises it without a wait, and
a later one starts a demand fetch (03 R84, 18 R366). -/
def State.markRaised (s : State) : Option (Nat × Nat) → State
  | some u => if s.unreach.contains u && !s.raised.contains u then { s with raised := u :: s.raised } else s
  | none => s
/-- The unit that a fault at an address marks. -/
def raisedUnit (code asid va : Nat) : Option (Nat × Nat) := if code == 0x0e then some (asid, vpage va) else none
def State.missKind (s : State) (asid va : Nat) (d : Option Demand) : Miss :=
  if !s.ovsub then .fault 0x08
  else if s.unreachable asid va && !s.raised.contains (asid, vpage va) then .fault 0x0e
  else if !s.heldBelow asid va then .fault 0x08
  else match d with
  | some x => if x.expired && x.asid == asid && x.va == va then .fault 0x0e else .demand
  | none => .demand
/-- The demand fetch an access starts, or the one it already waits on. -/
def demandFor (d : Option Demand) (asid va limit : Nat) : Demand :=
  match d with
  | some x => if x.asid == asid && x.va == va then x else { asid := asid, va := va, waited := 0, limit := limit, expired := false }
  | none => { asid := asid, va := va, waited := 0, limit := limit, expired := false }

/-- The demand fetch that the executing stream of a core waits on (18 R366). -/
def State.demandOn (s : State) (c : Nat) : Option Demand :=
  match s.cur with
  | .data _ => (s.core c).demandD
  | _ => (s.core c).demand
/-- That stream waits on a demand fetch, or on none. -/
def State.putDemand (s : State) (c : Nat) (d : Option Demand) : State :=
  match s.cur with
  | .data _ => s.setCore c { s.core c with demandD := d }
  | _ => s.setCore c { s.core c with demand := d }
/-- The access it waited for has found its translation. -/
def State.served (s : State) (c asid va : Nat) : State :=
  match s.demandOn c with
  | some d => if d.asid == asid && d.va == va then s.putDemand c none else s
  | none => s

/-- The fault of an access that finds no translation. -/
def missTrap {α : Type} (code asid va : Nat) : M α :=
  throw (.trap { code := code, addr := w64 va, unit := raisedUnit code asid va })
/-- A core's translation: faults with FADDR = VA, waits on a demand fetch. Firmware tasks address physical memory
directly (19 R376, log 20). -/
def coreXlate (asid : Nat) (va : Nat) (acc : Acc) (user : Bool) : M (Nat × TlbEnt) := do
  let s ← get
  let c := s.actor
  let k := s.core c
  if k.isFw && acc != .fill then
    let t : TlbEnt := { asid := asid, va := 0, size := Config.physEnd, pa := 0, ok := 0, d := true, u := true,
                        x := true, w := true, r := true }
    if Config.physEnd ≤ va || physKind va == .unassigned then trapAt 0x09 (w64 va) else return (va, t)
  else
  match s.xlate (.core c) k.launch asid va acc user with
  | .ok (pa, t, s') => do
    set (s'.served c asid va)
    return (pa, t)
  | .error .protection => trapAt 0x09 (w64 va)
  | .error (.machine pa) => throw (.machine pa)
  | .error .busy => waitNow
  | .error .notPresent =>
    let d := s.demandOn c
    match s.missKind asid va d with
    | .fault code => missTrap code asid va
    | .demand => throw (.wait (some (demandFor d asid va k.demandlimL)))

/-! ## What the two streams load and store (10 R250) -/

/-- The byte of a place. -/
def State.placeByte (s : State) (p : Place) : Byte :=
  match p.space with
  | 0 => s.mem.get p.off
  | 1 => (s.core p.unit).spad.get p.off
  | 2 => (s.core p.unit).cspad.get p.off
  | _ => Memory.get (tget [] s.dspad p.unit) p.off
def State.placeBytes (s : State) (p : Place) (n : Nat) : List Byte :=
  (List.range n).map fun i => s.placeByte { p with off := p.off + i }
/-- The first n elements that a test picks stay, and all others that it does not. -/
def keepHits {α : Type} (p : α → Bool) : Nat → List α → List α
  | _, [] => []
  | n, x :: t => if p x then (match n with | 0 => keepHits p 0 t | n + 1 => x :: keepHits p n t) else x :: keepHits p n t
/-- A core's loads and stores are over: what follows in either stream is ordered after them. -/
def State.settleRace (s : State) (c : Nat) : State :=
  { s with loads := s.loads.filter fun x => x.core != c, was := s.was.filter fun x => x.core != c }

/-! ## Register space and the register store (04 R101, R102) -/

/-- The host link answers the write-back of a dirty line with an error (09 R409). -/
def State.rsError (s : State) (l : RsLine) : Bool := l.dirty && s.linkError l.pa
/-- Write a dirty line back to the physical address its fill found. An expanded alias takes no write (09 R224), and what the
host link answers with an error is not written (R409). -/
def State.rsWriteBack (s : State) (c : Nat) (l : RsLine) : State :=
  if l.dirty && (physKind l.pa == .device || physKind l.pa == .host) && !s.linkError l.pa then
    (s.storePhys c l.pa (leBytes (l.words.foldr (fun w acc => w.toNat + 2 ^ 64 * acc) 0) 64) false).clobber hostAgent 0 0 l.pa 64
  else s
/-- A dirty line may be written back now (13 R296). -/
def State.rsMayWrite (s : State) (c : Nat) (l : RsLine) : Bool := !l.dirty || s.mayWrite c (lineOf l.pa)
/-- Write back and invalidate every line of a core that a test picks. -/
def State.rsFlush (s : State) (c : Nat) (p : RsLine → Bool) : State :=
  let ls := (s.core c).rs
  let s := ls.foldl (fun s x => if p x.2 then s.rsWriteBack c x.2 else s) s
  s.setCore c { s.core c with rs := ls.filter fun x => !p x.2 }

def Core.rsLine? (k : Core) (i : Nat) : Option RsLine := (k.rs.find? fun x => x.1 == i / 8).map (·.2)

/-- A line that must stay: a write to one of its words is pending (R102), or may have to be taken back (18 R356), or a data
instruction that the scalar stream has passed names one of them, which it may not miss any more (18 R357). -/
def Core.rsPinned (k : Core) (i : Nat) : Bool :=
  k.pend.any (fun p => !p.fw && p.word / 8 == i) || k.dq.any (·.lines.contains i) ||
  k.undo.any fun u => match u with | .word _ w _ => w / 8 == i | _ => false
/-- The eight words that a fill takes, from memory or from an expanded alias (09 R221, R223, R226). -/
def fillWords (va pa : Nat) : M (List W64) := do
  let s ← get
  let c := s.actor
  match physKind pa with
  | .dcr => trapAt 0x07 (w64 va)
  | .unassigned => trapAt 0x09 (w64 va)
  | .alias_ =>
    match s.aliasWin pa with
    | none => trapAt 0x09 (w64 va)
    | some w =>
      match s.aliasBadN w pa 64 with
      | some q => throw (.machine q)
      | none => do
        set (s.fill c (lineOf pa))
        return (List.range 8).map fun j => w64 (leNat (s.aliasBytes w (pa + 8 * j) 8))
  | _ =>
    if s.poisoned pa then throw (.machine pa)
    else do
      set (s.dirRead c (lineOf pa))
      return (List.range 8).map fun j => w64 (s.mem.le (pa + 8 * j) 8)
/-- Bring the line of word i into the store: a fill may fault, and a full set gives up one line (R102), once that may be
written back (13 R296). -/
def rsEnsure (i : Nat) : M Unit := do
  let k ← myCore
  if k.isFw then return ()
  match k.rsLine? i with
  | some _ => return ()
  | none => do
    let c ← me
    let asid := (← get).hasid c
    let va := (canonOf k.rbb.toNat + 64 * (i / 8)) % 2 ^ 64
    let (pa, _) ← coreXlate asid va .fill false
    let words ← fillWords va pa
    let k ← myCore
    let inSet := k.rs.filter fun x => x.1 % 256 == (i / 8) % 256
    if 8 ≤ inSet.length then do
      let s ← get
      let cands := inSet.filter fun x => !k.rsPinned x.1 && s.rsMayWrite c x.2
      let r ← draw
      match cands[r % cands.length]? with
      | none => waitNow
      | some v => do
        if s.rsError v.2 then throw (.machine v.2.pa)
        modify fun s => (s.rsWriteBack c v.2).setCore c { s.core c with rs := tdel (s.core c).rs v.1 }
    note 0x9 c 1
    modMe fun k => { k with rs := tput k.rs (i / 8) { tag := asid, pa := pa, dirty := false, words := words } }

/-- The value a present word holds. -/
def Core.word (k : Core) (i : Nat) : W64 :=
  if k.isFw then tget 0 k.fwregs i
  else match k.rsLine? i with
  | some l => l.words.getD (i % 8) 0
  | none => 0
def Core.putWord (k : Core) (i : Nat) (v : W64) : Core :=
  if k.isFw then { k with fwregs := tput k.fwregs i v }
  else match k.rsLine? i with
  | some l => { k with rs := tput k.rs (i / 8) { l with dirty := true, words := lset l.words (i % 8) v } }
  | none => k
def Core.pending (k : Core) (i : Nat) : Bool := k.pend.any fun p => p.word == i && p.fw == k.isFw

/-- Loads that a read of word i settles: the word's own, and what its stream loaded of the granule before (10 R250). -/
def afterRead (c i : Nat) : List Loaded → List Loaded
  | [] => []
  | x :: t =>
    if x.core == c && x.word == i then
      t.filter fun y => !(y.core == c && y.data == x.data && y.place.gran == x.place.gran)
    else x :: afterRead c i t
/-- Read a register-space word: it waits for a pending write (R102). -/
def readAbs (i : Nat) : M W64 := do
  let k ← myCore
  readyWhen (!k.pending i)
  rsEnsure i
  let s ← get
  set { s with loads := afterRead s.actor i s.loads }
  return (← myCore).word i

/-- Register fields a data-stream instruction may write, as vectors and words: enough to order writes to one word. -/
def dstFields : Instr → List Reg × List Reg
  | .vld d .. | .vlds d .. | .vgat d .. | .ldl d .. | .vlsp d .. | .vlcl d .. | .vldd d .. => ([d], [])
  | .vadd _ _ d .. | .vsub _ _ d .. | .vcmp _ _ d .. => ([d], [])
  | .vmul _ d .. | .vmulh _ d .. | .vdiv _ d .. | .vrem _ d .. | .vand _ d .. | .vor _ d .. | .vxor _ d ..
  | .vshl _ d .. | .vshr _ d .. | .vmin _ d .. | .vmax _ d .. | .vabs _ d .. | .vsel d .. => ([d], [])
  | .vfadd _ _ d .. | .vfsub _ _ d .. | .vfmul _ _ d .. | .vfdiv _ _ d .. | .vfsqrt _ _ d .. | .vfrint _ _ d ..
  | .vfscl _ _ d .. | .vfsgn _ _ d .. | .vfcmp _ _ d .. => ([d], [])
  | .vfmin _ d .. | .vfmax _ d .. | .vfabs _ d .. | .vfneg _ d .. | .vfcls _ d .. => ([d], [])
  | .vcvt _ _ _ _ _ d .. => ([d], [])
  | .vfma _ _ d .. | .vfms _ _ d .. | .vfnma _ _ d .. | .vfnms _ _ d .. | .vfaddk _ _ d .. | .vfmulk _ _ d .. => ([d], [])
  | .vaddk _ d .. | .vmulk _ d .. | .vbcast d .. | .vbcastk d .. | .vins d .. => ([d], [])
  | .vperm d .. | .vrot d .. | .vzip _ d .. | .vunzip _ d .. | .vcompress d .. | .vexpand d .. => ([d], [])
  | .xsgn d .. | .xrnd _ d .. | .vdotx _ d .. => ([d], [])
  | .vext d .. | .vmask d .. | .vmcnt d .. => ([], [d])
  | .vredadd _ d .. | .vredmin _ d .. | .vredmax _ d .. | .vredand _ d .. | .vredor _ d .. | .vredxor _ d ..
  | .vfredmin _ d .. | .vfredmax _ d .. => ([], [d])
  | .vfredadd _ _ d .. => ([], [d])
  | _ => ([], [])
/-- Whether a waiting data-stream instruction may write an absolute word. -/
def Core.dqWrites (k : Core) (i : Nat) : Bool :=
  k.dq.any fun e =>
    let (v, w) := dstFields e.instr
    let b := k.wbase.toNat
    v.any (fun d => d.toNat < 248 && b + 16 * d.toNat ≤ i && i < b + 16 * d.toNat + 16) ||
    w.any (fun d => d.toNat < 0xf80 && i == b + d.toNat)

/-- Data-stream instructions that may fault after decode: those of 18 R357, and the commands whose checks 10 R260 and 11 R280
make at their issue, which R357 does not list (log 13, DEDUCED). -/
def mayFault : Instr → Bool
  | .vld .. | .vst .. | .vlds .. | .vsts .. | .vgat .. | .vsct .. | .ldl .. | .stl .. | .vlsp .. | .vssp ..
  | .vlcl .. | .vscl .. | .vldd .. | .vstd .. => true
  | .vfaddk .. | .vfmulk .. | .vaddk .. | .vmulk .. | .vbcastk .. | .xst .. | .xld .. | .vdotx .. => true
  | .send .. | .sendb .. | .chctlOpen .. | .tld .. | .tst .. | .mma .. | .amov .. | .ast .. | .ald .. | .tldq .. => true
  | _ => false
/-- A waiting instruction may fault: by its kind, or by the fill of a line that it names and the store does not hold. -/
def Core.mayStop (k : Core) (e : Deferred) : Bool :=
  mayFault e.instr || (!k.isFw && e.lines.any fun i => !k.rs.any fun x => x.1 == i)
def Core.speculative (k : Core) : Bool := k.dq.any k.mayStop

/-- The scalar stream holds an effect outside the core while a data instruction before it may still fault
(18 R356, R357; log 13). -/
def holdOutside : M Unit := do
  match (← get).cur with
  | .core c => readyWhen (!((← get).core c).speculative)
  | _ => pure ()
/-- It holds a store or an atomic so too, but where the schedule lets it pass what the data stream holds (10 R250, log 57). -/
def holdStore : M Unit := do
  match (← get).cur with
  | .core c => readyWhen ((← get).passing || !((← get).core c).speculative)
  | _ => pure ()

/-- Remember what a speculative scalar effect replaces. -/
def logUndo (u : Nat → Core → Undo) : M Unit := do
  match (← get).cur with
  | .core c => do
    let k := (← get).core c
    if k.speculative then modCore c fun k => { k with undo := u k.seq k :: k.undo }
  | _ => pure ()

/-- Some line of word i's set can still be given up: at most seven of the eight hold words to take back (log 13). -/
def Core.undoRoom (k : Core) (i : Nat) : Bool :=
  let lines := (k.undo.filterMap fun u => match u with | .word _ w _ => some (w / 8) | _ => none).eraseDups
  lines.contains (i / 8) || (lines.filter fun l => l % 256 == i / 8 % 256).length < 7
/-- Write a register-space word; writes to one word land in program order (R102). -/
def writeAbs (i : Nat) (v : W64) : M Unit := do
  let k ← myCore
  readyWhen (!k.pending i)
  match (← get).cur with
  | .core _ => readyWhen (!k.dqWrites i && (!k.speculative || k.undoRoom i))
  | _ => pure ()
  rsEnsure i
  logUndo fun n k => .word n i (k.word i)
  modify fun s => { s with loads := s.loads.filter fun x => !(x.core == s.actor && x.word == i) }
  modMe fun k => k.putWord i v

/-- A late write: the word is pending until it lands (R102). -/
def writeLate (i : Nat) (kind : PendKind) (v : W64) : M Unit := do
  let k ← myCore
  match (← get).cur with
  | .core _ => readyWhen (!k.dqWrites i)
  | _ => pure ()
  -- past a data instruction that may still fault the write must be one that can be taken back (log 13)
  if k.speculative then writeAbs i v
  else do
    rsEnsure i
    modify fun s => { s with loads := s.loads.filter fun x => !(x.core == s.actor && x.word == i) }
    modMe fun k => { k with pend := k.pend ++ [{ word := i, kind := kind, val := v, fw := k.isFw }] }

/-! ## Memory in every space (09 R210 to R212, 04 R93, 10 R248) -/

/-- Bytes of cluster-shared memory and of die scratchpad a core sees (R93). -/
def State.cluSize (s : State) (c : Nat) : Nat := 0x40000 * Nat.min (s.nP c) 32
def State.dieRows (s : State) (c : Nat) : Nat := Nat.min (nodeRows (s.nodeOf c)) 32
def State.dieSize (s : State) (c : Nat) : Nat := Config.dieShare * s.dieRows c
def State.cluFirst (s : State) (c : Nat) : Nat := Nat.max (s.base c) (32 * cluOf c)
def State.dieFirstRow (s : State) (c : Nat) : Nat := Nat.max (nodeRow0 (s.nodeOf c)) (32 * dieOf c)

/-- An on-chip address of core c's task: none where it breaks R93, R13 or R211. -/
def State.onchip (s : State) (c : Nat) (sp : Space) (x n : Nat) : Option Loc :=
  match sp with
  | .mem => none
  | .spad =>
    let idx := (x >>> 32) % 2048
    let off := x % 0x40000
    if x / 2 ^ 43 != 0 || (x >>> 18) % 2 ^ 14 != 0 || s.nP c ≤ idx || Config.spadSize < off + n then none
    else some (.spad (s.base c + idx) off)
  | .clu =>
    if s.cluSize c < x + n then none else some (.clu (s.cluFirst c + x / 0x40000) (x % 0x40000))
  | .die =>
    if s.dieSize c < x + n then none
    else some (.die (dieOf c) (Config.dieShare * (s.dieFirstRow c % 32) + x))

/-- Access kinds of the checks of R248. -/
inductive Acc2
  | load | store | atomic
  deriving DecidableEq, Repr
def Acc2.xl : Acc2 → Acc
  | .load => .load
  | .store => .store
  | .atomic => .store
def Acc2.writes : Acc2 → Bool
  | .load => false
  | _ => true

/-- The space a physical address belongs to, checked for an access (R248 step 4; R221, R224, R226). `dcrOk` marks
the 64-bit forms that reach the device control region. -/
def physLoc (va pa : Nat) (so writes dcrOk : Bool) : M Loc := do
  let s ← get
  match physKind pa with
  | .device => return .phys pa so
  | .host => return .phys pa (so || !s.feat 2)
  | .alias_ =>
    match s.aliasWin pa with
    | none => trapAt 0x09 (w64 va)
    | some w => if writes then trapAt 0x0a (w64 va) else return .ali w pa
  | .dcr => if dcrOk then return .dcr (pa - Config.dcrBase) else trapAt 0x07 (w64 va)
  | .unassigned => trapAt 0x09 (w64 va)

/-- The checks of R248 on one access of n bytes, and where it lands. -/
def accessLoc (sp : Space) (asid : Nat) (x : W64) (n : Nat) (acc : Acc2) (dcrOk : Bool) : M Loc := do
  check (x.toNat % n == 0) 0x07 x
  match sp with
  | .mem => do
    let k ← myCore
    let (pa, t) ← coreXlate asid x.toNat acc.xl (!k.sup)
    if acc == .atomic && !t.r then trapAt 0x09 x
    physLoc x.toNat pa (t.ok == 1) acc.writes dcrOk
  | _ =>
    match (← get).onchip (← me) sp x.toNat n with
    | none => trapAt 0x09 x
    | some l => return l

/-- The place of an access to plain bytes. -/
def Loc.place : Loc → Option Place
  | .phys pa _ => some { space := 0, unit := 0, off := pa }
  | .spad c o => some { space := 1, unit := c, off := o }
  | .clu c o => some { space := 2, unit := c, off := o }
  | .die d o => some { space := 3, unit := d, off := o }
  | _ => none
/-- Whether the accesses of one core to it keep program order across its streams: SO memory and the device control
region (13 R302, R305, log 61). -/
def Loc.so : Loc → Bool
  | .phys _ so => so
  | .dcr _ => true
  | _ => false
/-- The same place as an SO access. -/
def Loc.strict : Loc → Loc
  | .phys pa _ => .phys pa true
  | l => l
/-- Read n bytes; `share` makes the reader a sharer of the line, which the read of an atomic that goes on to write need
not be (13 R295, R297). -/
def readLoc (share : Bool) (l : Loc) (n : Nat) : M Nat := do
  let c ← me
  let s ← get
  match l with
  | .phys pa _ =>
    if s.poisoned pa then throw (.machine pa)
    else do
      if share then set (s.dirRead c (lineOf pa))
      return s.mem.le pa n
  | .ali w pa =>
    match s.aliasBadN w pa n with
    | some p => throw (.machine p)
    | none => do
      set (s.fill c (lineOf pa))
      return leNat (s.aliasBytes w pa n)
  | .dcr off => return (s.dcrRead off).toNat
  | .spad k o => return (s.core k).spad.le o n
  | .clu k o => return (s.core k).cspad.le o n
  | .die d o => return Memory.le (tget [] s.dspad d) o n
/-- Read n bytes. -/
def loadLoc (l : Loc) (n : Nat) : M Nat := readLoc true l n

/-- Core c's scratchpad comes to hold m: a change of its deque's BOT ends a halted core's rest (19 R386). -/
def State.putSpad (s : State) (c : Nat) (m : Memory) : State :=
  let k := s.core c
  s.setCore c { k with spad := m, halted := k.halted && m.le 0x37fc8 8 == k.spad.le 0x37fc8 8 }

/-- Write n bytes; a store to an overflowed line waits for its acknowledgements (13 R296). -/
def storeLoc (l : Loc) (n v : Nat) : M Unit := do
  let c ← me
  let s ← get
  match l with
  | .phys pa so => do
    if s.linkError pa then throw (.machine pa)
    readyWhen (s.mayWrite c (lineOf pa))
    set (s.storePhys c pa (leBytes v n) so)
  | .ali _ _ => pure ()
  | .dcr off => set (s.dcrWrite off (w64 v))
  | .spad k o => set ((s.putSpad k ((s.core k).spad.setLe o n v)).clobber c 1 k o n)
  | .clu k o => set ((s.setCore k { s.core k with cspad := (s.core k).cspad.setLe o n v }).clobber c 2 k o n)
  | .die d o => set ({ s with dspad := tput s.dspad d (Memory.setLe (tget [] s.dspad d) o n v) }.clobber c 3 d o n)

/-- A 32-byte record of four words in a core's scratchpad. -/
def Memory.rec (m : Memory) (o : Nat) : Rec :=
  { code := w64 (m.le o 8), frame := w64 (m.le (o + 8) 8), arg := w64 (m.le (o + 16) 8), ctrl := w64 (m.le (o + 24) 8) }
def Memory.setRec (m : Memory) (o : Nat) (r : Rec) : Memory :=
  (((m.setLe o 8 r.code.toNat).setLe (o + 8) 8 r.frame.toNat).setLe (o + 16) 8 r.arg.toNat).setLe (o + 24) 8 r.ctrl.toNat
def Rec.words (r : Rec) : List W64 := [r.code, r.frame, r.arg, r.ctrl]
def recOf (l : List W64) : Rec :=
  { code := l.getD 0 0, frame := l.getD 1 0, arg := l.getD 2 0, ctrl := l.getD 3 0 }
/-- Fields of CTRL (01 R8). -/
def Rec.join (r : Rec) : Nat := bitsOf r.ctrl 0 16
def Rec.wreq (r : Rec) : Nat := bitsOf r.ctrl 16 16
def Rec.move (r : Rec) : Bool := bitOf r.ctrl 32
def Rec.restart (r : Rec) : Bool := bitOf r.ctrl 33
def Rec.sys (r : Rec) : Bool := bitOf r.ctrl 34
def Rec.rsv (r : Rec) : Nat := bitsOf r.ctrl 35 13
def Rec.level (r : Rec) : Nat := bitsOf r.ctrl 48 8
def Rec.cls (r : Rec) : Nat := bitsOf r.ctrl 62 2
/-- The domain a record may run in (01 R11): made on core `home`, may it run on core `c`? -/
def State.inDomain (s : State) (r : Rec) (home c : Nat) : Bool :=
  s.nodeOf home == s.nodeOf c &&
  match r.level with
  | 1 => rowOf home == rowOf c
  | 2 => cluOf home == cluOf c
  | 3 => dieOf home == dieOf c
  | 4 => true
  | _ => home == c

/-- A join-address word (01 R13). -/
def joinAddr (idx off : Nat) : W64 := w64 (idx * 2 ^ 32 + off)

/-! ## Arrivals (14 R328) -/

def Core.heldArr (k : Core) : Nat := k.held.length
/-- Room in the links toward a core (R328). -/
def State.linkFree (s : State) (c : Nat) : Bool :=
  (s.net.filter fun x => x.2.1 == c).length + (s.core c).heldArr < Config.linkRoom c
/-- A posting agent holds an arrival for a core. -/
def State.arrPosted (s : State) (c : Nat) : Bool :=
  s.posts.any fun x => x.1 == c && (match x.2 with | .arr _ => true | .sys _ => false)
/-- Send an arrival; the sender holds at issue while the links are full. -/
def sendArrival (dst : Nat) (a : Arrival) : M Unit := do
  let s ← get
  readyWhen (s.linkFree dst)
  set { s with net := s.net ++ [(s.actor, dst, a)] }

/-- Apply one arrival at its core if its target has room: `none` where it must be held (R15, R328). -/
def State.applyArrival (s : State) (c : Nat) : Arrival → Option State
  | .ready e =>
    let k := s.core c
    if k.ready.length < 256 then some (s.setCore c { k with ready := k.ready ++ [e], halted := false }) else none
  | .msg m =>
    let k := s.core c
    if k.inbox.length < 64 then some (s.setCore c { k with inbox := k.inbox ++ [m], halted := false }) else none
  | .decr off launch =>
    let k := s.core c
    let r := k.spad.rec off
    let join := r.join
    if join == 0 then
      some (s.postSys c (.fault 0x02 (joinAddr (s.pidx c) off) r.code r (s.pidx c) launch))
    else
      let put (j : Nat) (k : Core) : Core := { k with spad := k.spad.setLe (off + 24) 2 j }
      let s := s.clobber hostAgent 1 c (off + 24) 2
      if 1 < join then some (s.setCore c (put (join - 1) k))
      else if r.code == 0 then
        -- a root slot signals the front end (01 R31): one of partition core 0, of a launch of the tenant resident there
        let s := s.setCore c (put 0 k)
        let n := s.nodeOf c
        let hit (l : Launch) : Bool := l.part == n && some l.tenant == s.resident c && s.pidx c == 0 &&
          (l.st == .running || l.st == .placing) &&
          (match l.rootK with | some j => off + 32 * j == 0x3ffe0 | none => false)
        some { s with launches := lmapIf hit (fun l => { l with released := true }) s.launches }
      else
        let e : Entry := { tr := { r with ctrl := r.ctrl &&& ~~~0xffff#64 }, src := joinAddr (s.pidx c) off, origin := s.pidx c,
                           launch := launch, restarts := 0, passed := 0 }
        if k.ready.length < 256 then
          some (s.setCore c { put 0 k with ready := k.ready ++ [e], halted := false })
        else none

/-- A releasing decrement that finds the ring full sets JOIN to 0 and holds the release (R15); any other arrival is
held as it is. -/
def State.holdArrival (s : State) (c : Nat) (a : Arrival) : State :=
  let k := s.core c
  match a with
  | .decr off launch =>
    let r := k.spad.rec off
    if k.held.isEmpty && r.join == 1 then
      let e : Entry := { tr := { r with ctrl := r.ctrl &&& ~~~0xffff#64 }, src := joinAddr (s.pidx c) off, origin := s.pidx c,
                         launch := launch, restarts := 0, passed := 0 }
      (s.clobber hostAgent 1 c (off + 24) 2).setCore c
        { k with spad := k.spad.setLe (off + 24) 2 0, held := k.held ++ [.ready e] }
    else s.setCore c { k with held := k.held ++ [a] }
  | _ => s.setCore c { k with held := k.held ++ [a] }

/-- An arrival reaches its core: behind a held one it waits its turn. -/
def State.arrive (s : State) (c : Nat) (a : Arrival) : State :=
  if (s.core c).held.isEmpty then
    match s.applyArrival c a with
    | some s' => s'
    | none => s.holdArrival c a
  else s.holdArrival c a

/-- An arrival that a dispatcher or the front end posts: it is held there while the links are full, behind what is held
already (R328; log 56). -/
def State.postArr (s : State) (c : Nat) (a : Arrival) : State :=
  if s.linkFree c && !s.arrPosted c then s.arrive c a else { s with posts := s.posts ++ [(c, .arr a)] }
/-- The first post held for core c goes on its way, once the links have room. -/
def State.pump (s : State) (c : Nat) : State :=
  match lfind (fun x => x.1 == c) s.posts with
  | none => s
  | some i =>
    match s.posts[i]? with
    | some (_, .sys e) =>
      let k := s.core c
      if k.sysring.length < 64 && k.heldSys.isEmpty then
        { s.setCore c { k with sysring := k.sysring ++ [e], halted := false } with posts := ldel s.posts i }
      else if k.heldSys.length < Config.linkRoom c then
        { s.setCore c { k with heldSys := k.heldSys ++ [e], halted := false } with posts := ldel s.posts i }
      else s
    | some (_, .arr a) => if s.linkFree c then { s with posts := ldel s.posts i }.arrive c a else s
    | none => s
/-- A decrement the front end makes of a launch's root slot (01 R28). -/
def State.rootDecr (s : State) (a : Nat) : State :=
  match s.launches.find? fun l => l.no == a with
  | some l =>
    match l.rootK with
    | some j => s.postArr (8 * nodeRow0 l.part) (.decr (0x3ffe0 - 32 * j) (some a))
    | none => s
  | none => s

/-! ## The management log (21 R406) -/

/-- Big-endian numbers. -/
def beNat (bs : List Byte) : Nat := leNat bs.reverse
def beBytes (x n : Nat) : List Byte := (leBytes x n).reverse
/-- The order of the group of P-384. -/
def p384Order : Nat :=
  0xffffffffffffffffffffffffffffffffffffffffffffffffc7634d81f4372ddf581a0db248b0a77aecec196accc52973
/-- A layer's private key (21 R400). -/
def layerKey (seed : List Byte) : List Byte :=
  beBytes (1 + beNat (Config.hmac384 seed [1]) % (p384Order - 1)) 48
/-- The layer seeds S(0) to S(2), from the digests of the layer images that run (21 R400). -/
def Mgmt.seed (g : Mgmt) : Nat → List Byte
  | 0 => Config.deviceSecret
  | 1 => Config.hmac384 Config.deviceSecret g.m1
  | _ => Config.hmac384 (Config.hmac384 Config.deviceSecret g.m1) g.m2
/-- The certificate of layer n + 1's key under layer n's. -/
def Mgmt.certOf (g : Mgmt) (n : Nat) : List Byte :=
  Config.x509 (Config.ecdsaPublic (layerKey (g.seed (n + 1)))) (layerKey (g.seed n))
/-- The certificates of the layers that run, layer 0's first. The four bytes of length before them (R402) hold the length
of all three, so each is cut at 2^30 bytes (log 18). -/
def Mgmt.certs (g : Mgmt) : List (List Byte) :=
  ([Config.identityCert (Config.ecdsaPublic (layerKey (g.seed 0))), g.certOf 0, g.certOf 1].take (g.layer + 1)).map
    (·.take (2 ^ 30))
/-- Bytes +0 to +63 of a log entry. -/
def EvLogEnt.head (e : EvLogEnt) : List Byte :=
  leBytes e.seq 8 ++ leBytes e.time 8 ++ leBytes e.kind 2 ++ leBytes e.sev 2 ++ (e.data ++ List.replicate 44 0).take 44
/-- Add one entry; a full log loses its oldest 256. -/
def State.logPut (s : State) (kind : Nat) (data : List Byte) : State :=
  let g := s.mgmt
  let chain := match g.evlog.getLast? with | some e => e.chain | none => List.replicate 48 0
  let e : EvLogEnt := { seq := g.evseq, time := s.time, kind := Config.logKind kind, sev := Config.logSev kind % 4,
                        data := data, chain := [] }
  let e := { e with chain := Config.sha384 (chain ++ e.head) }
  let old := if Config.logEntries ≤ g.evlog.length then g.evlog.drop 256 else g.evlog
  { s with mgmt := { g with evlog := old ++ [e], evseq := g.evseq + 1 } }
/-- Log an event: 0 throttle, 1 shutdown, 2 machine check, 3 late switch, 4 update, 5 boot; after every 256th entry the
layer-2 key signs the chain (log 19). -/
def State.logEvent (s : State) (kind : Nat) : State :=
  let s := s.logPut kind (Config.logData kind)
  if s.mgmt.evseq % 257 == 256 then
    let chain := match s.mgmt.evlog.getLast? with | some e => e.chain | none => []
    s.logPut 6 (Config.logSig (Config.ecdsaSign (layerKey (s.mgmt.seed 2)) chain))
  else s
/-! ## The event ring (03 R85, R86) -/

def State.queue? (s : State) (q : Nat) : Option Queue := s.queues.find? fun x => x.q == q
def State.launch? (s : State) (a : Nat) : Option Launch := s.launches.find? fun l => l.no == a
def State.modLaunch (s : State) (a : Nat) (f : Launch → Launch) : State :=
  { s with launches := lmapIf (fun l => l.no == a) f s.launches }

/-- A front-end write is performed in the L3 (21 R393). One that the host link answers with an error is not, and its machine
check goes to the management log alone: the front end has no task that it could end (09 R409, 18 R369; log 75, DESIGN
CHOICE). -/
def State.fePut (s : State) (pa : Nat) (bs : List Byte) : State :=
  if s.linkError pa then s.logEvent 2 else s.storePhys hostAgent pa bs true
/-- A front-end write to memory. On a line whose overflow tasks are still to run it waits at the directory, and later writes of
the front end wait behind it (13 R296; log 56). -/
def State.feBytes (s : State) (pa : Nat) (bs : List Byte) : State :=
  if s.feq.isEmpty && s.mayWrite hostAgent (lineOf pa) then s.fePut pa bs
  else { s with feq := s.feq ++ [{ pa := pa, bytes := bs }] }
def State.feStore (s : State) (pa n v : Nat) : State := s.feBytes pa (leBytes v n)
/-- The front end's waiting writes that may now be performed, in order. -/
def State.feDrain (s : State) : List FeWrite → State
  | [] => { s with feq := [] }
  | w :: t =>
    if s.mayWrite hostAgent (lineOf w.pa) then (s.fePut w.pa w.bytes).feDrain t
    else { s with feq := w :: t }
def State.modQueue (s : State) (q : Nat) (f : Queue → Queue) : State :=
  { s with queues := lmapIf (fun x => x.q == q) f s.queues }
/-- Write a queue's STATUS word. -/
def State.putStatus (s : State) (qu : Queue) (v : Nat) : State :=
  (s.modQueue qu.q fun x => { x with status := v }).feStore (qu.qcb + 24) 8 v
/-- Set bits of a queue's STATUS; the first error fills ELID and ECODE (R64). -/
def State.qError (s : State) (q : Nat) (bits lid code : Nat) (err : Bool) : State :=
  match s.queue? q with
  | none => s
  | some qu =>
    let first := if err && qu.status % 2 == 0 then 2 ^ 32 * lid + 2 ^ 24 * code + 1 else 0
    s.putStatus qu (Nat.lor (Nat.lor qu.status first) bits)

/-- An access of the front end: no TLB, no user check. -/
def State.feXlate (s : State) (asid va : Nat) (acc : Acc) : Except XFail (Nat × TlbEnt × State) :=
  s.xlate .none none asid va acc false

/-- The ring is full, or cannot be written: the event is lost and the queue halts (R86). -/
def State.loseEvent (s : State) (qu : Queue) (kind code lid : Nat) : State :=
  let s := s.qError qu.q (16 + 2) lid code (kind != 7)
  let n := if qu.ovcnt = 0xffffffff then qu.ovcnt else qu.ovcnt + 1
  (s.modQueue qu.q fun x => { x with ovcnt := n }).feStore (qu.qcb + 52) 4 n
/-- Post an event entry (R85, R86): EVTAIL is the host's, read from the QCB. A page of the ring that Sluice holds below is not
fetched: the write has faulted, and the event is lost (log 76, DESIGN CHOICE). Where EVTAIL's line is poisoned, or the host link
answers the ring's with an error, the event is lost too, and the machine check is logged (18 R369, log 75). -/
def State.postEvent (s : State) (q kind code lid : Nat) (d0 d1 : W64) : State :=
  match s.queue? q with
  | none => s
  | some qu =>
    let tail := s.mem.le (qu.qcb + 48) 4
    if s.poisoned (qu.qcb + 48) then (s.loseEvent qu kind code lid).logEvent 2
    else if (qu.evhead + 2 ^ 32 - tail) % 2 ^ 32 < 2 ^ qu.evlog then
      match s.feXlate qu.asid (qu.evbase + 32 * (qu.evhead % 2 ^ qu.evlog)) .store with
      | .error _ => s.loseEvent qu kind code lid
      | .ok (pa, _, s) =>
        if s.linkError pa then (s.loseEvent qu kind code lid).logEvent 2
        else if physKind pa == .device || physKind pa == .host then
          let s := s.feStore pa 8 (kind + 256 * code + 2 ^ 32 * lid)
          let s := s.feStore (pa + 8) 8 s.time
          let s := s.feStore (pa + 16) 8 d0.toNat
          let s := s.feStore (pa + 24) 8 d1.toNat
          let n := (qu.evhead + 1) % 2 ^ 32
          (s.modQueue q fun x => { x with evhead := n }).feStore (qu.qcb + 44) 4 n
        else s.loseEvent qu kind code lid
    else s.loseEvent qu kind code lid

/-- An event on the queue of a launch; none where there is no launch. -/
def State.launchEvent (s : State) (l : Option Nat) (kind code : Nat) (d0 d1 : W64) : State :=
  match l.bind s.launch? with
  | some x => s.postEvent x.q kind code x.lid d0 d1
  | none => s

/-- The events of a machine check (18 R369, 21 R406). -/
def State.checkEvent (s : State) (l : Option Nat) (code core addr : Nat) : State :=
  (s.launchEvent l 6 code (w64 core) (w64 addr)).logEvent 2

/-! ## Mesh ports (04 R99) -/

/-- The inbound queue of a port: direction 0 north, 1 east, 2 south, 3 west. -/
def Core.port (k : Core) (d : Nat) : List W64 :=
  match d with
  | 0 => k.portN
  | 1 => k.portE
  | 2 => k.portS
  | _ => k.portW
def Core.setPort (k : Core) (d : Nat) (l : List W64) : Core :=
  match d with
  | 0 => { k with portN := l }
  | 1 => { k with portE := l }
  | 2 => { k with portS := l }
  | _ => { k with portW := l }
/-- The mesh neighbour of a core inside its cluster and partition (00 R3, 04 R99). -/
def State.neighbour (s : State) (c d : Nat) : Option Nat :=
  let row := (c / 8) % 4
  let pos := c % 8
  let n : Option Nat := match d with
    | 0 => if 0 < row then some (c - 8) else none
    | 1 => if pos < 7 then some (c + 1) else none
    | 2 => if row < 3 then some (c + 8) else none
    | _ => if 0 < pos then some (c - 1) else none
  n.filter fun x => s.nodeOf x == s.nodeOf c

/-- Queue words that an instruction has read stand at the heads of their queues again (06 R135). -/
def Core.unpop (k : Core) (l : List (Nat × W64)) : Core :=
  l.foldr (fun x k => if x.1 == 4 then { k with qd := x.2 :: k.qd } else if x.1 == 5 then { k with qc := x.2 :: k.qc }
    else k.setPort x.1 (x.2 :: k.port x.1)) k
/-- What the data stream holds goes, with no effect but the lanes done. -/
def Core.dropDq (k : Core) : Core :=
  { k.dq.foldr (fun e k => k.unpop e.popped) k with dq := [], undo := [], demandD := none }
/-- A `bar.sync` that waits is given up: the word that names its barrier stands at its queue's head again. -/
def Core.dropBar (k : Core) : Core := { k.unpop k.barPop with barPop := [], barAt := none }
/-- Words of a port's queue that instructions have popped and may still have to put back: their places stay taken. -/
def Core.portTaken (k : Core) (d : Nat) : Nat :=
  (k.undo.filter fun u => match u with | .portPop _ e _ => e == d | _ => false).length +
  ((k.barPop ++ k.dq.flatMap (·.popped)).filter fun x => x.1 == d).length
/-- The same of `qc`. -/
def Core.qcTaken (k : Core) : Nat :=
  (k.undo.filter fun u => match u with | .qcPop _ _ => true | _ => false).length + (k.barPop.filter fun x => x.1 == 5).length
/-- Words of `qd` pushed and not yet popped: an instruction that has not completed has popped none (06 R135). -/
def Core.qdHeld (k : Core) : Nat := k.qd.length + ((k.dq.flatMap (·.popped)).filter fun x => x.1 == 4).length
/-- Words that a port's inbound queue holds (04 R99, 07 R180). -/
def Core.portHeld (k : Core) (d : Nat) : Nat := (k.port d).length + k.portTaken d

/-! ## The end of a task (14 R338, 18 R361) -/

/-- A task ends with a fault recorded in its launch (R361). -/
def State.recordFault (s : State) (l : Option Nat) (code : Nat) : State :=
  match l with
  | none => s
  | some a => s.modLaunch a fun x =>
      { x with faults := true, nfault := if x.nfault < 0xffffffff then x.nfault + 1 else x.nfault,
               fcode := if x.fcode == 0 then code else x.fcode }

/-- Every unretired command of a core retires refused with 0x0d (11 R277); a gang command counts as joined on every
core of the row. -/
def cmdRecord (outcome fcode rows cid : Nat) : W64 := w64 (outcome + 1024 * cid + 65536 * rows + 2 ^ 24 * fcode)
def setRec (l : List (Nat × W64)) (cid : Nat) (v : W64) : List (Nat × W64) := (cid, v) :: l.filter fun x => x.1 != cid
def State.refuseCmds (s : State) (c : Nat) : State :=
  let k := s.core c
  let gangs := (k.cmds.filter fun x => x.op == .mma && bitOf (BitVec.ofNat 4 x.fl) 3).map (·.gangNo)
  let s := if k.cmds.isEmpty then s else s.note 0xc c k.cmds.length
  let s := s.setCore c { k with
    recs := k.cmds.foldl (fun r x => setRec r x.cid (cmdRecord 2 0x0d x.rows x.cid)) k.recs, cmds := [] }
  let u := s.seqU (rowOf c)
  let s := if gangs.isEmpty then s else s.setSeq (rowOf c) { u with gangRef := gangs ++ u.gangRef }
  (List.range 8).foldl (fun s p =>
    let c2 := 8 * rowOf c + p
    let k2 := s.core c2
    let hit (x : Cmd) : Bool := x.op == .mma && bitOf (BitVec.ofNat 4 x.fl) 3 && gangs.contains x.gangNo
    let upd (x : Cmd) : Cmd := { x with joined := true, outcome := some (2, 0x0d) }
    s.setCore c2 { k2 with cmds := lmapIf hit upd k2.cmds }) s

/-- The core falls idle: its streams, queues and task state go. -/
def Core.idle (k : Core) : Core :=
  { k.dropBar.dropDq with task := none, sup := false, inTrap := false, trapCode := 0, trapReq := false, requeued := false,
                          resume := none, qd := [], qc := [], demand := none, stopAt := none, ending := none }

/-- An instance whose core members have ended ends once its engines have retired what was issued to them (14 R344, 17
R351): its root entry is decremented. -/
def State.settleInst (s : State) (i : Nat) : State :=
  match tget none s.insts i with
  | none => s
  | some x =>
    let idle := x.seqs.all (fun r => (s.seqU r.1).cmds.isEmpty) &&
      (match x.eng with | some (g, _) => (s.engU g).chans.all (fun c => c.2.items.isEmpty) | none => true)
    if x.st != .draining || !idle then s
    else
      let s := { s with insts := tput s.insts i (some { x with st := .ended }) }
      let s := x.seqs.foldl (fun s r => s.setSeq r.1 { s.seqU r.1 with inst := none, role := 0 }) s
      let s := match x.eng with
        | some (g, _) => s.setEng g { s.engU g with inst := none, role := 0 }
        | none => s
      s.rootDecr x.launch
/-- The last core member has ended (14 R344): the engines stop fetching, the pipes go, the channels close. -/
def State.endInst (s : State) (i : Nat) : State :=
  match tget none s.insts i with
  | none => s
  | some x =>
    let s := { s with insts := tput s.insts i (some { x with st := .draining, pipes := [], live := [] }) }
    let s := x.seqs.foldl (fun s r => s.setSeq r.1 { s.seqU r.1 with halted := true }) s
    let s := match x.eng with
      | some (g, _) =>
        let u := s.engU g
        s.setEng g { u with halted := true, chans := u.chans.map fun (ch : Nat × Chan) => (ch.1, { ch.2 with bind := none }) }
      | none => s
    let s := x.cores.foldl (fun s c => s.setCore c.1 { s.core c.1 with inst := none, role := 0 }) s
    s.settleInst i

/-- A core member that a team fault stops (18 R368): its data stream drains up to the stop point, and its commands
retire refused. -/
def State.stopMember (s : State) (c : Nat) : State :=
  let s := s.refuseCmds c
  let k := s.core c
  if k.dq.isEmpty then s.setCore c k.idle else s.setCore c { k.dropBar with stopAt := some { waited := 0, counted := true } }

/-- NFAULT counts n more faults, up to its largest value (01 R33). -/
def Launch.addFaults (l : Launch) (n : Nat) : Launch := { l with nfault := Nat.min (l.nfault + n) 0xffffffff }
/-- A team fault ends the whole instance (18 R368): every core member still running is stopped without restart, every
core member counts in NFAULT, and the launch records the code. -/
def State.teamFaultNow (s : State) (i code : Nat) : State :=
  match tget none s.insts i with
  | none => s
  | some x =>
    if x.faulted || (x.st != .running && x.st != .draining) then s
    else
      let s := { s with insts := tput s.insts i (some { x with faulted := true }) }
      let s := x.live.foldl (fun s c => if (s.core c).task.isSome then s.stopMember c else s) s
      let s := s.modLaunch x.launch fun l =>
        { l.addFaults x.cores.length with faults := true, fcode := if l.fcode == 0 then code else l.fcode }
      if x.st == .running then s.endInst i else s

/-- A fault in a firmware task posts a machine-check event of KIND 6, the core's number and the fault's address (19 R376, 03
R85): it belongs to no launch, so every queue gets it, as every queue gets a shutdown's (log 41). -/
def State.firmwareFault (s : State) (c code : Nat) (addr : W64) : State :=
  (s.queues.foldl (fun s q => s.postEvent q.q 6 code 0 (w64 c) addr) s).logEvent 2

/-- A partition control of core c still has a result to give it (19 R384). -/
def State.controls (s : State) (c : Nat) : Bool := s.parts.any fun p => p.core == some c && p.reg != 0xfff
/-- A result that a partition control would have pushed into `qd` goes with the task's queue (18 R364); any other still comes
(log 20). -/
def State.dropControls (s : State) (c : Nat) : State :=
  if s.parts.isEmpty then s
  else { s with parts := lmapIf (fun p => p.core == some c && p.reg == 0xffe) (fun p => { p with reg := 0xfff }) s.parts }
/-- A task's end takes effect (R338, R361). A member's fault is a team fault; a member already stopped by one is counted. A
fault in a firmware task, of code and address, posts a machine-check event (19 R376). -/
def State.endNow (s : State) (c : Nat) (t : Task) (fault : Option Nat) (addr : W64 := 0) : State :=
  let k := s.core c
  let s1 := s.setCore c k.idle
  if (k.stopAt.map (·.counted)).getD false then s1
  else match fault, t.kind, k.inst with
  | some code, .firmware, _ => (s1.dropControls c).firmwareFault c code addr
  | some code, .member, some i => s1.teamFaultNow i code
  | some code, _, _ => s1.recordFault t.launch code
  | none, .member, some i =>
    match tget none s.insts i with
    | some x =>
      let live := x.live.filter (· != c)
      let s2 := { s1 with insts := tput s1.insts i (some { x with live := live }) }
      if live.isEmpty then s2.endInst i else s2
    | none => s1
  | none, _, _ => s1
/-- The running task of a core ends, with a fault recorded or none. A task that a fault ends waits, executing nothing, until
every command it issued has retired; the watchdog still bounds it (11 R277). -/
def State.endTask (s : State) (c : Nat) (fault : Option Nat) (addr : W64 := 0) : State :=
  let k := s.core c
  match k.task with
  | none => s
  | some t =>
    if fault.isSome && !(k.stopAt.map (·.counted)).getD false && !k.cmds.isEmpty then
      s.setCore c { k.dropBar.dropDq with ending := fault.map (·, addr), resume := none, demand := none, stopAt := none }
    else s.endNow c t fault addr

/-! ## Taking a trap and returning from one (18 R356 to R362) -/

/-- Sequential successor (05 R108). -/
def nextPc (p : W64) : W64 := if bitsOf p 0 3 < 4 then p + 1 else ((p >>> 6) + 1) <<< 6

/-- Whether a handler can be entered (R359). -/
def Core.noHandler (k : Core) : Bool :=
  k.tvec == 0 || k.twl == 0 || k.rbl.toNat < k.twb.toNat + k.twl.toNat || k.inTrap || k.isFw

/-- Cause bits: the fault record's FCAUSE (R358). -/
def causeWord (code role : Nat) (disp lanes sup data micro : Bool) : W64 :=
  w64 (code + 2 ^ 15 * bN micro + 2 ^ 16 * bN data + 2 ^ 17 * bN sup + 2 ^ 18 * bN lanes + 2 ^ 19 * bN disp + 2 ^ 20 * role)

/-- Take the scalar effects after position n back, newest first (R356). -/
def Core.takeBack (k : Core) (n : Nat) : Core :=
  let go (k : Core) : Undo → Core
    | .word q i old => if n < q then k.putWord i old else k
    | .qdPush q => if n < q then { k with qd := k.qd.dropLast } else k
    | .qcPop q v => if n < q then { k with qc := v :: k.qc } else k
    | .portPop q d v => if n < q then k.setPort d (v :: k.port d) else k
  { k.undo.foldl go k with undo := [] }

/-- Deliver a trap (R359): the fault record is written, execution moves into the trap window in supervisor mode at
TVEC; without a usable handler, or inside one, the task ends with the fault recorded. `n` is the faulting
instruction's place, after which nothing has had an effect. -/
def State.deliver (s : State) (c : Nat) (pc : W64) (data : Bool) (f : TrapInfo) (n : Nat) : State :=
  let k := (s.core c).unpop (s.core c).barPop
  let k := (k.takeBack n).dropDq
  let k := { k with resume := none, barAt := k.barAt.filter (·.1 == pc), barPop := [], demand := none }
  let s := s.settleRace c
  if k.noHandler then (s.setCore c k).endTask c (some f.code) f.addr
  else
    s.setCore c { k with
      fpc := pc, fcause := causeWord f.code k.role false f.lane.isSome k.sup data f.micro, faddr := f.addr,
      fstep := w64 f.step, lstart := w64 (f.lane.getD 0), fwb := k.wbase, fwl := k.wlim,
      wbase := k.twb, wlim := k.twl, sup := true, inTrap := true, trapCode := f.code, trapReq := false, pc := k.tvec }

/-- A requested trap with a usable handler (19 R377): CODE 0, FPC after the `trap`. -/
def State.deliverRequest (s : State) (c : Nat) (pc arg : W64) : State :=
  let k := s.core c
  s.setCore c { k with
    fpc := nextPc pc, fcause := causeWord 0 0 false false k.sup false false, faddr := arg, fstep := 0, lstart := 0,
    fwb := k.wbase, fwl := k.wlim, wbase := k.twb, wlim := k.twl, sup := true, inTrap := true, trapCode := 0,
    trapReq := true, resume := none, pc := k.tvec }

/-- Why a window change fails (04 R103, 18 R360), in exact arithmetic. -/
def Core.windowFault (k : Core) (b : Int) (sz : Nat) : Option Nat :=
  let inside (lo n : Nat) : Bool := decide ((lo : Int) ≤ b) && decide (b + sz ≤ (lo : Int) + n)
  if sz == 0 || 3968 < sz then some 0x02
  -- a firmware task has its own 256 words and no tenant bound (19 R376)
  else if k.isFw then (if inside 0 256 then none else some 0x05)
  else if k.rbl.toNat < k.wfb.toNat + k.wfl.toNat then some 0x06
  else if inside k.wfb.toNat k.wfl.toNat || (k.inTrap && inside k.twb.toNat k.twl.toNat) then none
  else some 0x05

/-- Return from a trap (R362): the window of FWB and FWL under R103, the mode of SUP, and FPC; a vector access that
LANES marks restarts at LSTART. `none` gives the fault of the window change. -/
def Core.tretTo (k : Core) : Except Nat Core :=
  let out := { k with inTrap := false }
  match out.windowFault k.fwb.toNat k.fwl.toNat with
  | some code => .error code
  | none => .ok { out with
      wbase := k.fwb, wlim := k.fwl, sup := bitOf k.fcause 17, pc := k.fpc, trapCode := 0, trapReq := false,
      barAt := k.barAt.filter (·.1 == k.fpc),
      resume := if bitOf k.fcause 18 && !bitOf k.fcause 15 then some (bitsOf k.lstart 0 4) else none }

end Sys2Proof.Machine
end

