-- ==== Sys2Proof/Machine/Operands.lean ====
section
/-!
DEFINITION. Every operand form: the checks of 06 R147 orders 3 to 6, reading and writing words, vectors, masks
and constants (04 R98 to R102, 05 R122, 06 R134 to R136), and how an instruction runs in its stream (04 R96).
-/
namespace Sys2Proof.Machine

/-! ## Streams and privilege -/

/-- Instructions of class D or E, which the data stream executes (06 R144). -/
def isData : Instr → Bool
  | .vld .. | .vst .. | .vlds .. | .vsts .. | .vgat .. | .vsct .. | .ldl .. | .stl .. | .vlsp .. | .vssp ..
  | .vlcl .. | .vscl .. | .vldd .. | .vstd .. => true
  | .send .. | .sendb .. | .chctlOpen .. | .chctlClose .. | .chctlReset .. => true
  | .vadd .. | .vsub .. | .vmul .. | .vmulh .. | .vdiv .. | .vrem .. | .vand .. | .vor .. | .vxor .. | .vshl ..
  | .vshr .. | .vmin .. | .vmax .. | .vcmp .. | .vsel .. | .vabs .. => true
  | .vfadd .. | .vfsub .. | .vfmul .. | .vfdiv .. | .vfsqrt .. | .vfmin .. | .vfmax .. | .vfabs .. | .vfneg ..
  | .vfsgn .. | .vfcls .. | .vfcmp .. | .vcvt .. | .vfrint .. | .vfscl .. => true
  | .vfma .. | .vfms .. | .vfnma .. | .vfnms .. | .vfaddk .. | .vfmulk .. | .vaddk .. | .vmulk .. | .vbcast ..
  | .vbcastk .. | .vins .. | .vext .. | .vmask .. => true
  | .vperm .. | .vrot .. | .vzip .. | .vunzip .. | .vcompress .. | .vexpand .. | .vredadd .. | .vredmin ..
  | .vredmax .. | .vfredadd .. | .vfredmin .. | .vfredmax .. | .vredand .. | .vredor .. | .vmcnt .. | .vredxor .. => true
  | .xclr .. | .xfma .. | .xadd .. | .xsum .. | .xsgn .. | .xrnd .. | .xst .. | .xld .. => true
  | .tld .. | .tst .. | .tzero .. | .mma .. | .amov .. | .ast .. | .ald .. | .azero .. => true
  | .vdotx .. | .tldq .. => true
  | _ => false

/-- Commands of the E class (06 R144). -/
def isE : Instr → Bool
  | .send .. | .sendb .. | .chctlOpen .. | .chctlClose .. | .chctlReset .. => true
  | .tld .. | .tst .. | .tzero .. | .mma .. | .amov .. | .ast .. | .ald .. | .azero .. | .tldq .. => true
  | _ => false

/-- Instructions that act at their place in both streams, so that the data stream has reached them first: class B
(04 R96), `mts` (07 R174), `tlbi` and `asidctl` (19 R381); and the ends of a task, which wait for every earlier
instruction (14 R338). -/
def isBoth : Instr → Bool
  | .win .. | .wini .. | .mts .. | .mtsCodeimg .. | .mtsFcsr .. | .mtsRbb .. | .fence .. | .tret | .isync
  | .swapw .. | .tlbiAll | .tlbiAsid .. | .tlbiPage .. | .asidctl .. | .done | .halt | .trap .. => true
  | _ => false

/-- Which stream executes an instruction: a `nop` goes where its slot's class sends it (05 R110). -/
def State.runsData (s : State) (i : Instr) : Bool := isData i || (i == .nop && (s.slotCls == .d || s.slotCls == .e))
/-- What acts at its place in both streams, a `nop` of class B too: R148 says that a `nop` waits for nothing, but 04 R96 that
a B slot is reached by both streams, and the model follows R96 (log 77, DESIGN CHOICE). -/
def State.runsBoth (s : State) (i : Instr) : Bool := isBoth i || (i == .nop && s.slotCls == .b)

/-- Instructions that leave what the streams have loaded and stored before them unordered: all but class B (10 R250) and what
acts as it does. Where another rule orders everything after an instruction, its meaning settles it (13 R307, R308). -/
def isPlain (i : Instr) : Bool := !isBoth i

/-- The feature an opcode needs (06 R145). -/
def needFeat : Instr → Option Nat
  | .xclr .. | .xfma .. | .xadd .. | .xsum .. | .xsgn .. | .xrnd .. | .xst .. | .xld .. => some 5
  | .loopc .. | .vdotx .. | .tldq .. | .swapw .. => some 0
  | _ => none
/-- Registers that only the supervisor writes (07 R173). -/
def supWritten (n : Nat) : Bool :=
  n ≤ 0x009 || (0x021 ≤ n && n ≤ 0x024) || n == 0x060 || n == 0x062 || (0x080 ≤ n && n ≤ 0x087)
/-- Privileged opcodes (06 R145; of `mts` by its register, 07 R172), and those of firmware tasks alone (19 R375). -/
def isPriv : Instr → Bool
  | .tlbiAll | .tlbiAsid .. | .tlbiPage .. | .asidctl .. | .wdctlGet .. | .wdctlSet .. | .partctlSplit ..
  | .partctlMerge .. | .halt | .mtsRbb .. | .mtsCodeimg .. => true
  | .mts _ n => supWritten n.toNat
  | _ => false
def isFwOnly : Instr → Bool
  | .tlbiAll | .partctlSplit .. | .partctlMerge .. => true
  | _ => false

/-- What an engine bound as a role accepts (11 R289, 17 R350). -/
def seqAccepts : Instr → Bool
  | .nop | .j .. | .tzero .. | .azero .. => true
  | .mma _ g _ _ _ _ _ _ _ => g
  | _ => false
def engAccepts : Instr → Bool
  | .nop | .j .. | .beq .. | .bne .. | .blt .. | .bge .. | .bltn .. | .bgen .. | .li .. | .addi .. | .send ..
  | .sendb .. | .chctlOpen .. | .chctlClose .. | .chctlReset .. | .done => true
  | _ => false

/-! ## Operand checks (06 R134, R147 orders 5 and 6) -/

/-- A field that names an operand, with the bit position its failure reports. -/
inductive Fld
  | ws (pos : Nat) (r : Reg)              -- a word read
  | wd (r : Reg)                          -- the word D written
  | wx (r : Reg)                          -- the word D read, then written
  | vs (pos : Nat) (r : Reg)              -- a vector read
  | vd (r : Reg)                          -- the vector D written
  | mask (pos : Nat) (r : Reg)
  | tile (pos : Nat) (r : Reg)
  | acc (pos : Nat) (r : Reg)
  | chan (pos : Nat) (r : Reg)
  | blk (pos : Nat) (r : Reg) (n : Nat)   -- a block of n window words
  | list (r : Reg) (lmap : BitVec 16)     -- the words of a hand-over
  | vw (pos : Nat) (r : Reg)              -- a vector read whole, whatever the mask enables
  deriving DecidableEq, Repr

/-- The direction of a port field: 0 north, 1 east, 2 south, 3 west. -/
def portDir (r : Reg) : Option Nat :=
  if r == 0xffc then some 0 else if r == 0xffb then some 1 else if r == 0xffa then some 2
  else if r == 0xff9 then some 3 else none
def hasPort (s : State) (r : Reg) : Bool :=
  match portDir r with
  | some d => (s.neighbour s.actor d).isSome
  | none => false

def srcOk (s : State) (data : Bool) (r : Reg) : Bool :=
  r.toNat < 0xf80 || r == 0xfff || r == 0xff8 || (r == 0xffe && data) || (r == 0xffd && !data) || hasPort s r
def dstOk (s : State) (data : Bool) (r : Reg) : Bool :=
  r.toNat < 0xf80 || r == 0xfff || (r == 0xffe && !data) || (r == 0xffd && data) || hasPort s r

def Fld.pos : Fld → Nat
  | .ws p _ => p
  | .wd _ => 66
  | .wx _ => 66
  | .vs p _ => p
  | .vd _ => 66
  | .mask p _ => p
  | .tile p _ => p
  | .acc p _ => p
  | .chan p _ => p
  | .blk p _ _ => p
  | .list _ _ => 54
  | .vw p _ => p

/-- Order 5: the field names something its kind admits. A bound copy engine has sixteen words and `zero`. -/
def Fld.kindOk (s : State) (data : Bool) (f : Fld) : Bool :=
  match s.cur with
  | .eng _ =>
    match f with
    | .ws _ r => r.toNat < 16 || r == 0xfff
    | .wd r => r.toNat < 16 || r == 0xfff
    | .chan _ r => r.toNat < 8
    | _ => true
  | _ =>
    match f with
    | .ws _ r => srcOk s data r
    | .wd r => dstOk s data r
    | .wx r => srcOk s data r && dstOk s data r
    | .vs _ r => r.toNat < 0xf80 || r == 0xfff || r == 0xff8
    | .vd r => r.toNat < 0xf80 || r == 0xfff
    | .mask _ r => r.toNat < 0xf80 || r == 0xfff
    | .tile _ r => r.toNat < 8
    | .acc _ r => r.toNat < 4
    | .chan _ r => r.toNat < 8
    | .blk _ r _ => r.toNat < 0xf80
    | .list r _ => r.toNat < 0xf80
    | .vw _ r => r.toNat < 0xf80 || r == 0xfff || r == 0xff8

/-- The highest set bit of a list map. -/
def topBit (m : BitVec 16) : Nat := log2Fuel 16 m.toNat

/-- Order 6: the field lies inside the window (04 R100). -/
def Fld.inWindow (wlim : Nat) (f : Fld) : Bool :=
  let word (r : Reg) : Bool := 0xf80 ≤ r.toNat || r.toNat < wlim
  let vec (r : Reg) : Bool := 0xf80 ≤ r.toNat || (r.toNat < 248 && 16 * r.toNat + 15 < wlim)
  match f with
  | .ws _ r => word r
  | .wd r => word r
  | .wx r => word r
  | .vs _ r => vec r
  | .vd r => vec r
  | .vw _ r => vec r
  | .mask _ r => word r
  | .blk _ r n => r.toNat + n ≤ wlim
  | .list r m => r.toNat + topBit m < wlim
  | _ => true

/-- Window words that a field names, every lane of a vector included. -/
def Fld.words (f : Fld) : List Nat :=
  let word (r : Reg) : List Nat := if r.toNat < 0xf80 then [r.toNat] else []
  let vec (r : Reg) : List Nat := if r.toNat < 248 then (List.range 16).map fun j => 16 * r.toNat + j else []
  match f with
  | .ws _ r => word r
  | .wd r => word r
  | .wx r => word r
  | .vs _ r => vec r
  | .vd r => vec r
  | .vw _ r => vec r
  | .mask _ r => word r
  | .blk _ r n => (List.range n).map fun j => r.toNat + j
  | .list r m => (List.range 16).filter (fun j => m.getLsbD j) |>.map (r.toNat + ·)
  | _ => []
/-- Register-store lines that an instruction's fields name. -/
def Core.linesOf (k : Core) (fs : List Fld) : List Nat :=
  (fs.flatMap fun f => f.words.map fun w => (k.wbase.toNat + w) / 8).eraseDups

/-- The first field that fails a test faults. -/
def failFirst (code : Nat) (p : Fld → Bool) : List Fld → M Unit
  | [] => pure ()
  | f :: t => if p f then failFirst code p t else trapAt code (w64 f.pos)

/-- The program counter of the agent that executes. -/
def State.pcOf (s : State) : W64 :=
  match s.cur with
  | .core c => (s.core c).pc
  | .data c => match (s.core c).dq with | e :: _ => e.pc | [] => 0
  | .seq r => (s.seqU r).pc
  | .eng g => (s.engU g).pc
/-- Its line address. -/
def lineAddr (p : W64) : W64 := (p >>> 6) <<< 6

/-- R147 orders 3 (features), 4, 5 and 6 for one instruction. -/
def checks (i : Instr) (fs : List Fld) : M Unit := do
  let s ← get
  let data := isData i
  match needFeat i with
  | some b => check (s.feat b) 0x01 (lineAddr s.pcOf)
  | none => pure ()
  match s.cur with
  | .core c =>
    let k := s.core c
    check (!isPriv i || k.sup) 0x09 0
    check (!isFwOnly i || k.isFw) 0x09 0
  | _ => pure ()
  failFirst 0x02 (Fld.kindOk s data) fs
  match s.cur with
  | .eng _ => pure ()
  | .seq _ => pure ()
  | _ => failFirst 0x04 (Fld.inWindow (s.core s.actor).wlim.toNat) fs

/-! ## Reading and writing words (R98 to R102, R135) -/

/-- Pop `qd` in the data stream. -/
def popQd : M W64 := do
  let k ← myCore
  match k.qd with
  | [] => waitNow
  | x :: t => do modMe fun k => { k with qd := t }; return x
/-- Pop `qc` in the scalar stream. -/
def popQc : M W64 := do
  let k ← myCore
  match k.qc with
  | [] => waitNow
  | x :: t => do
    logUndo fun n _ => .qcPop n x
    modMe fun k => { k with qc := t }
    return x
/-- Pop a port's inbound queue. -/
def popPort (d : Nat) : M W64 := do
  let k ← myCore
  match k.port d with
  | [] => waitNow
  | x :: t => do
    logUndo fun n _ => .portPop n d x
    modMe fun k => k.setPort d t
    return x
/-- A partition control whose result is to enter a queue keeps its place there (R135). -/
def State.placeKept (s : State) (c : Nat) (r : Reg) : Bool := s.parts.any fun p => p.core == some c && p.reg == r
def pushQd (v : W64) : M Unit := do
  let k ← myCore
  readyWhen (k.qdHeld < Config.qdDepth && !(← get).placeKept (← me) 0xffe)
  logUndo fun n _ => .qdPush n
  modMe fun k => { k with qd := k.qd ++ [v] }
/-- A word that the scalar stream has popped and may still have to put back keeps its place (06 R135). A push of a stopping
task's drain never stalls (18 R364). -/
def pushQc (v : W64) : M Unit := do
  let k ← myCore
  readyWhen (k.qc.length + k.qcTaken < Config.qcDepth || k.stopAt.isSome)
  modMe fun k => { k with qc := k.qc ++ [v] }
def portReg (d : Nat) : Reg := BitVec.ofNat 12 (0xffc - d)
def pushPort (d : Nat) (v : W64) : M Unit := do
  holdOutside
  let s ← get
  readyWhen (!s.placeKept s.actor (portReg d))
  match s.neighbour s.actor d with
  | none => pure ()
  | some n => do
    let q := (s.core n).port ((d + 2) % 4)
    readyWhen ((s.core n).portHeld ((d + 2) % 4) < Config.portDepth)
    modCore n fun k => k.setPort ((d + 2) % 4) (q ++ [v])

/-- Read a word operand (R100). -/
def readW (r : Reg) : M W64 := do
  let s ← get
  match s.cur with
  | .eng g => return if r == 0xfff then 0 else tget 0 (s.engU g).words r.toNat
  | .seq _ => return 0
  | _ =>
    if r.toNat < 0xf80 then readAbs ((s.core s.actor).wbase.toNat + r.toNat)
    else if r == 0xffe then popQd
    else if r == 0xffd then popQc
    else if r == 0xff8 then return w64 (s.pidx s.actor)
    else match portDir r with
    | some d => popPort d
    | none => return 0

/-- Write a word operand (R100). A write of `zero` is discarded. -/
def writeW (r : Reg) (v : W64) : M Unit := do
  let s ← get
  match s.cur with
  | .eng g =>
    if r == 0xfff then pure ()
    else modify fun s => s.setEng g { s.engU g with words := tput (s.engU g).words r.toNat v }
  | .seq _ => pure ()
  | _ =>
    if r.toNat < 0xf80 then writeAbs ((s.core s.actor).wbase.toNat + r.toNat) v
    else if r == 0xffe then pushQd v
    else if r == 0xffd then pushQc v
    else match portDir r with
    | some d => pushPort d v
    | none => pure ()

/-- A late write of a word operand (R102); a queue or a port takes the value at once. -/
def writeWLate (kind : PendKind) (r : Reg) (v : W64) : M Unit := do
  let k ← myCore
  if r.toNat < 0xf80 then writeLate (k.wbase.toNat + r.toNat) kind v else writeW r v

/-- Consecutive words from a window word. -/
def readBlock (r : Reg) : Nat → M (List W64)
  | 0 => return []
  | n + 1 => do
    let l ← readBlock r n
    let k ← myCore
    return l ++ [← readAbs (k.wbase.toNat + r.toNat + n)]
def writeBlock (r : Reg) : List W64 → Nat → M Unit
  | [], _ => pure ()
  | v :: t, i => do
    let k ← myCore
    writeAbs (k.wbase.toNat + r.toNat + i) v
    writeBlock r t (i + 1)

/-! ## Vectors and masks (R100, R136) -/

/-- The sixteen lanes of a vector operand, read whole: of a permutation's sources (08 R199, R200). -/
def readV (r : Reg) : M (List W64) := do
  if r == 0xff8 then return (List.range 16).map w64
  else if 0xf80 ≤ r.toNat then return List.replicate 16 0
  else do
    let k ← myCore
    (List.range 16).mapM fun j => readAbs (k.wbase.toNat + 16 * r.toNat + j)
/-- One lane of a vector operand. -/
def readLane (r : Reg) (l : Nat) : M W64 := do
  if r == 0xff8 then return w64 l
  else if 0xf80 ≤ r.toNat then return 0
  else do
    let k ← myCore
    readAbs (k.wbase.toNat + 16 * r.toNat + l)
/-- Write one lane of V(D). -/
def writeLane (r : Reg) (l : Nat) (v : W64) : M Unit := do
  if 0xf80 ≤ r.toNat then pure ()
  else do
    let k ← myCore
    writeAbs (k.wbase.toNat + 16 * r.toNat + l) v

/-- A mask operand: bits [15:0] of its word; all lanes when unmasked (R136). -/
def readMask (r : Reg) : M Nat := do
  if r == 0xfff then return 0xffff
  else do
    let k ← myCore
    return bitsOf (← readAbs (k.wbase.toNat + r.toNat)) 0 16
def laneOn (m l : Nat) : Bool := (m >>> l) % 2 == 1
/-- The lanes of a vector operand that a mask enables; a disabled lane's word is not read (R136), and stands as 0. -/
def readVM (r : Reg) (m : Nat) : M (List W64) :=
  (List.range 16).mapM fun l => if laneOn m l then readLane r l else pure 0

/-- Do something in every enabled lane, in increasing lane order. -/
def forLanes (m : Nat) (f : Nat → M Unit) : M Unit :=
  (List.range 16).forM fun l => if laneOn m l then f l else pure ()
/-- Write V(D) in the enabled lanes. -/
def writeV (r : Reg) (m : Nat) (f : Nat → W64) : M Unit := forLanes m fun l => writeLane r l (f l)

/-! ## Constants (05 R122) -/

/-- The number under which a task's addresses are cached; firmware's own lie outside every ASID (19 R376). -/
def Core.cacheAsid (k : Core) : Nat := if k.isFw then 1024 else k.asid

/-- Bytes of one physical line, for a fill. -/
def lineBytes (va pa : Nat) : M (List Byte) := do
  let l ← physLoc va (pa / 64 * 64) false false false
  let s ← get
  match l with
  | .phys p _ =>
    if s.poisoned p then throw (.machine p)
    else do
      set (s.dirRead (fetchAgent s.actor) (lineOf p))
      return s.mem.bytes p 64
  | .ali w p =>
    match s.aliasBadN w p 64 with
    | some q => throw (.machine q)
    | none => do
      set (s.fill (fetchAgent s.actor) (lineOf p))
      return s.aliasBytes w p 64
  | _ => return List.replicate 64 0

/-- Lines of the constant cache: 16 KiB (05 R122). -/
def kcacheLines : Nat := 256
/-- A line fills the constant cache: one leaves only where the cache is full (R122, log 54). -/
def kcacheAdd (e : CacheEnt) : M Unit := do
  let l := (← myCore).kcache
  if l.length < kcacheLines then modMe fun k => { k with kcache := e :: l }
  else do
    let r ← draw
    modMe fun k => { k with kcache := e :: ldel l (r % kcacheLines) }

/-- Read a constant word. -/
def readK (kw : BitVec 3) (ko : BitVec 17) : M W64 := do
  let k ← myCore
  let va := 8 * (bitsOf (tget 0 k.cwb kw.toNat) 0 54 + ko.toNat) % 2 ^ 64
  let hit := k.kcache.find? fun e => e.asid == k.cacheAsid && e.addr == va / 64
  let bytes ← (match hit with
    | some e => pure e.bytes
    | none => do
      let (pa, _) ← coreXlate k.asid va .load (!k.sup)
      let bs ← lineBytes va pa
      kcacheAdd { asid := k.cacheAsid, addr := va / 64, bytes := bs }
      pure bs)
  return w64 (leNat ((bytes.drop (va % 64)).take 8))

/-! ## How an instruction runs (R96, R165) -/

/-- Where execution goes on. -/
inductive Flow
  | fall            -- at the sequential successor
  | goto (pc : W64)
  | set             -- the instruction has set what follows
  deriving DecidableEq, Repr

/-- Queue words that an instruction read stand at the head of their queues again (R135). -/
def Core.backQueues (k0 k : Core) : Core :=
  { k with qd := k0.qd, qc := k0.qc, portN := k0.portN, portE := k0.portE, portS := k0.portS, portW := k0.portW }
/-- The words that one instruction has popped between two states of its core, by queue: 0 to 3 the ports, 4 `qd`, 5 `qc`. -/
def Core.poppedSince (k0 k : Core) : List (Nat × W64) :=
  let of (n : Nat) (a b : List W64) : List (Nat × W64) := (a.take (a.length - b.length)).map fun v => (n, v)
  of 0 k0.portN k.portN ++ of 1 k0.portE k.portE ++ of 2 k0.portS k.portS ++ of 3 k0.portW k.portW ++ of 4 k0.qd k.qd ++
    of 5 k0.qc k.qc

/-- Dirty lines of a core's register store whose write-back the host link answers with an error are given up (09 R409). -/
def State.rsLose (s : State) (c pa : Nat) : State :=
  let hit (x : Nat × RsLine) : Bool := s.rsError x.2 && lineOf x.2.pa == lineOf pa
  if (s.core c).rs.any hit then s.setCore c { s.core c with rs := (s.core c).rs.filter fun x => !hit x } else s
/-- A machine check ends the task that consumed the data (18 R369); a firmware task's end posts its event (19 R376). -/
def State.machineEnd (s : State) (c code addr : Nat) : State :=
  let k := s.core c
  let s := s.rsLose c addr
  (if k.isFw then s else s.checkEvent k.launch code c addr).endTask c (some code) (w64 addr)

/-- The scalar stream passes a data instruction on to its stream (R165). -/
def Core.pass (k : Core) (e : Deferred) : Core :=
  { k with dq := k.dq ++ [e], pc := nextPc k.pc, seq := k.seq + 1, resume := none }
def Core.deferred (k : Core) (i : Instr) (fs : List Fld) : Deferred :=
  { pc := k.pc, instr := i, seq := k.seq, resume := k.resume, vals := [], popped := [], lines := k.linesOf fs }

/-- A data instruction waits: of the data stream where it stands, of the scalar stream's slot passed on, so that only its
own stream waits (18 R366). `h` is the instruction as it waits. -/
def State.dataWait (s : State) (c : Nat) (h : Deferred) (d : Option Demand) : State :=
  let k := s.core c
  let k := match d with | some x => { k with demandD := some x } | none => k
  match s.cur with
  | .data _ => s.setCore c { k with dq := h :: k.dq.tail }
  | _ => s.setCore c (k.pass h)

/-- An instruction of a core ends without completing. `s` stands before it, `s1` where it stopped, and `h` is the
instruction as its stream holds it. -/
def stopCore (c : Nat) (data : Bool) (h : Deferred) (e : Stop) (s s1 : State) : State :=
  let k := s.core c
  let blocked := !data && !k.dq.isEmpty
  match e with
  | .wait d =>
    if data && d.isSome then s.dataWait c h d
    else match d with
    | some x => s.putDemand c (some x)
    | none => s
  | .waitLane l vals d =>
    -- the lanes below l are done, and so are the instruction's own reads (10 R249, 06 R131, R135)
    s1.dataWait c { h with resume := some l, vals := vals, popped := h.popped ++ k.poppedSince (s1.core c) } d
  | .trap f =>
    if blocked then s
    else
      let b := if f.lane.isSome || f.micro then s1.setCore c (k.backQueues (s1.core c)) else s
      (b.markRaised f.unit).deliver c h.pc data f h.seq
  -- the lanes below one that meets a machine check are done (10 R249)
  | .machine pa code lane =>
    if blocked then s else (if lane then s1.setCore c (k.backQueues (s1.core c)) else s).machineEnd c code pa
  | .team code =>
    if blocked then s
    else match k.inst with
    | some i => s.teamFaultNow i code
    | none => s

/-- Clear what nothing can take back any more. -/
def Core.settle (k : Core) : Core := if k.speculative then k else { k with undo := [] }
/-- What an instruction that orders both streams leaves settled (10 R250). -/
def State.ordered (s : State) (c : Nat) (i : Instr) : State :=
  if isPlain i && !s.runsBoth i then s else s.settleRace c

/-- The word fields of a data instruction that may name a queue or a port: those it reads, and the one it writes. -/
def portFields (i : Instr) : List Reg × Option Reg :=
  match i with
  | .vbcast _ a _ => ([a], none)
  | .vld _ a .. | .vst _ a .. | .vlsp _ a .. | .vssp _ a .. | .vlcl _ a .. | .vscl _ a .. | .vldd _ a .. | .vstd _ a .. =>
    ([a], none)
  | .vlds _ a b _ | .vsts _ a b _ => ([a, b], none)
  | .vgat _ a .. | .vsct _ a .. | .ldl _ a .. | .stl _ a .. => ([a], none)
  | .vins _ a b => ([a, b], none)
  | .vext d _ b => ([b], some d)
  | .vmask d .. => ([], some d)
  | .vmcnt d a _ => ([a], some d)
  | .vredadd _ d .. | .vredmin _ d .. | .vredmax _ d .. | .vredand _ d .. | .vredor _ d .. | .vredxor _ d .. => ([], some d)
  | .vfredadd _ _ d .. => ([], some d)
  | .vfredmin _ d .. | .vfredmax _ d .. => ([], some d)
  | .vrot _ _ b _ => ([b], none)
  | .vcompress _ _ b | .vexpand _ _ b => ([b], none)
  | .xst a _ | .xld a _ => ([a], none)
  | .send _ a b c _ _ | .sendb _ a b c _ _ => ([a, b, c], none)
  | .chctlOpen _ a b => ([a, b], none)
  | .tld _ _ _ a _ | .tst _ _ _ a _ => ([a], none)
  | .amov _ _ _ _ b _ => ([b], none)
  | .ast _ _ a _ | .ald _ _ a _ => ([a], none)
  | .tldq _ _ a b _ => ([a, b], none)
  | .vdotx _ _ _ b _ _ => ([b], none)
  | _ => ([], none)
/-- A data instruction may wait for what the scalar stream has still to do: for a queue, a port or an engine. -/
def mayBlock (i : Instr) : Bool :=
  let (src, dst) := portFields i
  isE i || (dst.toList ++ src).any fun r => 0xff9 ≤ r.toNat && r != 0xfff
/-- Fill the lines of an instruction's fields before the scalar stream passes it, so that only the instructions of 18 R357
can fault later. While a mask is not known yet and a line that it may enable is not there, the instruction waits for the mask;
but where that could wait for the scalar stream itself it is passed as one that may fault, so that its trap is precise too (log
13). -/
def fillFlds (fs : List Fld) : M Unit := do
  let k ← myCore
  let b := k.wbase.toNat
  let mask := fs.findSome? fun f => match f with | .mask _ r => some r | _ => none
  let late := match mask with | some r => k.pending (b + r.toNat) | none => false
  let held (w : Nat) : Bool :=
    k.isFw || (k.rsLine? (b + w)).isSome || (!late && k.dq.any fun e => mayBlock e.instr)
  let m ← (match mask with
    | none => pure (some 0xffff)
    | some r =>
      if r == 0xfff then pure (some 0xffff)
      else if late || k.dqWrites (b + r.toNat) then pure none
      else do
        rsEnsure (b + r.toNat)
        return some (bitsOf ((← myCore).word (b + r.toNat)) 0 16))
  fs.forM fun f => f.words.forM fun w =>
    let lane : Bool := match f with | .vs _ _ => true | .vd _ => true | _ => false
    if lane then (match m with
      | some x => if laneOn x (w % 16) then rsEnsure (b + w) else pure ()
      | none => readyWhen (held w))
    else rsEnsure (b + w)

/-- A core's next slot: its scalar stream executes it, or passes a data instruction on (R165). -/
def coreRun (c : Nat) (i : Instr) (fs : List Fld) (body : M Flow) (s : State) : State :=
  let k := s.core c
  let h := k.deferred i fs
  if k.task.isNone || k.stopAt.isSome || k.ending.isSome then s
  else if s.runsData i && (s.lag || !k.dq.isEmpty) then
    match (do checks i fs; if mayFault i then pure () else fillFlds fs : M Unit).run s with
    | .ok _ s1 => s1.setCore c ((s1.core c).pass h)
    | .error (.wait d) _ => stopCore c false h (.wait d) s s
    | .error e s1 => if k.dq.isEmpty then stopCore c true h e s s1 else s
  else if s.runsBoth i && !k.dq.isEmpty then s
  else
    match (do checks i fs; body : M Flow).run s with
    | .ok fl s1 =>
      let k1 := s1.core c
      let k1 := { k1 with seq := k1.seq + 1, resume := none }.settle
      match fl with
      | .fall => (s1.setCore c { k1 with pc := nextPc k.pc }).ordered c i
      | .goto p => (s1.setCore c { k1 with pc := p }).ordered c i
      | .set => s1.ordered c i
    | .error e s1 => stopCore c (isData i) h e s s1

/-- A core's data stream executes the oldest instruction it holds. -/
def dataRun (c : Nat) (i : Instr) (fs : List Fld) (body : M Flow) (s : State) : State :=
  match (s.core c).dq with
  | [] => s
  | h :: _ =>
    if h.instr != i then s
    else
      match (do checks i fs; body : M Flow).run s with
      | .ok _ s1 => (s1.setCore c { s1.core c with dq := (s1.core c).dq.tail }.settle).ordered c i
      | .error e s1 => stopCore c true h e s s1

/-- A machine check at a bound engine (18 R369): its event, and the team fault. -/
def State.roleCheck (s : State) (x code core addr : Nat) : State :=
  (s.checkEvent ((tget none s.insts x).map (·.launch)) code core addr).teamFaultNow x code
/-- A bound row sequencer: any fault is a team fault (11 R289, 06 R120). -/
def seqRun (r : Nat) (i : Instr) (fs : List Fld) (body : M Flow) (s : State) : State :=
  let u := s.seqU r
  match u.inst with
  | none => s
  | some x =>
    if !seqAccepts i then s.teamFaultNow x 0x01
    else
      match (do checks i fs; body : M Flow).run s with
      | .ok fl s1 =>
        match fl with
        | .fall => s1.setSeq r { s1.seqU r with pc := nextPc u.pc }
        | .goto p => s1.setSeq r { s1.seqU r with pc := p }
        | .set => s1
      | .error (.wait d) _ => s.setSeq r { u with demand := match d with | some x => some x | none => u.demand }
      | .error (.waitLane _ _ _) _ => s
      | .error (.trap f) _ => (s.markRaised f.unit).teamFaultNow x f.code
      | .error (.machine pa code _) _ => s.roleCheck x code (8 * r) pa
      | .error (.team code) _ => s.teamFaultNow x code

/-- A bound copy engine (17 R350). -/
def engRun (g : Nat) (i : Instr) (fs : List Fld) (body : M Flow) (s : State) : State :=
  let u := s.engU g
  match u.inst with
  | none => s
  | some x =>
    if !engAccepts i then s.teamFaultNow x 0x01
    else
      match (do checks i fs; body : M Flow).run s with
      | .ok fl s1 =>
        match fl with
        | .fall => s1.setEng g { s1.engU g with pc := nextPc u.pc }
        | .goto p => s1.setEng g { s1.engU g with pc := p }
        | .set => s1
      | .error (.wait d) _ => s.setEng g { u with demand := match d with | some x => some x | none => u.demand }
      | .error (.waitLane _ _ _) _ => s
      | .error (.trap f) _ => (s.markRaised f.unit).teamFaultNow x f.code
      | .error (.machine pa code _) _ => s.roleCheck x code (s.engCore g) pa
      | .error (.team code) _ => s.teamFaultNow x code

/-- An instruction executes for the agent of the present step. -/
def perform (i : Instr) (fs : List Fld) (body : M Flow) (s : State) : Host.Outcome State Fault Refusal :=
  .next (match s.cur with
    | .core c => coreRun c i fs body s
    | .data c => dataRun c i fs body s
    | .seq r => seqRun r i fs body s
    | .eng g => engRun g i fs body s)

/-- The common end of a body that writes one word. -/
def put (d : Reg) (v : W64) : M Flow := do writeW d v; return .fall

end Sys2Proof.Machine
end

