-- ==== Sys2Proof/Machine/Flags.lean ====
section
/-!
DEFINITION. Integer results and every floating result and flag computation (spec 02; 07 R154; 08 R190 to R195).
A floating operation answers the result bits and the flags it raises, as bits of `FCSR` (02 R50).
-/
namespace Sys2Proof.Machine

/-! ## Integers (02 R43, 07 R154) -/

def IntTy.width : IntTy → Nat
  | .i8 | .n8 => 8
  | .i16 | .n16 => 16
  | .i32 | .n32 => 32
  | .i64 | .n64 => 64
def IntTy.signed : IntTy → Bool
  | .i8 | .i16 | .i32 | .i64 => true
  | _ => false

/-- The low n bits of a number as a signed value. -/
def signedOf (n x : Nat) : Int := if (x % 2 ^ n) < 2 ^ (n - 1) then (x % 2 ^ n : Nat) else (x % 2 ^ n : Nat) - (2 ^ n : Nat)
/-- `Operand` of R154 on the low bits of a number. -/
def intVal (ty : IntTy) (x : Nat) : Int := if IntTy.signed ty then signedOf (IntTy.width ty) x else ((x % 2 ^ IntTy.width ty : Nat) : Int)
def operand (ty : IntTy) (x : W64) : Int := intVal ty x.toNat
/-- y mod 2^n. -/
def wrapN (n : Nat) (y : Int) : Nat := (y % (2 ^ n : Nat)).toNat
/-- `Result` of R154. -/
def result (ty : IntTy) (y : Int) : W64 := w64i (intVal ty (wrapN (IntTy.width ty) y))

/-- The operations of rows 0x0 and 0x8; the shift amount is taken from the raw second operand (R155, R186). -/
inductive IntOp
  | add | sub | mul | mulh | div | rem | and | or | xor | shl | shr | rotr | min | max
  deriving DecidableEq, Repr

/-- The exact value y of R155 for operands of n low bits `x`, `w`. -/
def intOp (op : IntOp) (ty : IntTy) (x w : Nat) : Int :=
  let n := IntTy.width ty
  let a := intVal ty x
  let b := intVal ty w
  let xn := x % 2 ^ n
  let wn := w % 2 ^ n
  let s := w % n
  match op with
  | .add => a + b
  | .sub => a - b
  | .mul => a * b
  | .mulh => (a * b) / (2 ^ n : Nat)
  | .div => if b = 0 then (-1 : Int) else a.tdiv b
  | .rem => if b = 0 then a else a.tmod b
  | .and => (Nat.land xn wn : Nat)
  | .or => (Nat.lor xn wn : Nat)
  | .xor => (Nat.xor xn wn : Nat)
  | .shl => a * (2 ^ s : Nat)
  | .shr => a / (2 ^ s : Nat)
  | .rotr => (((xn >>> s) + (xn <<< (n - s))) % 2 ^ n : Nat)
  | .min => if a ≤ b then a else b
  | .max => if a ≤ b then b else a
/-- A scalar result of R155. -/
def aluWord (op : IntOp) (ty : IntTy) (a b : W64) : W64 := result ty (intOp op ty a.toNat b.toNat)
/-- An element result of R186. -/
def aluElem (op : IntOp) (ty : IntTy) (x w : Nat) : Nat := wrapN (IntTy.width ty) (intOp op ty x w)

/-- The range of a type. -/
def intMin (ty : IntTy) : Int := if IntTy.signed ty then -(2 ^ (IntTy.width ty - 1) : Nat) else 0
def intMax (ty : IntTy) : Int := if IntTy.signed ty then (2 ^ (IntTy.width ty - 1) : Nat) - 1 else (2 ^ IntTy.width ty : Nat) - 1
def clampTo (lo hi x : Int) : Int := if x < lo then lo else if hi < x then hi else x

def ccHolds (cc : Cc) (a b : Int) : Bool :=
  match cc with
  | .eq => a == b
  | .ne => a != b
  | .lt => decide (a < b)
  | .ge => decide (b ≤ a)

/-- Counts and reversals of R160 on an n-bit value. -/
def bitLen (v : Nat) : Nat := if v = 0 then 0 else v.log2 + 1
def clzN (n v : Nat) : Nat := n - bitLen v
def ctzN (n v : Nat) : Nat := ((List.range n).takeWhile fun i => !v.testBit i).length
def popcN (n v : Nat) : Nat := ((List.range n).filter fun i => v.testBit i).length
def brevN (n v : Nat) : Nat := (List.range n).foldl (fun acc i => 2 * acc + (v >>> i) % 2) 0
def bswapN (n v : Nat) : Nat := (List.range (n / 8)).foldl (fun acc i => 256 * acc + (v >>> (8 * i)) % 256) 0

/-! ## Formats and values (02 R37 to R39) -/

/-- Exponent and fraction widths; `e4` marks E4M3, which has no infinity. -/
structure Fmt where
  eb : Nat
  fb : Nat
  e4 : Bool
  deriving DecidableEq, Repr
def f64Fmt : Fmt := { eb := 11, fb := 52, e4 := false }
def f32Fmt : Fmt := { eb := 8, fb := 23, e4 := false }
def f16Fmt : Fmt := { eb := 5, fb := 10, e4 := false }
def bf16Fmt : Fmt := { eb := 8, fb := 7, e4 := false }
def e4m3Fmt : Fmt := { eb := 4, fb := 3, e4 := true }
def e5m2Fmt : Fmt := { eb := 5, fb := 2, e4 := false }
def Fmt.bias (f : Fmt) : Nat := 2 ^ (f.eb - 1) - 1
def Fmt.width (f : Fmt) : Nat := f.eb + f.fb + 1
def Fmt.small (f : Fmt) : Bool := f.width == 8
/-- The canonical NaN (R39). -/
def Fmt.nan (f : Fmt) : Nat :=
  if f.e4 then 0x7f else (2 ^ f.eb - 1) * 2 ^ f.fb + 2 ^ (f.fb - 1)
def Fmt.signBit (f : Fmt) (s : Bool) : Nat := if s then 2 ^ (f.eb + f.fb) else 0
def Fmt.inf (f : Fmt) (s : Bool) : Nat := f.signBit s + (2 ^ f.eb - 1) * 2 ^ f.fb
/-- The largest finite magnitude. -/
def Fmt.big (f : Fmt) : Nat := if f.e4 then 0x7e else (2 ^ f.eb - 2) * 2 ^ f.fb + (2 ^ f.fb - 1)
def FpTy.fmt : FpTy → Fmt
  | .f64 => f64Fmt
  | .f32 => f32Fmt
def fpFmt (t : FpTy) : Fmt := FpTy.fmt t

/-- A floating value: m · 2^e with its sign. -/
inductive Un
  | nan (quiet : Bool)
  | inf (s : Bool)
  | num (s : Bool) (m : Nat) (e : Int)
  deriving DecidableEq, Repr

def unpack (f : Fmt) (x : Nat) : Un :=
  let s := (x >>> (f.eb + f.fb)) % 2 == 1
  let e := (x >>> f.fb) % 2 ^ f.eb
  let fr := x % 2 ^ f.fb
  let top := 2 ^ f.eb - 1
  if e == top && f.e4 && fr == 2 ^ f.fb - 1 then .nan true
  else if e == top && !f.e4 then
    if fr == 0 then .inf s else .nan (f.width == 8 || 2 ^ (f.fb - 1) ≤ fr)
  else if e == 0 then .num s fr (1 - (f.bias : Int) - f.fb)
  else .num s (fr + 2 ^ f.fb) (e - (f.bias : Int) - f.fb)

def Un.isNan : Un → Bool
  | .nan _ => true
  | _ => false
def Un.isInf : Un → Bool
  | .inf _ => true
  | _ => false
def Un.isZero : Un → Bool
  | .num _ m _ => m == 0
  | _ => false
def Un.neg : Un → Un
  | .nan q => .nan q
  | .inf s => .inf (!s)
  | .num s m e => .num (!s) m e
def Un.sign : Un → Bool
  | .nan _ => false
  | .inf s => s
  | .num s _ _ => s

/-- Flag bits of `FCSR` (R50). -/
def NV : Nat := 16
def DZ : Nat := 8
def OF : Nat := 4
def UF : Nat := 2
def NX : Nat := 1
/-- A signalling NaN raises invalid (R41). -/
def snan (us : List Un) : Nat := if us.any fun u => u == .nan false then NV else 0
def anyNan (us : List Un) : Bool := us.any Un.isNan

/-! ## Rounding (02 R40, R41, R49) -/

/-- The five modes. -/
inductive Rm
  | rne | rtz | rdn | rup | rmm
  deriving DecidableEq, Repr

/-- Whether an inexact magnitude is rounded up: `h` compares the rest with half a unit. -/
def roundsUp (rm : Rm) (neg odd : Bool) (h : Ordering) : Bool :=
  match rm with
  | .rne => h == .gt || (h == .eq && odd)
  | .rtz => false
  | .rdn => neg
  | .rup => !neg
  | .rmm => h != .lt

/-- m · 2^(-sh) as an integer rounded in a mode, and whether that changed it. `sticky` says that the exact value lies
strictly between m and m + 1. -/
def roundShift (m : Nat) (sh : Int) (neg : Bool) (rm : Rm) (sticky : Bool) : Nat × Bool :=
  let m := if sticky then 4 * m + 1 else m
  let sh := if sticky then sh + 2 else sh
  if sh ≤ 0 then (m * 2 ^ (-sh).toNat, false)
  else
    let k := sh.toNat
    let kept := m / 2 ^ k
    let rest := m % 2 ^ k
    if rest = 0 then (kept, false)
    else (if roundsUp rm neg (kept % 2 == 1) (compare (2 * rest) (2 ^ k)) then kept + 1 else kept, true)

/-- (-1)^s · m · 2^e rounded into a format (R40): an eight-bit format as R42 gives without saturation. -/
def roundPack (f : Fmt) (s : Bool) (m : Nat) (e : Int) (rm : Rm) (sticky : Bool) : Nat × Nat :=
  if m = 0 && !sticky then (f.signBit s, 0)
  else
    let emin : Int := 1 - (f.bias : Int)
    let top : Int := e + m.log2
    let q : Int := max (top - f.fb) (emin - f.fb)
    let (kept, inex) := roundShift m (q - e) s rm sticky
    let carry := 2 ^ (f.fb + 1) ≤ kept
    let kept := if carry then kept / 2 else kept
    let q := if carry then q + 1 else q
    let nx := if inex then NX else 0
    -- tininess after rounding, the exponent range unbounded
    let k2 := (roundShift m (top - f.fb - e) s rm sticky).1
    let tiny := inex && decide (top - f.fb + k2.log2 < emin)
    let fl := nx + (if tiny then UF else 0)
    if kept < 2 ^ f.fb then (f.signBit s + kept, fl)
    else
      let be : Int := q + f.fb + f.bias
      let frac := kept - 2 ^ f.fb
      if f.e4 then
        if decide (15 < be) || (be == 15 && frac == 7) then (f.nan, NV + OF + NX)
        else (f.signBit s + be.toNat * 2 ^ f.fb + frac, fl)
      else if (2 ^ f.eb - 1 : Int) ≤ be then
        let away := match rm with | .rne => true | .rmm => true | .rtz => false | .rup => !s | .rdn => s
        (if away then f.inf s else f.signBit s + f.big, OF + NX)
      else (f.signBit s + be.toNat * 2 ^ f.fb + frac, fl)

/-! ## Arithmetic (08 R191, R192, R194, R196) -/

/-- A signed dyadic as an integer of units 2^u, u at most its exponent. -/
def unitsOf (s : Bool) (m : Nat) (e u : Int) : Int :=
  let v : Int := (m * 2 ^ (e - u).toNat : Nat)
  if s then -v else v

/-- A sum of two finite values (R41: the sign of an exact zero). -/
def sumNum (f : Fmt) (rm : Rm) (s1 : Bool) (m1 : Nat) (e1 : Int) (s2 : Bool) (m2 : Nat) (e2 : Int) : Nat × Nat :=
  let u := min e1 e2
  let t := unitsOf s1 m1 e1 u + unitsOf s2 m2 e2 u
  if t = 0 then (f.signBit (if s1 == s2 then s1 else rm == .rdn), 0)
  else roundPack f (decide (t < 0)) t.natAbs u rm false

def addUn (f : Fmt) (rm : Rm) (x y : Un) : Nat × Nat :=
  match x, y with
  | .inf s, .inf t => if s == t then (f.inf s, 0) else (f.nan, NV)
  | .inf s, .num .. => (f.inf s, 0)
  | .num .., .inf t => (f.inf t, 0)
  | .num s1 m1 e1, .num s2 m2 e2 => sumNum f rm s1 m1 e1 s2 m2 e2
  | _, _ => (f.nan, snan [x, y])
def fAdd (f : Fmt) (rm : Rm) (a b : Nat) : Nat × Nat := addUn f rm (unpack f a) (unpack f b)
def fSub (f : Fmt) (rm : Rm) (a b : Nat) : Nat × Nat := addUn f rm (unpack f a) (unpack f b).neg

def fMul (f : Fmt) (rm : Rm) (a b : Nat) : Nat × Nat :=
  let x := unpack f a
  let y := unpack f b
  if anyNan [x, y] then (f.nan, snan [x, y])
  else
    let s := x.sign != y.sign
    match x, y with
    | .num _ m1 e1, .num _ m2 e2 => roundPack f s (m1 * m2) (e1 + e2) rm false
    | _, _ => if x.isZero || y.isZero then (f.nan, NV) else (f.inf s, 0)

def fDiv (f : Fmt) (rm : Rm) (a b : Nat) : Nat × Nat :=
  let x := unpack f a
  let y := unpack f b
  let s := x.sign != y.sign
  match x, y with
  | .inf _, .inf _ => (f.nan, NV)
  | .inf _, .num .. => (f.inf s, 0)
  | .num .., .inf _ => (f.signBit s, 0)
  | .num _ m1 e1, .num _ m2 e2 =>
    if m2 = 0 then (if m1 = 0 then (f.nan, NV) else (f.inf s, DZ))
    else if m1 = 0 then (f.signBit s, 0)
    else
      let k := f.fb + 4 + m2.log2
      let n := m1 * 2 ^ k
      roundPack f s (n / m2) (e1 - e2 - k) rm (n % m2 != 0)
  | _, _ => (f.nan, snan [x, y])

/-- The integer square root, bit by bit from bit k. -/
def isqrtFrom : Nat → Nat → Nat → Nat
  | 0, r, _ => r
  | k + 1, r, x => let t := r + 2 ^ k; if t * t ≤ x then isqrtFrom k t x else isqrtFrom k r x
def isqrt (x : Nat) : Nat := isqrtFrom (x.log2 / 2 + 1) 0 x

def fSqrt (f : Fmt) (rm : Rm) (a : Nat) : Nat × Nat :=
  match unpack f a with
  | .nan q => (f.nan, snan [.nan q])
  | .inf s => if s then (f.nan, NV) else (f.inf false, 0)
  | .num s m e =>
    if m = 0 then (f.signBit s, 0)
    else if s then (f.nan, NV)
    else
      let odd := e % 2 == 1
      let m := if odd then 2 * m else m
      let e := if odd then e - 1 else e
      let k := f.fb + 4
      let x := m * 2 ^ (2 * k)
      let r := isqrt x
      roundPack f false r (e / 2 - k) rm (r * r != x)

def fRint (f : Fmt) (rm : Rm) (a : Nat) : Nat × Nat :=
  match unpack f a with
  | .nan q => (f.nan, snan [.nan q])
  | .inf s => (f.inf s, 0)
  | .num s m e =>
    if m = 0 || decide (0 ≤ e) then (a % 2 ^ f.width, 0)
    else
      let (n, inex) := roundShift m (-e) s rm false
      ((roundPack f s n 0 rm false).1, if inex then NX else 0)

/-- a · 2^t rounded once; past the bound every format is at zero or overflow. -/
def fScl (f : Fmt) (rm : Rm) (a : Nat) (t : Int) : Nat × Nat :=
  match unpack f a with
  | .nan q => (f.nan, snan [.nan q])
  | .inf s => (f.inf s, 0)
  | .num s m e => if m = 0 then (f.signBit s, 0) else roundPack f s m (e + clampTo (-20000) 20000 t) rm false

/-- Order of two values that are not NaN; -0 equals +0. -/
def cmpUn (x y : Un) : Ordering :=
  match x, y with
  | .inf s, .inf t => if s == t then .eq else if s then .lt else .gt
  | .inf s, _ => if s then .lt else .gt
  | _, .inf t => if t then .gt else .lt
  | .num s1 m1 e1, .num s2 m2 e2 =>
    let u := min e1 e2
    compare (unitsOf s1 m1 e1 u) (unitsOf s2 m2 e2 u)
  | _, _ => .eq

/-- `vfmin` and `vfmax` (R192). -/
def fMinMax (f : Fmt) (isMax : Bool) (a b : Nat) : Nat × Nat :=
  let x := unpack f a
  let y := unpack f b
  let nv := snan [x, y]
  if x.isNan && y.isNan then (f.nan, nv)
  else if x.isNan then (b, nv)
  else if y.isNan then (a, nv)
  else
    let less := match cmpUn x y with | .lt => true | .gt => false | .eq => x.sign
    (if less != isMax then a else b, 0)

/-- One fused operation: ±(a · b) ± c (R196). -/
def fFma (f : Fmt) (rm : Rm) (negP negC : Bool) (a b c : Nat) : Nat × Nat :=
  let x := unpack f a
  let y := unpack f b
  let z := unpack f c
  if (x.isInf && y.isZero) || (x.isZero && y.isInf) then (f.nan, NV)
  else if anyNan [x, y, z] then (f.nan, snan [x, y, z])
  else
    let ps := (x.sign != y.sign) != negP
    let cs := z.sign != negC
    match x, y, z with
    | .num _ m1 e1, .num _ m2 e2, .num _ m3 e3 => sumNum f rm ps (m1 * m2) (e1 + e2) cs m3 e3
    | .num .., .num .., _ => (f.inf cs, 0)
    | _, _, .inf _ => if ps == cs then (f.inf ps, 0) else (f.nan, NV)
    | _, _, _ => (f.inf ps, 0)

/-- `vfcmp` (R194). -/
def fCmp (f : Fmt) (cc : CcF) (a b : Nat) : Bool × Nat :=
  let x := unpack f a
  let y := unpack f b
  let o := cmpUn x y
  if anyNan [x, y] then
    match cc with
    | .eq => (false, snan [x, y])
    | .ne => (true, snan [x, y])
    | .lt => (false, NV)
    | .ge => (false, NV)
    | .un => (true, snan [x, y])
  else
    match cc with
    | .eq => (o == .eq, 0)
    | .ne => (o != .eq, 0)
    | .lt => (o == .lt, 0)
    | .ge => (o != .lt, 0)
    | .un => (false, 0)

/-- `vfcls` (R193). -/
def fClass (f : Fmt) (a : Nat) : Nat :=
  let sub := (a >>> f.fb) % 2 ^ f.eb == 0
  match unpack f a with
  | .nan q => if q then 512 else 256
  | .inf s => if s then 1 else 128
  | .num s m _ =>
    if m = 0 then (if s then 8 else 16)
    else if s then (if sub then 4 else 2)
    else (if sub then 32 else 64)

/-! ## Conversions (02 R42, R44, 08 R195) -/

def Ty.fmt? : Ty → Option Fmt
  | .f16 => some f16Fmt
  | .bf16 => some bf16Fmt
  | .f32 => some f32Fmt
  | .f64 => some f64Fmt
  | .e4m3 => some e4m3Fmt
  | .e5m2 => some e5m2Fmt
  | _ => none
def Ty.int? : Ty → Option IntTy
  | .i8 => some .i8
  | .i16 => some .i16
  | .i32 => some .i32
  | .i64 => some .i64
  | .n8 => some .n8
  | .n16 => some .n16
  | .n32 => some .n32
  | .n64 => some .n64
  | _ => none

/-- A finite value into a format; saturation of the eight-bit formats (R42). -/
def toFmt (f : Fmt) (s : Bool) (m : Nat) (e : Int) (rm : Rm) (sat : Bool) : Nat × Nat :=
  let (r, fl) := roundPack f s m e rm false
  if sat && f.small && Nat.land fl OF != 0 then (f.signBit s + f.big, OF + NX) else (r, fl)

/-- A floating value into a format. -/
def fToF (f : Fmt) (u : Un) (rm : Rm) (sat : Bool) : Nat × Nat :=
  match u with
  | .nan q => (f.nan, snan [.nan q])
  | .inf s => if sat && f.small then (f.signBit s + f.big, 0) else if f.e4 then (f.nan, NV) else (f.inf s, 0)
  | .num s m e => toFmt f s m e rm sat

/-- A floating value into an integer type (R44). -/
def fToI (ty : IntTy) (u : Un) (rm : Rm) : Nat × Nat :=
  let n := IntTy.width ty
  match u with
  | .nan _ => (wrapN n (intMax ty), NV)
  | .inf s => (wrapN n (if s then intMin ty else intMax ty), NV)
  | .num s m e =>
    let (k, inex) := roundShift m (-e) s rm false
    let v : Int := if s then -(k : Int) else k
    if intMax ty < v then (wrapN n (intMax ty), NV)
    else if v < intMin ty then (wrapN n (intMin ty), NV)
    else (wrapN n v, if inex then NX else 0)

/-- `Convert` of R195 on an element. -/
def convert (td ts : Ty) (rm : Rm) (sat : Bool) (x : Nat) : Nat × Nat :=
  match Ty.fmt? td, Ty.int? td, Ty.fmt? ts, Ty.int? ts with
  | some fd, _, some fs, _ => fToF fd (unpack fs x) rm sat
  | _, some id, some fs, _ => fToI id (unpack fs x) rm
  | some fd, _, _, some is => let v := intVal is x; toFmt fd (decide (v < 0)) v.natAbs 0 rm sat
  | _, some id, _, some is =>
    let v := intVal is x
    (wrapN (IntTy.width id) (if sat then clampTo (intMin id) (intMax id) v else v), 0)
  | _, _, _, _ => (0, 0)

/-! ## Matrix sums (02 R52, R53) -/

/-- An element expanded to its exact value; a four-bit code takes its block's scale byte (R52). -/
def expandElem (ty : Ty) (scale x : Nat) : Un :=
  match ty with
  | .b4 => unpack bf16Fmt (expandCode scale (x % 16))
  | _ =>
    match Ty.fmt? ty, Ty.int? ty with
    | some f, _ => unpack f x
    | _, some it => let v := intVal it x; .num (decide (v < 0)) v.natAbs 0
    | _, _ => .num false 0 0

/-- The product of two expanded elements; infinity times zero is a NaN. The sign of a zero product is the XOR of its
operands' signs, of integers too, for which the spec gives none (log 55, DESIGN CHOICE). -/
def mulUn (x y : Un) : Un :=
  match x, y with
  | .nan _, _ => .nan true
  | _, .nan _ => .nan true
  | .num s m e, .num t n d => .num (s != t) (m * n) (e + d)
  | _, _ => if x.isZero || y.isZero then .nan true else .inf (x.sign != y.sign)

/-- Sum of finite products in units of 2^-300, below every product's exponent. -/
def sumUnits : List Un → Int
  | [] => 0
  | .num s m e :: t => unitsOf s m e (-300) + sumUnits t
  | _ :: t => sumUnits t

/-- One group of at most sixteen products (R53). -/
def groupSum (p : List Un) : Nat :=
  if anyNan p then f32Fmt.nan
  else
    let pos := p.contains (.inf false)
    let neg := p.contains (.inf true)
    if pos && neg then f32Fmt.nan
    else if pos then f32Fmt.inf false
    else if neg then f32Fmt.inf true
    else
      let x := sumUnits p
      if x = 0 then f32Fmt.signBit (p.all fun u => u.isZero && u.sign)
      else (roundPack f32Fmt (decide (x < 0)) x.natAbs (-300) .rne false).1

/-- Groups of sixteen in increasing order, one FP32 rounding each (R53). -/
def groupsFrom : Nat → Option Nat → List Un → Option Nat
  | 0, c, _ => c
  | k + 1, c, l =>
    match l with
    | [] => c
    | _ =>
      let g := groupSum (l.take 16)
      groupsFrom k (some (match c with | none => g | some x => (fAdd f32Fmt .rne x g).1)) (l.drop 16)
/-- The new value of an accumulator element. -/
def mmaElem (c : Option Nat) (products : List Un) : Nat := (groupsFrom (products.length / 16 + 1) c products).getD 0

/-! ## Exact lane accumulators (02 R54 to R58) -/

def xLimit : Int := (2 ^ 4285 : Nat)
/-- `XAdd` of an exact value m · 2^e or a special one (R55); under a sticky infinity as in `XAcc.merge` (log 43). -/
def XAcc.add (x : XAcc) (u : Un) : XAcc :=
  match u with
  | .nan _ => { x with xnan := true }
  | .inf s => if s then { x with ninf := true } else { x with pinf := true }
  | .num s m e =>
    let t := x.n + unitsOf s m e (-2148)
    if t < -xLimit || xLimit ≤ t then { x with xnan := true } else { x with n := t }
/-- Merge another accumulator (R55, R206). N goes on counting under a sticky infinity, and may set XNAN, as R55's
pseudocode has it and R56's last sentence does not (log 43, DESIGN CHOICE). -/
def XAcc.merge (x y : XAcc) : XAcc :=
  let t := x.n + y.n
  let x := { x with pinf := x.pinf || y.pinf, ninf := x.ninf || y.ninf, xnan := x.xnan || y.xnan }
  if t < -xLimit || xLimit ≤ t then { x with xnan := true } else { x with n := t }
def XAcc.isNan (x : XAcc) : Bool := x.xnan || (x.pinf && x.ninf)
/-- `RoundOut` (R57). -/
def XAcc.roundOut (x : XAcc) (rm : Rm) : Nat × Nat :=
  if x.isNan then (f64Fmt.nan, NV)
  else if x.pinf then (f64Fmt.inf false, 0)
  else if x.ninf then (f64Fmt.inf true, 0)
  else if x.n = 0 then (0, 0)
  else roundPack f64Fmt (decide (x.n < 0)) x.n.natAbs (-2148) rm false
/-- `ExactSign` (R57). -/
def XAcc.exactSign (x : XAcc) : Int × Nat :=
  if x.isNan then (0, NV)
  else if x.pinf then (1, 0)
  else if x.ninf then (-1, 0)
  else (if x.n < 0 then -1 else if x.n = 0 then 0 else 1, 0)
/-- The accumulator image as a number of 4,288 bits (R58). -/
def XAcc.image (x : XAcc) : Nat :=
  if x.pinf || x.ninf || x.xnan then 2 ^ 4286 + 4 * bN x.xnan + 2 * bN x.ninf + bN x.pinf
  else wrapN 4288 x.n
/-- Restoring an image (R58). -/
def XAcc.ofImage (v : Nat) : XAcc :=
  let t := (v >>> 4285) % 8
  if t == 0 || t == 7 then { n := signedOf 4288 v }
  else if t == 2 then
    let none_ := v % 8 == 0
    { n := 0, xnan := v.testBit 2 || none_, ninf := v.testBit 1, pinf := v.testBit 0 }
  else { n := 0, xnan := true }

/-! ## Elements in lanes (02 R36, 08 R182) and `FCSR` (02 R50, R51) -/

/-- Element j of width n of a lane. -/
def elemOf (n j : Nat) (x : W64) : Nat := (x.toNat >>> (n * j)) % 2 ^ n
/-- A lane built from elements. -/
def packElems (n : Nat) : List Nat → Nat
  | [] => 0
  | e :: t => e % 2 ^ n + 2 ^ n * packElems n t
/-- An elementwise result in a lane: one element after another, with the flags of all. -/
def mapElems (n : Nat) (f : Nat → Nat × Nat) : W64 × Nat :=
  let rs := (List.range (64 / n)).map f
  (w64 (packElems n (rs.map (·.1))), rs.foldl (fun acc r => Nat.lor acc r.2) 0)

/-- The mode an instruction rounds in; DYN is FRM (R49, R51). -/
def Core.rm (k : Core) : RmF → Rm
  | .rne => .rne
  | .rtz => .rtz
  | .rdn => .rdn
  | .rup => .rup
  | .rmm => .rmm
  | .dyn => match bitsOf k.fcsr 5 3 with | 0 => .rne | 1 => .rtz | 2 => .rdn | 3 => .rup | _ => .rmm
/-- Set sticky flags. -/
def raiseFlags (fl : Nat) : M Unit := modMe fun k => { k with fcsr := k.fcsr ||| w64 (fl % 32) }
/-- Stored bits of `FCSR` (R50). -/
def fcsrStore (v : W64) : W64 :=
  let frm := bitsOf v 5 3
  w64 (32 * (if frm ≤ 4 then frm else 0) + bitsOf v 0 5)

end Sys2Proof.Machine
end

