-- ==== Sys2Proof/Machine/Fetch.lean ====
section
/-!
DEFINITION. Fetch (05): lines and their line words, code images, the L1I and the line buffers, branch targets, and
the discard of code and constants.
-/
namespace Sys2Proof.Machine

/-! ## Translation for whichever agent executes -/

/-- The core whose code images the present agent fetches through. -/
def State.imgCore (s : State) : Nat :=
  match s.cur with
  | .seq r => match (s.seqU r).inst with | some i => s.leadOf i | none => 8 * r
  | _ => s.actor
/-- The agent of the directory and the caches that fetches and reads constants for the present step (log 51). -/
def State.reader (s : State) : Nat :=
  match s.cur with
  | .seq r => rowAgent r
  | .eng _ => rowAgent (rowOf s.actor)
  | _ => fetchAgent s.actor
def State.instLaunch (s : State) (i : Nat) : Option Nat := (tget none s.insts i).map (·.launch)

/-- A translation of a bound engine, through its cluster's TLB (09 R245); `served` ends the wait that it was on. -/
def engXlate (g asid : Nat) (inst : Option Nat) (dlim : Nat) (d : Option Demand) (served : State → State) (va : Nat)
    (acc : Acc) : M (Nat × TlbEnt) := do
  let s ← get
  match s.xlate (.clu g) (inst.bind s.instLaunch) asid va acc true with
  | .ok (pa, t, s') => do
    set (match d with | some x => if x.asid == asid && x.va == va then served s' else s' | none => s')
    return (pa, t)
  | .error .protection => trapAt 0x09 (w64 va)
  | .error (.machine pa) => throw (.machine pa)
  | .error .busy => waitNow
  | .error .notPresent =>
    match s.missKind asid va d with
    | .fault code => missTrap code asid va
    | .demand => throw (.wait (some (demandFor d asid va dlim)))

/-- A translation in the current ASID and mode of the executing agent. -/
def agentXlate (va : Nat) (acc : Acc) : M (Nat × TlbEnt) := do
  let s ← get
  match s.cur with
  | .seq r =>
    let u := s.seqU r
    engXlate (r / 4) u.asid u.inst u.dlim u.demand (fun s => s.setSeq r { s.seqU r with demand := none }) va acc
  | .eng g =>
    let u := s.engU g
    engXlate g u.asid u.inst u.dlim u.demand (fun s => s.setEng g { s.engU g with demand := none }) va acc
  | _ => do
    let k ← myCore
    coreXlate k.asid va acc (!k.sup)

/-- The number under which the agent's lines are cached. -/
def State.agentAsid (s : State) : Nat :=
  match s.cur with
  | .seq r => (s.seqU r).asid
  | .eng g => (s.engU g).asid
  | _ => (s.core s.actor).cacheAsid

/-- Bytes of a Loc, low first, as a fetch reads them. -/
def locBytes (l : Loc) (n : Nat) : M (List Byte) := do
  let s ← get
  match l with
  | .phys p _ =>
    if s.poisoned p then throw (.machine p)
    else do
      set (s.dirRead s.reader (lineOf p))
      return s.mem.bytes p n
  | .ali w p =>
    match s.aliasBadN w p n with
    | some q => throw (.machine q)
    | none => do
      set (s.fill s.reader (lineOf p))
      return s.aliasBytes w p n
  | _ => return List.replicate n 0

/-- Four bytes at a virtual address, as a data load. -/
def loadFour (va : Nat) : M (List Byte) := do
  let (pa, t) ← agentXlate va .load
  locBytes (← physLoc va pa (t.ok == 1) false false) 4
/-- 4n bytes at a virtual address. -/
def loadFours (va : Nat) : Nat → M (List Byte)
  | 0 => return []
  | n + 1 => do
    let b ← loadFour va
    return b ++ (← loadFours ((va + 4) % 2 ^ 64) n)

/-! ## The line word (R106, R107) -/

def lineNat (l : Line) : Nat := l.toNat
def lwordOf (l : Line) : Nat := l.toNat >>> 480
def parOf (l : Line) : Nat := bitsOf l 504 8
def slotOf (l : Line) (k : Nat) : Word96 := BitVec.ofNat 96 (l.toNat >>> (96 * k))
def clsOf (l : Line) (k : Nat) : Cls :=
  match bitsOf l (485 + 2 * k) 2 with
  | 0 => .s
  | 1 => .d
  | 2 => .e
  | _ => .b
def tgtOf (l : Line) (k : Nat) : Bool := bitOf l (480 + k)
/-- Ones of a number below 2^n, modulo two. -/
def parity : Nat → Nat → Bool
  | 0, _ => false
  | n + 1, x => (x.testBit n) != parity n x
/-- The PAR field that a line needs (R107). -/
def parNeeded (l : Line) : Nat :=
  let x := l.toNat % 2 ^ 504
  (List.range 8).foldl (fun acc j => acc + 2 ^ j * bN (parity 64 ((x >>> (64 * j)) % 2 ^ 64))) 0
def parityBad (l : Line) : Bool := parOf l != parNeeded l
def lineRsv (l : Line) : Nat := bitsOf l 499 5
/-- The roles a slot belongs to (R118, 14 R340). -/
def slotRole (w : Word96) : Nat := bitsOf w 92 4
def isHand (w : Word96) : Bool := bitsOf w 84 8 == 0xec
def slotRcv (w : Word96) : Nat := bitsOf w 50 4
/-- The role-presence mask (R118). -/
def rolesOf (l : Line) : Nat :=
  (List.range 5).foldl (fun m k =>
    let w := slotOf l k
    let m := Nat.lor m (2 ^ slotRole w)
    if isHand w then Nat.lor m (2 ^ slotRcv w) else m) 0
def lineOfBytes (bs : List Byte) : Line := BitVec.ofNat 512 (leNat bs)

/-! ## Expansion (R114 to R116) -/

inductive FetchRes
  | line (l : L1Line)
  | undecodable
  | badParity
  deriving DecidableEq, Repr

/-- The image that holds a line address. -/
def Core.imageOf (k : Core) (line : Nat) : Option CodeImg :=
  (k.codeimg.find? fun x => match x.2.img with
    | some g => bitOf x.2.raw 0 && g.vbase ≤ line && line < g.vbase + 64 * g.nlines
    | none => false).bind (·.2.img)

/-- A cached eight-byte LATT entry or sixteen-byte dictionary entry. -/
def readLatt (fresh : Bool) (va : Nat) : M Nat := do
  let s ← get
  let c := s.imgCore
  match (s.core c).lattc.find? fun e => !fresh && e.asid == s.agentAsid && e.addr == va with
  | some e => return leNat e.bytes
  | none => do
    let bs ← loadFours va 2
    modCore c fun k => { k with lattc := { asid := s.agentAsid, addr := va, bytes := bs } :: k.lattc }
    return leNat bs
def readDict (fresh : Bool) (va : Nat) : M Nat := do
  let s ← get
  let c := s.imgCore
  match (s.core c).dictc.find? fun e => !fresh && e.asid == s.agentAsid && e.addr == va with
  | some e => return leNat e.bytes
  | none => do
    let bs ← loadFours va 4
    modCore c fun k => { k with dictc := { asid := s.agentAsid, addr := va, bytes := bs } :: k.dictc }
    return leNat bs

/-- The slots of a compressed body from slot k on: the words and the bytes left; `none` on a rule of R115 broken. -/
def expandSlots (fresh : Bool) (g : CodeImg) (map : Nat) : Nat → Nat → List Byte → M (Option (Nat × List Byte))
  | 0, _, rest => return some (0, rest)
  | n + 1, k, rest =>
    if map.testBit k then do
      let x := leNat (rest.take 2)
      if rest.length < 2 || 4096 ≤ x || g.ndict ≤ x then return none
      let e ← readDict fresh ((g.dict + 16 * x) % 2 ^ 64)
      if e >>> 96 != 0 then return none
      match ← expandSlots fresh g map n (k + 1) (rest.drop 2) with
      | some (w, r) => return some (e % 2 ^ 96 + 2 ^ 96 * w, r)
      | none => return none
    else do
      if rest.length < 12 then return none
      match ← expandSlots fresh g map n (k + 1) (rest.drop 12) with
      | some (w, r) => return some (leNat (rest.take 12) + 2 ^ 96 * w, r)
      | none => return none

/-- A compressed body (R115). -/
def expandBody (fresh : Bool) (g : CodeImg) (bs : List Byte) : M (Option Line) := do
  let lw := leNat (bs.take 4)
  let map := (bs.getD 4 0).toNat
  if 32 ≤ map then return none
  match ← expandSlots fresh g map 5 0 (bs.drop 5) with
  | some (w, rest) =>
    if rest.length < 4 && rest.all (· == 0) then return some (BitVec.ofNat 512 (w + 2 ^ 480 * lw)) else return none
  | none => return none

/-- Where R116 reads a line's bytes. -/
inductive LineSrc
  | plain                          -- no image holds the line
  | raw (va : Nat)
  | body (g : CodeImg) (va n : Nat)
  | bad
  deriving DecidableEq, Repr
/-- The source of a line. A LATT entry with a nonzero reserved field, or an OFFSET that its KIND does not admit, makes the
line undecodable: R114 does not say what such an entry does (log 73, DESIGN CHOICE). -/
def lineSrc (fresh : Bool) (line : W64) : M LineSrc := do
  let k := (← get).core (← get).imgCore
  match if k.isFw then none else k.imageOf line.toNat with
  | none => return .plain
  | some g => do
    let e ← readLatt fresh ((g.latt + 8 * ((line.toNat - g.vbase) / 64)) % 2 ^ 64)
    let kind := e >>> 62
    let len := (e >>> 40) % 256
    let off := e % 2 ^ 40
    let va := (g.body + off) % 2 ^ 64
    if (e >>> 48) % 2 ^ 14 != 0 || g.bodylen < off + len then return .bad
    else if kind == 1 then return if len != 64 || off % 8 != 0 then .bad else .raw va
    else if kind == 0 then
      return if len < 16 || 68 < len || len % 4 != 0 || off % 4 != 0 then .bad else .body g va len
    else return .bad
/-- n bytes of a line's source. -/
def srcRead (line : W64) : LineSrc → M (List Byte)
  | .plain => do
    let (pa, t) ← agentXlate line.toNat .fetch
    locBytes (← physLoc line.toNat pa (t.ok == 1) false false) 64
  | .raw va => loadFours va 16
  | .body _ va n => loadFours va (n / 4)
  | .bad => return []
def LineSrc.va (line : W64) : LineSrc → Nat
  | .plain => line.toNat
  | .raw va => va
  | .body _ va _ => va
  | .bad => 0

/-- The granules a fill has read already stand in place of what memory now holds (R125). -/
def PartFill.over (p : PartFill) (va : Nat) (bs : List Byte) : List Byte :=
  (List.range bs.length).map fun i =>
    match p.got.find? fun x => x.1 == (va + i) / 8 with
    | some g => g.2.getD ((va + i) % 8) 0
    | none => bs.getD i 0
/-- One attempt of R116, without the parity check: from memory afresh, or with the granules of `p`. -/
def fetchOnce (fresh : Bool) (p : Option PartFill) (line : W64) : M (Option Line) := do
  let src ← lineSrc fresh line
  let bs ← srcRead line src
  let bs := match p with | some x => x.over (src.va line) bs | none => bs
  match src with
  | .bad => return none
  | .body g _ _ => expandBody fresh g bs
  | _ => return some (lineOfBytes bs)

/-- The lines an agent holds, and the fill it has under way. -/
def State.agentLines (s : State) : List L1Line :=
  match s.cur with
  | .seq r => (s.seqU r).lines
  | .eng g => (s.engU g).lines
  | _ => (s.core s.actor).l1i
def State.agentPart (s : State) : Option PartFill :=
  match s.cur with
  | .seq r => (s.seqU r).part
  | .eng g => (s.engU g).part
  | _ => (s.core s.actor).part
def State.setAgentPart (s : State) (p : Option PartFill) : State :=
  match s.cur with
  | .seq r => s.setSeq r { s.seqU r with part := p }
  | .eng g => s.setEng g { s.engU g with part := p }
  | _ => s.setCore s.actor { s.core s.actor with part := p }
/-- The L1I set of a line: bits [12:6] of its address (R118, log 52). -/
def l1iSet (line : W64) : Nat := bitsOf line 6 7
/-- A line enters the L1I, of 128 sets of 4 ways, or an engine's line buffer, of 64 lines (R118, R120). -/
def State.addLine (s : State) (l : L1Line) : State :=
  match s.cur with
  | .seq r =>
    let u := s.seqU r
    if u.lines.length < 64 then s.setSeq r { u with lines := l :: u.lines }
    else (s.setSeq r { u with lines := l :: ldel u.lines (s.freeBelow 64) }).spent
  | .eng g =>
    let u := s.engU g
    if u.lines.length < 64 then s.setEng g { u with lines := l :: u.lines }
    else (s.setEng g { u with lines := l :: ldel u.lines (s.freeBelow 64) }).spent
  | _ =>
    let k := s.core s.actor
    let same (x : L1Line) : Bool := l1iSet x.line == l1iSet l.line
    if (k.l1i.filter same).length < 4 then s.setCore s.actor { k with l1i := l :: k.l1i }
    else (s.setCore s.actor { k with l1i := l :: delNth same (s.freeBelow 4) k.l1i }).spent

/-- `FetchLine` (R116) through the L1I or the line buffer (R118, R120). A line whose reserved field is nonzero is kept: its
slots are undecodable (R107, R110). A hit checks nothing: the permission of R117 is of the translation that the fill makes, and
the model does not check the page's X and U bits again in the mode of the hit (log 78, DESIGN CHOICE). -/
def fetchLine (line : W64) : M FetchRes := do
  let s ← get
  let asid := s.agentAsid
  match s.agentLines.find? fun x => x.asid == asid && x.line == line with
  | some x => return .line x
  | none => do
    let p := s.agentPart.filter fun x => x.asid == asid && x.line == line
    if p.isSome then modify fun s => s.setAgentPart none
    let finish (x : Line) : M FetchRes := do
      let l : L1Line := { asid := asid, line := line, bits := x, mask := rolesOf x }
      modify fun s => s.addLine l
      return .line l
    match ← fetchOnce false p line with
    | none => return .undecodable
    | some x =>
      if !parityBad x then finish x
      else match ← fetchOnce true none line with
      | none => return .undecodable
      | some y => if parityBad y then return .badParity else finish y
/-- A fill reads one more aligned granule of its line's source before the rest (R125). -/
def fetchPart (line : W64) (i : Nat) : M Unit := do
  let s ← get
  let src ← lineSrc false line
  match src with
  | .bad => pure ()
  | _ => do
    let bs ← srcRead line src
    let va := src.va line
    let p := match s.agentPart with
      | some x => if x.asid == s.agentAsid && x.line == line then x else { asid := s.agentAsid, line := line, got := [] }
      | none => { asid := s.agentAsid, line := line, got := [] }
    let g := va / 8 + i
    let byte (j : Nat) : Byte := if va ≤ 8 * g + j then bs.getD (8 * g + j - va) 0 else 0
    if p.got.any fun x => x.1 == g then pure ()
    else modify fun s => s.setAgentPart (some { p with got := tput p.got g ((List.range 8).map byte) })

/-- The line of a slot that is reached (R117). -/
def reachLine (pc : W64) : M L1Line := do
  match ← fetchLine (lineAddr pc) with
  | .line l => return l
  | .undecodable => trapAt 0x01 (lineAddr pc)
  | .badParity => throw (.machine (lineAddr pc).toNat 0x11)

/-- `CheckTarget` (R109): the line must decode, and mark the slot a target. -/
def checkTarget (t : W64) : M Unit := do
  check (bitsOf t 3 3 == 0 && bitsOf t 0 3 ≤ 4 && canonical57 t.toNat) 0x03 t
  match ← fetchLine (lineAddr t) with
  | .line l => check (lineRsv l.bits == 0 && tgtOf l.bits (bitsOf t 0 3)) 0x03 t
  | .undecodable => trapAt 0x03 t
  | .badParity => throw (.machine (lineAddr t).toNat 0x11)

/-- The target of a J-form instruction (06 R139). -/
def jTarget (p : W64) (slot : BitVec 3) (off : BitVec 41) : W64 :=
  ((((p >>> 6) + sx64 off) <<< 6) ||| zx64 slot)

/-- The discard of R124 on core c: its own structures, and the line buffers of its row's sequencer and its cluster's copy
engine (log 53). -/
def State.discard (s : State) (c : Nat) : State :=
  let s := s.setCore c { s.core c with l1i := [], kcache := [], lattc := [], dictc := [], part := none }
  let u := s.seqU (rowOf c)
  let s := if u.lines.isEmpty && u.part.isNone then s else s.setSeq (rowOf c) { u with lines := [], part := none }
  let e := s.engU (cluOf c)
  if e.lines.isEmpty && e.part.isNone then s else s.setEng (cluOf c) { e with lines := [], part := none }

end Sys2Proof.Machine
end

