-- ==== Sys2Proof/Machine/Access.lean ====
section
/-!
DEFINITION. Rows 0x5 and 0x6: scalar and vector memory accesses, prefetch and cache maintenance (spec 10 R248 to
R259; 13 R319).
-/
namespace Sys2Proof.Machine

abbrev MOut := Host.Outcome State Fault Refusal

/-- Bytes and extension of a load width (06 R146). -/
def ldBytes : LdW → Nat
  | .i8 | .n8 => 1
  | .i16 | .n16 => 2
  | .i32 | .n32 => 4
  | .i64 => 8
def ldSigned : LdW → Bool
  | .i8 | .i16 | .i32 | .i64 => true
  | _ => false
def stBytes : StW → Nat
  | .b8 => 1
  | .b16 => 2
  | .b32 => 4
  | .b64 => 8
/-- The word a load writes from the n bytes it read (R251). -/
def extendLoad (signed : Bool) (n x : Nat) : W64 := if signed then w64i (signedOf (8 * n) x) else w64 (x % 2 ^ (8 * n))

/-! ## The two streams of one core (R250, log 57) -/

/-- The value that an unread load now holds is loaded again. -/
def State.reload (s : State) (x : Loaded) : State :=
  let k := s.core x.core
  let v := extendLoad x.signed x.n (leNat (s.placeBytes x.place x.n))
  s.setCore x.core (if k.pending x.word then
    { k with pend := lmapIf (fun p => p.word == x.word && p.fw == k.isFw) (fun p => { p with val := v }) k.pend }
    else k.putWord x.word v)
/-- After a store of one stream, the newest r of the other stream's unread loads of the granule hold what it stored; r is
free. -/
def State.reloads (s : State) (c : Nat) (data : Bool) (p : Place) : State :=
  let h := s.loads.filter fun x => x.core == c && x.data != data && x.place.gran == p.gran
  if h.isEmpty then s else (h.take (s.freeBelow (h.length + 1))).foldl State.reload s.spent
/-- A load that no record keeps comes after its stream's earlier loads of the granule. -/
def State.readOver (s : State) (c : Nat) (data : Bool) (p : Place) : State :=
  { s with loads := s.loads.filter fun x => !(x.core == c && x.data == data && x.place.gran == p.gran) }
/-- A store of one stream: its own earlier loads stand; what the granule held before may still be what a load of the data
stream finds, until that stream stores there itself. -/
def State.storedBy (s : State) (c : Nat) (data so : Bool) (p : Place) (old : List Byte) : State :=
  let s := s.readOver c data p
  let s := if data then { s with was := s.was.filter fun x => !(x.core == c && x.place == p.gran) }
    else if so then s
    else { s with was := { core := c, place := p.gran, bytes := old } :: s.was }
  s.reloads c data p
/-- A load of the data stream finds what a granule holds, or what it held before a store of the scalar stream, but nothing
older than what that stream has found there already. -/
def pickWas (p : Place) (n v : Nat) : M Nat := do
  let s ← get
  let c := s.actor
  let hit (x : Was) : Bool := x.core == c && x.place == p.gran
  let h := s.was.filter hit
  if h.isEmpty then return v
  else do
    let j := s.freeBelow (h.length + 1)
    set { s.spent with was := keepHits hit j s.was }
    match j with
    | 0 => return v
    | i + 1 => return leNat (((h.getD i default).bytes.drop (p.off % 8)).take n)
/-- Data-stream instructions that access ordinary memory. -/
def touchesMem : Instr → Bool
  | .vld .. | .vst .. | .vlds .. | .vsts .. | .vgat .. | .vsct .. | .xst .. | .xld .. | .vdotx .. => true
  | _ => false
/-- A scalar SO access waits for the memory accesses before it that the data stream still holds: they may be SO too
(13 R302, R305). -/
def holdSo (l : Loc) : M Unit := do
  match (← get).cur with
  | .core c => readyWhen (!(l.so && ((← get).core c).dq.any fun e => touchesMem e.instr))
  | _ => pure ()

/-- Load n bytes of a location for a stream. -/
def loadFrom (data : Bool) (l : Loc) (n : Nat) : M Nat := do
  if !data then holdSo l
  let v ← loadLoc l n
  match l.place with
  | some p => if data then pickWas p n v else return v
  | none => return v
/-- A word now holds what its stream loaded from a location. -/
def loadedInto (data : Bool) (l : Loc) (i n : Nat) (signed : Bool) : M Unit := do
  match l.place with
  | some p =>
    if l.so then pure ()
    else modify fun s => { s with loads := { core := s.actor, data := data, word := i, place := p, n := n, signed := signed } :: s.loads }
  | none => pure ()
/-- A load that goes to no window word. -/
def loadOver (data : Bool) (l : Loc) (n : Nat) : M Nat := do
  let v ← loadFrom data l n
  match l.place with
  | some p => modify fun s => s.readOver s.actor data p
  | none => pure ()
  return v
/-- Store n bytes of a location for a stream. -/
def storeInto (data : Bool) (l : Loc) (n v : Nat) : M Unit := do
  if !data then holdSo l
  match l.place with
  | some p => do
    let old := (← get).placeBytes p.gran 8
    storeLoc l n v
    modify fun s => s.storedBy s.actor data l.so p old
  | none => storeLoc l n v

/-! ## Scalar accesses -/

/-- A load of n bytes at an address of a space into D, with every check of R248: D is pending until its data land
(04 R102). A load into a queue, a port or `zero` is taken when it is made. -/
def scalarLoad (sp : Space) (d : Reg) (x : W64) (n : Nat) (signed dcrOk : Bool) : M Unit := do
  let k ← myCore
  let l ← accessLoc sp k.asid x n .load dcrOk
  let v ← if d.toNat < 0xf80 then loadFrom false l n else loadOver false l n
  writeWLate .data d (extendLoad signed n v)
  if d.toNat < 0xf80 then loadedInto false l (k.wbase.toNat + d.toNat) n signed
/-- A store of the low n bytes of a word. -/
def scalarStore (sp : Space) (x : W64) (n : Nat) (v : W64) (dcrOk : Bool) : M Unit := do
  let k ← myCore
  let l ← accessLoc sp k.asid x n .store dcrOk
  storeInto false l n (v.toNat % 2 ^ (8 * n))

/-- An I-form load (R251). -/
def loadImm (i : Instr) (sp : Space) (w : LdW) (d a : Reg) (imm : W64) (dcrOk : Bool) (s : State) : MOut :=
  perform i [.wd d, .ws 54 a] (do
    let x ← readW a
    scalarLoad sp d (x + imm) (ldBytes w) (ldSigned w) (dcrOk && ldBytes w == 8)
    return .fall) s
/-- An I-form store (R252): D is a source, read first. -/
def storeImm (i : Instr) (sp : Space) (w : StW) (d a : Reg) (imm : W64) (dcrOk : Bool) (s : State) : MOut :=
  perform i [.ws 66 d, .ws 54 a] (do
    let v ← readW d
    let x ← readW a
    holdStore
    scalarStore sp (x + imm) (stBytes w) v (dcrOk && stBytes w == 8)
    return .fall) s

/-- `ld` (R251). -/
def execLd (w : LdW) (d a : Reg) (imm : BitVec 54) (s : State) : MOut :=
  loadImm (.ld w d a imm) .mem w d a (sx64 imm) true s
/-- `st` (R252). -/
def execSt (w : StW) (d a : Reg) (imm : BitVec 54) (s : State) : MOut :=
  storeImm (.st w d a imm) .mem w d a (sx64 imm) true s
/-- `lds` (R251). -/
def execLds (w : LdW) (d a : Reg) (imm : BitVec 54) (s : State) : MOut :=
  loadImm (.lds w d a imm) .spad w d a (sx64 imm) false s
/-- `sts` (R252). -/
def execSts (w : StW) (d a : Reg) (imm : BitVec 54) (s : State) : MOut :=
  storeImm (.sts w d a imm) .spad w d a (sx64 imm) false s
/-- `ldc` (R251). -/
def execLdc (w : LdW) (d a : Reg) (imm : BitVec 54) (s : State) : MOut :=
  loadImm (.ldc w d a imm) .clu w d a (sx64 imm) false s
/-- `stc` (R252). -/
def execStc (w : StW) (d a : Reg) (imm : BitVec 54) (s : State) : MOut :=
  storeImm (.stc w d a imm) .clu w d a (sx64 imm) false s
/-- `ldd` (R251). -/
def execLdd (w : LdW) (d a : Reg) (imm : BitVec 54) (s : State) : MOut :=
  loadImm (.ldd w d a imm) .die w d a (sx64 imm) false s
/-- `std` (R252). -/
def execStd (w : StW) (d a : Reg) (imm : BitVec 54) (s : State) : MOut :=
  storeImm (.std w d a imm) .die w d a (sx64 imm) false s
/-- `ldx` (R251): the index is scaled by the width. -/
def execLdx (ty : IntTy) (d a b : Reg) (s : State) : MOut :=
  perform (.ldx ty d a b) [.wd d, .ws 54 a, .ws 42 b] (do
    let x ← readW a
    let y ← readW b
    let n := IntTy.width ty / 8
    scalarLoad .mem d (x + y * w64 n) n (IntTy.signed ty) (n == 8)
    return .fall) s
/-- `stx` (R252): TY gives only the width. -/
def execStx (ty : IntTy) (d a b : Reg) (s : State) : MOut :=
  perform (.stx ty d a b) [.ws 66 d, .ws 54 a, .ws 42 b] (do
    let v ← readW d
    let x ← readW a
    let y ← readW b
    let n := IntTy.width ty / 8
    holdStore
    scalarStore .mem (x + y * w64 n) n v (n == 8)
    return .fall) s

/-- `pref` (R253): it has no architectural effect; its operand is read. -/
def execPref (lv : Level) (a : Reg) (imm : BitVec 54) (s : State) : MOut :=
  perform (.pref lv a imm) [.ws 54 a] (do
    let _ ← readW a
    return .fall) s

/-- The line a `cmo` acts on (R254): none where it has no effect. -/
def cmoLine (x : W64) : M (Option Nat) := do
  let s ← get
  let c := s.actor
  let k := s.core c
  let place (s : State) (pa : Nat) : M (Option Nat) := do
    set s
    match physKind pa with
    | .dcr => trapAt 0x07 x
    | .alias_ => if (s.aliasWin pa).isSome then return none else trapAt 0x09 x
    | .unassigned => trapAt 0x09 x
    | _ => return some (lineOf pa)
  if k.isFw then (if Config.physEnd ≤ x.toNat then trapAt 0x09 x else place s x.toNat)
  else
  match s.xlate (.core c) k.launch k.asid x.toNat .maint (!k.sup) with
  | .error .protection => trapAt 0x09 x
  | .error (.machine pa) => throw (.machine pa)
  | .error .busy => waitNow
  | .error .notPresent => return none
  | .ok (pa, _, s') => place s' pa
/-- Dirty data of a line reach the L3 (13 R319). -/
def State.cleanLine (s : State) (line : Nat) : State := s.dropStale (64 * line) 64
/-- The copies of a line at or inside a level are discarded: with the L2's goes what the directory counts, unless overflow
tasks still count on it (13 R295). -/
def State.discardLine (s : State) (lv : Level) (line : Nat) : State :=
  let s := { s with l1d := s.l1d.map fun (x : Nat × List Nat) => (x.1, x.2.filter (· != line)) }
  if lv == .l1 then s.dropUnheld line
  else
    let s := { s with l2 := s.l2.filter fun x => x.line != line }
    let s := if (tget ({} : DirEnt) s.dir line).ovf then s else { s with dir := tdel s.dir line }
    if lv == .l3 then { s with l3 := s.l3.filter (· != line) } else s
/-- Dirty data held at or inside the named level go to the next level out, so those inside the L2 reach the L3 from
level 2 outward; `drop` discards the copies, `thru` writes the line through to memory. -/
def cmoBody (lv : Level) (drop thru : Bool) (a : Reg) : M Flow := do
  let x ← readW a
  holdOutside
  match ← cmoLine x with
  | none => return .fall
  | some line => do
    if thru || lv != .l1 then modify fun s => s.cleanLine line
    if drop then modify fun s => s.discardLine lv line
    return .fall
/-- `cmo.clean`. -/
def execCmoClean (lv : Level) (a : Reg) (s : State) : MOut :=
  perform (.cmoClean lv a) [.ws 54 a] (cmoBody lv false false a) s
/-- `cmo.inval`: dirty data are first written out, so no store is lost. -/
def execCmoInval (lv : Level) (a : Reg) (s : State) : MOut :=
  perform (.cmoInval lv a) [.ws 54 a] (cmoBody lv true false a) s
/-- `cmo.flush`: the line is in addition written through to memory. -/
def execCmoFlush (lv : Level) (a : Reg) (s : State) : MOut :=
  perform (.cmoFlush lv a) [.ws 54 a] (cmoBody lv true true a) s

/-! ## Vector accesses (R249, R255 to R259) -/

/-- The lane at which a restarted access begins (18 R362). -/
def resumeLane : M Nat := do
  let s ← get
  match s.cur with
  | .data c => return (match (s.core c).dq with | h :: _ => h.resume.getD 0 | [] => 0)
  | .core c => return (s.core c).resume.getD 0
  | _ => return 0

/-- What an instruction reads before its lanes, read once: an access that a lane has held keeps it (R131, R249). -/
def readOnce (f : M (List W64)) : M (List W64) := do
  let s ← get
  match s.cur with
  | .data c =>
    match (s.core c).dq with
    | h :: _ => if h.vals.isEmpty then f else return h.vals
    | [] => f
  | _ => f
/-- The lanes from l on in increasing order: the lowest lane that fails or waits has no effect, those below it are
done (R249). -/
def lanesFrom (vals : List W64) (m : Nat) (f : Nat → M Unit) : Nat → Nat → M Unit
  | 0, _ => pure ()
  | n + 1, l => fun s =>
    if laneOn m l then
      match f l s with
      | .ok _ s' => lanesFrom vals m f n (l + 1) s'
      | .error (.wait d) _ => .error (.waitLane l vals d) s
      | .error (.trap t) _ => .error (.trap { t with lane := some l }) s
      | .error (.machine pa code _) _ => .error (.machine pa code true) s
      | .error e _ => .error e s
    else lanesFrom vals m f n (l + 1) s
/-- Every enabled lane, from the one at which the access resumes. The mask is the first of the words read. -/
def laneLoop (vals : List W64) (f : Nat → M Unit) : M Unit := do
  let r ← resumeLane
  let m := bitsOf (vals.getD 0 0) 0 16
  lanesFrom vals ((m >>> r) <<< r) f 16 0
/-- Some enabled lane's page is SO: then every lane's access is (13 R299). -/
def lanesSo (sp : Space) (acc : Acc) (m : Nat) (addr : Nat → W64) : M Bool := do
  let s ← get
  let k := s.core s.actor
  return sp == .mem && !k.isFw && (List.range 16).any fun l =>
    laneOn m l && s.pageSo (.core s.actor) k.asid (addr l).toNat acc (!k.sup)
/-- A vector access: `read` gives the mask and what the addresses come from, `f` does one lane. -/
def vecAccess (sp : Space) (acc : Acc) (read : M (List W64)) (addr : List W64 → Nat → W64)
    (f : Bool → Nat → W64 → M Unit) : M Flow := do
  let v ← readOnce read
  let so ← lanesSo sp acc (bitsOf (v.getD 0 0) 0 16) (addr v)
  laneLoop v fun l => f so l (addr v l)
  return .fall

/-- The location of an 8-byte lane access. -/
def laneLoc (sp : Space) (so : Bool) (x : W64) (acc : Acc2) : M Loc := do
  let k ← myCore
  let l ← accessLoc sp k.asid x 8 acc false
  return if so then l.strict else l
/-- One lane of a load: an 8-byte access whose word goes to lane l of V(D). -/
def loadLaneAt (sp : Space) (d : Reg) (so : Bool) (l : Nat) (x : W64) : M Unit := do
  let a ← laneLoc sp so x .load
  let v ← loadFrom true a 8
  writeLane d l (w64 v)
  let k ← myCore
  if d.toNat < 0xf80 then loadedInto true a (k.wbase.toNat + 16 * d.toNat + l) 8 false
/-- One lane of a store. -/
def storeLaneAt (sp : Space) (d : Reg) (so : Bool) (l : Nat) (x : W64) : M Unit := do
  let v ← readLane d l
  let a ← laneLoc sp so x .store
  storeInto true a 8 v.toNat

/-- The mask and the base of a contiguous access. -/
def readBase (a m : Reg) : M (List W64) := do
  let x ← readW a
  let mk ← readMask m
  return [w64 mk, x]
/-- The mask, the base and the stride. -/
def readStride (a b m : Reg) : M (List W64) := do
  let x ← readW a
  let y ← readW b
  let mk ← readMask m
  return [w64 mk, x, y]
/-- The mask, the base and the enabled lanes' indices. -/
def readIndex (a b m : Reg) : M (List W64) := do
  let x ← readW a
  let mk ← readMask m
  let v ← readVM b mk
  return w64 mk :: x :: v
def addrBase (ofs : W64) (v : List W64) (l : Nat) : W64 := v.getD 1 0 + ofs + w64 (8 * l)
def addrStride (v : List W64) (l : Nat) : W64 := v.getD 1 0 + w64 l * v.getD 2 0
def addrIndex (v : List W64) (l : Nat) : W64 := v.getD 1 0 + v.getD (2 + l) 0

/-- A contiguous load (R256). -/
def vecLoad (i : Instr) (sp : Space) (d a m : Reg) (ofs : W64) (s : State) : MOut :=
  perform i [.vd d, .ws 54 a, .mask 42 m] (vecAccess sp .load (readBase a m) (addrBase ofs) (loadLaneAt sp d)) s
/-- A contiguous store (R256). -/
def vecStore (i : Instr) (sp : Space) (d a m : Reg) (ofs : W64) (s : State) : MOut :=
  perform i [.vs 66 d, .ws 54 a, .mask 42 m] (vecAccess sp .store (readBase a m) (addrBase ofs) (storeLaneAt sp d)) s
/-- `vld`. -/
def execVld (d a m : Reg) (ofs : BitVec 42) (s : State) : MOut := vecLoad (.vld d a m ofs) .mem d a m (sx64 ofs) s
/-- `vst`. -/
def execVst (d a m : Reg) (ofs : BitVec 42) (s : State) : MOut := vecStore (.vst d a m ofs) .mem d a m (sx64 ofs) s
/-- `vlsp`. -/
def execVlsp (d a m : Reg) (ofs : BitVec 42) (s : State) : MOut := vecLoad (.vlsp d a m ofs) .spad d a m (sx64 ofs) s
/-- `vssp`. -/
def execVssp (d a m : Reg) (ofs : BitVec 42) (s : State) : MOut := vecStore (.vssp d a m ofs) .spad d a m (sx64 ofs) s
/-- `vlcl`. -/
def execVlcl (d a m : Reg) (ofs : BitVec 42) (s : State) : MOut := vecLoad (.vlcl d a m ofs) .clu d a m (sx64 ofs) s
/-- `vscl`. -/
def execVscl (d a m : Reg) (ofs : BitVec 42) (s : State) : MOut := vecStore (.vscl d a m ofs) .clu d a m (sx64 ofs) s
/-- `vldd`. -/
def execVldd (d a m : Reg) (ofs : BitVec 42) (s : State) : MOut := vecLoad (.vldd d a m ofs) .die d a m (sx64 ofs) s
/-- `vstd`. -/
def execVstd (d a m : Reg) (ofs : BitVec 42) (s : State) : MOut := vecStore (.vstd d a m ofs) .die d a m (sx64 ofs) s
/-- `vlds` (R257): lane k at W(A) + k times the stride. -/
def execVlds (d a b m : Reg) (s : State) : MOut :=
  perform (.vlds d a b m) [.vd d, .ws 54 a, .ws 42 b, .mask 18 m]
    (vecAccess .mem .load (readStride a b m) addrStride (loadLaneAt .mem d)) s
/-- `vsts` (R257). -/
def execVsts (d a b m : Reg) (s : State) : MOut :=
  perform (.vsts d a b m) [.vs 66 d, .ws 54 a, .ws 42 b, .mask 18 m]
    (vecAccess .mem .store (readStride a b m) addrStride (storeLaneAt .mem d)) s
/-- `vgat` (R257): lane k at W(A) + lane k of V(B). -/
def execVgat (d a b m : Reg) (s : State) : MOut :=
  perform (.vgat d a b m) [.vd d, .ws 54 a, .vs 42 b, .mask 18 m]
    (vecAccess .mem .load (readIndex a b m) addrIndex (loadLaneAt .mem d)) s
/-- `vsct` (R257). -/
def execVsct (d a b m : Reg) (s : State) : MOut :=
  perform (.vsct d a b m) [.vs 66 d, .ws 54 a, .vs 42 b, .mask 18 m]
    (vecAccess .mem .store (readIndex a b m) addrIndex (storeLaneAt .mem d)) s

/-- The checks of R258 on a lane-slice offset. -/
def sliceOk (o : W64) : M Unit := do
  check (o.toNat % 8 == 0) 0x07 o
  check (o.toNat < Config.sliceSize) 0x09 o
/-- `ldl` (R258): each lane reads its own slice. -/
def execLdl (d a b m : Reg) (s : State) : MOut :=
  perform (.ldl d a b m) [.vd d, .ws 54 a, .vs 42 b, .mask 18 m] (do
    let v ← readOnce (readIndex a b m)
    laneLoop v fun l => do
      let o := addrIndex v l
      sliceOk o
      let k ← myCore
      writeLane d l (w64 (k.slices.le (Config.sliceSize * l + o.toNat) 8))
    return .fall) s
/-- `stl` (R258). -/
def execStl (d a b m : Reg) (s : State) : MOut :=
  perform (.stl d a b m) [.vs 66 d, .ws 54 a, .vs 42 b, .mask 18 m] (do
    let v ← readOnce (readIndex a b m)
    laneLoop v fun l => do
      let x ← readLane d l
      let o := addrIndex v l
      sliceOk o
      modMe fun k => { k with slices := k.slices.setLe (Config.sliceSize * l + o.toNat) 8 x.toNat }
    return .fall) s

end Sys2Proof.Machine
end

