-- ==== Sys2Proof/Machine/Layout.lean ====
section
/-!
DEFINITION. CRC-32C (01 R22) and layout records (01 R20, R21, R23).
-/
namespace Sys2Proof.Machine

/-- One bit of the reflected Castagnoli polynomial. -/
def crcBit (c : Nat) : Nat := if c % 2 == 1 then Nat.xor (c / 2) 0x82f63b78 else c / 2
def crcByte (c : Nat) (b : Byte) : Nat :=
  crcBit (crcBit (crcBit (crcBit (crcBit (crcBit (crcBit (crcBit (Nat.xor c b.toNat))))))))
def crcFrom : Nat → List Byte → Nat
  | c, [] => c
  | c, b :: t => crcFrom (crcByte c b) t
/-- CRC-32C (R22). -/
def crc32c (bs : List Byte) : Nat := Nat.xor (crcFrom 0xffffffff bs) 0xffffffff

/-- n bytes of a listing at an offset, as a number. -/
def fieldAt (bs : List Byte) (o n : Nat) : Nat := leNat ((bs.drop o).take n)
def sfieldAt (bs : List Byte) (o : Nat) : Int := (BitVec.ofNat 64 (fieldAt bs o 8)).toInt

/-- The fields of a layout record (R20). -/
def layoutOf (bs : List Byte) : Layout :=
  { base := fieldAt bs 0 8, n0 := fieldAt bs 8 4, n1 := fieldAt bs 12 4, n2 := fieldAt bs 16 4,
    s0 := fieldAt bs 24 4, s1 := sfieldAt bs 32, s2 := sfieldAt bs 40, esize := fieldAt bs 48 1, space := fieldAt bs 49 1 }
/-- Whether the 64 bytes of a record make it valid (R23). -/
def layoutValid (bs : List Byte) : Bool :=
  let l := layoutOf bs
  fieldAt bs 50 2 == 1 && fieldAt bs 60 4 == crc32c (bs.take 60) &&
  1 ≤ l.n0 && l.n0 ≤ 2 ^ 24 && 1 ≤ l.n1 && l.n1 ≤ 2 ^ 24 && 1 ≤ l.n2 && l.n2 ≤ 2 ^ 16 &&
  1 ≤ l.s0 && l.s0 ≤ 65535 && l.esize ≤ 4 && l.space ≤ 3 &&
  fieldAt bs 20 4 == 0 && fieldAt bs 28 4 == 0 && fieldAt bs 54 6 == 0

/-- Bits of an element. -/
def Layout.bits (l : Layout) : Nat := 4 * 2 ^ l.esize
/-- Byte address of element (i, j, p), modulo 2^64, and whether it is a high half (R21). -/
def Layout.addr (l : Layout) (i j p : Nat) : Nat × Bool :=
  let eoff := i * l.s0
  let a : Int := l.base + p * l.s2 + j * l.s1 + (eoff * l.bits / 8 : Nat)
  ((a % (2 ^ 64 : Nat)).toNat, l.esize == 0 && eoff % 2 == 1)
def Layout.count (l : Layout) : Nat := l.n0 * l.n1 * l.n2
def spaceOf (n : Nat) : Space :=
  match n with
  | 0 => .mem
  | 1 => .spad
  | 2 => .clu
  | _ => .die

end Sys2Proof.Machine
end

