-- ==== Sys2Proof/Machine/Scalar.lean ====
section
/-!
DEFINITION. Rows 0x0, 0x1 and 0x2: scalar integer, compare, select, bit-field, move and immediate instructions
(spec 07 R154 to R164).
-/
namespace Sys2Proof.Machine

abbrev Out := Host.Outcome State Fault Refusal

/-- A two-source form of R155: W(D) := f of W(A) and W(B). -/
def binary (i : Instr) (d a b : Reg) (f : W64 → W64 → W64) (s : State) : Out :=
  perform i [.wd d, .ws 54 a, .ws 42 b] (do
    let x ← readW a
    let y ← readW b
    put d (f x y)) s
/-- A one-source form: W(D) := f of W(A). -/
def unary (i : Instr) (d a : Reg) (f : W64 → W64) (s : State) : Out :=
  perform i [.wd d, .ws 54 a] (do
    let x ← readW a
    put d (f x)) s

/-- `add` (R155). -/
def execAdd (ty : IntTy) (d a b : Reg) (s : State) : Out := binary (.add ty d a b) d a b (aluWord .add ty) s
/-- `sub` (R155). -/
def execSub (ty : IntTy) (d a b : Reg) (s : State) : Out := binary (.sub ty d a b) d a b (aluWord .sub ty) s
/-- `mul` (R155). -/
def execMul (ty : IntTy) (d a b : Reg) (s : State) : Out := binary (.mul ty d a b) d a b (aluWord .mul ty) s
/-- `mulh` (R155). -/
def execMulh (ty : IntTy) (d a b : Reg) (s : State) : Out := binary (.mulh ty d a b) d a b (aluWord .mulh ty) s
/-- `div` (R155). -/
def execDiv (ty : IntTy) (d a b : Reg) (s : State) : Out := binary (.div ty d a b) d a b (aluWord .div ty) s
/-- `rem` (R155). -/
def execRem (ty : IntTy) (d a b : Reg) (s : State) : Out := binary (.rem ty d a b) d a b (aluWord .rem ty) s
/-- `and` (R155). -/
def execAnd (ty : IntTy) (d a b : Reg) (s : State) : Out := binary (.and ty d a b) d a b (aluWord .and ty) s
/-- `or` (R155). -/
def execOr (ty : IntTy) (d a b : Reg) (s : State) : Out := binary (.or ty d a b) d a b (aluWord .or ty) s
/-- `xor` (R155). -/
def execXor (ty : IntTy) (d a b : Reg) (s : State) : Out := binary (.xor ty d a b) d a b (aluWord .xor ty) s
/-- `shl` (R155). -/
def execShl (ty : IntTy) (d a b : Reg) (s : State) : Out := binary (.shl ty d a b) d a b (aluWord .shl ty) s
/-- `shr` (R155). -/
def execShr (ty : IntTy) (d a b : Reg) (s : State) : Out := binary (.shr ty d a b) d a b (aluWord .shr ty) s
/-- `rotr` (R155). -/
def execRotr (ty : IntTy) (d a b : Reg) (s : State) : Out := binary (.rotr ty d a b) d a b (aluWord .rotr ty) s
/-- `min` (R155). -/
def execMin (ty : IntTy) (d a b : Reg) (s : State) : Out := binary (.min ty d a b) d a b (aluWord .min ty) s
/-- `max` (R155). -/
def execMax (ty : IntTy) (d a b : Reg) (s : State) : Out := binary (.max ty d a b) d a b (aluWord .max ty) s

/-- `cmp` (R156). -/
def execCmp (cc : Cc) (ty : IntTy) (d a b : Reg) (s : State) : Out :=
  binary (.cmp cc ty d a b) d a b (fun x y => b64 (ccHolds cc (operand ty x) (operand ty y))) s
/-- `sel` (R157): both choices are read. -/
def execSel (n : Bool) (d a b c : Reg) (s : State) : Out :=
  perform (.sel n d a b c) [.wd d, .ws 54 a, .ws 42 b, .ws 30 c] (do
    let x ← readW a
    let y ← readW b
    let z ← readW c
    put d (if x != 0 then y else z)) s
/-- `mov` (R158). -/
def execMov (n : Bool) (d a : Reg) (s : State) : Out := unary (.mov n d a) d a (fun x => x) s

/-- The field of R159: LEN bits of x from POS, zeros above bit 63. -/
def extractField (signed : Bool) (x y z : W64) : W64 :=
  let pos := bitsOf y 0 6
  let len := Nat.min (bitsOf z 0 7) 64
  if len = 0 then 0
  else
    let f := (x.toNat >>> pos) % 2 ^ len
    if signed then w64i (signedOf len f) else w64 f
/-- Bits POS to POS + LEN - 1 of w replaced by the low bits of x; bits past 63 are dropped (R159). -/
def insertField (w x y z : W64) : W64 :=
  let pos := bitsOf y 0 6
  let len := Nat.min (bitsOf z 0 7) 64
  let m : W64 := w64 ((2 ^ len - 1) <<< pos)
  (w &&& ~~~m) ||| ((x <<< pos) &&& m)
/-- `bext` (R159). -/
def execBext (n : Bool) (d a b c : Reg) (s : State) : Out :=
  perform (.bext n d a b c) [.wd d, .ws 54 a, .ws 42 b, .ws 30 c] (do
    let x ← readW a
    let y ← readW b
    let z ← readW c
    put d (extractField (!n) x y z)) s
/-- `bins` (R159): D is read first and written last (R135). -/
def execBins (d a b c : Reg) (s : State) : Out :=
  perform (.bins d a b c) [.wx d, .ws 54 a, .ws 42 b, .ws 30 c] (do
    let w ← readW d
    let x ← readW a
    let y ← readW b
    let z ← readW c
    put d (insertField w x y z)) s

/-- The low n bits of a word as a number (R160). -/
def lowN (ty : IntTy) (x : W64) : Nat := x.toNat % 2 ^ IntTy.width ty
/-- A count or reversal as a word. -/
def countWord (ty : IntTy) (f : Nat → Nat → Nat) (x : W64) : W64 := result ty (f (IntTy.width ty) (lowN ty x) : Nat)
/-- `clz` (R160). -/
def execClz (ty : IntTy) (d a : Reg) (s : State) : Out := unary (.clz ty d a) d a (countWord ty clzN) s
/-- `ctz` (R160). -/
def execCtz (ty : IntTy) (d a : Reg) (s : State) : Out := unary (.ctz ty d a) d a (countWord ty ctzN) s
/-- `popc` (R160). -/
def execPopc (ty : IntTy) (d a : Reg) (s : State) : Out := unary (.popc ty d a) d a (countWord ty popcN) s
/-- `brev` (R160). -/
def execBrev (ty : IntTy) (d a : Reg) (s : State) : Out := unary (.brev ty d a) d a (countWord ty brevN) s
/-- `bswap` (R160). -/
def execBswap (ty : IntTy) (d a : Reg) (s : State) : Out := unary (.bswap ty d a) d a (countWord ty bswapN) s

/-- `adda` (R161): W(A) + W(B) scaled by 2^k. -/
def execAdda (k : BitVec 2) (d a b : Reg) (s : State) : Out :=
  binary (.adda k d a b) d a b (fun x y => x + y <<< k.toNat) s
/-- `madd` (R161): formed exactly and reduced once. -/
def execMadd (ty : IntTy) (d a b c : Reg) (s : State) : Out :=
  perform (.madd ty d a b c) [.wd d, .ws 54 a, .ws 42 b, .ws 30 c] (do
    let x ← readW a
    let y ← readW b
    let z ← readW c
    put d (result ty (operand ty x * operand ty y + operand ty z))) s
/-- `sext` (R158). -/
def execSext (ty : IntTy) (d a : Reg) (s : State) : Out :=
  unary (.sext ty d a) d a (fun x => w64i (signedOf (IntTy.width ty) x.toNat)) s
/-- `zext` (R158). -/
def execZext (ty : IntTy) (d a : Reg) (s : State) : Out := unary (.zext ty d a) d a (fun x => w64 (lowN ty x)) s
/-- `addk` (R162). -/
def execAddk (n : Bool) (d a : Reg) (kw : BitVec 3) (ko : BitVec 17) (s : State) : Out :=
  perform (.addk n d a kw ko) [.wd d, .ws 54 a] (do
    let x ← readW a
    let y ← readK kw ko
    put d (x + y)) s
/-- `movk` (R162). -/
def execMovk (n : Bool) (d : Reg) (kw : BitVec 3) (ko : BitVec 17) (s : State) : Out :=
  perform (.movk n d kw ko) [.wd d] (do
    let y ← readK kw ko
    put d y) s

/-! ## Immediates (R163, R164) -/

/-- `li`. -/
def execLi (d : Reg) (imm : BitVec 54) (s : State) : Out := perform (.li d imm) [.wd d] (put d (sx64 imm)) s
/-- `addi`. -/
def execAddi (d a : Reg) (imm : BitVec 54) (s : State) : Out := unary (.addi d a imm) d a (· + sx64 imm) s
/-- `andi`. -/
def execAndi (d a : Reg) (imm : BitVec 54) (s : State) : Out := unary (.andi d a imm) d a (· &&& sx64 imm) s
/-- `ori`. -/
def execOri (d a : Reg) (imm : BitVec 54) (s : State) : Out := unary (.ori d a imm) d a (· ||| sx64 imm) s
/-- `xori`. -/
def execXori (d a : Reg) (imm : BitVec 54) (s : State) : Out := unary (.xori d a imm) d a (· ^^^ sx64 imm) s
/-- `shli`. -/
def execShli (d a : Reg) (sh : BitVec 6) (s : State) : Out := unary (.shli d a sh) d a (· <<< sh.toNat) s
/-- `shri`. -/
def execShri (d a : Reg) (sh : BitVec 6) (s : State) : Out := unary (.shri d a sh) d a (· >>> sh.toNat) s
/-- `srai`. -/
def execSrai (d a : Reg) (sh : BitVec 6) (s : State) : Out := unary (.srai d a sh) d a (·.sshiftRight sh.toNat) s
/-- The comparison of `cmpi` over all 64 bits (R164). -/
def cmpiHolds (cc : CcI) (x y : W64) : Bool :=
  match cc with
  | .eq => x == y
  | .ne => x != y
  | .lt => x.slt y
  | .ge => !x.slt y
  | .ltn => x.ult y
  | .gen => !x.ult y
/-- `cmpi`. -/
def execCmpi (cc : CcI) (d a : Reg) (imm : BitVec 54) (s : State) : Out :=
  unary (.cmpi cc d a imm) d a (fun x => b64 (cmpiHolds cc x (sx64 imm))) s
/-- `lih`. -/
def execLih (d a : Reg) (imm : BitVec 32) (s : State) : Out :=
  unary (.lih d a imm) d a (fun x => (zx64 imm <<< 32) ||| (x &&& 0xffffffff#64)) s
/-- `muli`. -/
def execMuli (d a : Reg) (imm : BitVec 54) (s : State) : Out := unary (.muli d a imm) d a (· * sx64 imm) s
/-- `maxi`, signed. -/
def execMaxi (d a : Reg) (imm : BitVec 54) (s : State) : Out :=
  unary (.maxi d a imm) d a (fun x => if x.slt (sx64 imm) then sx64 imm else x) s
/-- `lpc`: from the address of its own line. -/
def execLpc (d : Reg) (imm : BitVec 54) (s : State) : Out :=
  perform (.lpc d imm) [.wd d] (do
    let p := (← get).pcOf
    put d (lineAddr p + sx64 imm)) s
/-- `mini`, signed. -/
def execMini (d a : Reg) (imm : BitVec 54) (s : State) : Out :=
  unary (.mini d a imm) d a (fun x => if x.slt (sx64 imm) then x else sx64 imm) s
/-- `nop` (06 R148): pops nothing and waits for nothing. -/
def execNop (s : State) : Out := perform .nop [] (return .fall) s

end Sys2Proof.Machine
end

