-- ==== Sys2Proof/Machine/Control.lean ====
section
/-!
DEFINITION. Rows 0x3 and 0x4: control transfer, the window, the status registers, tail masks and queue status
(spec 07 R165 to R178; 05 R112, R124).
-/
namespace Sys2Proof.Machine

/-! ## Control transfer (R166 to R168) -/

/-- A conditional branch: a branch that is not taken checks nothing. -/
def branch (i : Instr) (slot : BitVec 3) (a b : Reg) (off : BitVec 41) (take : W64 → W64 → Bool) (s : State) : Out :=
  perform i [.ws 54 a, .ws 42 b] (do
    let x ← readW a
    let y ← readW b
    if take x y then do
      let t := jTarget (← get).pcOf slot off
      checkTarget t
      return .goto t
    else return .fall) s
/-- `b.eq`. -/
def execBeq (slot : BitVec 3) (a b : Reg) (off : BitVec 41) (s : State) : Out :=
  branch (.beq slot a b off) slot a b off (fun x y => x == y) s
/-- `b.ne`. -/
def execBne (slot : BitVec 3) (a b : Reg) (off : BitVec 41) (s : State) : Out :=
  branch (.bne slot a b off) slot a b off (fun x y => x != y) s
/-- `b.lt`. -/
def execBlt (slot : BitVec 3) (a b : Reg) (off : BitVec 41) (s : State) : Out :=
  branch (.blt slot a b off) slot a b off (fun x y => x.slt y) s
/-- `b.ge`. -/
def execBge (slot : BitVec 3) (a b : Reg) (off : BitVec 41) (s : State) : Out :=
  branch (.bge slot a b off) slot a b off (fun x y => !x.slt y) s
/-- `b.ltn`. -/
def execBltn (slot : BitVec 3) (a b : Reg) (off : BitVec 41) (s : State) : Out :=
  branch (.bltn slot a b off) slot a b off (fun x y => x.ult y) s
/-- `b.gen`. -/
def execBgen (slot : BitVec 3) (a b : Reg) (off : BitVec 41) (s : State) : Out :=
  branch (.bgen slot a b off) slot a b off (fun x y => !x.ult y) s
/-- `j` (R167). -/
def execJ (slot : BitVec 3) (off : BitVec 41) (s : State) : Out :=
  perform (.j slot off) [] (do
    let t := jTarget (← get).pcOf slot off
    checkTarget t
    return .goto t) s
/-- `call` (R167): the link is written after the check. -/
def execCall (slot : BitVec 3) (d : Reg) (off : BitVec 41) (s : State) : Out :=
  perform (.call slot d off) [.wd d] (do
    let p := (← get).pcOf
    let t := jTarget p slot off
    checkTarget t
    writeW d (nextPc p)
    return .goto t) s
/-- `jr` (R168). -/
def execJr (a : Reg) (s : State) : Out :=
  perform (.jr a) [.ws 54 a] (do
    let t ← readW a
    checkTarget t
    return .goto t) s
/-- `callr` (R168): the target is read before D is written. -/
def execCallr (d a : Reg) (s : State) : Out :=
  perform (.callr d a) [.wd d, .ws 54 a] (do
    let t ← readW a
    checkTarget t
    writeW d (nextPc (← get).pcOf)
    return .goto t) s
/-- `ret` (R168): the same effect as `jr`. -/
def execRet (a : Reg) (s : State) : Out :=
  perform (.ret a) [.ws 54 a] (do
    let t ← readW a
    checkTarget t
    return .goto t) s

/-! ## The window (R169 to R171, 04 R103) -/

/-- `WindowChange`: to base b, exact, and size n. -/
def changeWindow (b : Int) (n : Nat) : M Unit := do
  let k ← myCore
  match k.windowFault b n with
  | some code => trapAt code 0
  | none => modMe fun k => { k with wbase := w64i b, wlim := w64 n }
/-- `win` (R169): operands unsigned, checked without wrap. -/
def execWin (a b : Reg) (s : State) : Out :=
  perform (.win a b) [.ws 54 a, .ws 42 b] (do
    let x ← readW a
    let y ← readW b
    changeWindow x.toNat y.toNat
    return .fall) s
/-- `wini` (R170). -/
def execWini (delta : BitVec 22) (size : BitVec 12) (s : State) : Out :=
  perform (.wini delta size) [] (do
    let k ← myCore
    changeWindow (k.wbase.toNat + delta.toInt) size.toNat
    return .fall) s
/-- `winq.base` (R171). -/
def execWinqBase (d : Reg) (s : State) : Out :=
  perform (.winqBase d) [.wd d] (do
    let k ← myCore
    put d k.wbase) s
/-- `winq.size` (R171). -/
def execWinqSize (d : Reg) (s : State) : Out :=
  perform (.winqSize d) [.wd d] (do
    let k ← myCore
    put d k.wlim) s

/-! ## System registers (R172 to R175) -/

/-- The value of a system register of the executing core (R173). `LROOT` reads 0 in a task of no launch: R31 gives it only
for a launch's tasks (log 66, DESIGN CHOICE). -/
def State.sysRead (s : State) (c n : Nat) : W64 :=
  let k := s.core c
  if n == 0x000 then k.wbase
  else if n == 0x001 then k.wlim
  else if n == 0x002 then k.wfb
  else if n == 0x003 then k.wfl
  else if n == 0x004 then k.rbb
  else if n == 0x005 then k.rbl
  else if n == 0x006 then k.dwb
  else if n == 0x007 then k.twb
  else if n == 0x008 then k.twl
  else if n == 0x009 then k.tvec
  else if n == 0x010 then k.fcsr
  else if n == 0x020 then k.fpc
  else if n == 0x021 then k.fcause
  else if n == 0x022 then k.faddr
  else if n == 0x023 then k.fstep
  else if n == 0x024 then k.lstart
  else if n == 0x025 then k.fwb
  else if n == 0x026 then k.fwl
  else if n == 0x030 then 16
  else if n == 0x031 then 0x04084080
  else if n == 0x032 then w64 c
  else if n == 0x033 then w64 k.cycle
  else if n == 0x034 then
    match (k.launch.bind s.launch?).bind (·.rootK) with
    | some j => w64 (0x3ffe0 - 32 * j)
    | none => 0
  else if n < 0x048 then tget 0xbf80 k.tcfg (n - 0x040)
  else if n < 0x050 then tget 0 k.cwb (n - 0x048)
  else if n < 0x058 then tget 0 k.cwp (n - 0x050)
  else if n == 0x060 then k.tasklim
  else if n == 0x061 then
    match k.inst.bind (tget none s.insts) with
    | some x => w64 x.drift
    | none => 4
  else if n == 0x062 then k.demandlim
  else if n == 0x070 then w64 featOffered
  else if n < 0x074 then 0
  else if n < 0x078 then tget 0 s.featacc (n - 0x074)
  else (tget {} k.codeimg (n - 0x080)).raw

/-- Registers whose reading is an acquire of the copies that they cover, after which everything comes (13 R304, R308). -/
def acquires (n : Nat) : Bool := 0x050 ≤ n && n < 0x058
/-- `mfs` (R172): it never raises protection; `FCSR` waits for the data stream (R51). -/
def execMfs (d : Reg) (num : BitVec 12) (s : State) : Out :=
  perform (.mfs d num) [.wd d] (do
    let s ← get
    let c := s.actor
    readyWhen (num.toNat != 0x010 || (s.core c).dq.isEmpty)
    if acquires num.toNat then modify fun s => s.settleRace c
    put d (s.sysRead c num.toNat)) s

/-- Store a window register after the checks of 04 R101. -/
def storeIndex (v : W64) (size : W64) (f : W64 → Core → Core) : M Unit := do
  let x : W64 := v &&& 0xfffff#64
  check (x.toNat + size.toNat ≤ 2 ^ 20) 0x02 0
  modMe (f x)
def storeSize (v : W64) (index : W64) (f : W64 → Core → Core) : M Unit := do
  let x : W64 := v &&& 0xfff#64
  check (1 ≤ x.toNat && x.toNat ≤ 3968 && index.toNat + x.toNat ≤ 2 ^ 20) 0x02 0
  modMe (f x)

/-- Writes still pending to window words land, in order: they precede what follows (R174). -/
def Core.landAll (k : Core) : Core :=
  { (k.pend.filter fun p => !p.fw).foldl (fun k p => k.putWord p.word p.val) k with pend := k.pend.filter (·.fw) }
/-- Write back and drop the whole register store (04 R102). It waits for no pending write (R174): they land first (log 7);
a write-back waits as any write to its line does (13 R296), and one that the host link answers with an error is a machine check
(09 R409). -/
def flushStore : M Unit := do
  let c ← me
  modMe Core.landAll
  let s ← get
  match (s.core c).rs.find? fun x => s.rsError x.2 with
  | some x => throw (.machine x.2.pa)
  | none => pure ()
  readyWhen ((s.core c).rs.all fun x => s.rsMayWrite c x.2)
  modify fun s => s.rsFlush c fun _ => true

/-- A store of W(A) to a register whose layout may refuse it (R172 step 3). -/
def sysStore (n : Nat) (v : W64) : M Unit := do
  let k ← myCore
  if n == 0x000 then storeIndex v k.wlim (fun x k => { k with wbase := x })
  else if n == 0x001 then storeSize v k.wbase (fun x k => { k with wlim := x })
  else if n == 0x002 then storeIndex v k.wfl (fun x k => { k with wfb := x })
  else if n == 0x003 then storeSize v k.wfb (fun x k => { k with wfl := x })
  else if n == 0x005 then do
    let x : W64 := v &&& 0x1fffff#64
    check (x.toNat ≤ 2 ^ 20 && x.toNat % 8 == 0) 0x02 0
    flushStore
    modMe fun k => { k with rbl := x }
  else if n == 0x006 then modMe fun k => { k with dwb := v &&& 0xfffff#64 }
  else if n == 0x007 then storeIndex v k.twl (fun x k => { k with twb := x })
  else if n == 0x008 then storeSize v k.twb (fun x k => { k with twl := x })
  else if n == 0x009 then do
    check (v == 0 || (canonical57 v.toNat && bitsOf v 3 3 == 0 && bitsOf v 0 3 ≤ 4)) 0x02 0
    modMe fun k => { k with tvec := v }
  else if n == 0x020 then modMe fun k => { k with fpc := v }
  else if n == 0x021 then modMe fun k => { k with fcause := v &&& 0xff80ff#64 }
  else if n == 0x022 then modMe fun k => { k with faddr := v }
  else if n == 0x023 then modMe fun k => { k with fstep := v &&& 0xff#64 }
  else if n == 0x024 then modMe fun k => { k with lstart := v &&& 0xf#64 }
  else if n == 0x025 then storeIndex v k.fwl (fun x k => { k with fwb := x })
  else if n == 0x026 then storeSize v k.fwb (fun x k => { k with fwl := x })
  else if 0x040 ≤ n && n < 0x048 then do
    let bpr := bitsOf v 0 8
    check (v.toNat < 2 ^ 16 && 1 ≤ bpr && bpr ≤ 128 && bpr % 8 == 0) 0x02 0
    modMe fun k => { k with tcfg := tput k.tcfg (n - 0x040) v }
  else if 0x048 ≤ n && n < 0x050 then modMe fun k => { k with cwb := tput k.cwb (n - 0x048) (v &&& 0x3fffffffffffff#64) }
  else if n == 0x060 then do
    check (2 ^ 12 ≤ v.toNat && v.toNat < 2 ^ 40) 0x02 0
    modMe fun k => { k with tasklim := v }
  else if n == 0x061 then
    match k.inst with
    | none => pure ()
    | some i => do
      check (1 ≤ v.toNat && v.toNat ≤ 15) 0x02 0
      modify fun s => match tget none s.insts i with
        | some x => { s with insts := tput s.insts i (some { x with drift := v.toNat }) }
        | none => s
  else if n == 0x062 then do
    check (2 ^ 10 ≤ v.toNat && v.toNat < 2 ^ 40) 0x02 0
    modMe fun k => { k with demandlim := v }
  else pure ()

/-- `mts` but to `RBB`, `FCSR` and `CODEIMG`n; a register marked "none" ignores it (R172). -/
def execMts (a : Reg) (num : BitVec 12) (s : State) : Out :=
  perform (.mts a num) [.ws 54 a] (do
    let v ← readW a
    sysStore num.toNat v
    return .fall) s
/-- `mts` to `FCSR`: it waits for the data stream, and a reserved FRM stores RNE (02 R50, R51). -/
def execMtsFcsr (a : Reg) (s : State) : Out :=
  perform (.mtsFcsr a) [.ws 54 a] (do
    let v ← readW a
    modMe fun k => { k with fcsr := fcsrStore v }
    return .fall) s
/-- `mts` to `RBB`: every line of the register store is written back and invalidated first (04 R102). -/
def execMtsRbb (a : Reg) (s : State) : Out :=
  perform (.mtsRbb a) [.ws 54 a] (do
    let v ← readW a
    flushStore
    modMe fun k => { k with rbb := v &&& 0x01fffffffffff000#64 }
    return .fall) s

/-- The fields of a code image descriptor (05 R113). -/
def imageFields (bs : List Byte) : CodeImg :=
  { vbase := fieldAt bs 0 8, nlines := fieldAt bs 8 4, ndict := fieldAt bs 12 4, latt := fieldAt bs 16 8,
    dict := fieldAt bs 24 8, body := fieldAt bs 32 8, bodylen := fieldAt bs 40 4 }
/-- The ranges of R113. -/
def imageOk (bs : List Byte) : Bool :=
  let g := imageFields bs
  g.vbase % 4096 == 0 && 1 ≤ g.nlines && g.nlines ≤ 2 ^ 24 && g.ndict ≤ 4096 && g.latt % 8 == 0 && g.dict % 16 == 0 &&
  g.body % 8 == 0 && fieldAt bs 44 16 == 0
/-- Whether two expanded ranges meet (R112). -/
def imagesMeet (a b : CodeImg) : Bool := rangesMeet a.vbase (64 * a.nlines) b.vbase (64 * b.nlines)

/-- `mts` to `CODEIMG`n (05 R112, R124): the descriptor is read once, checked and latched. -/
def execMtsCodeimg (a : Reg) (n : BitVec 3) (s : State) : Out :=
  perform (.mtsCodeimg a n) [.ws 54 a] (do
    let k ← myCore
    let v ← readW a
    let raw : W64 := v &&& 0x01ffffffffffffc1#64
    if bitOf v 0 then do
      let va := canonOf (raw &&& ~~~1#64).toNat
      let bs ← loadFours va 16
      check (fieldAt bs 60 4 == crc32c (bs.take 60)) 0x0c 0
      let g := imageFields bs
      check (imageOk bs && k.codeimg.all fun x => x.1 == n.toNat ||
        (match x.2.img with | some h => !(bitOf x.2.raw 0 && imagesMeet g h) | none => true)) 0x02 0
      modMe fun k => { k with codeimg := tput k.codeimg n.toNat { raw := raw, img := some g } }
      modify fun s => s.discard s.actor
      return .fall
    else do
      modMe fun k => { k with codeimg := tput k.codeimg n.toNat { raw := raw, img := none } }
      modify fun s => s.discard s.actor
      return .fall) s

/-! ## Tail masks and queue status (R176 to R178) -/

/-- The mask of R176. -/
def tailMask (x y : W64) : W64 := w64 (2 ^ (clampTo 0 16 (y.toInt - x.toInt)).toNat - 1)
/-- `wlt`. -/
def execWlt (d a b : Reg) (s : State) : Out := binary (.wlt d a b) d a b tailMask s

/-- The word of R177. The place that a partition control's result still to come keeps in `qd` or a port's queue (19 R384)
shows in neither count: HELD does not hold it yet, and FREE is not less for it (log 79, DESIGN CHOICE). -/
def State.qstatWord (s : State) (c : Nat) (q : QSel) : W64 :=
  let k := s.core c
  let w (link free held : Nat) : W64 := w64 (65536 * link + 256 * free + held)
  let port (d : Nat) : W64 :=
    match s.neighbour c d with
    | none => 0
    | some n => w 1 (Config.portDepth - (s.core n).portHeld ((d + 2) % 4)) (k.port d).length
  match q with
  | .qd => w 1 (Config.qdDepth - k.qdHeld) k.qdHeld
  | .qc => w 1 0 k.qc.length
  | .mn => port 0
  | .me => port 1
  | .ms => port 2
  | .mw => port 3
/-- `qstat` (R177): it pops nothing and stalls on nothing. -/
def execQstat (d : Reg) (q : QSel) (s : State) : Out :=
  perform (.qstat d q) [.wd d] (do
    let s ← get
    put d (s.qstatWord s.actor q)) s

end Sys2Proof.Machine
end

