-- ==== Sys2Proof/Machine/Engine.lean ====
section
/-!
DEFINITION. Memory as the copy engines and the matrix engines reach it (09 R231, R232; 11 R281; 18 R366, R369).
-/
namespace Sys2Proof.Machine

/-- For whom an engine works. -/
structure Work where
  core : Nat            -- the issuing core, or the core in whose partition a bound engine acts
  who : Nat             -- the agent that accesses memory (13 R296)
  so : Bool             -- all its accesses are SO (13 R299)
  launch : Option Nat
  asid : Nat
  sup : Bool
  dlim : Nat
  demand : Option Demand
  pin : Option Pin := none   -- a translation that it is using (09 R247)
  deriving DecidableEq, Repr

/-- Why an engine's access does not happen. -/
inductive UStop
  | fault (code addr : Nat)
  | poison (pa addr : Nat)
  | wait (d : Option Demand)
  deriving DecidableEq, Repr

abbrev U := EStateM UStop State

/-- A translation through the cluster's TLB. -/
def unitXlate (w : Work) (va : Nat) (acc : Acc) : U (Nat × TlbEnt) := do
  let s ← get
  match s.xlate (.clu (cluOf w.core)) w.launch w.asid va acc (!w.sup) with
  | .ok (pa, t, s') => do set s'; return (pa, t)
  | .error .protection => throw (.fault 0x09 va)
  | .error (.machine pa) => throw (.poison pa va)
  | .error .busy => throw (.wait none)
  | .error .notPresent =>
    match s.missKind w.asid va w.demand with
    | .fault code => throw (.fault code va)
    | .demand => throw (.wait (some (demandFor w.demand w.asid va w.dlim)))

/-- The place of an address on a page already translated. -/
def Loc.inPage (l : Loc) (x : Nat) : Loc :=
  match l with
  | .phys p so => .phys (p / 4096 * 4096 + x % 4096) so
  | .ali w p => .ali w (p / 4096 * 4096 + x % 4096)
  | l => l
/-- Where n bytes at an address of a space lie, all on one page; the checks of 10 R248 but alignment. A page that is pinned is
not translated again (09 R247). -/
def unitLoc (w : Work) (sp : Space) (x n : Nat) (acc : Acc2) : U Loc := do
  match sp with
  | .mem =>
    match w.pin.filter (·.page == x / 4096) with
    | some p => return p.place.inPage x
    | none => do
      let (pa, t) ← unitXlate w x acc.xl
      let s ← get
      match physKind pa with
      | .device => return .phys pa (t.ok == 1 || w.so)
      | .host => return .phys pa (t.ok == 1 || w.so || !s.feat 2)
      | .alias_ =>
        match s.aliasWin pa with
        | none => throw (.fault 0x09 x)
        | some f => if acc.writes then throw (.fault 0x0a x) else return .ali f pa
      | .dcr => throw (.fault 0x07 x)
      | .unassigned => throw (.fault 0x09 x)
  | _ =>
    match (← get).onchip w.core sp x n with
    | some l => return l
    | none => throw (.fault 0x09 x)

/-- The place d bytes on. -/
def Loc.shift (l : Loc) (d : Nat) : Loc :=
  match l with
  | .phys p so => .phys (p + d) so
  | .ali w p => .ali w (p + d)
  | .dcr o => .dcr (o + d)
  | .spad c o => .spad c (o + d)
  | .clu c o => .clu c (o + d)
  | .die i o => .die i (o + d)

/-- Byte j of the aligned granule that a place lies in. -/
def Loc.granule (l : Loc) (j : Nat) : Loc :=
  match l with
  | .phys p so => .phys (p / 8 * 8 + j) so
  | .ali w p => .ali w (p / 8 * 8 + j)
  | .dcr o => .dcr (o / 8 * 8 + j)
  | .spad c o => .spad c (o / 8 * 8 + j)
  | .clu c o => .clu c (o / 8 * 8 + j)
  | .die i o => .die i (o / 8 * 8 + j)

/-- One byte of a place, the poison aside. -/
def State.byteAt (s : State) (l : Loc) : Byte :=
  match l with
  | .phys p _ => s.mem.get p
  | .ali w p => s.aliasByte w p
  | .dcr _ => 0
  | .spad c o => (s.core c).spad.get o
  | .clu c o => (s.core c).cspad.get o
  | .die i o => Memory.get (tget [] s.dspad i) o

/-- The poisoned line a byte comes from. -/
def State.badAt (s : State) (l : Loc) : Option Nat :=
  match l with
  | .phys p _ => if s.poisoned p then some p else none
  | .ali w p => s.aliasBad w p
  | _ => none
def State.badByte (s : State) (l : Loc) : Bool := (s.badAt l).isSome
/-- The line whose store the host link answers with an error (09 R409). -/
def State.badStore (s : State) (l : Loc) : Option Nat :=
  match l with
  | .phys p _ => if s.linkError p then some p else none
  | _ => none
def physLineOf (l : Loc) : Option Nat :=
  match l with
  | .phys p _ => some (lineOf p)
  | _ => none
/-- The lines a list of places touches. -/
def linesOf (ls : List Loc) : List Nat := (ls.filterMap physLineOf).eraseDups
/-- Lines of an expanded alias among some places. -/
def aliasLines (ls : List Loc) : List Nat :=
  (ls.filterMap fun l => match l with | .ali _ p => some (lineOf p) | _ => none).eraseDups
/-- Agent `who` reads some places: the directory and the caches take part. -/
def State.readBy (s : State) (who : Nat) (ls : List Loc) : State :=
  (aliasLines ls).foldl (fun s l => s.fill who l) ((linesOf ls).foldl (fun s l => s.dirRead who l) s)

/-- Agent `who` has written one byte of a place. -/
def State.clobberLoc (s : State) (who : Nat) (l : Loc) : State :=
  match l.place with
  | some p => s.clobber who p.space p.unit p.off 1
  | none => s
/-- Agent `who` stores bytes at places. A line written whole loses its poison (18 R369). -/
def State.putBytes (s : State) (who : Nat) (bs : List (Loc × Byte)) : State :=
  let pas := bs.filterMap fun x => match x.1 with | .phys p _ => some p | _ => none
  let lines := linesOf (bs.map (·.1))
  let whole (l : Nat) : Bool := (List.range 64).all fun i => pas.contains (64 * l + i)
  let s := lines.foldl (fun s l => s.dirWrite who l) s
  let s := bs.foldl (fun s x =>
    match x.1 with
    | .phys p so =>
      let s := if so || who == hostAgent then s.dropStale p 1 else s.keepStale (sharerOf who) p 1
      { s with mem := s.mem.set p x.2 }
    | .spad c o => s.putSpad c ((s.core c).spad.set o x.2)
    | .clu c o => s.setCore c { s.core c with cspad := (s.core c).cspad.set o x.2 }
    | .die i o => { s with dspad := tput s.dspad i (Memory.set (tget [] s.dspad i) o x.2) }
    | _ => s) s
  let s := bs.foldl (fun s x => s.clobberLoc who x.1) s
  let s := lines.foldl State.dropUnheld { s with poison := s.poison.filter fun l => !(lines.contains l && whole l) }
  if s.winList.isEmpty then s else pas.foldl (fun s p => s.aliasInval p 1) s

/-- Read n bytes of one page. -/
def unitRead (w : Work) (sp : Space) (x n : Nat) : U (List Byte) := do
  let l ← unitLoc w sp x n .load
  let s ← get
  let ls := (List.range n).map l.shift
  match ls.findSome? s.badAt with
  | some p => throw (.poison p x)
  | none => do
    set (s.readBy w.who ls)
    return ls.map s.byteAt

/-- Write n bytes of one page: a write to an overflowed line waits for its acknowledgements (13 R296). -/
def unitWrite (w : Work) (sp : Space) (x : Nat) (bs : List Byte) : U Unit := do
  let l ← unitLoc w sp x bs.length .store
  let s ← get
  let ls := (List.range bs.length).map l.shift
  match ls.findSome? s.badStore with
  | some p => throw (.poison p x)
  | none => if (linesOf ls).all (s.mayWrite w.who) then set (s.putBytes w.who (ls.zip bs)) else throw (.wait none)

/-- The machine-check event of an engine's read (18 R369). -/
def State.engineCheck (s : State) (w : Work) (pa : Nat) : State :=
  s.checkEvent w.launch 0x12 w.core (64 * lineOf pa)

end Sys2Proof.Machine
end

