-- ==== Sys2Proof/Machine/Copy.lean ====
section
/-!
DEFINITION. Row 0x7 and the copy engines: channels, copies, completion rings, sealing and the die allocators
(spec 09 R227 to R240; 10 R260 to R269; 17 R351).
-/
namespace Sys2Proof.Machine

/-! ## Channels -/

/-- The channels of whoever issues: a core, or a bound copy engine. -/
def State.chansOf (s : State) : ChanRef → Tbl Chan
  | .core c _ => (s.core c).chans
  | .eng g _ => (s.engU g).chans
def chanNo : ChanRef → Nat
  | .core _ n => n
  | .eng _ n => n
/-- The core in whose partition a channel's copies run: a bound engine's are its instance's (17 R351). -/
def State.chanCore (s : State) : ChanRef → Nat
  | .core c _ => c
  | .eng g _ => s.engCore g
def refEng : ChanRef → Bool
  | .core _ _ => false
  | .eng _ _ => true
def State.chan (s : State) (r : ChanRef) : Chan := tget {} (s.chansOf r) (chanNo r)
def State.setChan (s : State) (r : ChanRef) (ch : Chan) : State :=
  match r with
  | .core c n => s.setCore c { s.core c with chans := tput (s.core c).chans n ch }
  | .eng g n => s.setEng g { s.engU g with chans := tput (s.engU g).chans n ch }
/-- The channel a field names, for the executing agent. -/
def State.myChan (s : State) (d : Reg) : ChanRef :=
  match s.cur with
  | .eng g => .eng g d.toNat
  | _ => .core s.actor d.toNat

def Chan.copies (ch : Chan) : List Copy :=
  ch.items.filterMap fun i => match i with | .copy c => some c | .reset => none

/-- Bindings that hold a write pointer: of open channels, and of copies issued before a close (R260). -/
def Chan.bindings (ch : Chan) : List Binding := ch.bind.toList ++ ch.copies.map (·.bind)
def State.cwpBound (s : State) (c n : Nat) : Bool :=
  let all := s.cores.map (·.2.chans) ++ s.engs.map (·.2.chans)
  all.any fun t => t.any fun ch => ch.2.bindings.any fun b => b.cons == some (c, n)

/-- A join-address-form word: reserved bits clear. -/
def joinForm (x : W64) : Bool := bitsOf x 43 21 == 0 && bitsOf x 18 14 == 0
def ringOff (x : W64) : Nat := bitsOf x 0 18
def coreField (x : W64) : Nat := bitsOf x 32 11

/-- `chctl.open` (R260): the checks in their order, then the binding. NOCONS with a nonzero CORE or CWP counts as a
reserved bit set: R260 names no fault for it (log 62, DESIGN CHOICE). -/
def openChan (r : ChanRef) (cons ring : W64) : M Unit := do
  let s ← get
  let c := s.chanCore r
  let base := s.base c
  let ch := s.chan r
  let noRing := (refEng r) && ring == 0
  let noCons := bitOf cons 3
  let ci := coreField cons
  let n := bitsOf cons 0 3
  check ch.bind.isNone 0x02 0
  check (bitsOf cons 43 21 == 0 && bitsOf cons 4 28 == 0 && (!noCons || (ci == 0 && n == 0))) 0x02 0
  check (noRing || (joinForm ring && ringOff ring % 64 == 0)) 0x02 0
  check (noCons || ci < s.nP c) 0x09 0
  check (noRing || coreField ring < s.nP c) 0x09 0
  match r with
  | .eng g _ =>
    let mem := match (s.engU g).inst.bind (tget none s.insts) with
      | some x => x.cores.any fun m => m.1 == base + ci
      | none => false
    check (noCons || mem) 0x09 0
  | .core _ _ => pure ()
  let rc := base + coreField ring
  let logn := if noRing then 0 else ((s.core rc).spad.get (ringOff ring + 8)).toNat
  check (noRing || (1 ≤ logn && logn ≤ 12 && ringOff ring + 32 + 32 * 2 ^ logn ≤ Config.spadSize)) 0x02 0
  check (noCons || !s.cwpBound (base + ci) n) 0x02 0
  let b : Binding := { id := s.bindNo, cons := if noCons then none else some (base + ci, n), consIdx := ci,
                       ring := if noRing then none else some (rc, ringOff ring), logn := logn }
  let s := { s with bindNo := s.bindNo + 1 }
  let s := s.setChan r { ch with bind := some b }
  set (if noCons then s
       else s.setCore (base + ci) { s.core (base + ci) with cwp := tput (s.core (base + ci)).cwp n 0 })

/-- `chctl.open`. -/
def execChctlOpen (d a b : Reg) (s : State) : MOut :=
  perform (.chctlOpen d a b) [.chan 66 d, .ws 54 a, .ws 42 b] (do
    let x ← readW a
    let y ← readW b
    openChan ((← get).myChan d) x y
    return .fall) s
/-- `chctl.close` (R260): copies already issued keep the binding they were issued with. -/
def execChctlClose (d : Reg) (s : State) : MOut :=
  perform (.chctlClose d) [.chan 66 d] (do
    modify fun s => s.setChan (s.myChan d) { s.chan (s.myChan d) with bind := none }
    return .fall) s
/-- `chctl.reset` (R260): it acts once the copies issued before it have completed. -/
def execChctlReset (d : Reg) (s : State) : MOut :=
  perform (.chctlReset d) [.chan 66 d] (do
    modify fun s =>
      let ch := s.chan (s.myChan d)
      if ch.bind.isNone then s
      else if ch.items.isEmpty then s.setChan (s.myChan d) { ch with stop := none }
      else s.setChan (s.myChan d) { ch with items := ch.items ++ [.reset] }
    return .fall) s

/-- Whether another instance holds the core's copy engine (04 R95). -/
def State.engTaken (s : State) (c : Nat) : Bool :=
  match (s.engU (cluOf c)).inst with
  | some i => (s.core c).inst != some i
  | none => false

/-- Issue a copy: the sixteenth that is not complete holds the engine issue (R263). -/
def issueCopy (r : ChanRef) (tag src dst : Nat) (ss ds : Space) (len : Nat) (block : Bool) : M Unit := do
  let s ← get
  let ch := s.chan r
  match ch.bind with
  | none => trapAt 0x02 0
  | some b => do
    if block then do
      check (src % 64 == 0) 0x07 (w64 src)
      check (dst % 64 == 0) 0x07 (w64 dst)
    readyWhen (ch.copies.length < 16)
    let mk (asid : Nat) (sup : Bool) (l : Option Nat) (dl : Nat) : Copy :=
      { tag := tag, bind := b, issuer := s.chanCore r, asid := asid, sup := sup, launch := l, dlim := dl,
        src := src, dst := dst, sspace := ss, dspace := ds, len := len, kind := false, block := block, lay := none,
        started := false, moved := 0, c0 := 0, olds := [], outcome := none, demand := none }
    let cp ← (match r with
      | .core c _ => do
        readyWhen (!s.engTaken c)
        let k := s.core c
        pure (mk k.asid k.sup k.launch k.demandlimL)
      | .eng g _ => do
        let u := s.engU g
        pure (mk u.asid false (u.inst.bind s.instLaunch) u.dlim))
    set (s.setChan r { ch with items := ch.items ++ [.copy cp] })
/-- `send` (R261). -/
def execSend (d a b c : Reg) (ss ds : Space) (s : State) : MOut :=
  perform (.send d a b c ss ds) [.chan 66 d, .ws 54 a, .ws 42 b, .ws 30 c] (do
    let x ← readW a
    let y ← readW b
    let z ← readW c
    issueCopy ((← get).myChan d) (bitsOf z 32 32) x.toNat y.toNat ss ds (bitsOf z 0 32) false
    return .fall) s
/-- `sendb` (R262). -/
def execSendb (d a b c : Reg) (ss ds : Space) (s : State) : MOut :=
  perform (.sendb d a b c ss ds) [.chan 66 d, .ws 54 a, .ws 42 b, .ws 30 c] (do
    let x ← readW a
    let y ← readW b
    let z ← readW c
    issueCopy ((← get).myChan d) (bitsOf z 0 32) x.toNat y.toNat ss ds 0 true
    return .fall) s

/-- The word of R264. -/
def State.chqWord (s : State) (r : ChanRef) : W64 :=
  let ch := s.chan r
  match ch.bind with
  | none => 0
  | some b =>
    w64 (2 ^ 31 + 2 ^ 30 * bN (ch.stop == some b.id) + 2 ^ 29 * bN b.cons.isNone + 2 ^ 24 * ch.copies.length +
      2 ^ 11 * (match b.cons with | some x => x.2 | none => 0) + b.consIdx)
/-- `chq` (R264): it waits for the engine instructions before it. -/
def execChq (d a : Reg) (s : State) : MOut :=
  perform (.chq d a) [.wd d, .chan 54 a] (do
    let s ← get
    readyWhen (!(s.core s.actor).dq.any fun e => isE e.instr)
    put d (s.chqWord (s.myChan a))) s

/-! ## Completion rings (R234, R265, R266) -/

/-- A ring the executing core names: its core, its base and its LOGN. -/
def ringAt (x : W64) : M (Nat × Nat × Nat) := do
  check (x.toNat % 64 == 0) 0x07 x
  let s ← get
  match s.onchip s.actor .spad x.toNat 32 with
  | some (.spad c o) => do
    let logn := ((s.core c).spad.get (o + 8)).toNat
    check (1 ≤ logn && logn ≤ 12) 0x02 0
    return (c, o, logn)
  | _ => trapAt 0x09 x
def State.ringHead (s : State) (c o : Nat) : Nat := (s.core c).spad.le o 4
def State.ringTail (s : State) (c o : Nat) : Nat := (s.core c).spad.le (o + 4) 4
def State.ringHas (s : State) (c o : Nat) : Nat := (s.ringHead c o + 2 ^ 32 - s.ringTail c o) % 2 ^ 32

/-- `cwait` (R265). -/
def execCwait (d a b : Reg) (s : State) : MOut :=
  perform (.cwait d a b) [.wd d, .ws 54 a, .ws 42 b] (do
    let x ← readW a
    let n ← readW b
    let (c, o, logn) ← ringAt x
    check (n.toNat ≤ 2 ^ logn) 0x02 0
    let s ← get
    readyWhen (n.toNat ≤ s.ringHas c o)
    -- an acquire, after which everything comes that follows the copies whose completion it observes (13 R304, R308)
    modify fun s => s.settleRace s.actor
    put d (w64 (s.ringHas c o))) s
/-- `crpop` (R266). -/
def execCrpop (d a : Reg) (try_ : Bool) (s : State) : MOut :=
  perform (.crpop d a try_) [.blk 66 d 4, .ws 54 a] (do
    let x ← readW a
    let (c, o, logn) ← ringAt x
    let s ← get
    if s.ringHead c o == s.ringTail c o then
      if try_ then do
        writeBlock d [BitVec.allOnes 64, 0, 0, 0] 0
        return .fall
      else waitNow
    else do
      holdOutside
      let t := s.ringTail c o
      let at_ := o + 32 + 32 * (t % 2 ^ logn)
      check (at_ + 32 ≤ Config.spadSize) 0x09 (joinAddr (s.pidx c) at_)
      modify fun s => s.settleRace s.actor
      writeBlock d ((s.core c).spad.rec at_).words 0
      storeInto false (.spad c (o + 4)) 4 ((t + 1) % 2 ^ 32)
      return .fall) s

/-! ## The copy engine (R229 to R234, R261, R262) -/

/-- The copy at the head of a channel. -/
def Chan.head (ch : Chan) : Option Copy :=
  match ch.items with
  | .copy c :: _ => some c
  | _ => none
def Chan.setHead (ch : Chan) (c : Copy) : Chan :=
  match ch.items with
  | .copy _ :: t => { ch with items := .copy c :: t }
  | _ => ch
def State.ringFull (s : State) (b : Binding) : Bool :=
  match b.ring with
  | some (c, o) => 2 ^ b.logn ≤ s.ringHas c o
  | none => false
def Copy.work (c : Copy) : Work :=
  { core := c.issuer, who := rowAgent (rowOf c.issuer), so := c.kind, launch := c.launch, asid := c.asid, sup := c.sup, dlim := c.dlim, demand := c.demand }

/-- Spaces and bytes of a copy: of its layout records once they are read. -/
def Copy.sSpace (c : Copy) : Space := match c.lay with | some l => spaceOf l.1.space | none => c.sspace
def Copy.dSpace (c : Copy) : Space := match c.lay with | some l => spaceOf l.2.space | none => c.dspace
/-- Stored bytes of an element, a pair of four-bit elements counting as one. -/
def Layout.eb (l : Layout) : Nat := if l.esize == 0 then 1 else l.bits / 8
def Layout.row (l : Layout) : Nat := if l.esize == 0 then l.n0 / 2 else l.n0
def Layout.step (l : Layout) : Nat := l.s0 * l.eb
/-- Address of stream byte `pos` of a record, in element order (R21). -/
def Layout.streamAt (l : Layout) (pos : Nat) : Nat :=
  let e := pos / l.eb
  let j := e / l.row
  ((l.base + (j / l.n1 : Nat) * l.s2 + (j % l.n1 : Nat) * l.s1 + ((e % l.row) * l.step + pos % l.eb : Nat)) %
    (2 ^ 64 : Nat)).toNat
/-- Whether a byte address belongs to an element of a record. -/
def Layout.covers (l : Layout) (x : Nat) : Bool :=
  (List.range l.n2).any fun p => (List.range l.n1).any fun j =>
    let d := ((x - (l.base + p * l.s2 + j * l.s1)) % (2 ^ 64 : Nat)).toNat
    d / l.step < l.row && d % l.step < l.eb
def Copy.bytes (c : Copy) : Nat :=
  match c.lay with
  | some l => l.2.row * l.2.n1 * l.2.n2 * l.2.eb
  | none => c.len
def Copy.srcAt (c : Copy) (pos : Nat) : Nat :=
  match c.lay with | some l => l.1.streamAt pos | none => (c.src + pos) % 2 ^ 64
def Copy.dstAt (c : Copy) (pos : Nat) : Nat :=
  match c.lay with | some l => l.2.streamAt pos | none => (c.dst + pos) % 2 ^ 64
/-- Whether a byte address is one of the source's. -/
def Copy.inSrc (c : Copy) (x : Nat) : Bool :=
  match c.lay with
  | some l => l.1.covers x
  | none => decide (c.src ≤ x) && decide (x < c.src + c.len)

/-- Whether every byte of a side lies inside its on-chip space, and, for a source, in a place R231 admits. -/
def State.sideOk (s : State) (eng : Bool) (w : Work) (sp : Space) (srcSide : Bool) (at_ : Nat → Nat) (n : Nat) : Bool :=
  match sp with
  | .mem => true
  | _ =>
    !(srcSide && eng && sp == .spad) &&
    (List.range n).all fun i =>
      match s.onchip w.core sp (at_ i) 1 with
      | some (.spad c _) => !srcSide || c == w.core
      | some (.clu c _) => !srcSide || eng || c == w.core
      | some _ => true
      | none => false
/-- Pages that a side of a copy touches. -/
def copyPages (at_ : Nat → Nat) (n : Nat) : List Nat := ((List.range n).map fun i => at_ i / 4096).eraseDups
/-- The pre-check of R261: every destination chunk in ordinary memory is translated, and some may be of an expanded alias.
Its walks set what any walk sets (09 R242). -/
def State.hitsAlias (s : State) (w : Work) (at_ : Nat → Nat) (n : Nat) : Bool × State :=
  (copyPages at_ n).foldl (fun r p =>
    match r.2.xlate (.clu (cluOf w.core)) w.launch w.asid (4096 * p) .store (!w.sup) with
    | .ok (pa, _, s) => (r.1 || (r.2.aliasWin pa).isSome, s)
    | .error _ => r) (false, s)
/-- Why a copy whose ranges are known is refused (R231 items 2 to 4). -/
def State.refusal (s : State) (eng : Bool) (c : Copy) : Option Nat × State :=
  if !s.sideOk eng c.work c.sSpace true c.srcAt c.bytes then (some 0x09, s)
  else if !s.sideOk eng c.work c.dSpace false c.dstAt c.bytes then (some 0x09, s)
  else if c.dSpace != .mem then (none, s)
  else
    let r := s.hitsAlias c.work c.dstAt c.bytes
    (if r.1 then some 0x0a else none, r.2)
/-- The walks of the pre-check must wait for what they record (13 R296). -/
def State.aliasHeld (s : State) (c : Copy) : Bool :=
  c.dSpace == .mem && (copyPages c.dstAt c.bytes).any fun p =>
    match s.xlate (.clu (cluOf c.issuer)) c.launch c.asid (4096 * p) .store (!c.sup) with
    | .error .busy => true
    | _ => false
/-- Whether some page of either side, or of a layout record that the copy reads, is SO (13 R299). -/
def State.copySo (s : State) (c : Copy) : Bool :=
  let so (x : Nat) (acc : Acc) : Bool := s.pageSo (.clu (cluOf c.issuer)) c.asid x acc (!c.sup)
  let side (sp : Space) (at_ : Nat → Nat) (acc : Acc) : Bool := sp == .mem &&
    (copyPages at_ c.bytes).any fun p => so (4096 * p) acc
  side c.sSpace c.srcAt .load || side c.dSpace c.dstAt .store ||
  (c.block && ((c.sspace == .mem && so c.src .load) || (c.dspace == .mem && so c.dst .load)))

/-- The two records of a block copy: why they are refused, or the layouts (R262). -/
def recordsOf (a b : List Byte) : Except Nat (Layout × Layout) :=
  let x := layoutOf a
  let y := layoutOf b
  let four (l : Layout) : Bool := l.s0 == 1 && l.n0 % 2 == 0
  if !layoutValid a || !layoutValid b then .error 0x0c
  else if x.esize != y.esize || x.count != y.count then .error 0x02
  else if x.esize == 0 && !(four x && four y) then .error 0x02
  else .ok (x, y)

/-- Read one record whole (01 R24): a fault refuses with the record's address. -/
def readRecord (w : Work) (sp : Space) (x : Nat) : U (List Byte) := unitRead w sp x 64

/-- The write pointer of a copy's consumer advances, never back, in steps of 64 bytes but at an end (R229). -/
def State.publish (s : State) (c : Copy) (exact : Bool) : State :=
  match c.bind.cons with
  | none => s
  | some (k, n) =>
    let t := c.c0 + c.moved
    let v := if exact then t else t / 64 * 64
    let old := (tget 0 (s.core k).cwp n).toNat
    s.setCore k { s.core k with cwp := tput (s.core k).cwp n (w64 (Nat.max old v)) }

/-- A copy's bytes are over. -/
def State.copyOver (s : State) (r : ChanRef) (c : Copy) (outcome fcode faddr : Nat) : State :=
  (s.publish c true).setChan r ((s.chan r).setHead
    { c with started := true, outcome := some (outcome, fcode, faddr), demand := none, seen := [], pinS := none, pinD := none })
/-- How an engine's access ends a copy or holds it. -/
def State.copyHeld (s0 s : State) (r : ChanRef) (c : Copy) (outcome : Nat) (faddr : Nat → Nat) : UStop → State
  | .fault code x => (s.markRaised (raisedUnit code c.asid x)).copyOver r c outcome code (faddr x)
  | .poison pa x => (s.engineCheck c.work pa).copyOver r c 1 0x12 x
  | .wait d => s0.setChan r ((s0.chan r).setHead { c with demand := match d with | some x => some x | none => c.demand })

/-- COPY_START (R261, R262): the channel's next copy reads its records and is refused, skipped or proceeds; not while
its ring is full (R234). A copy of no bytes completes before any refusal but a record's: R231 and R261 leave open which
comes first (log 63, DESIGN CHOICE). FADDR of a refusal is a record's address where the record's read faults (01 R24), and else
0, of an aliased chunk and of unfit records too: R233 says only faulting address, or 0 (log 46, DESIGN CHOICE). -/
def startCopy (r : ChanRef) (s : State) : State :=
  let ch := s.chan r
  match ch.head with
  | none => s
  | some c =>
    if c.started || s.ringFull c.bind then s
    else
      let c := { c with c0 := match c.bind.cons with | some (k, n) => (tget 0 (s.core k).cwp n).toNat | none => 0 }
      if ch.stop == some c.bind.id then s.copyOver r c 3 0 0
      else
        let go (s : State) (c : Copy) : State :=
          if c.bytes == 0 then s.copyOver r c 0 0 0
          else if s.aliasHeld c then s
          else match s.refusal (refEng r) c with
          | (some code, s) => s.copyOver r c 2 code 0
          | (none, s) => s.setChan r ((s.chan r).setHead { c with started := true, kind := s.copySo c, demand := none })
        if !c.block then go s c
        else
          match (readRecord c.work c.sspace c.src).run s with
          | .error e s1 => s.copyHeld s1 r c 2 (fun _ => c.src) e
          | .ok a s1 =>
            match (readRecord c.work c.dspace c.dst).run s1 with
            | .error e s2 => s1.copyHeld s2 r c 2 (fun _ => c.dst) e
            | .ok b s2 =>
              match recordsOf a b with
              | .error code => s2.copyOver r c 2 code 0
              | .ok l => go s2 { c with lay := some l }

/-- The translation of a place in ordinary memory, to go on with on its 4 KiB page (R232, R247). -/
def pinAt (sp : Space) (x : Nat) (l : Loc) : Option Pin := if sp == .mem then some { page := x / 4096, place := l } else none
/-- No aligned granule of the destination has stream bytes both before `pos` in the step under way and from `pos` on, so that
each is written as one access (R230, 13 R316). -/
def Copy.apart (c : Copy) (pos : Nat) : Bool :=
  match c.lay with
  | none => c.dstAt pos / 8 != c.dstAt (pos - 1) / 8
  | some _ => (List.range (c.bytes - pos)).all fun j => (List.range (pos - c.moved)).all fun i =>
      c.dstAt (pos + j) / 8 != c.dstAt (c.moved + i) / 8
/-- Whether a delivery step may end before stream byte `pos`: at a step of 64 bytes or beyond it, and inside no granule
(R229, R230). -/
def Copy.cutAt (c : Copy) (pos : Nat) : Bool :=
  c.bytes ≤ pos || (c.moved / 64 * 64 + 64 ≤ pos && c.apart pos)
/-- Stream bytes that one step may take in: of a contiguous copy a step and what completes its last granule. -/
def Copy.reach (c : Copy) : Nat := match c.lay with | none => 80 | some _ => c.bytes - c.moved
/-- The places of the next stream bytes, up to where the step may end, and what stops it before. Each 4 KiB chunk of a side is
translated when it is reached (R232); a granule of the source is read whole when its first byte is (13 R301). -/
def chunkList (c : Copy) : Nat → Nat → Option Pin → Option Pin → State → List (Nat × Loc × Loc) × Option UStop × State
  | 0, _, _, _, s => ([], none, s)
  | n + 1, i, ps, pd, s =>
    if 0 < i && c.cutAt (c.moved + i) then ([], none, s)
    else
      match (do
        let x := c.srcAt (c.moved + i)
        let a ← unitLoc { c.work with pin := ps } c.sSpace x 1 .load
        let s ← get
        match if c.seen.any (·.1 == x) then none else (List.range 8).findSome? fun j => s.badAt (a.granule j) with
        | some p => throw (.poison p x)
        | none => pure ()
        let b ← unitLoc { c.work with pin := pd } c.dSpace (c.dstAt (c.moved + i)) 1 .store
        match (← get).badStore b with
        | some p => throw (.poison p (c.dstAt (c.moved + i)))
        | none => pure ()
        return (a, b) : U (Loc × Loc)).run s with
      | .error e s1 => ([], some e, s1)
      | .ok (a, b) s1 =>
        let r := chunkList c n (i + 1) (pinAt c.sSpace (c.srcAt (c.moved + i)) a) (pinAt c.dSpace (c.dstAt (c.moved + i)) b) s1
        ((i, a, b) :: r.1, r.2.1, r.2.2)
/-- The most stream bytes, at most n, that a step can deliver without ending inside a granule. -/
def Copy.lastCut (c : Copy) : Nat → Nat
  | 0 => 0
  | n + 1 => if c.apart (c.moved + n + 1) then n + 1 else c.lastCut n
/-- What can be delivered of a list that stops: before a wait, whole granules alone. -/
def Copy.whole (c : Copy) (l : List (Nat × Loc × Loc)) : Option UStop → List (Nat × Loc × Loc)
  | some (.wait _) => l.take (c.lastCut l.length)
  | _ => l

/-- The source granules that a step's bytes touch, each read whole and once (13 R301); a byte that an earlier chunk has replaced
is read as it was (R261). -/
def Copy.sees (c : Copy) (s : State) (l : List (Nat × Loc × Loc)) : Tbl Byte :=
  l.foldl (fun t x =>
    let p := c.srcAt (c.moved + x.1)
    if t.any (·.1 == p) then t
    else (List.range 8).foldl (fun t j =>
      let q := p / 8 * 8 + j
      tput t q (match c.olds.find? (·.1 == q) with | some y => y.2 | none => s.byteAt (x.2.1.granule j))) t) c.seen
/-- The bytes of a chunk, from the source as the copy has read it: an overlapped destination byte is a free value (R261). -/
def chunkBytes (c : Copy) (seen : Tbl Byte) : List (Nat × Loc × Loc) → Nat → List (Loc × Byte)
  | [], _ => []
  | (i, _, b) :: t, k =>
    let rewritten := c.sSpace == c.dSpace && c.inSrc (c.dstAt (c.moved + i))
    (b, if rewritten then BitVec.ofNat 8 (Config.freeNat k) else tget 0 seen (c.srcAt (c.moved + i))) ::
      chunkBytes c seen t (k + 1)
def chunkOlds (c : Copy) (s : State) (l : List (Nat × Loc × Loc)) : Tbl Byte :=
  if c.sSpace != c.dSpace then c.olds
  else l.foldl (fun t x =>
    let d := c.dstAt (c.moved + x.1)
    if c.inSrc d && (t.find? (fun y => y.1 == d)).isNone then tput t d (s.byteAt x.2.2) else t) c.olds

/-- The copy once a step has delivered a list of bytes. It goes on with a translation, and with a source granule, that its next
byte needs too; a record's order may come back to any granule. -/
def Copy.after (c : Copy) (s : State) (l : List (Nat × Loc × Loc)) : Copy :=
  let n := c.moved + l.length
  let keep (pg : Option Pin) (x : Nat) : Option Pin := pg.filter (·.page == x / 4096)
  let pins (old : Option Pin) (sp : Space) (at_ : Nat → Nat) (place : Nat × Loc × Loc → Loc) : Option Pin :=
    match l.getLast? with
    | some x => keep (pinAt sp (at_ (c.moved + x.1)) (place x)) (at_ n)
    | none => old
  { c with moved := n, demand := none, olds := chunkOlds c s l
           seen := (c.sees s l).filter fun y => c.lay.isSome || y.1 / 8 == c.srcAt n / 8
           pinS := pins c.pinS c.sSpace c.srcAt (·.2.1), pinD := pins c.pinD c.dSpace c.dstAt (·.2.2) }
/-- COPY_CHUNK (R229, R232): the next bytes of the stream are translated and delivered, up to the next step of 64 bytes, or
the copy stops where it faults. -/
def chunkCopy (r : ChanRef) (s : State) : State :=
  match (s.chan r).head with
  | none => s
  | some c =>
    if !c.started || c.outcome.isSome then s
    else
      let (l, e, s1) := chunkList c c.reach 0 c.pinS c.pinD s
      let l := c.whole l e
      if !(linesOf (l.map (·.2.2))).all (s1.mayWrite c.work.who) then s
      else
        let bs := chunkBytes c (c.sees s1 l) l s1.freeCtr
        let s2 := (s1.readBy c.work.who (l.map (·.2.1))).putBytes c.work.who bs
        let s3 := { s2.note 0x13 c.issuer l.length with freeCtr := s2.freeCtr + l.length }
        let d := c.after s1 l
        match e with
        | some (.wait x) =>
          if l.isEmpty then s.copyHeld s r c 1 id (.wait x) else (s3.publish d false).setChan r ((s3.chan r).setHead d)
        | some x => s3.copyHeld s3 r d 1 id x
        | none =>
          if d.bytes ≤ d.moved then s3.copyOver r d 0 0 0 else (s3.publish d false).setChan r ((s3.chan r).setHead d)

/-- Resets that every earlier copy has passed. -/
def Chan.runResets (ch : Chan) : Chan :=
  match ch.items.span (· == .reset) with
  | ([], _) => ch
  | (_, t) => { ch with items := t, stop := none }
/-- The 32-byte record of R233. -/
def State.copyRecord (s : State) (r : ChanRef) (c : Copy) (o : Nat × Nat × Nat) : Nat :=
  let who := if refEng r then 0xffffffff else s.pidx c.issuer
  c.tag + 2 ^ 32 * o.1 + 2 ^ 48 * o.2.1 + 2 ^ 56 * chanNo r + 2 ^ 64 * c.moved + 2 ^ 128 * o.2.2 + 2 ^ 192 * who
/-- COPY_COMPLETE (R233, R234): the record goes to the ring once there is room, and WHEAD advances. -/
def completeCopy (r : ChanRef) (s : State) : State :=
  let ch := s.chan r
  match ch.head with
  | none => s
  | some c =>
    match c.outcome with
    | none => s
    | some o =>
      if s.ringFull c.bind then s
      else
        let s := match c.bind.ring with
          | none => s
          | some (k, off) =>
            let h := s.ringHead k off
            let m := (s.core k).spad.setLe (off + 32 + 32 * (h % 2 ^ c.bind.logn)) 32 (s.copyRecord r c o)
            let at_ := off + 32 + 32 * (h % 2 ^ c.bind.logn)
            ((s.putSpad k (m.setLe off 4 ((h + 1) % 2 ^ 32))).clobber hostAgent 1 k at_ 32).clobber hostAgent 1 k off 4
        let failed := o.1 == 1 || o.1 == 2
        let ch := { ch with items := ch.items.tail, stop := if failed then some c.bind.id else ch.stop }
        let s := s.setChan r ch.runResets
        match r with
        | .core _ _ => s
        | .eng g _ =>
          match (s.engU g).inst with
          | none => s
          | some i => (if failed && c.bind.ring.isNone then s.teamFaultNow i o.2.1 else s).settleInst i
/-- COPY_START. -/
def execCopyStart (r : ChanRef) (s : State) : MOut := .next (startCopy r s)
/-- COPY_CHUNK. -/
def execCopyChunk (r : ChanRef) (s : State) : MOut := .next (chunkCopy r s)
/-- COPY_COMPLETE. -/
def execCopyComplete (r : ChanRef) (s : State) : MOut := .next (completeCopy r s)

/-! ## Sealing (R267) -/

/-- `seal`: one indivisible read and write of the record. -/
def execSeal (a : Reg) (sp : Space) (s : State) : MOut :=
  perform (.seal a sp) [.ws 54 a] (do
    let x ← readW a
    holdOutside
    check (x.toNat % 64 == 0) 0x07 x
    let l ← accessLoc sp (← myCore).asid x 64 .store false
    let s ← get
    let rd (i : Nat) : Byte := s.byteAt (l.shift i)
    match s.badAt l with
    | some p => throw (.machine p)
    | none => pure ()
    let flags := rd 50 ||| 1#8
    let bs := (List.range 60).map fun i => if i == 50 then flags else rd i
    -- no load of the record before it comes after it
    modify fun s => (List.range 8).foldl (fun s i => match (l.shift (8 * i)).place with
      | some p => s.readOver s.actor false p
      | none => s) s
    storeInto false (l.shift 50) 1 flags.toNat
    storeInto false (l.shift 60) 4 (crc32c bs)
    return .fall) s

/-! ## The die allocators (R235 to R240, R268, R269) -/

/-- A taken descriptor and where it is kept: by die and tenant. -/
def heapKey (die tenant : Nat) : Nat := 256 * die + tenant
def State.heap (s : State) (die tenant : Nat) : List Byte := tget [] s.heaps (heapKey die tenant)
def heapArena (h : List Byte) : Nat := fieldAt h 0 8
def heapSpans (h : List Byte) : Nat := fieldAt h 8 4
def heapAsid (h : List Byte) : Nat := fieldAt h 12 2
def heapMap (h : List Byte) : Nat := fieldAt h 16 8
def heapNext (h : List Byte) : Nat := fieldAt h 24 4
def heapHead (h : List Byte) (c : Nat) : Nat := fieldAt h (32 + 8 * c) 8
/-- Replace n bytes of a listing. -/
def putField (l : List Byte) (o n v : Nat) : List Byte := l.take o ++ leBytes v n ++ l.drop (o + n)
/-- Whether a descriptor keeps to the table of R237. A NEXTSPAN above NSPAN breaks it: R237 gives no bound (log 65, DESIGN
CHOICE). -/
def heapOk (h : List Byte) : Bool :=
  h.length == 192 && heapArena h % 65536 == 0 && heapSpans h != 0 && heapAsid h < 1024 && fieldAt h 14 2 == 0 &&
  fieldAt h 28 4 == 0 && heapNext h ≤ heapSpans h && (h.drop 136).all (· == 0)
/-- The smallest class of a request (R235). -/
def heapClass (n : Nat) : Nat := if n ≤ 16 then 0 else log2Fuel 20 (n - 1) - 3

/-- An allocator's access in the descriptor's ASID, of n bytes on one page. -/
def heapLoc (asid va : Nat) (writes : Bool) : M Loc := do
  let s ← get
  let c := s.actor
  let k := s.core c
  match s.xlate (.clu (cluOf c)) k.launch asid va (if writes then .store else .load) false with
  | .ok (pa, t, s') => do
    set (s'.served c asid va)
    physLoc va pa (t.ok == 1) writes false
  | .error .protection => trapAt 0x09 (w64 va)
  | .error (.machine pa) => throw (.machine pa)
  | .error .busy => waitNow
  | .error .notPresent =>
    match s.missKind asid va k.demand with
    | .fault code => missTrap code asid va
    | .demand => throw (.wait (some (demandFor k.demand asid va k.demandlimL)))
/-- A store of an allocator, which is none of the core's own (13 R300). -/
def heapStore (l : Loc) (n v : Nat) : M Unit := do
  storeLoc l n v
  match l.place with
  | some p => modify fun s => s.clobber hostAgent p.space p.unit p.off n
  | none => pure ()
/-- The class a span map byte gives a block address: `none` for no block of any span. R238 does not define InSpanOfClass:
an address that is no multiple of the class's size from its span's base is in none (log 64, DESIGN CHOICE). -/
def blockClass (h : List Byte) (x : Nat) : M (Option Nat) := do
  if x < heapArena h || heapSpans h ≤ (x - heapArena h) / 65536 then return none
  let m ← loadLoc (← heapLoc (heapAsid h) (heapMap h + (x - heapArena h) / 65536) false) 1
  if m == 0 || 13 < m || (x - heapArena h) % (16 * 2 ^ (m - 1)) != 0 then return none
  return some (m - 1)
/-- Translate every page of a span before anything is written. -/
def spanPages (asid va : Nat) : Nat → M Unit
  | 0 => pure ()
  | n + 1 => do
    spanPages asid va n
    let _ ← heapLoc asid (va + 4096 * n) true
/-- Thread the blocks of a span, lowest address first. -/
def thread (asid va size : Nat) : Nat → M Unit
  | 0 => pure ()
  | n + 1 => do
    thread asid va size n
    let next := if (n + 2) * size ≤ 65536 then va + (n + 1) * size else 0
    heapStore (← heapLoc asid (va + n * size) true) 8 next
/-- An allocation of class c (R238): the block or 0, and the descriptor after it. -/
def allocate (h : List Byte) (c : Nat) : M (Nat × List Byte) := do
  let x := heapHead h c
  let inSpan ← (if x == 0 then pure false else do return (← blockClass h x) == some c)
  let h := if inSpan then h else putField h (32 + 8 * c) 8 0
  let h ← (if !inSpan && heapNext h < heapSpans h then do
      let va := heapArena h + 65536 * heapNext h
      spanPages (heapAsid h) va 16
      let m ← heapLoc (heapAsid h) (heapMap h + heapNext h) true
      thread (heapAsid h) va (16 * 2 ^ c) (65536 / (16 * 2 ^ c))
      heapStore m 1 (c + 1)
      pure (putField (putField h 24 4 (heapNext h + 1)) (32 + 8 * c) 8 va)
    else pure h)
  let x := heapHead h c
  if x == 0 then return (0, h)
  let nx ← loadLoc (← heapLoc (heapAsid h) x false) 8
  return (x, putField h (32 + 8 * c) 8 nx)

/-- `alloc` (R268): the allocator serves it at once; the address lands with its reply. -/
def execAlloc (d a : Reg) (nf : Bool) (s : State) : MOut :=
  perform (.alloc d a nf) [.wd d, .ws 54 a] (do
    let n ← readW a
    check (1 ≤ n.toNat && n.toNat ≤ 65536) 0x02 0
    holdOutside
    let s ← get
    let c := s.actor
    let k := s.core c
    let t := s.resident c
    let h := match t with | some t => s.heap (dieOf c) t | none => []
    let x ← (if h.isEmpty || heapAsid h != k.asid then pure 0
      else do
        let (x, h) ← allocate h (heapClass n.toNat)
        modify fun s => { s with heaps := tput s.heaps (heapKey (dieOf c) (t.getD 0)) h }
        pure x)
    check (x != 0 || nf) 0x0b 0
    writeWLate .alloc d (w64 x)
    return .fall) s

/-- `free` (R269, R239). -/
def execFree (a : Reg) (s : State) : MOut :=
  perform (.free a) [.ws 54 a] (do
    let x ← readW a
    if x == 0 then return .fall
    else do
      holdOutside
      let s ← get
      let c := s.actor
      let k := s.core c
      let holds (die t : Nat) : Bool :=
        let h := s.heap die t
        !h.isEmpty && heapAsid h == k.asid && heapArena h ≤ x.toNat && x.toNat < heapArena h + 65536 * heapSpans h
      match s.resident c with
      | none => trapAt 0x02 x
      | some t =>
        match (List.range 8).find? fun die => holds die t with
        | none => trapAt 0x02 x
        | some die => do
          let h := s.heap die t
          match ← blockClass h x.toNat with
          | none => trapAt 0x02 x
          | some cls => do
            heapStore (← heapLoc (heapAsid h) x.toNat true) 8 (heapHead h cls)
            modify fun s => { s with heaps := tput s.heaps (heapKey die t) (putField h (32 + 8 * cls) 8 x.toNat) }
            return .fall) s

end Sys2Proof.Machine
end

