-- ==== Sys2Proof/Machine/Vector.lean ====
section
/-!
DEFINITION. Rows 0x8 to 0xb: vector integer and floating instructions, conversions, fused forms, constants,
broadcasts, lane moves, permutes and reductions (spec 08 R182 to R203).
-/
namespace Sys2Proof.Machine

/-- Lane l of a vector that has been read. -/
def laneAt (v : List W64) (l : Nat) : W64 := v.getD l 0
/-- Write the enabled lanes and raise the flags of those lanes alone (R183). -/
def writeVF (d : Reg) (mk : Nat) (f : Nat → W64 × Nat) : M Unit := do
  writeV d mk fun l => (f l).1
  raiseFlags ((List.range 16).foldl (fun acc l => if laneOn mk l then Nat.lor acc (f l).2 else acc) 0)

/-- An elementwise integer instruction of two vectors (R186). -/
def vecInt2 (i : Instr) (n : Nat) (d a b m : Reg) (f : Nat → Nat → Nat) (s : State) : MOut :=
  perform i [.vd d, .vs 54 a, .vs 42 b, .mask 18 m] (do
    let mk ← readMask m
    let x ← readVM a mk
    let y ← readVM b mk
    writeV d mk fun l => (mapElems n fun j => (f (elemOf n j (laneAt x l)) (elemOf n j (laneAt y l)), 0)).1
    return .fall) s
/-- An elementwise floating instruction of two vectors. -/
def vecFp2 (i : Instr) (ty : FpTy) (d a b m : Reg) (f : Core → Fmt → Nat → Nat → Nat × Nat) (s : State) : MOut :=
  perform i [.vd d, .vs 54 a, .vs 42 b, .mask 18 m] (do
    let mk ← readMask m
    let x ← readVM a mk
    let y ← readVM b mk
    let k ← myCore
    let n := (fpFmt ty).width
    writeVF d mk fun l => mapElems n fun j => f k (fpFmt ty) (elemOf n j (laneAt x l)) (elemOf n j (laneAt y l))
    return .fall) s
/-- An elementwise floating instruction of one vector. -/
def vecFp1 (i : Instr) (ty : FpTy) (d a m : Reg) (f : Core → Fmt → Nat → Nat × Nat) (s : State) : MOut :=
  perform i [.vd d, .vs 54 a, .mask 18 m] (do
    let mk ← readMask m
    let x ← readVM a mk
    let k ← myCore
    let n := (fpFmt ty).width
    writeVF d mk fun l => mapElems n fun j => f k (fpFmt ty) (elemOf n j (laneAt x l))
    return .fall) s

/-! ## Row 0x8 (R186 to R189) -/

/-- A sum clamped to the range of the type. -/
def satElem (ty : IntTy) (y : Int) : Nat := wrapN (IntTy.width ty) (clampTo (intMin ty) (intMax ty) y)
def addElem (sat : Bool) (ty : IntTy) (x y : Nat) : Nat := if sat then satElem ty (intVal ty x + intVal ty y) else aluElem .add ty x y
def subElem (sat : Bool) (ty : IntTy) (x y : Nat) : Nat := if sat then satElem ty (intVal ty x - intVal ty y) else aluElem .sub ty x y
/-- `vadd`. -/
def execVadd (sat : Bool) (ty : IntTy) (d a b m : Reg) (s : State) : MOut :=
  vecInt2 (.vadd sat ty d a b m) (IntTy.width ty) d a b m (addElem sat ty) s
/-- `vsub`. -/
def execVsub (sat : Bool) (ty : IntTy) (d a b m : Reg) (s : State) : MOut :=
  vecInt2 (.vsub sat ty d a b m) (IntTy.width ty) d a b m (subElem sat ty) s
/-- `vmul`. -/
def execVmul (ty : IntTy) (d a b m : Reg) (s : State) : MOut :=
  vecInt2 (.vmul ty d a b m) (IntTy.width ty) d a b m (aluElem .mul ty) s
/-- `vmulh`. -/
def execVmulh (ty : IntTy) (d a b m : Reg) (s : State) : MOut :=
  vecInt2 (.vmulh ty d a b m) (IntTy.width ty) d a b m (aluElem .mulh ty) s
/-- `vdiv`. -/
def execVdiv (ty : IntTy) (d a b m : Reg) (s : State) : MOut :=
  vecInt2 (.vdiv ty d a b m) (IntTy.width ty) d a b m (aluElem .div ty) s
/-- `vrem`. -/
def execVrem (ty : IntTy) (d a b m : Reg) (s : State) : MOut :=
  vecInt2 (.vrem ty d a b m) (IntTy.width ty) d a b m (aluElem .rem ty) s
/-- `vand`. -/
def execVand (ty : IntTy) (d a b m : Reg) (s : State) : MOut :=
  vecInt2 (.vand ty d a b m) (IntTy.width ty) d a b m (aluElem .and ty) s
/-- `vor`. -/
def execVor (ty : IntTy) (d a b m : Reg) (s : State) : MOut :=
  vecInt2 (.vor ty d a b m) (IntTy.width ty) d a b m (aluElem .or ty) s
/-- `vxor`. -/
def execVxor (ty : IntTy) (d a b m : Reg) (s : State) : MOut :=
  vecInt2 (.vxor ty d a b m) (IntTy.width ty) d a b m (aluElem .xor ty) s
/-- `vshl`. -/
def execVshl (ty : IntTy) (d a b m : Reg) (s : State) : MOut :=
  vecInt2 (.vshl ty d a b m) (IntTy.width ty) d a b m (aluElem .shl ty) s
/-- `vshr`. -/
def execVshr (ty : IntTy) (d a b m : Reg) (s : State) : MOut :=
  vecInt2 (.vshr ty d a b m) (IntTy.width ty) d a b m (aluElem .shr ty) s
/-- `vmin`. -/
def execVmin (ty : IntTy) (d a b m : Reg) (s : State) : MOut :=
  vecInt2 (.vmin ty d a b m) (IntTy.width ty) d a b m (aluElem .min ty) s
/-- `vmax`. -/
def execVmax (ty : IntTy) (d a b m : Reg) (s : State) : MOut :=
  vecInt2 (.vmax ty d a b m) (IntTy.width ty) d a b m (aluElem .max ty) s
/-- An element of all ones or zero (R187). -/
def onesElem (n : Nat) (b : Bool) : Nat := if b then 2 ^ n - 1 else 0
/-- `vcmp` (R187). -/
def execVcmp (cc : Cc) (ty : IntTy) (d a b m : Reg) (s : State) : MOut :=
  vecInt2 (.vcmp cc ty d a b m) (IntTy.width ty) d a b m
    (fun x y => onesElem (IntTy.width ty) (ccHolds cc (intVal ty x) (intVal ty y))) s
/-- `vsel` (R188), bit by bit. -/
def execVsel (d a b c m : Reg) (s : State) : MOut :=
  perform (.vsel d a b c m) [.vd d, .vs 54 a, .vs 42 b, .vs 30 c, .mask 18 m] (do
    let mk ← readMask m
    let x ← readVM a mk
    let y ← readVM b mk
    let z ← readVM c mk
    writeV d mk fun l => (laneAt x l &&& laneAt y l) ||| (~~~(laneAt x l) &&& laneAt z l)
    return .fall) s
/-- Element width of a signed type by its width code. -/
def stWidth (w : StW) : Nat := 8 * stBytes w
/-- `vabs` (R189): the most negative value stays. -/
def execVabs (w : StW) (d a m : Reg) (s : State) : MOut :=
  perform (.vabs w d a m) [.vd d, .vs 54 a, .mask 18 m] (do
    let mk ← readMask m
    let x ← readVM a mk
    let n := stWidth w
    writeV d mk fun l => (mapElems n fun j => (wrapN n (signedOf n (elemOf n j (laneAt x l))).natAbs, 0)).1
    return .fall) s

/-! ## Row 0x9 (R190 to R195) -/

/-- `vfadd` (R191). -/
def execVfadd (ty : FpTy) (rm : RmF) (d a b m : Reg) (s : State) : MOut :=
  vecFp2 (.vfadd ty rm d a b m) ty d a b m (fun k f x y => fAdd f (k.rm rm) x y) s
/-- `vfsub` (R191). -/
def execVfsub (ty : FpTy) (rm : RmF) (d a b m : Reg) (s : State) : MOut :=
  vecFp2 (.vfsub ty rm d a b m) ty d a b m (fun k f x y => fSub f (k.rm rm) x y) s
/-- `vfmul` (R191). -/
def execVfmul (ty : FpTy) (rm : RmF) (d a b m : Reg) (s : State) : MOut :=
  vecFp2 (.vfmul ty rm d a b m) ty d a b m (fun k f x y => fMul f (k.rm rm) x y) s
/-- `vfdiv` (R191). -/
def execVfdiv (ty : FpTy) (rm : RmF) (d a b m : Reg) (s : State) : MOut :=
  vecFp2 (.vfdiv ty rm d a b m) ty d a b m (fun k f x y => fDiv f (k.rm rm) x y) s
/-- `vfsqrt` (R191). -/
def execVfsqrt (ty : FpTy) (rm : RmF) (d a m : Reg) (s : State) : MOut :=
  vecFp1 (.vfsqrt ty rm d a m) ty d a m (fun k f x => fSqrt f (k.rm rm) x) s
/-- `vfrint` (R191). -/
def execVfrint (ty : FpTy) (rm : RmF) (d a m : Reg) (s : State) : MOut :=
  vecFp1 (.vfrint ty rm d a m) ty d a m (fun k f x => fRint f (k.rm rm) x) s
/-- `vfscl` (R191): the element of B is a signed exponent. -/
def execVfscl (ty : FpTy) (rm : RmF) (d a b m : Reg) (s : State) : MOut :=
  vecFp2 (.vfscl ty rm d a b m) ty d a b m (fun k f x y => fScl f (k.rm rm) x (signedOf f.width y)) s
/-- `vfmin` (R192). -/
def execVfmin (ty : FpTy) (d a b m : Reg) (s : State) : MOut :=
  vecFp2 (.vfmin ty d a b m) ty d a b m (fun _ f x y => fMinMax f false x y) s
/-- `vfmax` (R192). -/
def execVfmax (ty : FpTy) (d a b m : Reg) (s : State) : MOut :=
  vecFp2 (.vfmax ty d a b m) ty d a b m (fun _ f x y => fMinMax f true x y) s
/-- The sign bit of an element. -/
def signElem (n x : Nat) : Nat := x / 2 ^ (n - 1) % 2
/-- An element with another sign (R193). -/
def withSign (n x sg : Nat) : Nat := x % 2 ^ (n - 1) + sg * 2 ^ (n - 1)
/-- `vfabs` (R193). -/
def execVfabs (ty : FpTy) (d a m : Reg) (s : State) : MOut :=
  vecFp1 (.vfabs ty d a m) ty d a m (fun _ f x => (withSign f.width x 0, 0)) s
/-- `vfneg` (R193). -/
def execVfneg (ty : FpTy) (d a m : Reg) (s : State) : MOut :=
  vecFp1 (.vfneg ty d a m) ty d a m (fun _ f x => (withSign f.width x (1 - signElem f.width x), 0)) s
/-- The sign `vfsgn` gives (R193). -/
def sgnOf (op : SgnOp) (n x y : Nat) : Nat :=
  match op with
  | .copy => signElem n y
  | .ncopy => 1 - signElem n y
  | .xor => (signElem n x + signElem n y) % 2
/-- `vfsgn` (R193). -/
def execVfsgn (op : SgnOp) (ty : FpTy) (d a b m : Reg) (s : State) : MOut :=
  vecFp2 (.vfsgn op ty d a b m) ty d a b m (fun _ f x y => (withSign f.width x (sgnOf op f.width x y), 0)) s
/-- `vfcls` (R193). -/
def execVfcls (ty : FpTy) (d a m : Reg) (s : State) : MOut :=
  vecFp1 (.vfcls ty d a m) ty d a m (fun _ f x => (fClass f x, 0)) s
/-- `vfcmp` (R194). -/
def execVfcmp (cc : CcF) (ty : FpTy) (d a b m : Reg) (s : State) : MOut :=
  vecFp2 (.vfcmp cc ty d a b m) ty d a b m (fun _ f x y =>
    let r := fCmp f cc x y
    (onesElem f.width r.1, r.2)) s

/-- The elements of one converted lane (R195): the old lane keeps what a narrowing does not write. -/
def cvtLane (td ts : Ty) (rm : Rm) (sat : Bool) (part : Nat) (old src : W64) : W64 × Nat :=
  let wd := Ty.width td
  let ws := Ty.width ts
  let e := 64 / Nat.max wd ws
  if ws ≤ wd then
    let p := if wd == ws then 0 else part * e
    mapElems wd fun j => convert td ts rm sat (elemOf ws (p + j) src)
  else
    mapElems wd fun j =>
      if part * e ≤ j && j < part * e + e then convert td ts rm sat (elemOf ws (j - part * e) src)
      else (elemOf wd j old, 0)
/-- `vcvt` (R195). -/
def execVcvt (td ts : Ty) (rm : RmF) (sat : Bool) (part : BitVec 3) (d a m : Reg) (s : State) : MOut :=
  perform (.vcvt td ts rm sat part d a m) [.vd d, .vs 54 a, .mask 18 m] (do
    let mk ← readMask m
    let x ← readVM a mk
    let k ← myCore
    let old ← (if Ty.width ts ≤ Ty.width td then pure [] else readVM d mk)
    writeVF d mk fun l => cvtLane td ts (k.rm rm) sat part.toNat (laneAt old l) (laneAt x l)
    return .fall) s

/-! ## Row 0xa (R196 to R198) -/

/-- A fused form (R196). -/
def vecFma (i : Instr) (ty : FpTy) (rm : RmF) (negP negC : Bool) (d a b c m : Reg) (s : State) : MOut :=
  perform i [.vd d, .vs 54 a, .vs 42 b, .vs 30 c, .mask 18 m] (do
    let mk ← readMask m
    let x ← readVM a mk
    let y ← readVM b mk
    let z ← readVM c mk
    let k ← myCore
    let f := fpFmt ty
    let n := f.width
    writeVF d mk fun l => mapElems n fun j =>
      fFma f (k.rm rm) negP negC (elemOf n j (laneAt x l)) (elemOf n j (laneAt y l)) (elemOf n j (laneAt z l))
    return .fall) s
/-- `vfma`. -/
def execVfma (ty : FpTy) (rm : RmF) (d a b c m : Reg) (s : State) : MOut :=
  vecFma (.vfma ty rm d a b c m) ty rm false false d a b c m s
/-- `vfms`. -/
def execVfms (ty : FpTy) (rm : RmF) (d a b c m : Reg) (s : State) : MOut :=
  vecFma (.vfms ty rm d a b c m) ty rm false true d a b c m s
/-- `vfnma`. -/
def execVfnma (ty : FpTy) (rm : RmF) (d a b c m : Reg) (s : State) : MOut :=
  vecFma (.vfnma ty rm d a b c m) ty rm true false d a b c m s
/-- `vfnms`. -/
def execVfnms (ty : FpTy) (rm : RmF) (d a b c m : Reg) (s : State) : MOut :=
  vecFma (.vfnms ty rm d a b c m) ty rm true true d a b c m s
/-- A constant form (R197): the low n bits of K against every element of A. -/
def vecK (i : Instr) (n : Nat) (d a m : Reg) (kw : BitVec 3) (ko : BitVec 17) (f : Core → Nat → Nat → Nat × Nat)
    (s : State) : MOut :=
  perform i [.vd d, .vs 54 a, .mask 18 m] (do
    let mk ← readMask m
    let x ← readVM a mk
    let c ← readK kw ko
    let k ← myCore
    writeVF d mk fun l => mapElems n fun j => f k (elemOf n j (laneAt x l)) (elemOf n 0 c)
    return .fall) s
/-- `vfaddk`. -/
def execVfaddk (ty : FpTy) (rm : RmF) (d a m : Reg) (kw : BitVec 3) (ko : BitVec 17) (s : State) : MOut :=
  vecK (.vfaddk ty rm d a m kw ko) (fpFmt ty).width d a m kw ko (fun k x y => fAdd (fpFmt ty) (k.rm rm) x y) s
/-- `vfmulk`. -/
def execVfmulk (ty : FpTy) (rm : RmF) (d a m : Reg) (kw : BitVec 3) (ko : BitVec 17) (s : State) : MOut :=
  vecK (.vfmulk ty rm d a m kw ko) (fpFmt ty).width d a m kw ko (fun k x y => fMul (fpFmt ty) (k.rm rm) x y) s
/-- `vaddk`. -/
def execVaddk (ty : IntTy) (d a m : Reg) (kw : BitVec 3) (ko : BitVec 17) (s : State) : MOut :=
  vecK (.vaddk ty d a m kw ko) (IntTy.width ty) d a m kw ko (fun _ x y => (aluElem .add ty x y, 0)) s
/-- `vmulk`. -/
def execVmulk (ty : IntTy) (d a m : Reg) (kw : BitVec 3) (ko : BitVec 17) (s : State) : MOut :=
  vecK (.vmulk ty d a m kw ko) (IntTy.width ty) d a m kw ko (fun _ x y => (aluElem .mul ty x y, 0)) s
/-- `vbcast` (R198): A is read once. -/
def execVbcast (d a m : Reg) (s : State) : MOut :=
  perform (.vbcast d a m) [.vd d, .ws 54 a, .mask 18 m] (do
    let x ← readW a
    let mk ← readMask m
    writeV d mk fun _ => x
    return .fall) s
/-- `vbcastk` (R198). -/
def execVbcastk (d m : Reg) (kw : BitVec 3) (ko : BitVec 17) (s : State) : MOut :=
  perform (.vbcastk d m kw ko) [.vd d, .mask 18 m] (do
    let mk ← readMask m
    let c ← readK kw ko
    writeV d mk fun _ => c
    return .fall) s
/-- `vins` (R198). -/
def execVins (d a b : Reg) (s : State) : MOut :=
  perform (.vins d a b) [.vd d, .ws 54 a, .ws 42 b] (do
    let x ← readW a
    let i ← readW b
    if i.toNat < 16 then writeLane d i.toNat x
    return .fall) s
/-- `vext` (R198). -/
def execVext (d a b : Reg) (s : State) : MOut :=
  perform (.vext d a b) [.wd d, .vw 54 a, .ws 42 b] (do
    let x ← readV a
    let i ← readW b
    put d (if i.toNat < 16 then laneAt x i.toNat else 0)) s
/-- Bit k set for every enabled lane k a test picks. -/
def laneBits (mk : Nat) (p : Nat → Bool) : Nat :=
  (List.range 16).foldl (fun acc l => if laneOn mk l && p l then acc + 2 ^ l else acc) 0
/-- `vmask` (R198). -/
def execVmask (d a m : Reg) (s : State) : MOut :=
  perform (.vmask d a m) [.wd d, .vs 54 a, .mask 18 m] (do
    let mk ← readMask m
    let x ← readVM a mk
    put d (w64 (laneBits mk fun l => laneAt x l != 0))) s

/-! ## Row 0xb: permutes (R199 to R201) -/

/-- A permute of two operands' lanes. -/
def vecPerm (i : Instr) (d a b m : Reg) (f : List W64 → List W64 → Nat → W64) (s : State) : MOut :=
  perform i [.vd d, .vw 54 a, .vw 42 b, .mask 18 m] (do
    let x ← readV a
    let y ← readV b
    let mk ← readMask m
    writeV d mk (f x y)
    return .fall) s
/-- `vperm`. -/
def execVperm (d a b m : Reg) (s : State) : MOut :=
  vecPerm (.vperm d a b m) d a b m (fun x y l => if (laneAt y l).toNat < 16 then laneAt x (laneAt y l).toNat else 0) s
/-- `vrot`. -/
def execVrot (d a b m : Reg) (s : State) : MOut :=
  perform (.vrot d a b m) [.vd d, .vw 54 a, .ws 42 b, .mask 18 m] (do
    let x ← readV a
    let r ← readW b
    let mk ← readMask m
    writeV d mk fun l => laneAt x ((l + r.toNat) % 16)
    return .fall) s
/-- `vzip` (R200). -/
def execVzip (hi : Bool) (d a b m : Reg) (s : State) : MOut :=
  vecPerm (.vzip hi d a b m) d a b m
    (fun x y l => laneAt (if l % 2 == 0 then x else y) (8 * bN hi + l / 2)) s
/-- `vunzip` (R200). -/
def execVunzip (hi : Bool) (d a b m : Reg) (s : State) : MOut :=
  vecPerm (.vunzip hi d a b m) d a b m
    (fun x y l => laneAt (if l < 8 then x else y) (2 * (l % 8) + bN hi)) s
/-- The lanes a selection word picks, in order (R201). -/
def picked (w : W64) : List Nat := (List.range 16).filter fun l => bitOf w l
/-- `vcompress` (R201). -/
def execVcompress (d a b : Reg) (s : State) : MOut :=
  perform (.vcompress d a b) [.vd d, .vw 54 a, .ws 42 b] (do
    let x ← readV a
    let w ← readW b
    let p := picked w
    writeV d 0xffff fun l => match p[l]? with | some k => laneAt x k | none => 0
    return .fall) s
/-- `vexpand` (R201). -/
def execVexpand (d a b : Reg) (s : State) : MOut :=
  perform (.vexpand d a b) [.vd d, .vw 54 a, .ws 42 b] (do
    let x ← readV a
    let w ← readW b
    writeV d 0xffff fun l => if bitOf w l then laneAt x ((picked w).filter (· < l)).length else 0
    return .fall) s

/-! ## Row 0xb: reductions (R202, R203) -/

/-- The elements of the enabled lanes, in order. -/
def enabledElems (n mk : Nat) (x : List W64) : List Nat :=
  ((List.range 16).filter (laneOn mk)).flatMap fun l => (List.range (64 / n)).map fun j => elemOf n j (laneAt x l)
/-- An integer reduction: the value y of the enabled elements. -/
def vecRed (i : Instr) (ty : IntTy) (d a m : Reg) (f : List Nat → Int) (s : State) : MOut :=
  perform i [.wd d, .vs 54 a, .mask 18 m] (do
    let mk ← readMask m
    let x ← readVM a mk
    put d (result ty (f (enabledElems (IntTy.width ty) mk x)))) s
/-- `vredadd`. -/
def execVredadd (ty : IntTy) (d a m : Reg) (s : State) : MOut :=
  vecRed (.vredadd ty d a m) ty d a m (fun l => l.foldl (fun acc e => acc + intVal ty e) 0) s
/-- `vredmin`. -/
def execVredmin (ty : IntTy) (d a m : Reg) (s : State) : MOut :=
  vecRed (.vredmin ty d a m) ty d a m (fun l => l.foldl (fun acc e => if intVal ty e < acc then intVal ty e else acc) (intMax ty)) s
/-- `vredmax`. -/
def execVredmax (ty : IntTy) (d a m : Reg) (s : State) : MOut :=
  vecRed (.vredmax ty d a m) ty d a m (fun l => l.foldl (fun acc e => if acc < intVal ty e then intVal ty e else acc) (intMin ty)) s
/-- `vredand`. -/
def execVredand (ty : IntTy) (d a m : Reg) (s : State) : MOut :=
  vecRed (.vredand ty d a m) ty d a m (fun l => ((l.foldl Nat.land (2 ^ IntTy.width ty - 1) : Nat) : Int)) s
/-- `vredor`. -/
def execVredor (ty : IntTy) (d a m : Reg) (s : State) : MOut :=
  vecRed (.vredor ty d a m) ty d a m (fun l => ((l.foldl Nat.lor 0 : Nat) : Int)) s
/-- `vredxor`. -/
def execVredxor (ty : IntTy) (d a m : Reg) (s : State) : MOut :=
  vecRed (.vredxor ty d a m) ty d a m (fun l => ((l.foldl Nat.xor 0 : Nat) : Int)) s
/-- `vmcnt` (R202). -/
def execVmcnt (d a m : Reg) (s : State) : MOut :=
  perform (.vmcnt d a m) [.wd d, .ws 54 a, .mask 18 m] (do
    let x ← readW a
    let mk ← readMask m
    put d (w64 ((List.range 16).filter fun l => bitOf x l && laneOn mk l).length)) s

/-- One level of the tree: neighbours are added (R203). -/
def pairSums (f : Fmt) (rm : Rm) : List Nat → List Nat × Nat
  | x :: y :: t =>
    let r := fAdd f rm x y
    let (u, fl) := pairSums f rm t
    (r.1 :: u, Nat.lor r.2 fl)
  | l => (l, 0)
/-- The fixed tree: halve until one element is left. -/
def treeSum (f : Fmt) (rm : Rm) : Nat → List Nat → Nat → Nat × Nat
  | 0, l, fl => (l.headD 0, fl)
  | n + 1, l, fl =>
    match l with
    | [x] => (x, fl)
    | _ =>
      let (u, g) := pairSums f rm l
      treeSum f rm n u (Nat.lor fl g)
/-- `vfredadd` (R203): a disabled lane's elements count as -0. -/
def execVfredadd (ty : FpTy) (rm : RmF) (d a m : Reg) (s : State) : MOut :=
  perform (.vfredadd ty rm d a m) [.wd d, .vs 54 a, .mask 18 m] (do
    let mk ← readMask m
    let x ← readVM a mk
    let k ← myCore
    let f := fpFmt ty
    let n := f.width
    let xs := (List.range 16).flatMap fun l => (List.range (64 / n)).map fun j =>
      if laneOn mk l then elemOf n j (laneAt x l) else f.signBit true
    let r := treeSum f (k.rm rm) 6 xs 0
    raiseFlags r.2
    put d (w64 r.1)) s
/-- A lone element: a NaN becomes canonical (R203). -/
def loneElem (f : Fmt) (x : Nat) : Nat × Nat :=
  let u := unpack f x
  if u.isNan then (f.nan, snan [u]) else (x, 0)
/-- The smallest or largest of some elements under R192; the canonical NaN of none. -/
def extremeOf (f : Fmt) (isMax : Bool) : List Nat → Nat × Nat
  | [] => (f.nan, 0)
  | x :: t => t.foldl (fun acc e => let r := fMinMax f isMax acc.1 e; (r.1, Nat.lor acc.2 r.2)) (loneElem f x)
/-- A floating extreme reduction. -/
def vecFredExt (i : Instr) (isMax : Bool) (ty : FpTy) (d a m : Reg) (s : State) : MOut :=
  perform i [.wd d, .vs 54 a, .mask 18 m] (do
    let mk ← readMask m
    let x ← readVM a mk
    let r := extremeOf (fpFmt ty) isMax (enabledElems (fpFmt ty).width mk x)
    raiseFlags r.2
    put d (w64 r.1)) s
/-- `vfredmin` (R203). -/
def execVfredmin (ty : FpTy) (d a m : Reg) (s : State) : MOut := vecFredExt (.vfredmin ty d a m) false ty d a m s
/-- `vfredmax` (R203). -/
def execVfredmax (ty : FpTy) (d a m : Reg) (s : State) : MOut := vecFredExt (.vfredmax ty d a m) true ty d a m s

end Sys2Proof.Machine
end

