-- ==== Sys2Proof/Machine/Exact.lean ====
section
/-!
DEFINITION. Row 0xc: the exact lane accumulators (spec 08 R204 to R208; 02 R54 to R58).
-/
namespace Sys2Proof.Machine

def Core.xacc (k : Core) (l : Nat) : XAcc := tget {} k.xa l
def Core.setXacc (k : Core) (l : Nat) (x : XAcc) : Core := { k with xa := tput k.xa l x }
/-- Change the accumulators of the enabled lanes. -/
def onAccs (mk : Nat) (f : Nat → XAcc → XAcc) : M Unit :=
  forLanes mk fun l => modMe fun k => k.setXacc l (f l (k.xacc l))
/-- The monitors count exact accumulates per lane (21 R399). -/
def countLanes (mk : Nat) : M Unit := do note 0xd (← me) ((List.range 16).filter (laneOn mk)).length
/-- The exact value of an FP64 lane, negated where asked. -/
def exactOf (neg : Bool) (x : W64) : Un := if neg then (unpack f64Fmt x.toNat).neg else unpack f64Fmt x.toNat

/-- `xclr` (R205). -/
def execXclr (m : Reg) (s : State) : MOut :=
  perform (.xclr m) [.mask 18 m] (do
    let mk ← readMask m
    onAccs mk fun _ _ => {}
    return .fall) s
/-- `xfma` (R205). -/
def execXfma (neg : Bool) (a b m : Reg) (s : State) : MOut :=
  perform (.xfma neg a b m) [.vs 54 a, .vs 42 b, .mask 18 m] (do
    let mk ← readMask m
    let x ← readVM a mk
    let y ← readVM b mk
    countLanes mk
    onAccs mk fun l acc => acc.add (mulUn (exactOf neg (laneAt x l)) (exactOf false (laneAt y l)))
    return .fall) s
/-- `xadd` (R205). -/
def execXadd (neg : Bool) (a m : Reg) (s : State) : MOut :=
  perform (.xadd neg a m) [.vs 54 a, .mask 18 m] (do
    let mk ← readMask m
    let x ← readVM a mk
    countLanes mk
    onAccs mk fun l acc => acc.add (exactOf neg (laneAt x l))
    return .fall) s
/-- `xsum` (R206): lanes 1 to 15 in order into lane 0. -/
def execXsum (m : Reg) (s : State) : MOut :=
  perform (.xsum m) [.mask 18 m] (do
    let mk ← readMask m
    forLanes (mk / 2 * 2) fun l => modMe fun k => (k.setXacc 0 ((k.xacc 0).merge (k.xacc l))).setXacc l {}
    return .fall) s
/-- `xsgn` (R207). -/
def execXsgn (d m : Reg) (s : State) : MOut :=
  perform (.xsgn d m) [.vd d, .mask 18 m] (do
    let mk ← readMask m
    let k ← myCore
    writeVF d mk fun l => (w64i (k.xacc l).exactSign.1, (k.xacc l).exactSign.2)
    return .fall) s
/-- `xrnd` (R207). -/
def execXrnd (rm : RmF) (d m : Reg) (s : State) : MOut :=
  perform (.xrnd rm d m) [.vd d, .mask 18 m] (do
    let mk ← readMask m
    let k ← myCore
    writeVF d mk fun l => (w64 ((k.xacc l).roundOut (k.rm rm)).1, ((k.xacc l).roundOut (k.rm rm)).2)
    return .fall) s

/-- Bytes of an accumulator image (R58). -/
def imageBytes : Nat := 536
/-- Check the 67 granules of one image, lowest address first, and name where each lands (R208). -/
def imageLocs (so : Bool) (x : W64) (acc : Acc2) : Nat → Nat → M (List Loc)
  | 0, _ => return []
  | n + 1, j => do
    let l ← laneLoc .mem so (x + w64 (8 * j)) acc
    return l :: (← imageLocs so x acc n (j + 1))
/-- Where lane l's image lies. -/
def imageAddr (v : List W64) (l : Nat) : W64 := v.getD 1 0 + w64 (imageBytes * l)
/-- Some page of the enabled lanes' images is SO: then every access is (13 R299). An image meets at most two pages. -/
def imagesSo (acc : Acc) (v : List W64) : M Bool := do
  let m := bitsOf (v.getD 0 0) 0 16
  let a ← lanesSo .mem acc m (imageAddr v)
  let b ← lanesSo .mem acc m fun l => imageAddr v l + w64 (imageBytes - 8)
  return a || b
/-- `xst` (R208): the images of the enabled lanes, in increasing order. -/
def execXst (a m : Reg) (s : State) : MOut :=
  perform (.xst a m) [.ws 54 a, .mask 18 m] (do
    let v ← readOnce (readBase a m)
    check ((v.getD 1 0).toNat % 8 == 0) 0x07 (v.getD 1 0)
    let so ← imagesSo .store v
    laneLoop v fun l => do
      let locs ← imageLocs so (imageAddr v l) .store 67 0
      let k ← myCore
      let x := (k.xacc l).image
      (locs.zip (List.range 67)).forM fun p => storeInto true p.1 8 ((x >>> (64 * p.2)) % 2 ^ 64)
    return .fall) s
/-- Read the granules of an image. -/
def imageRead : List Loc → M Nat
  | [] => return 0
  | l :: t => do
    let lo ← loadOver true l 8
    return lo + 2 ^ 64 * (← imageRead t)
/-- `xld` (R208): an accumulator is unchanged when the fault falls on its lane. -/
def execXld (a m : Reg) (s : State) : MOut :=
  perform (.xld a m) [.ws 54 a, .mask 18 m] (do
    let v ← readOnce (readBase a m)
    check ((v.getD 1 0).toNat % 8 == 0) 0x07 (v.getD 1 0)
    let so ← imagesSo .load v
    laneLoop v fun l => do
      let locs ← imageLocs so (imageAddr v l) .load 67 0
      let x ← imageRead locs
      modMe fun k => k.setXacc l (XAcc.ofImage x)
    return .fall) s

end Sys2Proof.Machine
end

