-- ==== Sys2Proof/Machine/Matrix.lean ====
section
/-!
DEFINITION. Row 0xd, `tldq` and the row sequencers (spec 11 R270 to R289; 02 R52, R53; 19 R390). A command's effects
come about when it retires (log 16).
-/
namespace Sys2Proof.Machine

/-! ## Tiles (R270, R271) -/

/-- Fields of a latched `TCFG` value. -/
def cfgEw (v : Nat) : Nat := v / 2 ^ 14 % 4
def cfgWidth (v : Nat) : Nat := 4 * 2 ^ cfgEw v
def cfgRows (v : Nat) : Nat := v / 2 ^ 8 % 64 + 1
def cfgBpr (v : Nat) : Nat := v % 256
def cfgDepth (v : Nat) : Nat := 8 * cfgBpr v / cfgWidth v
def Core.cfg (k : Core) (t : Nat) : Nat := (tget 0xbf80 k.tcfg t).toNat

/-- A tile row as a number of 1,024 bits. -/
def Core.tileRow (k : Core) (t j : Nat) : Nat := k.tiles.le (8192 * t + 128 * j) 128
/-- Element i of row j at width w. -/
def Core.tileElem (k : Core) (t j i w : Nat) : Nat := (k.tileRow t j >>> (w * i)) % 2 ^ w
def Core.scaleAt (k : Core) (t slot : Nat) : Byte := k.scales.get (512 * t + slot) ^^^ 0x28#8
def Core.setScale (k : Core) (t slot : Nat) (b : Byte) : Core :=
  { k with scales := k.scales.set (512 * t + slot) (b ^^^ 0x28#8) }
/-- Elements of width w as a number, the first lowest. -/
def packRow (w : Nat) : List Nat → Nat
  | [] => 0
  | e :: t => e % 2 ^ w + 2 ^ w * packRow w t
/-- Replace the bytes in use of row j. -/
def Core.putRow (k : Core) (t j bpr v : Nat) : Core :=
  { k with tiles := k.tiles.setLe (8192 * t + 128 * j) bpr v }
def accKey (a i j : Nat) : Nat := 4096 * a + 64 * i + j
def Core.accAt (k : Core) (a i j : Nat) : Nat := (tget 0 k.accs (accKey a i j)).toNat
def Core.putAcc (k : Core) (a i j v : Nat) : Core :=
  { k with accs := tput k.accs (accKey a i j) (BitVec.ofNat 32 v) }
def Core.zeroTile (k : Core) (t : Nat) : Core :=
  { k with tiles := k.tiles.clear (8192 * t) 8192, scales := k.scales.clear (512 * t) 512 }
def Core.zeroAcc (k : Core) (a : Nat) : Core :=
  { k with accs := k.accs.filter fun x => !(4096 * a ≤ x.1 && x.1 < 4096 * a + 4096) }

/-! ## Issue (R273, R280) -/

/-- The accumulator a command names (R274). -/
def Cmd.acc (x : Cmd) : Option Nat :=
  match x.op with
  | .mma => some x.d
  | .amov => some x.a
  | .ast => some x.d
  | .ald => some x.d
  | .azero => some x.d
  | _ => none
def Cmd.gang (x : Cmd) : Bool := x.op == .mma && 8 ≤ x.fl
def Cmd.work (x : Cmd) : Work :=
  { core := x.core, who := rowAgent (rowOf x.core), so := x.so, launch := x.launch, asid := x.asid, sup := x.sup, dlim := x.dlim, demand := x.demand,
    pin := x.pin }

/-- What an instruction gives its command. -/
structure CmdSpec where
  op : CmdOp
  ty : Ty := .i8
  d : Nat := 0
  a : Nat := 0
  b : Nat := 0
  sp : Space := .mem
  fl : Nat := 0

/-- R280 on the latched `TCFG` values: the position of the field that fails. -/
def cfgFault (op : CmdOp) (ty : Ty) (gang : Bool) (cd ca cb : Nat) : Option Nat :=
  let b4 (c : Nat) : Bool := ty == .b4 && cfgBpr c % 16 != 0
  match op with
  | .mma =>
    if cfgWidth ca != ty.width || (gang && cfgRows ca != 8) then some 54
    else if cfgWidth cb != cfgWidth ca || cfgBpr cb != cfgBpr ca || b4 cb then some 42
    else none
  | .amov => if cfgWidth cd != ty.width then some 66 else none
  | .tld => if cfgWidth cd != ty.width || b4 cd then some 66 else none
  | .tst => if cfgWidth cd != ty.width || b4 cd then some 66 else none
  | .tldq => if cfgWidth cd != ty.width || b4 cd then some 66 else none
  | _ => none
/-- The window of `amov` (R286) leaves the accumulator. -/
def windowBad (cd : Nat) (w : W64) : Bool :=
  bitsOf w 6 2 != 0 || bitsOf w 14 50 != 0 || 64 < bitsOf w 0 6 + cfgRows cd || 64 < bitsOf w 8 6 + cfgDepth cd

/-- Issue numbers of a command's predecessors in one id space: of its ids, and of the commands issued before it that
name its accumulator (R274). -/
def idDeps (cmds : List Cmd) (ids : EIds) : List Nat :=
  let of (v : Bool) (p : Nat) : List Nat := if v then (cmds.filter fun x => x.cid == p).map (·.no) else []
  of ids.v1 ids.p1.toNat ++ of ids.v2 ids.p2.toNat
def accDeps (cmds : List Cmd) (x : Cmd) : List Nat :=
  if x.acc.isNone then [] else (cmds.filter fun y => y.acc == x.acc).map (·.no)

/-- Whether another instance holds the row's sequencer (04 R95). -/
def State.seqTaken (s : State) (c : Nat) : Bool :=
  match (s.seqU (rowOf c)).inst with
  | some i => (s.core c).inst != some i
  | none => false

/-- Issue by a core (R273): W(A) and W(B) are read, the `TCFG` values latched and the checks of R280 made. -/
def issueCore (p : CmdSpec) (ids : EIds) (ra rb : Option Reg) : M Unit := do
  let s ← get
  let c := s.actor
  let k := s.core c
  readyWhen (!(k.cmds.any fun x => x.cid == ids.cid.toNat) && k.cmds.length < 32 && !s.seqTaken c)
  let wa ← (match ra with | some r => readW r | none => pure 0)
  let wb ← (match rb with | some r => readW r | none => pure 0)
  let cd := k.cfg p.d
  let ca := k.cfg p.a
  let cb := k.cfg p.b
  match cfgFault p.op p.ty (8 ≤ p.fl) cd ca cb with
  | some pos => trapAt 0x02 (w64 pos)
  | none => pure ()
  if p.op == .amov then check (!windowBad cd wb) 0x02 42
  if p.op == .tld || p.op == .tst || p.op == .ast || p.op == .ald then check (wa.toNat % 64 == 0) 0x07 wa
  let x : Cmd :=
    { no := k.cmdNo, cid := ids.cid.toNat, op := p.op, ty := p.ty, d := p.d, a := p.a, b := p.b, wa := wa.toNat,
      wb := wb.toNat, sp := p.sp, fl := p.fl, cfgD := cd, cfgA := ca, cfgB := cb, cfgBs := [], olds := [], rows := 0,
      so := false, deps := [], core := c,
      asid := k.asid, sup := k.sup, launch := k.launch, dlim := k.demandlimL, gangNo := k.gang, joined := false,
      started := false, lay := none, outcome := none, demand := none }
  let x := { x with deps := idDeps k.cmds ids ++ accDeps k.cmds x }
  -- a gang number the watchdog refused on another core of the row is refused here too (R277)
  let x := if x.gang && (s.seqU (rowOf c)).gangRef.contains k.gang then
    { x with joined := true, outcome := some (2, 0x0d) } else x
  modMe fun k => { k with cmds := k.cmds ++ [x], cmdNo := k.cmdNo + 1, gang := if x.gang then k.gang + 1 else k.gang }
  -- what the drain of a task that the watchdog has stopped still issues retires refused (R277)
  if k.stopAt.isSome then modify fun s => s.refuseCmds c

/-- A key for a command among a row's: position 8 is the sequencer's own space. -/
def rowDep (p no : Nat) : Nat := 16 * no + p
/-- Issue by the bound sequencer (R289): its predecessors are the cores' ids, and its own commands that name the same
accumulator. `joined` says that the instance has all eight cores. -/
def issueSeq (r : Nat) (p : CmdSpec) (ids : EIds) : M Unit := do
  let s ← get
  let u := s.seqU r
  readyWhen (!(u.cmds.any fun x => x.cid == ids.cid.toNat) && u.cmds.length < 32)
  let all := match u.inst.bind (tget none s.insts) with
    | some i => (List.range 8).all fun j => i.cores.any fun m => m.1 == 8 * r + j
    | none => false
  let x : Cmd :=
    { no := u.cmdNo, cid := ids.cid.toNat, op := p.op, ty := p.ty, d := p.d, a := p.a, b := p.b, wa := 0, wb := 0,
      sp := .mem, fl := p.fl, cfgD := 0, cfgA := 0, cfgB := 0, cfgBs := [], olds := [], rows := 0, so := false,
      deps := [], core := 8 * r, asid := u.asid, sup := false,
      launch := u.inst.bind s.instLaunch, dlim := 0, gangNo := 0, joined := all, started := false, lay := none,
      outcome := none, demand := none }
  let cores := (List.range 8).flatMap fun j => (idDeps (s.core (8 * r + j)).cmds ids).map (rowDep j)
  let own := (accDeps u.cmds x).map (rowDep 8)
  modify fun s => s.setSeq r { s.seqU r with
    cmds := u.cmds ++ [{ x with deps := cores ++ own }], cmdNo := u.cmdNo + 1 }

/-- Issue a command for the executing agent. -/
def issueCmd (p : CmdSpec) (ids : EIds) (ra rb : Option Reg) : M Flow := do
  match (← get).cur with
  | .seq r => do issueSeq r p ids; return .fall
  | _ => do issueCore p ids ra rb; return .fall

def spaceNat : Space → Nat
  | .mem => 0
  | .spad => 1
  | .clu => 2
  | .die => 3

/-- `tld` (R281). -/
def execTld (ty : Ty) (sp : Space) (d a : Reg) (ids : EIds) (s : State) : MOut :=
  perform (.tld ty sp d a ids) [.tile 66 d, .ws 54 a]
    (issueCmd { op := .tld, ty := ty, d := d.toNat, sp := sp } ids (some a) none) s
/-- `tst` (R281). -/
def execTst (ty : Ty) (sp : Space) (d a : Reg) (ids : EIds) (s : State) : MOut :=
  perform (.tst ty sp d a ids) [.tile 66 d, .ws 54 a]
    (issueCmd { op := .tst, ty := ty, d := d.toNat, sp := sp } ids (some a) none) s
/-- `tzero` (R283). -/
def execTzero (d : Reg) (ids : EIds) (s : State) : MOut :=
  perform (.tzero d ids) [.tile 66 d] (issueCmd { op := .tzero, d := d.toNat } ids none none) s
/-- `mma` (R284, R285). -/
def execMma (ty : Ty) (g ad nb na : Bool) (d a b : Reg) (ids : EIds) (s : State) : MOut :=
  perform (.mma ty g ad nb na d a b ids) [.acc 66 d, .tile 54 a, .tile 42 b]
    (issueCmd { op := .mma, ty := ty, d := d.toNat, a := a.toNat, b := b.toNat,
                fl := 8 * bN g + 4 * bN ad + 2 * bN nb + bN na } ids none none) s
/-- `amov` (R286). -/
def execAmov (ty : Ty) (sat : Bool) (d a b : Reg) (ids : EIds) (s : State) : MOut :=
  perform (.amov ty sat d a b ids) [.tile 66 d, .acc 54 a, .ws 42 b]
    (issueCmd { op := .amov, ty := ty, d := d.toNat, a := a.toNat, fl := bN sat } ids none (some b)) s
/-- `ast` (R287). -/
def execAst (sp : Space) (d a : Reg) (ids : EIds) (s : State) : MOut :=
  perform (.ast sp d a ids) [.acc 66 d, .ws 54 a]
    (issueCmd { op := .ast, d := d.toNat, sp := sp } ids (some a) none) s
/-- `ald` (R287). -/
def execAld (sp : Space) (d a : Reg) (ids : EIds) (s : State) : MOut :=
  perform (.ald sp d a ids) [.acc 66 d, .ws 54 a]
    (issueCmd { op := .ald, d := d.toNat, sp := sp } ids (some a) none) s
/-- `azero` (R287). -/
def execAzero (d : Reg) (ids : EIds) (s : State) : MOut :=
  perform (.azero d ids) [.acc 66 d] (issueCmd { op := .azero, d := d.toNat } ids none none) s
/-- `tldq` (19 R390): a tile load through an implicit record. -/
def execTldq (ty : Ty) (d a b : Reg) (ids : EIds) (s : State) : MOut :=
  perform (.tldq ty d a b ids) [.tile 66 d, .ws 54 a, .ws 42 b]
    (issueCmd { op := .tldq, ty := ty, d := d.toNat } ids (some a) (some b)) s
/-- `mwait` (R288). -/
def execMwait (seq : Bool) (d : Reg) (cid : BitVec 6) (s : State) : MOut :=
  perform (.mwait seq d cid) [.blk 66 d 1] (do
    let s ← get
    let k := s.core s.actor
    let u := s.seqU (rowOf s.actor)
    let cmds := if seq then u.cmds else k.cmds
    let recs := if seq then u.recs else k.recs
    readyWhen (!k.dq.any fun e => isE e.instr)
    readyWhen (!cmds.any fun x => x.cid == cid.toNat)
    -- an acquire, after which everything comes (R278, 13 R308)
    modify fun s => s.settleRace s.actor
    put d (match recs.find? fun x => x.1 == cid.toNat with
      | some x => x.2
      | none => w64 (1024 * cid.toNat + 4))) s

/-! ## Commands as the sequencer runs them -/

def cmdPos : CmdRef → Nat
  | .core _ p => p
  | .seq _ p => p
def State.cmdList (s : State) : CmdRef → List Cmd
  | .core c _ => (s.core c).cmds
  | .seq r _ => (s.seqU r).cmds
def State.cmd? (s : State) (r : CmdRef) : Option Cmd := (s.cmdList r)[cmdPos r]?
def State.setCmd (s : State) (r : CmdRef) (x : Cmd) : State :=
  match r with
  | .core c p => s.setCore c { s.core c with cmds := lset (s.core c).cmds p x }
  | .seq q p => s.setSeq q { s.seqU q with cmds := lset (s.seqU q).cmds p x }
/-- The command retires with its completion record (R276). -/
def State.retire (s : State) (r : CmdRef) (x : Cmd) (outcome fcode rows : Nat) : State :=
  let w := cmdRecord outcome fcode rows x.cid
  let s := s.note 0xc (match r with | .core c _ => c | .seq q _ => 2048 + 8 * q) 1
  match r with
  | .core c p => s.setCore c { s.core c with cmds := ldel (s.core c).cmds p, recs := setRec (s.core c).recs x.cid w }
  | .seq q p =>
    let s := s.setSeq q { s.seqU q with cmds := ldel (s.seqU q).cmds p, recs := setRec (s.seqU q).recs x.cid w }
    match (s.seqU q).inst with | some i => s.settleInst i | none => s

/-- Every predecessor has retired (R274, R289). -/
def State.depsDone (s : State) (r : CmdRef) (x : Cmd) : Bool :=
  match r with
  | .core c _ => x.deps.all fun n => !(s.core c).cmds.any fun y => y.no == n
  | .seq q _ => x.deps.all fun n =>
    let cmds := if n % 16 == 8 then (s.seqU q).cmds else (s.core (8 * q + n % 16)).cmds
    !cmds.any fun y => y.no == n / 16

/-- The members of a row's gang number n: the positions of the eight commands, when every core has issued its own. -/
def State.gangRefs (s : State) (row n : Nat) : Option (List CmdRef) :=
  (List.range 8).mapM fun p =>
    (lfind (fun x : Cmd => x.gang && x.gangNo == n) (s.core (8 * row + p)).cmds).map fun i => .core (8 * row + p) i

/-- GANG_JOIN (R285): the wired barrier of a row joins the lowest gang number that all eight cores have issued; commands
that differ are refused. -/
def joinGang (row : Nat) (s : State) : State :=
  match (s.core (8 * row)).cmds.find? fun x => x.gang && !x.joined with
  | none => s
  | some x0 =>
    match s.gangRefs row x0.gangNo with
    | none => s
    | some refs =>
      let xs := refs.filterMap s.cmd?
      let same := xs.all fun x => x.ty == x0.ty && x.fl % 8 == x0.fl % 8 && cfgDepth x.cfgA == cfgDepth x0.cfgA
      refs.foldl (fun s r =>
        match s.cmd? r with
        | some x => s.setCmd r { x with
            joined := true, outcome := if x.outcome.isNone && !same then some (2, 0x02) else x.outcome }
        | none => s) s
/-- GANG_JOIN. -/
def execGangJoin (s : State) : MOut := .next (joinGang s.sel s)

/-- The shape rules of R281 and R287 on a record, and the alignment of its rows. -/
def shapeFault (x : Cmd) (l : Layout) : Option Nat :=
  let rowAt (j : Nat) : Nat := (l.addr 0 j 0).1
  let all (m : Nat) : Bool := (List.range l.n1).all fun j => rowAt j % m == 0
  if x.op == .ast || x.op == .ald then
    if l.esize != 3 || 64 < l.n0 || 64 < l.n1 || l.n2 != 1 then some 0x02
    else if !all 4 then some 0x07 else none
  else
    let w := cfgWidth x.cfgD
    if l.esize != cfgEw x.cfgD || l.n0 != cfgDepth x.cfgD || l.n1 != cfgRows x.cfgD || l.n2 != 1 then some 0x02
    else if cfgEw x.cfgD == 0 && l.s0 != 1 then some 0x02
    else if x.ty == .b4 && !all 16 then some 0x02
    else if 16 ≤ w && !all (w / 8) then some 0x07 else none
/-- The implicit record of `tldq` (19 R390). -/
def Cmd.implicit (x : Cmd) : Layout :=
  { base := x.wa, n0 := cfgDepth x.cfgD, n1 := cfgRows x.cfgD, n2 := 1, s0 := 1, s1 := (w64 x.wb).toInt, s2 := 0,
    esize := cfgEw x.cfgD, space := 0 }

/-- The checks a sequencer's own command makes when it starts, on the `TCFG` values of all eight cores (R289). -/
def State.ownFault (s : State) (row : Nat) (x : Cmd) : Bool :=
  x.op == .mma && (List.range 8).any fun p =>
    let k := s.core (8 * row + p)
    (cfgFault .mma x.ty true 0 (k.cfg x.a) (k.cfg x.b)).isSome ||
      cfgDepth (k.cfg x.a) != cfgDepth ((s.core (8 * row)).cfg x.a)

def Cmd.refused (x : Cmd) (code : Nat) : Cmd := { x with started := true, outcome := some (2, code), demand := none }
def Cmd.go (x : Cmd) : Cmd := { x with started := true, demand := none }

/-- Some page of a command's array, or of the layout record it reads, is SO: then all its accesses are (13 R299). -/
def State.arraySo (s : State) (x : Cmd) (l : Layout) (acc : Acc) : Bool :=
  let so (va : Nat) (acc : Acc) : Bool := s.pageSo (.clu (cluOf x.core)) x.asid va acc (!x.sup)
  (spaceOf l.space == .mem &&
    ((List.range l.n1).flatMap fun j => (List.range l.n0).map fun i => (l.addr i j 0).1 / 4096).eraseDups.any fun p =>
      so (4096 * p) acc) ||
  (x.op != .tldq && x.sp == .mem && so x.wa .load)
/-- A command with a layout starts: the record is read and checked. -/
def startLayout (r : CmdRef) (x : Cmd) (s : State) : State :=
  let settle (s : State) (l : Layout) : State :=
    match shapeFault x l with
    | some code => s.setCmd r (x.refused code)
    | none =>
      let acc : Acc := if x.op == .tst || x.op == .ast then .store else .load
      s.setCmd r { x.go with lay := some l, so := s.arraySo x l acc }
  if x.op == .tldq then settle s x.implicit
  else
    match (readRecord x.work x.sp x.wa).run s with
    | .error (.fault code a) s1 => (s1.markRaised (raisedUnit code x.asid a)).setCmd r (x.refused code)
    | .error (.poison pa _) s1 =>
      (s1.engineCheck x.work pa).setCmd r { x.go with outcome := some (1, 0x12) }
    | .error (.wait d) _ => s.setCmd r { x with demand := match d with | some y => some y | none => x.demand }
    | .ok bs s1 => if layoutValid bs then settle s1 (layoutOf bs) else s1.setCmd r (x.refused 0x0c)

/-- COMMAND_START (R274): a command whose predecessors have retired starts; the eight commands of a gang together. -/
def startCmd (r : CmdRef) (s : State) : State :=
  match s.cmd? r with
  | none => s
  | some x =>
    if x.started || x.outcome.isSome || !s.depsDone r x then s
    else match r with
    | .seq q _ =>
      if !x.joined || s.ownFault q x then s.setCmd r (x.refused 0x02)
      else
        -- it latches each core's TCFG values: the depth they share, and each core's tile B
        s.setCmd r { x.go with cfgA := (s.core (8 * q)).cfg x.a,
                               cfgBs := (List.range 8).map fun p => (s.core (8 * q + p)).cfg x.b }
    | .core c _ =>
      if x.gang then
        if !x.joined then s
        else match s.gangRefs (rowOf c) x.gangNo with
        | none => s
        | some refs =>
          let ready := refs.all fun y => match s.cmd? y with
            | some z => z.joined && z.outcome.isNone && s.depsDone y z
            | none => false
          if ready then
            refs.foldl (fun s y => match s.cmd? y with | some z => s.setCmd y z.go | none => s) s
          else s
      else match x.op with
      | .tld => startLayout r x s
      | .tst => startLayout r x s
      | .tldq => startLayout r x s
      | .ast => startLayout r x s
      | .ald => startLayout r x s
      | _ => s.setCmd r x.go
/-- COMMAND_START. -/
def execCommandStart (r : CmdRef) (s : State) : MOut := .next (startCmd r s)

/-! ## What a command does -/

/-- Bytes of a stored element. -/
def elemBytes (w : Nat) : Nat := if w < 8 then 1 else w / 8
/-- Read element (i, j) of a layout. -/
def readElem (w : Work) (l : Layout) (j i : Nat) : U Nat := do
  let (x, hi) := l.addr i j 0
  let v := leNat (← unitRead w (spaceOf l.space) x (elemBytes l.bits))
  return if l.esize == 0 then (if hi then v / 16 else v % 16) else v
def readElems (w : Work) (l : Layout) (j : Nat) : Nat → U (List Nat)
  | 0 => return []
  | n + 1 => do
    let t ← readElems w l j n
    return t ++ [← readElem w l j n]
/-- Write elements of a row from element i on; four-bit elements go as whole bytes. -/
def writeElems (w : Work) (l : Layout) (j : Nat) : List Nat → Nat → U Unit
  | [], _ => pure ()
  | v :: t, i => do
    unitWrite w (spaceOf l.space) (l.addr i j 0).1 (leBytes v (elemBytes l.bits))
    writeElems w l j t (if l.esize == 0 then i + 2 else i + 1)
/-- Bytes of a four-bit row from its elements. -/
def pairUp : List Nat → List Nat
  | a :: b :: t => (a + 16 * b) :: pairUp t
  | l => l

/-- The scale bytes of a row's blocks, 0x3f where no sideband came with them (R282). -/
def readScales (w : Work) (l : Layout) (j : Nat) : Nat → U (List Byte)
  | 0 => return []
  | n + 1 => do
    let t ← readScales w l j n
    let x := ((l.addr 0 j 0).1 + 16 * n) % 2 ^ 64
    let p ← unitLoc w (spaceOf l.space) x 16 .load
    let s ← get
    let b : Byte := match p with
      | .phys pa _ => (s.sideband pa).getD 0x3f
      | _ => 0x3f
    return t ++ [b]

/-- Row j of a tile or an accumulator from a memory array, all or nothing (R281). -/
def loadRow (x : Cmd) (l : Layout) (j : Nat) : U Unit := do
  let vs ← readElems x.work l j l.n0
  let sc ← (if x.ty == .b4 then readScales x.work l j (l.n0 / 32) else pure [])
  modify fun s =>
    let k := s.core x.core
    s.setCore x.core (if x.op == .ald then (List.range l.n0).foldl (fun k i => k.putAcc x.d j i (vs.getD i 0)) k
      else
        let k := k.putRow x.d j (cfgBpr x.cfgD) (packRow (cfgWidth x.cfgD) vs)
        (List.range sc.length).foldl (fun k b => k.setScale x.d (8 * j + b) (sc.getD b 0)) k)
/-- Row j of a tile or an accumulator to a memory array, in element order. -/
def storeRow (x : Cmd) (l : Layout) (j : Nat) : U Unit := do
  let k := (← get).core x.core
  let vs := (List.range l.n0).map fun i =>
    if x.op == .ast then k.accAt x.d j i else k.tileElem x.d j i (cfgWidth x.cfgD)
  writeElems x.work l j (if l.esize == 0 then pairUp vs else vs) 0
/-- Rows from j on: those done, and why it stopped. A row that waits has no effect yet. -/
def moveRows (row : Nat → U Unit) : Nat → Nat → State → State × Nat × Option UStop
  | 0, j, s => (s, j, none)
  | n + 1, j, s =>
    match (row j).run s with
    | .ok _ s1 => moveRows row n (j + 1) s1
    | .error (.wait d) _ => (s, j, some (.wait d))
    | .error e s1 => (s1, j, some e)
/-- The aligned granules that each row of an array touches. -/
def rowGrans (l : Layout) : List (List Nat) :=
  (List.range l.n1).map fun j => ((List.range l.n0).map fun i => (l.addr i j 0).1 / 8).eraseDups
/-- Of rows given by their granules, how many move together after those of granules `seen`: until no later row touches a granule
of theirs, for each granule is one access (11 R278, 13 R316). -/
def rowsTogether (seen : List Nat) : List (List Nat) → Nat
  | [] => 0
  | g :: t => if t.any fun r => r.any fun x => (seen ++ g).contains x then 1 + rowsTogether (seen ++ g) t else 1
/-- At most `n` such groups of rows, from row j on; a group that waits has no effect yet. -/
def moveGroups (l : Layout) (row : Nat → U Unit) : Nat → Nat → State → State × Nat × Option UStop
  | 0, j, s => (s, j, none)
  | n + 1, j, s =>
    if l.n1 ≤ j then (s, j, none)
    else match moveRows row (rowsTogether [] ((rowGrans l).drop j)) j s with
    | (_, _, some (.wait d)) => (s, j, some (.wait d))
    | (s1, j1, some e) => (s1, j1, some e)
    | (s1, j1, none) => moveGroups l row n j1 s1

/-- The translation that a command goes on with: of the page of the last element that it moved, while the next element lies on
that page too (R281, 09 R247). -/
def Cmd.pinned (x : Cmd) (l : Layout) (acc : Acc2) (j : Nat) (s : State) : Option Pin :=
  if j ≤ x.rows then x.pin
  else if spaceOf l.space != .mem then none
  else
    let a := (l.addr (l.n0 - 1) (j - 1) 0).1
    if a / 4096 != (l.addr 0 j 0).1 / 4096 then none
    else match (unitLoc x.work .mem a 1 acc).run s with
    | .ok p _ => some { page := a / 4096, place := p }
    | .error _ _ => none
/-- A row command ends: complete, stopped at a row, or waiting with the rows below done. -/
def endRows (r : CmdRef) (x : Cmd) (l : Layout) (res : State × Nat × Option UStop) : State :=
  let acc : Acc2 := if x.op == .tst || x.op == .ast then .store else .load
  match res with
  | (s, j, none) =>
    if l.n1 ≤ j then s.retire r x 0 0 j else s.setCmd r { x with rows := j, demand := none, pin := x.pinned l acc j s }
  | (s, j, some (.fault code a)) => (s.markRaised (raisedUnit code x.asid a)).retire r x 1 code j
  | (s, j, some (.poison pa _)) => (s.engineCheck x.work pa).retire r x 1 0x12 j
  | (s, j, some (.wait d)) =>
    s.setCmd r { x with rows := j, demand := (match d with | some y => some y | none => x.demand), pin := x.pinned l acc j s }

/-! ### Unordered commands (R275)

A command that has started may have read any granule, and written any, before another command of the core that takes effect
meanwhile: it keeps what the core held before each and what each wrote, and its own effect takes each granule from one side or
the other. -/

def Core.mat (k : Core) : MatImage := { tiles := k.tiles, scales := k.scales, accs := k.accs }
def Core.setMat (k : Core) (m : MatImage) : Core := { k with tiles := m.tiles, scales := m.scales, accs := m.accs }
/-- Cells of several versions, the same free version for a whole granule. -/
def mixCells {α : Type} [DecidableEq α] (d : α) (gran : Nat → Nat) (n : Nat) (cur : Tbl α) (olds : List (Tbl α)) : Tbl α :=
  let all := cur :: olds
  (all.flatMap fun t => t.map (·.1)).foldl
    (fun t a => tset d t a (tget d (all.getD (Config.freeNat (n + gran a) % all.length) cur) a)) cur
/-- The cells that a command wrote, onto what stands. Of each granule it is free how many of the unordered commands that took
effect meanwhile, whose cells are `olds`, the last first, come after it: what they wrote there stays. -/
def mergeCells {α : Type} [DecidableEq α] (d : α) (gran : Nat → Nat) (n : Nat) (cur out : Tbl α) (mine : List (Nat × Nat))
    (olds : List (List (Nat × Nat))) : Tbl α :=
  (mine.flatMap fun r => (List.range r.2).map (r.1 + ·)).foldl (fun t a =>
    if (olds.take (Config.freeNat (n + gran a) % (olds.length + 1))).any fun o => o.any fun r => r.1 ≤ a && a < r.1 + r.2 then t
    else tset d t a (tget d out a)) cur
/-- Granules: of tiles 8 bytes, of scales a slot, of accumulators two elements. -/
def tileGran (a : Nat) : Nat := a / 8
def scaleGran (a : Nat) : Nat := 8192 + a
def accGran (a : Nat) : Nat := 12288 + a / 2
/-- Free values that one choice of versions takes. -/
def granCount : Nat := 20480
def mixMat (n : Nat) (cur : MatImage) (olds : List MatImage) : MatImage :=
  { tiles := mixCells 0 tileGran n cur.tiles (olds.map (·.tiles)),
    scales := mixCells 0 scaleGran n cur.scales (olds.map (·.scales)),
    accs := mixCells 0 accGran n cur.accs (olds.map (·.accs)) }
def mergeMat (n : Nat) (cur out : MatImage) (mine : MatCells) (olds : List MatImage) : MatImage :=
  { tiles := mergeCells 0 tileGran n cur.tiles out.tiles mine.tiles (olds.map (·.wrote.tiles)),
    scales := mergeCells 0 scaleGran n cur.scales out.scales mine.scales (olds.map (·.wrote.scales)),
    accs := mergeCells 0 accGran n cur.accs out.accs mine.accs (olds.map (·.wrote.accs)) }
/-- The cells that a command writes: of one that moves rows, in n rows from row j on. -/
def Cmd.cells (x : Cmd) (j n : Nat) : MatCells :=
  let rows (n : Nat) (f : Nat → Nat × Nat) : List (Nat × Nat) := (List.range n).map fun i => f (j + i)
  let tile (i : Nat) : Nat × Nat := (8192 * x.d + 128 * i, cfgBpr x.cfgD)
  match x.op with
  | .tzero => { tiles := [(8192 * x.d, 8192)], scales := [(512 * x.d, 512)] }
  | .azero => { accs := [(accKey x.d 0 0, 4096)] }
  | .mma => { accs := rows (if x.gang then 64 else cfgRows x.cfgA) fun i => (accKey x.d i 0, cfgRows x.cfgB) }
  | .amov => { tiles := rows (cfgRows x.cfgD) tile }
  | .ald => { accs := rows n fun i => (accKey x.d i 0, match x.lay with | some l => l.n0 | none => 0) }
  | .tld | .tldq =>
    { tiles := rows n tile, scales := if x.ty == .b4 then rows n fun i => (512 * x.d + 8 * i, cfgDepth x.cfgD / 32) else [] }
  | .tst | .ast => {}

/-- The command, if it is not one of `own`, keeps what core c holds. -/
def keepMat (own : List CmdRef) (ref : Nat → CmdRef) (c : Nat) (m : MatImage) (l : List Cmd) : List Cmd :=
  (l.zip (List.range l.length)).map fun x =>
    if x.1.started && x.1.outcome.isNone && !own.contains (ref x.2) then { x.1 with olds := (c, m) :: x.1.olds } else x.1
/-- The commands that have started beside `own` keep what core c held, m. -/
def State.keepOlds (s : State) (own : List CmdRef) (c : Nat) (m : MatImage) : State :=
  let k := s.core c
  let u := s.seqU (rowOf c)
  let s := if k.cmds.length < 2 && u.cmds.isEmpty then s
    else s.setCore c { k with cmds := keepMat own (.core c) c m k.cmds }
  if u.cmds.isEmpty then s
  else s.setSeq (rowOf c) { u with cmds := keepMat own (.seq (rowOf c)) c m u.cmds }
/-- An effect `f` of the commands `own` on the matrix state of cores `cs`, each taken with what the commands kept of it; `w`
says which cells of a core it wrote. -/
def State.onMat {α : Type} (s : State) (own : List CmdRef) (cs : List Nat) (f : State → State × α) (w : α → Nat → MatCells) :
    State × α :=
  let olds (c : Nat) : List MatImage := ((own.filterMap s.cmd?).flatMap (·.olds)).filterMap fun o =>
    if o.1 == c then some o.2 else none
  let at_ (c : Nat) : Nat := s.freeCtr + 2 * granCount * c
  let mixed := cs.any fun c => !(olds c).isEmpty
  let r := f (if mixed then cs.foldl (fun t c => t.setCore c ((t.core c).setMat (mixMat (at_ c) (s.core c).mat (olds c)))) s
    else s)
  let out := if mixed then
      let out := cs.foldl (fun t c => t.setCore c ((t.core c).setMat
        (mergeMat (at_ c + granCount) (s.core c).mat (r.1.core c).mat (w r.2 c) (olds c)))) r.1
      { out with freeCtr := out.freeCtr + 2 * granCount * Config.nCores }
    else r.1
  (cs.foldl (fun t c => if w r.2 c == {} then t else t.keepOlds own c { (s.core c).mat with wrote := w r.2 c }) out, r.2)

/-- Row i of a tile, expanded under R52, with its negation. -/
def expandRow (k : Core) (ty : Ty) (t i depth : Nat) (neg : Bool) : List Un :=
  (List.range depth).map fun e =>
    let u := expandElem ty (k.scaleAt t (8 * i + e / 32)).toNat (k.tileElem t i e ty.width)
    if neg then u.neg else u
/-- `Acc(a)[i][j]` for every row of A and every row of B (R284, R53). -/
def accumulate (k : Core) (a : Nat) (ad : Bool) (rowsA rowsB : List (List Un)) : Core :=
  (List.range rowsA.length).foldl (fun k i =>
    (List.range rowsB.length).foldl (fun k j =>
      let c := if ad then none else some (k.accAt a i j)
      k.putAcc a i j (mmaElem c (List.zipWith mulUn (rowsA.getD i []) (rowsB.getD j [])))) k) k

/-- The rows of tile A that a command multiplies: its own tile's. -/
def tileRows (k : Core) (ty : Ty) (t rows depth : Nat) (neg : Bool) : List (List Un) :=
  (List.range rows).map fun i => expandRow k ty t i depth neg
def negA (fl : Nat) : Bool := fl % 2 == 1
def negB (fl : Nat) : Bool := fl / 2 % 2 == 1
def noAcc (fl : Nat) : Bool := fl / 4 % 2 == 1
/-- A solo product. -/
def soloMma (x : Cmd) (k : Core) : Core :=
  let d := cfgDepth x.cfgA
  accumulate k x.d (noAcc x.fl) (tileRows k x.ty x.a (cfgRows x.cfgA) d (negA x.fl))
    (tileRows k x.ty x.b (cfgRows x.cfgB) d (negB x.fl))
/-- A gang product: the 64 rows gathered from the eight cores against each core's own tile B (R284). -/
def gangMma (row : Nat) (xs : List Cmd) (s : State) : State :=
  let rowsA := (List.range 8).flatMap fun p =>
    match xs[p]? with
    | some x => tileRows (s.core (8 * row + p)) x.ty x.a 8 (cfgDepth x.cfgA) (negA x.fl)
    | none => []
  (List.range 8).foldl (fun s p =>
    match xs[p]? with
    | some x =>
      let k := s.core (8 * row + p)
      s.setCore (8 * row + p) (accumulate k x.d (noAcc x.fl) rowsA
        (tileRows k x.ty x.b (cfgRows x.cfgB) (cfgDepth x.cfgA) (negB x.fl)))
    | none => s) s
/-- `amov`'s conversion of its window (R286). -/
def moveWindow (x : Cmd) (k : Core) : Core :=
  let w := w64 x.wb
  let wd := cfgWidth x.cfgD
  let conv (v : Nat) : Nat := (convert x.ty .f32 .rne (x.fl == 1) v).1
  (List.range (cfgRows x.cfgD)).foldl (fun k j =>
    let vs := (List.range (cfgDepth x.cfgD)).map fun i => conv (k.accAt x.a (bitsOf w 0 6 + j) (bitsOf w 8 6 + i))
    k.putRow x.d j (cfgBpr x.cfgD) (packRow wd vs)) k

/-- The members of a sequencer's own gang product, with each core's `TCFG` values. -/
def ownGang (q : Nat) (x : Cmd) : List Cmd :=
  (List.range 8).map fun p => { x with core := 8 * q + p, cfgB := x.cfgBs.getD p 0 }

/-- COMMAND_RETIRE (R276, R281 to R289): the effects of a started command, and its record. With `sel2` not 0 a command that
moves rows moves only the next group of them. -/
def retireCmd (r : CmdRef) (s : State) : State :=
  match s.cmd? r with
  | none => s
  | some x =>
    match x.outcome with
    | some (o, code) => s.retire r x o code 0
    | none =>
      if !x.started then s
      else match r with
      | .seq q _ =>
        let each (f : Core → Core) (s : State) : State :=
          (List.range 8).foldl (fun s p => s.setCore (8 * q + p) (f (s.core (8 * q + p)))) s
        let f (s : State) : State := match x.op with
          | .mma => gangMma q (ownGang q x) s
          | .tzero => each (fun k => k.zeroTile x.d) s
          | _ => each (fun k => k.zeroAcc x.d) s
        (s.onMat [r] ((List.range 8).map (8 * q + ·)) (fun s => (f s, ()))
          fun _ c => ((ownGang q x).getD (c % 8) x).cells 0 0).1.retire r x 0 0 0
      | .core c _ =>
        let solo (f : Core → Core) : State :=
          (s.onMat [r] [c] (fun s => (s.setCore c (f (s.core c)), ())) fun _ _ => x.cells 0 0).1.retire r x 0 0 0
        match x.op, x.lay with
        | .mma, _ =>
          if x.gang then
            match s.gangRefs (rowOf c) x.gangNo with
            | none => s
            | some refs =>
              let xs := refs.filterMap s.cmd?
              refs.foldl (fun s y => match s.cmd? y with | some z => s.retire y z 0 0 0 | none => s)
                (s.onMat refs (xs.map (·.core)) (fun s => (gangMma (rowOf c) xs s, ()))
                  fun _ c => (xs.getD (c % 8) x).cells 0 0).1
          else solo (soloMma x)
        | .amov, _ => solo (moveWindow x)
        | .tzero, _ => solo fun k => k.zeroTile x.d
        | .azero, _ => solo fun k => k.zeroAcc x.d
        | op, some l =>
          let n := if s.sel2 == 0 then l.n1 - x.rows else 1
          let row := if op == .tst || op == .ast then storeRow x l else loadRow x l
          let res := s.onMat [r] [c] (moveGroups l row n x.rows) fun res _ => x.cells x.rows (res.1 - x.rows)
          endRows r x l res
        | _, none => s
/-- COMMAND_RETIRE. -/
def execCommandRetire (r : CmdRef) (s : State) : MOut := .next (retireCmd r s)

end Sys2Proof.Machine
end

