-- ==== Sys2Proof/Machine/Sync.lean ====
section
/-!
DEFINITION. Row 0xe: acquire loads, release stores, fences, atomics, barriers, forks, decrements, messages, the
deque, hand-overs and team bindings (spec 14 R321 to R344). Every access of the model is performed in one order, so
an ordering annotation adds nothing (log 2).
-/
namespace Sys2Proof.Machine

/-! ## Acquire loads, release stores, fences (R322, R323) -/

/-- `ldacq`. -/
def execLdacq (w : LdW) (sc : Scope) (sp : Space) (d a : Reg) (ofs : BitVec 52) (s : State) : MOut :=
  loadImm (.ldacq w sc sp d a ofs) sp w d a (sx64 ofs) false s
/-- `strel`. -/
def execStrel (w : StW) (sc : Scope) (sp : Space) (d a : Reg) (ofs : BitVec 52) (s : State) : MOut :=
  storeImm (.strel w sc sp d a ofs) sp w d a (sx64 ofs) false s
/-- `fence`: it joins the two streams; every earlier access of the core has been performed. -/
def execFence (k : FenceKind) (sc : Scope) (s : State) : MOut :=
  perform (.fence k sc) [] (do return .fall) s

/-! ## Atomics (R324, R325) -/

def AmoTyInt : AmoTy → IntTy
  | .i32 => .i32
  | .i64 => .i64
  | .n32 => .n32
  | .n64 => .n64
def amoOp : AmoOp → IntTy → Nat → Nat → Nat
  | .add, ty, x, y => wrapN (IntTy.width ty) ((x : Int) + y)
  | .and, _, x, y => Nat.land x y
  | .or, _, x, y => Nat.lor x y
  | .xor, _, x, y => Nat.xor x y
  | .min, ty, x, y => if intVal ty x ≤ intVal ty y then x else y
  | .max, ty, x, y => if intVal ty x ≤ intVal ty y then y else x
  | .swap, _, _, y => y
/-- One read and one write of n bytes with nothing between: the value read. It shares the line only where it does not write
(13 R295, R297). -/
def atomicAt (sp : Space) (x : W64) (n : Nat) (f : Nat → Option Nat) : M Nat := do
  holdStore
  let l ← accessLoc sp (← myCore).asid x n .atomic false
  let old ← readLoc false l n
  match f old with
  | some v => storeInto false l n (v % 2 ^ (8 * n))
  | none => let _ ← loadOver false l n
  return old
/-- `amo`. -/
def execAmo (op : AmoOp) (ty : AmoTy) (sc : Scope) (sp : Space) (ord : BitVec 2) (d a b : Reg) (s : State) : MOut :=
  perform (.amo op ty sc sp ord d a b) [.wd d, .ws 54 a, .ws 42 b] (do
    let x ← readW a
    let y ← readW b
    let t := AmoTyInt ty
    let n := IntTy.width t / 8
    let old ← atomicAt sp x n fun old => some (amoOp op t old (y.toNat % 2 ^ (8 * n)))
    put d (extendLoad (IntTy.signed t) n old)) s
/-- `cas`. -/
def execCas (ty : AmoTy) (sc : Scope) (sp : Space) (ord : BitVec 2) (d a b c : Reg) (s : State) : MOut :=
  perform (.cas ty sc sp ord d a b c) [.wd d, .ws 54 a, .ws 42 b, .ws 30 c] (do
    let x ← readW a
    let y ← readW b
    let z ← readW c
    let t := AmoTyInt ty
    let n := IntTy.width t / 8
    let old ← atomicAt sp x n fun old => if old == y.toNat % 2 ^ (8 * n) then some (z.toNat % 2 ^ (8 * n)) else none
    put d (extendLoad (IntTy.signed t) n old)) s
/-- `famo`: no flag is raised. -/
def execFamo (ty : FpTy) (rm : RmF) (sc : Scope) (sp : Space) (ord : BitVec 2) (d a b : Reg) (s : State) : MOut :=
  perform (.famo ty rm sc sp ord d a b) [.wd d, .ws 54 a, .ws 42 b] (do
    let x ← readW a
    let y ← readW b
    let k ← myCore
    let n := match ty with | .f64 => 8 | .f32 => 4
    let f := FpTy.fmt ty
    let old ← atomicAt sp x n fun old => some (fAdd f (k.rm rm) old (y.toNat % 2 ^ (8 * n))).1
    put d (w64 old)) s

/-! ## Named barriers (R326, R327) -/

/-- The barrier a name stands for. -/
def barOf (x : W64) : M (Nat × Nat) := do
  let s ← get
  check (bitsOf x 43 21 == 0 && bitsOf x 10 22 == 0) 0x02 x
  check (coreField x < s.nP s.actor) 0x09 x
  return (s.base s.actor + coreField x, bitsOf x 0 10)
def Core.bar (k : Core) (i : Nat) : Bar := tget {} k.bars i
def setBar (c i : Nat) (b : Bar) : M Unit := modCore c fun k => { k with bars := tput k.bars i b }
/-- An arrival: the phase arrived in. -/
def arriveBar (x : W64) (c i : Nat) : M Nat := do
  let b := ((← get).core c).bar i
  check (b.expect != 0) 0x02 x
  setBar c i (if b.arrived + 1 == b.expect then { b with arrived := 0, phase := (b.phase + 1) % 65536 }
    else { b with arrived := b.arrived + 1 })
  return b.phase
/-- `bar.arrive`. -/
def execBarArrive (d a : Reg) (s : State) : MOut :=
  perform (.barArrive d a) [.wd d, .ws 54 a] (do
    let x ← readW a
    holdOutside
    let (c, i) ← barOf x
    let p ← arriveBar x c i
    put d (w64 p)) s
/-- `bar.wait`. -/
def execBarWait (d a b : Reg) (s : State) : MOut :=
  perform (.barWait d a b) [.wd d, .ws 54 a, .ws 42 b] (do
    let x ← readW a
    let y ← readW b
    let (c, i) ← barOf x
    let p := ((← get).core c).bar i |>.phase
    readyWhen (p != bitsOf y 0 16)
    put d (w64 p)) s
/-- `bar.sync` arrives. The queue word that it has read is its own from then on; should the instruction not complete, it stands
at its queue's head again (06 R135). -/
def barArrives (a : Reg) : M Flow := do
  let k0 ← myCore
  let x ← readW a
  holdOutside
  let (c, i) ← barOf x
  let p ← arriveBar x c i
  modMe fun k => { k with barAt := some (k.pc, c, i, p), barPop := k0.poppedSince k }
  return .set
/-- `bar.sync`: it arrives once, then waits for the phase it arrived in to pass. One that has arrived and that a trap has
interrupted reads again the word that it left at the queue's head (log 42). -/
def execBarSync (d a : Reg) (s : State) : MOut :=
  perform (.barSync d a) [.wd d, .ws 54 a] (do
    let k ← myCore
    match k.barAt with
    | none => barArrives a
    | some (pc, c, i, p) =>
      if pc != k.pc then barArrives a
      else do
        let q := ((← get).core c).bar i |>.phase
        readyWhen (q != p)
        if 0xf80 ≤ a.toNat && k.barPop.isEmpty then let _ ← readW a
        modMe fun k => { k with barAt := none, barPop := [] }
        put d (w64 q)) s
/-- `bar.init`. -/
def execBarInit (sc : Scope) (a b : Reg) (s : State) : MOut :=
  perform (.barInit sc a b) [.ws 54 a, .ws 42 b] (do
    let x ← readW a
    let n ← readW b
    holdOutside
    let (c, i) ← barOf x
    let r := ((← get).core c).bar i
    check (1 ≤ n.toNat && n.toNat ≤ 2048 && r.arrived == 0) 0x02 x
    setBar c i { r with expect := n.toNat, scope := sc }
    return .fall) s

/-! ## The deque (R330 to R332) -/

def dqHead : Nat := 0x37fc0
def Core.dqTop (k : Core) : Nat := k.spad.le dqHead 8
def Core.dqBot (k : Core) : Nat := k.spad.le (dqHead + 8) 8
def Core.dqSpill (k : Core) : Nat := k.spad.le (dqHead + 16) 8
def Core.dqLog (k : Core) : Nat := (k.spad.get (dqHead + 24)).toNat
def Core.dqCap (k : Core) : Nat := 512 + (if k.dqSpill == 0 then 0 else 2 ^ k.dqLog)
def Core.dqHeld (k : Core) : Nat := (k.dqBot + 2 ^ 64 - k.dqTop) % 2 ^ 64
def Core.setTop (k : Core) (v : Nat) : Core := { k with spad := k.spad.setLe dqHead 8 (v % 2 ^ 64) }
def Core.setBot (k : Core) (v : Nat) : Core := { k with spad := k.spad.setLe (dqHead + 8) 8 (v % 2 ^ 64) }
/-- TOP or BOT is written, or a record: what a core's streams knew of those bytes holds no longer (16 R348). -/
def State.dqTopTo (s : State) (c v : Nat) : State := (s.setCore c ((s.core c).setTop v)).clobber hostAgent 1 c dqHead 8
def State.dqBotTo (s : State) (c v : Nat) : State :=
  (s.putSpad c ((s.core c).setBot v).spad).clobber hostAgent 1 c (dqHead + 8) 8
def State.putRec (s : State) (c o : Nat) (r : Rec) : State :=
  (s.putSpad c ((s.core c).spad.setRec o r)).clobber hostAgent 1 c o 32
/-- Where record i lies: an offset of the scratchpad, or a spill address. -/
def Core.dqPlace (k : Core) (i : Nat) : Sum Nat Nat :=
  let n := i % k.dqCap
  if n < 512 then .inl (0x38000 + 32 * n) else .inr ((k.dqSpill + 32 * (n - 512)) % 2 ^ 64)

/-- The words of a 32-byte record. -/
def recOfBytes (bs : List Byte) : Rec :=
  { code := w64 (fieldAt bs 0 8), frame := w64 (fieldAt bs 8 8), arg := w64 (fieldAt bs 16 8), ctrl := w64 (fieldAt bs 24 8) }
def Rec.bytes (r : Rec) : List Byte := r.words.flatMap fun x => leBytes x.toNat 8
/-- Record i of core c's deque, and its source address (01 R9). -/
def dqRead (w : Work) (c i : Nat) : U (Rec × W64) := do
  let s ← get
  match (s.core c).dqPlace i with
  | .inl o => return ((s.core c).spad.rec o, joinAddr (s.pidx c) o)
  | .inr va => do
    let bs ← unitRead w .mem va 32
    return (recOfBytes bs, w64 va)

inductive DqRes
  | empty
  | refused
  | got (r : Rec) (src : W64)
  deriving DecidableEq, Repr
/-- A pop at the bottom of core c's deque (R332). -/
def dqPop (w : Work) (c : Nat) : U DqRes := do
  let k := (← get).core c
  if k.dqHeld == 0 then return .empty
  else if k.dqHeld == 1 then do
    let (r, src) ← dqRead w c k.dqTop
    modify fun s => s.dqTopTo c (k.dqTop + 1)
    return .got r src
  else do
    let i := (k.dqBot + 2 ^ 64 - 1) % 2 ^ 64
    let (r, src) ← dqRead w c i
    modify fun s => s.dqBotTo c i
    return .got r src
/-- A steal by core t from the top of core c's deque (R332). -/
def dqSteal (w : Work) (c t : Nat) : U DqRes := do
  let s ← get
  let k := s.core c
  if k.dqHeld == 0 then return .empty
  else do
    let (r, src) ← dqRead w c k.dqTop
    if !s.inDomain r c t then return .refused
    else do
      modify fun s => s.dqTopTo c (k.dqTop + 1)
      return .got r src

/-- Run an engine access for the executing core: its faults are the instruction's, and its success ends the wait that its
stream was on. -/
def liftU {α : Type} (x : U α) : M α := fun s =>
  match x.run s with
  | .ok a s' => .ok a (s'.putDemand s'.actor none)
  | .error (.fault code va) s' =>
    .error (.trap { code := code, addr := w64 va, unit := raisedUnit code (s'.hasid s'.actor) va }) s'
  | .error (.poison pa _) s' => .error (.machine pa) s'
  | .error (.wait d) s' => .error (.wait d) s'
/-- The executing task's reach of a spill array, in HASID (R330). -/
def spillWork (s : State) (c : Nat) : Work :=
  let k := s.core c
  { core := c, who := c, so := false, launch := k.launch, asid := s.hasid c, sup := k.sup, dlim := k.demandlimL, demand := k.demand }
def DqRes.words : DqRes → List W64
  | .empty => [BitVec.allOnes 64, 0, 0, 0]
  | .refused => [BitVec.allOnes 64 - 1, 0, 0, 0]
  | .got r _ => r.words

/-- `fork` (R331). -/
def execFork (a : Reg) (s : State) : MOut :=
  perform (.fork a) [.blk 54 a 4] (do
    let r := recOf (← readBlock a 4)
    holdOutside
    let s ← get
    let c := s.actor
    let k := s.core c
    if k.sup && r.sys then do
      readyWhen (s.sysRoom c)
      modify fun s => s.postSys c (.sys r k.launch)
    else do
      let at_ := joinAddr (s.pidx c) dqHead
      check (k.dqLog ≤ 20 && k.dqSpill % 32 == 0) 0x02 at_
      check (k.dqHeld < k.dqCap) 0x0b at_
      match k.dqPlace k.dqBot with
      | .inl o => modify fun s => s.putRec c o r
      | .inr va => liftU (unitWrite (spillWork s c) .mem va r.bytes)
      modify fun s => s.dqBotTo c ((s.core c).dqBot + 1)
    modMe fun k => { k with requeued := match k.task with | some t => k.requeued || t.kind == .fault | none => false }
    return .fall) s
/-- `dqop.pop` (R332). -/
def execDqopPop (d : Reg) (s : State) : MOut :=
  perform (.dqopPop d) [.blk 66 d 4] (do
    holdOutside
    let s ← get
    let r ← liftU (dqPop (spillWork s s.actor) s.actor)
    writeBlock d r.words 0
    return .fall) s
/-- `dqop.steal` (R332). -/
def execDqopSteal (d a : Reg) (s : State) : MOut :=
  perform (.dqopSteal d a) [.blk 66 d 4, .ws 54 a] (do
    let x ← readW a
    holdOutside
    let s ← get
    let c := s.actor
    check (x.toNat < 2048) 0x02 0
    check (x.toNat < s.nP c) 0x09 0
    let r ← liftU (dqSteal (spillWork s c) (s.base c + x.toNat) c)
    note (match r with | .got _ _ => 0x5 | _ => 0x6) c 1
    writeBlock d r.words 0
    return .fall) s
/-- `dqop.count` (R332). -/
def execDqopCount (d : Reg) (s : State) : MOut :=
  perform (.dqopCount d) [.wd d] (do
    let k ← myCore
    put d (w64 k.dqHeld)) s

/-! ## Decrements, messages and the end of a task (R335 to R338) -/

/-- `jdec` (R335). -/
def execJdec (sc : Scope) (a : Reg) (s : State) : MOut :=
  perform (.jdec sc a) [.ws 54 a] (do
    let x ← readW a
    holdOutside
    let s ← get
    let c := s.actor
    check (joinForm x) 0x02 0
    check (ringOff x % 32 == 0) 0x07 x
    check (coreField x < s.nP c) 0x09 0
    sendArrival (s.base c + coreField x) (.decr (ringOff x) (s.core c).launch)
    return .fall) s
/-- `msg` (R336, R337). A nonzero CORE with HOST set counts as a reserved bit set: R336 says that it is zero and names no fault for
one that is not (log 83, DESIGN CHOICE). -/
def execMsg (a b : Reg) (s : State) : MOut :=
  perform (.msg a b) [.blk 54 a 8, .ws 42 b] (do
    let ws ← readBlock a 8
    let y ← readW b
    holdOutside
    let s ← get
    let c := s.actor
    let host := bitOf y 63
    check (bitsOf y 43 20 == 0 && bitsOf y 0 32 == 0 && (!host || coreField y == 0)) 0x02 0
    check (host || coreField y < s.nP c) 0x09 0
    let l := (s.core c).launch
    if host then modify fun s => s.launchEvent l 7 0 (ws.getD 4 0) (ws.getD 5 0)
    else do
      let m : Msg := { tr := recOf ws, payload := ws.drop 4, src := joinAddr (s.pidx c) 0, launch := l }
      sendArrival (s.base c + coreField y) (.msg m)
    return .fall) s

/-- The fault a task's end records when it runs `done` where it stands (R338, 18 R361, R363). -/
def Core.doneFault (k : Core) : Option Nat :=
  if k.inTrap && k.trapCode != 0 && !k.requeued then some k.trapCode else none
/-- The end of a task: its register writes and its pushes have landed and its commands have retired. -/
def endSelf : M Unit := do
  let k ← myCore
  let s ← get
  readyWhen (k.pend.isEmpty && k.cmds.isEmpty && !s.controls s.actor)
  modify fun s => s.endTask s.actor k.doneFault
/-- `done` (R338); a bound engine stops fetching (17 R350). -/
def execDone (s : State) : MOut :=
  perform .done [] (do
    match (← get).cur with
    | .eng g => do
      modify fun s => s.setEng g { s.engU g with halted := true }
      return .set
    | _ => do
      endSelf
      return .set) s

/-! ## Teams (R339 to R343) -/

def myInst : M (Option Inst) := do
  let k ← myCore
  let s ← get
  return k.inst.bind (tget none s.insts)
/-- Core members of a role, in core-number order. -/
def Inst.group (x : Inst) (r : Nat) : List Nat := ((List.range 2048).filter fun c => x.cores.contains (c, r))
/-- Count and bound entries of role r: KIND, WHERE, WWORDS, MEMBERS. -/
def Inst.role (x : Inst) (r : Nat) : Option (Nat × Nat × Nat × Nat) :=
  if r == 0 || x.nroles < r then none
  else match x.roles[r - 1]? with
  | some e => if e.1 == 0 then none else some e
  | none => none

/-- `tbind.myrole` (R339). -/
def execTbindMyrole (d : Reg) (s : State) : MOut :=
  perform (.tbindMyrole d) [.wd d] (do
    let k ← myCore
    let c ← me
    put d (match ← myInst with
      | none => 0
      | some x =>
        let g := x.group k.role
        w64 (2 ^ 32 * x.k + 2 ^ 16 * g.length + 2 ^ 8 * (lfind (· == c) g).getD 0 + 16 * bN x.clu + k.role))) s
/-- `tbind.members` (R339). -/
def execTbindMembers (d a : Reg) (s : State) : MOut :=
  perform (.tbindMembers d a) [.wd d, .ws 54 a] (do
    let r ← readW a
    put d (match (← myInst).bind (·.role (bitsOf r 0 4)) with
      | none => 0
      | some (kind, where_, _, mem) => w64 (2 ^ 56 * kind + 2 ^ 48 * where_ + mem))) s

/-- Whether a member may pass an H-form slot (R342). -/
def Inst.mayPass (x : Inst) (c : Nat) : Bool :=
  let n := tget 0 x.counts c
  x.live.all fun m => n + 1 ≤ tget 0 x.counts m + x.drift
/-- A member has passed an H-form slot. -/
def Inst.counted (x : Inst) (c : Nat) : Inst := { x with counts := tput x.counts c (tget 0 x.counts c + 1) }

/-- Pipe queues of an instance. -/
def Inst.pipe (x : Inst) (p sr rr sn rc : Nat) : List (List W64) :=
  match x.pipes.find? fun q => q.pipe == p && q.srole == sr && q.rrole == rr && q.sender == sn && q.receiver == rc with
  | some q => q.entries
  | none => []
def Inst.setPipe (x : Inst) (p sr rr sn rc : Nat) (l : List (List W64)) : Inst :=
  let other := x.pipes.filter fun q =>
    !(q.pipe == p && q.srole == sr && q.rrole == rr && q.sender == sn && q.receiver == rc)
  { x with pipes := { pipe := p, srole := sr, rrole := rr, sender := sn, receiver := rc, entries := l } :: other }

/-- Absolute words of a list (R141). -/
def listWords (a : Reg) (lmap : BitVec 16) : List Nat := (List.range 16).filter (fun j => lmap.getLsbD j) |>.map (a.toNat + ·)

/-- A send appends its words to the pipe of every paired receiver that has not ended (R341). -/
def handSend (x : Inst) (c : Nat) (role rcv pipe : Nat) (rcpt : List Nat) (ws : List Nat) : M Inst := do
  let base := (← myCore).wbase.toNat
  let vs ← ws.mapM fun j => readAbs (base + j)
  let rcpt := rcpt.filter fun r => x.live.contains r
  readyWhen (rcpt.all fun r => (x.pipe pipe role rcv c r).length < Config.pipeDepth)
  return rcpt.foldl (fun x r => x.setPipe pipe role rcv c r (x.pipe pipe role rcv c r ++ [vs])) x
/-- A receive takes an entry; each word lands as a late write. Everything after it comes after the send (13 R307). -/
def handReceive (x : Inst) (c : Nat) (role rcv pipe from_ : Nat) (ws : List Nat) : M Inst := do
  let base := (← myCore).wbase.toNat
  match x.pipe pipe role rcv from_ c with
  | [] => if x.live.contains from_ then waitNow else throw (.team 0x02)
  | vs :: t => do
    modify fun s => s.settleRace c
    (ws.zip vs).forM fun p => writeLate (base + p.1) .data p.2
    return x.setPipe pipe role rcv from_ c t
/-- `hand` (R340 to R342). -/
def execHand (role rcv : BitVec 4) (pipe : BitVec 3) (a : Reg) (lmap : BitVec 16) (s : State) : MOut :=
  perform (.hand role rcv pipe a lmap) [.list a lmap] (do
    holdOutside
    let s ← get
    let c := s.actor
    let k := s.core c
    match k.inst, ← myInst with
    | some i, some x => do
      let core (r : Nat) : Bool := match x.role r with | some e => e.1 == 1 | none => false
      if !core role.toNat || !core rcv.toNat then throw (.team 0x01)
      let snd := x.group role.toNat
      let rcvs := x.group rcv.toNat
      let ws := listWords a lmap
      let paired := snd.length == rcvs.length
      if k.role == role.toNat && !paired && snd.length != 1 then throw (.team 0x02)
      readyWhen (x.mayPass c)
      let x1 ← (if k.role == role.toNat then
          handSend x c role.toNat rcv.toNat pipe.toNat
            (if snd.length == 1 then rcvs else (rcvs[(lfind (· == c) snd).getD 0]?).toList) ws
        else if snd.length == 1 || paired then
          let from_ := if snd.length == 1 then snd.getD 0 0 else snd.getD ((lfind (· == c) rcvs).getD 0) 0
          handReceive x c role.toNat rcv.toNat pipe.toNat from_ ws
        else waitNow)
      modify fun s => { s with insts := tput s.insts i (some (if k.inTrap then x1 else x1.counted c)) }
      return .fall
    | _, _ => return .fall) s

end Sys2Proof.Machine
end

