-- ==== Sys2Proof/Machine/System.lean ====
section
/-!
DEFINITION. Row 0xf: traps, translation control, discards, the watchdog count, partition controls, events, halting
and the deprecated instructions (spec 19 R375 to R391; 18 R367).
-/
namespace Sys2Proof.Machine

/-! ## Traps (R377, R378) -/

/-- `trap`: it requests the task's own handler; without a usable one it is an illegal instruction, which reads nothing. -/
def execTrap (a : Reg) (s : State) : MOut :=
  perform (.trap a) [.ws 54 a] (do
    if (← myCore).noHandler then trapAt 0x01 (lineAddr (← get).pcOf)
    let x ← readW a
    let s ← get
    set (s.deliverRequest s.actor s.pcOf x)
    return .set) s
/-- `tret`: legal in the handler of a trap alone. -/
def execTret (s : State) : MOut :=
  perform .tret [] (do
    let s ← get
    let k := s.core s.actor
    let inFault := match k.task with | some t => t.kind == .fault | none => false
    check (k.inTrap && !inFault) 0x01 (lineAddr s.pcOf)
    match k.tretTo with
    | .error code => trapAt code 0
    | .ok k => do
      modMe fun _ => k
      return .set) s

/-! ## Translation (R379 to R381) -/

/-- Drop translations everywhere. -/
def State.tlbDrop (s : State) (p : TlbEnt → Bool) : State :=
  { s with cores := s.cores.map fun (x : Nat × Core) => (x.1, { x.2 with l1tlb := x.2.l1tlb.filter fun t => !p t }),
           ctlb := s.ctlb.map fun (x : Nat × List TlbEnt) => (x.1, x.2.filter fun t => !p t) }
/-- A register-store line of a core, of an address space and at an address that a test picks. -/
def Core.rsHit (k : Core) (asid : Option Nat) (p : Nat → Bool) (x : Nat × RsLine) : Bool :=
  (match asid with | some a => x.2.tag == a | none => true) && p ((canonOf k.rbb.toNat + 64 * x.1) % 2 ^ 64)
/-- Lines of a core are written back and invalidated. Where the host link answers one with an error, that is a machine check of
the core's task (09 R409, 18 R369). -/
def State.rsGive (s : State) (c : Nat) (hit : Nat × RsLine → Bool) : State :=
  let ls := (s.core c).rs.filter hit
  let s := ls.foldl (fun s x => s.rsWriteBack c x.2) s
  let s := s.setCore c { s.core c with rs := (s.core c).rs.filter fun x => !hit x }
  (ls.filter fun x => s.rsError x.2).foldl (fun s x => s.machineEnd c 0x12 x.2.pa) s
/-- Every core's register-store lines that a test on the line's address picks: they are written back and invalidated (04 R102).
`none` where one must stay, for a pending write, for words to take back (18 R356) or for a data instruction that the scalar
stream has passed (18 R357), or may not be written back yet (13 R296). -/
def State.rsDrop (s : State) (asid : Option Nat) (p : Nat → Bool) : Option State :=
  if s.cores.any fun c => c.2.rs.any fun x => c.2.rsHit asid p x && (c.2.rsPinned x.1 || !s.rsMayWrite c.1 x.2) then none
  else some ((s.cores.map (·.1)).foldl (fun s c => s.rsGive c fun x => (s.core c).rsHit asid p x) s)
/-- A copy or a command is using a translation of an address space, at an address that a test picks (09 R247). -/
def State.pinHit (s : State) (asid : Option Nat) (p : Nat → Bool) : Bool :=
  let hit (a : Nat) (g : Option Pin) : Bool := g.any fun g => (asid.isNone || asid == some a) && p (4096 * g.page)
  let chans (t : Tbl Chan) : Bool := t.any fun ch => ch.2.copies.any fun c => hit c.asid c.pinS || hit c.asid c.pinD
  s.cores.any (fun k => chans k.2.chans || k.2.cmds.any fun x => hit x.asid x.pin) || s.engs.any fun e => chans e.2.chans
/-- Sizes of the pages through which an address is or was translated: of cached translations and of the tables. -/
def State.pageSize (s : State) (asid va : Nat) : Nat :=
  let cached := (s.cores.flatMap fun c => c.2.l1tlb) ++ (s.ctlb.flatMap (·.2))
  let sizes := (cached.filter fun t => t.asid == asid && t.va ≤ va && va < t.va + t.size).map (·.size)
  let walk := match walkFrom s.mem va .fill false 5 (4096 * bitsOf (tget 0 s.roots asid) 12 40) [] with
    | .ok (t, _) => [t.size]
    | .error _ => []
  (sizes ++ walk).foldl Nat.max 65536
/-- Invalidate, and wait for the register stores and for the translations that engines are using (R381, R247). -/
def invalidate (asid : Option Nat) (p : TlbEnt → Bool) (q : Nat → Bool) : M Unit := do
  let s ← get
  match (s.core s.actor).rs.find? fun x => (s.core s.actor).rsHit asid q x && s.rsError x.2 with
  | some x => throw (.machine x.2.pa)
  | none => pure ()
  readyWhen (!s.pinHit asid q)
  match s.rsDrop asid q with
  | none => waitNow
  | some s => set (s.tlbDrop p)

/-- `tlbi.all` (R379). -/
def execTlbiAll (s : State) : MOut :=
  perform .tlbiAll [] (do
    invalidate none (fun _ => true) (fun _ => true)
    return .fall) s
/-- An ASID that a task may name (R379, R380). -/
def checkAsid (a : W64) : M Unit := do
  let k ← myCore
  check (k.isFw || a.toNat == k.asid) 0x09 0
/-- `tlbi.asid`. -/
def execTlbiAsid (a : Reg) (s : State) : MOut :=
  perform (.tlbiAsid a) [.ws 54 a] (do
    let x ← readW a
    check (x.toNat < 1024) 0x02 0
    checkAsid x
    invalidate (some x.toNat) (fun t => t.asid == x.toNat) (fun _ => true)
    return .fall) s
/-- `tlbi.page`. -/
def execTlbiPage (a b : Reg) (s : State) : MOut :=
  perform (.tlbiPage a b) [.ws 54 a, .ws 42 b] (do
    let x ← readW a
    let y ← readW b
    check (x.toNat < 1024 && canonical57 y.toNat) 0x02 0
    checkAsid x
    let n := (← get).pageSize x.toNat y.toNat
    invalidate (some x.toNat) (fun t => t.asid == x.toNat && t.va ≤ y.toNat && y.toNat < t.va + t.size)
      (fun va => va / n == y.toNat / n)
    return .fall) s
/-- `asidctl` (R380): the old root goes to D, whose line is written back with the others. -/
def execAsidctl (d a b : Reg) (s : State) : MOut :=
  perform (.asidctl d a b) [.wd d, .ws 54 a, .ws 42 b] (do
    let x ← readW a
    let y ← readW b
    check (x.toNat < 1024 && bitsOf y 52 12 == 0 && bitsOf y 1 11 == 0) 0x02 0
    checkAsid x
    writeW d (tget 0 (← get).roots x.toNat)
    invalidate (some x.toNat) (fun t => t.asid == x.toNat) (fun _ => true)
    modify fun s => { s with roots := tput s.roots x.toNat y }
    return .fall) s

/-! ## Discards, the watchdog count, events (R382, R383, R385) -/

/-- `isync`. -/
def execIsync (s : State) : MOut :=
  perform .isync [] (do
    modify fun s => s.discard s.actor
    return .fall) s
/-- `wdctl.get`. -/
def execWdctlGet (d : Reg) (s : State) : MOut :=
  perform (.wdctlGet d) [.wd d] (do
    let k ← myCore
    put d (w64 k.wd)) s
/-- `wdctl.set`. -/
def execWdctlSet (a : Reg) (s : State) : MOut :=
  perform (.wdctlSet a) [.ws 54 a] (do
    let x ← readW a
    holdOutside
    let k ← myCore
    check (x.toNat < k.tasklimL) 0x02 0
    modMe fun k => { k with wd := x.toNat }
    return .fall) s
/-- `evpost`. -/
def execEvpost (a b : Reg) (s : State) : MOut :=
  perform (.evpost a b) [.ws 54 a, .ws 42 b] (do
    let x ← readW a
    let y ← readW b
    holdOutside
    modify fun s => s.launchEvent (s.core s.actor).launch 7 0 x y
    return .fall) s
/-- `halt` (R386): it ends its task as `done` does; the core then dispatches nothing. -/
def execHalt (s : State) : MOut :=
  perform .halt [] (do
    endSelf
    modMe fun k => { k with halted := true }
    return .set) s

/-! ## Partition controls (R384) -/

/-- Send a control to the front end; its result lands in D, or enters the queue that D names at this instruction's place
(06 R135), when the front end replies. -/
def sendPartctl (merge : Bool) (d a : Reg) : M Flow := do
  let n ← readW a
  check (1 ≤ n.toNat && n.toNat ≤ 511) 0x02 0
  holdOutside
  let c ← me
  let k ← myCore
  if d.toNat < 0xf80 then writeLate (k.wbase.toNat + d.toNat) .partctl 0
  else readyWhen (d == 0xfff || !(← get).placeKept c d)
  modify fun s => { s with parts := s.parts ++
    [{ merge := merge, node := n.toNat, core := some c, reg := d, word := k.wbase.toNat + d.toNat, fw := k.isFw,
       decided := none, waits := false }] }
  return .fall
/-- `partctl.split`. -/
def execPartctlSplit (d a : Reg) (s : State) : MOut :=
  perform (.partctlSplit d a) [.wd d, .ws 54 a] (sendPartctl false d a) s
/-- `partctl.merge`. -/
def execPartctlMerge (d a : Reg) (s : State) : MOut :=
  perform (.partctlMerge d a) [.wd d, .ws 54 a] (sendPartctl true d a) s

/-! ## Deprecated instructions (R387 to R391) -/

/-- A micro-step of an expansion: a fault in it is recorded with its number (18 R367). -/
def microStep {α : Type} (n : Nat) (x : M α) : M α := fun s =>
  match x s with
  | .error (.trap t) s' => .error (.trap { t with micro := true, step := n }) s'
  | r => r
/-- `loopc` (R388). -/
def execLoopc (slot : BitVec 3) (d a : Reg) (off : BitVec 41) (s : State) : MOut :=
  perform (.loopc slot d a off) [.blk 66 d 1, .blk 54 a 1] (do
    check (d != a) 0x02 66
    let v ← microStep 0 (do
      let x ← readW a
      writeW d (x - 1)
      return x - 1)
    if v != 0 then do
      let t := jTarget (← get).pcOf slot off
      microStep 1 (checkTarget t)
      return .goto t
    else return .fall) s

/-- Whether the sixteen words of vector d meet window word r. -/
def vecMeets (d r : Reg) : Bool := d.toNat < 248 && r.toNat < 0xf80 && r.toNat / 16 == d.toNat
/-- The eight-bit dot product of a lane onto a base. -/
def dotLane (n : Bool) (x t c : W64) : W64 :=
  let ty : IntTy := if n then .n8 else .i8
  (List.range 8).foldl (fun acc j => acc + w64i (intVal ty (elemOf 8 j x) * intVal ty (elemOf 8 j t))) c
/-- The gather of step 0, each enabled lane in order. -/
def gatherFrom (m : Nat) (so : Bool) (x : W64) : Nat → Nat → M (List W64)
  | 0, _ => return []
  | n + 1, l => do
    let v ← (if laneOn m l then fun s =>
        match (do loadOver true (← laneLoc .mem so (x + w64 (8 * l)) .load) 8 : M Nat) s with
        | .error (.trap t) s' => .error (.trap { t with lane := some l }) s'
        | .error e s' => .error e s'
        | .ok v s' => .ok v s'
      else pure 0)
    return w64 v :: (← gatherFrom m so x n (l + 1))
/-- `vdotx` (R389). -/
def execVdotx (n : Bool) (d a b c m : Reg) (s : State) : MOut :=
  perform (.vdotx n d a b c m) [.vd d, .vs 54 a, .ws 42 b, .vs 30 c, .mask 18 m] (do
    check (!(d.toNat < 248 && (d == a || d == c)) && !vecMeets d b && !vecMeets d m) 0x02 66
    let mk ← readMask m
    let ts ← microStep 0 (do
      let x ← readW b
      let so ← lanesSo .mem .load mk fun l => x + w64 (8 * l)
      gatherFrom mk so x 16 0)
    microStep 1 (do
      let xs ← readVM a mk
      let cs ← readVM c mk
      writeV d mk fun l => dotLane n (xs.getD l 0) (ts.getD l 0) (cs.getD l 0))
    return .fall) s

/-- `swapw` (R391). -/
def execSwapw (d a : Reg) (s : State) : MOut :=
  perform (.swapw d a) [.blk 66 d 1, .blk 54 a 1] (do
    check (d != a) 0x02 66
    let x ← microStep 0 (do
      let x ← readW a
      check (bitsOf x 32 32 == 0) 0x02 0
      return x)
    let k ← myCore
    microStep 1 (writeW d (w64 (2 ^ 20 * k.wlim.toNat + k.wbase.toNat)))
    microStep 2 (changeWindow (bitsOf x 0 20) (bitsOf x 20 12))
    return .fall) s

end Sys2Proof.Machine
end

