-- ==== Sys2Proof/Machine/Tasks.lean ====
section
/-!
DEFINITION. The steps of a core's dispatcher, arrival logic, levelling unit, watchdog and late writes, of the front
end's partition controls, and of demand fetches (spec 14 R328 to R334; 01 R9, R10; 18 R363 to R369; 19 R384).
A step that finds its condition not met leaves the machine as it is (log 1).
-/
namespace Sys2Proof.Machine

/-! ## What an event names -/

/-- A fault that no instruction of the table raised (06 R147): the slot's own. -/
def execUnassignedOpcode (code : BitVec 8) (faddr : W64) (data : Bool) (s : State) : MOut :=
  .next (match s.cur with
    | .core c =>
      let k := s.core c
      if k.task.isNone || k.stopAt.isSome || !k.dq.isEmpty then s
      else s.deliver c k.pc data { code := code.toNat, addr := faddr } k.seq
    | .data _ => s
    | .seq r => match (s.seqU r).inst with | some i => s.teamFaultNow i code.toNat | none => s
    | .eng g => match (s.engU g).inst with | some i => s.teamFaultNow i code.toNat | none => s)

/-! ## Team bindings hold a core (04 R94, R95) -/

/-- Rows that hold a member. -/
def Inst.rows (x : Inst) : List Nat := (x.cores.map (fun m => rowOf m.1) ++ x.seqs.map (·.1)).eraseDups
def Inst.meets (x y : Inst) : Bool :=
  x.rows.any (fun r => y.rows.contains r) ||
  (match x.eng, y.eng with | some a, some b => a.1 == b.1 | _, _ => false)
/-- The instance's tenant is resident on its node, and the node is not being switched. -/
def State.instHere (s : State) (x : Inst) : Bool :=
  match s.launch? x.launch with
  | some l => (match s.node? l.part with
    | some n => n.resident == some l.tenant && n.phase == .steady
    | none => false)
  | none => false
/-- Instances bind in the order in which their launches were accepted, and those of one launch in their own (R94). -/
def Inst.before (x y : Inst) : Bool := x.launch < y.launch || (x.launch == y.launch && x.k < y.k)
/-- Every row and engine that a queued instance needs has taken it: none holds one, and none before it awaits one. -/
def State.takenBy (s : State) (x : Inst) : Bool :=
  x.st == .queued && s.instHere x &&
  s.insts.all fun y => match y.2 with
    | some z => z.st == .ended || !z.meets x || (z.st == .queued && (!z.before x || !s.instHere z))
    | none => true
/-- A queued binding keeps the core from dispatching. -/
def State.reserved (s : State) (c : Nat) : Bool :=
  s.insts.any fun y => match y.2 with
    | some x => x.cores.any (fun m => m.1 == c) && s.takenBy x
    | none => false

/-! ## Dispatch (14 R329, 01 R9, R10, R34) -/

/-- A core is free to run a task: the last one's register writes and its controls' results have landed, its commands have
retired, and the team instance it was a member of has ended (R344, R104). What its dispatcher has taken it starts even if a
binding waits (04 R95). -/
def State.free (s : State) (c : Nat) : Bool :=
  let k := s.core c
  k.task.isNone && !k.halted && k.cmds.isEmpty && k.pend.isEmpty && !s.controls c && k.inst.isNone &&
  (k.taken.isSome || !s.reserved c)

/-- The ready entry the next ready-ring dispatch takes (R34). -/
def topClass (l : List Entry) : Nat := l.foldl (fun m e => Nat.max m e.tr.cls) 0
def Core.pickReady (k : Core) : Option Nat :=
  match lfind (fun e => 64 ≤ e.passed) k.ready with
  | some i => some i
  | none => lfind (fun e => e.tr.cls == topClass k.ready) k.ready
/-- Take the chosen ready entry; records of lower classes have been passed over once more. -/
def Core.takeReady (k : Core) : Option Core :=
  match k.pickReady with
  | none => none
  | some i =>
    match k.ready[i]? with
    | none => none
    | some e =>
      let rest := lmapIf (fun x => x.tr.cls < e.tr.cls) (fun x => { x with passed := x.passed + 1 }) (ldel k.ready i)
      some { k with ready := rest, inboxRun := 0, taken := some (.entry e []) }
/-- Steps 1 to 4 of R329. -/
def Core.take (k : Core) : Option Core :=
  let later (k : Core) : Option Core :=
    match k.takeReady with
    | some k => some k
    | none => if k.dqHeld == 0 then none else some { k with taken := some .pop }
  match k.sysring with
  | e :: t => some { k with sysring := t, taken := some (.sys e) }
  | [] =>
    if k.quiescing then none
    else match k.inbox with
    | m :: t =>
      if 8 ≤ k.inboxRun && !k.ready.isEmpty then later k
      else
        let e : Entry := { tr := m.tr, src := m.src, origin := coreField m.src, launch := m.launch, restarts := 0,
                           passed := 0 }
        some { k with inbox := t, inboxRun := k.inboxRun + 1, taken := some (.entry e m.payload) }
    | [] => later k

/-- The launch of a task taken from a core's deque (R411). -/
def State.dequeLaunch (s : State) (c : Nat) : Option Nat :=
  let run (l : Launch) : Bool := l.part == s.nodeOf c && l.st == .running && some l.tenant == s.resident c
  match (s.core c).dqLaunch.bind s.launch? with
  | some l => if run l then some l.no else (s.launches.filter run).head?.map (·.no)
  | none => (s.launches.filter run).head?.map (·.no)
/-- The address space of a record's task: its launch's, or the tenant's home where it has none (log 25). -/
def State.recAsid (s : State) (c : Nat) (l : Option Nat) : Nat :=
  match l.bind s.launch? with
  | some x => x.asid
  | none => s.hasid c
/-- The discard of 05 R124 before a task of a launch. -/
def State.renew (s : State) (c : Nat) (l : Option Nat) : State :=
  let s := if l.isNone || (s.core c).lastRun != l then s.discard c else s
  s.setCore c { s.core c with lastRun := l }
/-- A task counts in its launch's NDISP, and in STRAG after the root release (01 R32, R33). -/
def State.counted (s : State) (c : Nat) (l : Option Nat) : State :=
  let s := (s.note 0x4 c 1).settleRace c
  match l with
  | none => s
  | some a =>
    let s := s.setCore c { s.core c with dqLaunch := some a }
    s.modLaunch a fun x => { x with ndisp := x.ndisp + 1, strag := x.strag || x.released }

/-- Write the first words of a window. -/
def writeWords (base : Nat) : List W64 → Nat → M Unit
  | [], _ => pure ()
  | v :: t, j => do
    writeAbs (base + j) v
    writeWords base t (j + 1)
/-- What a starting task finds (R10, R104; 02 R50, R54; 07 R179; 18 R364). -/
def Core.fresh (k : Core) (t : Task) (pc base lim : W64) (sup : Bool) : Core :=
  { k with task := some t, pc := pc, sup := sup, inTrap := false, trapCode := 0, trapReq := false, requeued := false,
           wbase := base, wlim := lim, wfb := base, wfl := lim, fcsr := 0, xa := [], qd := [], qc := [], wd := 0,
           resume := none, barAt := none, barPop := [], dq := [], undo := [], stopAt := none, ending := none,
           demandD := none, tasklimL := k.tasklim.toNat, demandlimL := k.demandlim.toNat }
/-- Let core c act. -/
def State.asCore (s : State) (c : Nat) : State := { s with cur := .core c }
/-- Nothing is taken any more. -/
def State.putBack (s : State) (c : Nat) : State := s.setCore c { s.core c with taken := none, demand := none }
def State.waitFor (s : State) (c : Nat) (d : Option Demand) : State :=
  match d with
  | some x => s.setCore c { s.core c with demand := some x }
  | none => s

/-- A record fails (R9): a fault task takes its place. -/
def State.failRecord (s : State) (c : Nat) (e : Entry) (code : Nat) : State :=
  let s := s.renew c e.launch
  (s.putBack c).postSys c (.fault code e.src e.tr.code e.tr e.origin e.launch)
/-- Poisoned data end what was to start, with a fault recorded and no fault task: a machine check is never trapped (18
R369, log 67). -/
def State.startChecked (s : State) (c : Nat) (launch : Option Nat) (code pa : Nat) : State :=
  (((((s.rsLose c pa).renew c launch).putBack c).counted c launch).checkEvent launch code c pa).recordFault launch code
/-- Check a record under R9 and start it. -/
def startRecord (c : Nat) (e : Entry) (payload : List W64) (sys : Bool) (s : State) : State :=
  let r := e.tr
  let t : Task := { kind := if sys then .sys else .normal, tr := r, src := e.src, origin := e.origin, launch := e.launch,
                    restarts := e.restarts, asid := s.recAsid c e.launch, answers := 0 }
  let s1 := s.renew c e.launch
  let k := s1.core c
  let go := k.fresh t r.code k.dwb (w64 r.wreq) sys
  if 4 < r.level || r.wreq < 2 || 3968 < r.wreq || r.rsv != 0 then s.failRecord c e 0x02
  else if r.sys && !sys then s.failRecord c e 0x09
  else match (checkTarget r.code).run ((s1.setCore c { go with demand := k.demand }).asCore c) with
  | .error (.wait d) _ => s.waitFor c d
  | .error (.trap f) _ => (s.markRaised f.unit).failRecord c e f.code
  -- a code line that cannot be read fails the record, and posts the event too (05 R109; log 84, DESIGN CHOICE)
  | .error (.machine pa code _) _ => (s.checkEvent e.launch code c pa).failRecord c e code
  | .error _ _ => s.failRecord c e 0x03
  | .ok _ s1 =>
    if k.rbl.toNat < k.dwb.toNat + r.wreq then s.failRecord c e 0x06
    else match (writeWords k.dwb.toNat (([r.frame, r.arg] ++ payload).take r.wreq) 0).run s1 with
    | .error (.wait d) _ => s.waitFor c d
    | .error (.trap f) _ => (s.markRaised f.unit).failRecord c e f.code
    | .error (.machine pa code _) _ => s.startChecked c e.launch code pa
    | .error _ _ => s
    | .ok _ s2 => (s2.putBack c).counted c e.launch

/-- A fault task (18 R363). -/
def startFault (c code : Nat) (faddr fpc : W64) (tr : Rec) (origin : Nat) (launch : Option Nat) (s : State) : State :=
  let s0 := s
  let s := s.renew c launch
  let k := s.core c
  if k.tvec == 0 then ((s.putBack c).counted c launch).recordFault launch code
  else
    let t : Task := { kind := .fault, tr := tr, src := 0, origin := origin, launch := launch, restarts := 0,
                      asid := s.recAsid c launch, answers := code }
    let k1 := { k.fresh t k.tvec k.twb k.twl true with
      inTrap := true, trapCode := code, fpc := fpc, faddr := faddr, fstep := 0, lstart := 0, fwb := 0, fwl := 0,
      fcause := causeWord code 0 true false false false false }
    match (writeWords k.twb.toNat ((tr.words ++ [w64 origin]).take k.twl.toNat) 0).run ((s.setCore c k1).asCore c) with
    | .error (.wait d) _ => s.waitFor c d
    | .error (.trap f) _ => (((s.markRaised f.unit).putBack c).counted c launch).recordFault launch f.code
    | .error (.machine pa code _) _ => s0.startChecked c launch code pa
    | .error _ _ => s
    | .ok _ s1 => (s1.putBack c).counted c launch

/-- A task that the front end posted (19 R376): it runs in the firmware window and belongs to no launch. -/
def startFirmware (c : Nat) (tr : Rec) (s : State) : State :=
  let k := s.core c
  let t : Task := { kind := .firmware, tr := tr, src := 0, origin := s.pidx c, launch := none, restarts := 0, asid := 0,
                    answers := 0 }
  let k1 := { k.fresh t tr.code 0 256 true with wfb := k.wfb, wfl := k.wfl, fwregs := tput (tput k.fwregs 0 tr.frame) 1 tr.arg }
  (s.setCore c { k1 with taken := none }).counted c none

/-- An overflow task (13 R295), whole: the sharer joins the line's bitmap, or a full table makes the line broadcast. It is no
tenant's work. -/
def runOverflow (c line sharer : Nat) (s : State) : State :=
  let s := ((s.putBack c).noteFor 0x4 c 1 none).settleRace c
  let e := tget {} s.dir line
  if !e.ovf || e.bcast then s
  else
    -- a new row holds the four sharers that the directory names
    let held := match tget [] s.ovtab line with | [] => e.sharers | l => l
    let rows := (s.ovtab.filter fun x => homeOf (64 * x.1) == c).length
    if (tget [] s.ovtab line).isEmpty && 4096 ≤ rows then { s with dir := tput s.dir line { e with bcast := true } }
    else { s with ovtab := tput s.ovtab line (if held.contains sharer then held else sharer :: held) }

/-- A spill access of the dispatcher faults (R332): a fault task goes to the owner's system ring. -/
def State.spillFault (s : State) (c owner code va : Nat) : State :=
  let l := s.dequeLaunch owner
  ((s.markRaised (raisedUnit code (s.hasid c) va)).putBack c).postSys owner (.fault code (w64 va) 0 {} (s.pidx owner) l)
/-- The dispatcher's reach of a deque. -/
def dispWork (s : State) (c : Nat) : Work :=
  let k := s.core c
  { core := c, who := c, so := false, launch := none, asid := s.hasid c, sup := true, dlim := k.demandlim.toNat, demand := k.demand }
/-- What comes of a pop or a steal: a record to start, or nothing. Poison that the dispatcher meets in a spill array is answered
both ways, as a machine check by its event (18 R369) and as a fault of the access by a fault task (R332, 18 R363): no task has
consumed the data that could end (log 84, DESIGN CHOICE). -/
def fromDeque (c owner : Nat) (x : U DqRes) (s : State) : State × Option Entry :=
  match x.run s with
  | .ok (.got r src) s1 =>
    let e : Entry := { tr := r, src := src, origin := s.pidx owner, launch := s.dequeLaunch owner, restarts := 0,
                       passed := 0 }
    (s1.setCore c { s1.core c with taken := some (.entry e []), demand := none }, some e)
  | .ok _ s1 => (s1.putBack c, none)
  | .error (.wait d) _ => (s.waitFor c d, none)
  | .error (.fault code va) _ => (s.spillFault c owner code va, none)
  | .error (.poison pa va) _ => ((s.checkEvent (s.dequeLaunch owner) 0x12 c pa).spillFault c owner 0x12 va, none)

/-- The dispatcher goes on with what it has taken. -/
def State.begin (s : State) (c : Nat) (t : Taken) : State :=
  match t with
  | .sys (.fault code faddr fpc tr origin launch) => startFault c code faddr fpc tr origin launch s
  | .sys (.sys tr launch) =>
    startRecord c { tr := tr, src := 0, origin := s.pidx c, launch := launch, restarts := 0, passed := 0 } [] true s
  | .sys (.overflow line sharer) => runOverflow c line sharer s
  | .sys (.firmware tr) => startFirmware c tr s
  | .entry e payload => startRecord c e payload false s
  | .pop =>
    match fromDeque c c (dqPop (dispWork s c) c) s with
    | (s1, some e) => startRecord c e [] false s1
    | (s1, none) => s1
  | .steal v =>
    match fromDeque c v (dqSteal (dispWork s c) v c) s with
    | (s1, some e) =>
      let s1 := (s1.setCore c { s1.core c with stealPos := 0 }).note 0x5 c 1
      startRecord c e [] false s1
    | (s1, none) =>
      if (s1.core c).taken.isSome then s1
      else (s1.setCore c { s1.core c with stealPos := (s1.core c).stealPos + 1 }).note 0x6 c 1
/-- DISPATCH (R329), of core `sel`. -/
def execDispatch (s : State) : MOut :=
  let c := s.sel
  .next (if !s.free c then s
    else match (s.core c).taken with
    | some t => s.begin c t
    | none =>
      match (s.core c).take with
      | none => s
      | some k => match k.taken with
        | some t => (s.setCore c k).begin c t
        | none => s)

/-- The victims of a thief, in order (R333). Every row is taken from the thief's position + 1 upward, and the rows of another
cluster and the clusters of another die by XOR from 0 with the thief's own numbers: R333 says only that the cores there are taken
in the order of step 1 (log 82, DESIGN CHOICE). -/
def State.victims (s : State) (c : Nat) : List Nat :=
  let d := dieOf c
  let cl := cluOf c % 8
  let r := rowOf c % 4
  let p := c % 8
  ((List.range 8).flatMap fun a => (List.range 8).flatMap fun b => (List.range 4).flatMap fun x => (List.range 8).map fun i =>
    256 * Nat.xor d a + 32 * Nat.xor cl b + 8 * Nat.xor r x + (p + i + 1) % 8).filter fun v =>
      v != c && s.nodeOf v == s.nodeOf c
/-- STEAL_ATTEMPT (R333), of core `sel`: every sixteenth cycle, of an idle dispatcher. -/
def execStealAttempt (s : State) : MOut :=
  let c := s.sel
  let k := s.core c
  .next (if !s.free c || k.taken.isSome || k.quiescing || k.take.isSome || k.cycle < k.stealAt then s
    else
      let vs := s.victims c
      match vs[k.stealPos % vs.length]? with
      | none => s
      | some v => (s.setCore c { k with stealAt := k.cycle + 16, taken := some (.steal v) }).begin c (.steal v))

/-- The neighbour with the fewest ready records, ties going north, east, south, west (R334). -/
def State.lightest (s : State) (c : Nat) : Option Nat :=
  ((List.range 4).filterMap (s.neighbour c)).foldl (fun b n => match b with
    | none => some n
    | some m => if (s.core n).ready.length < (s.core m).ready.length then some n else some m) none
/-- Ship up to n of a core's ready records, newest first; `l` holds them newest first. -/
def shipFrom (s : State) (c rcpt : Nat) : List Entry → Nat → List Entry × List Entry
  | [], _ => ([], [])
  | l, 0 => (l, [])
  | e :: t, n + 1 =>
    if e.tr.move && s.inDomain e.tr (s.base c + e.origin) rcpt then
      let (keep, out) := shipFrom s c rcpt t n
      (keep, { e with passed := 0 } :: out)
    else
      let (keep, out) := shipFrom s c rcpt t (n + 1)
      (e :: keep, out)
/-- LOAD_LEVEL (R334), of core `sel`, once every 4,096 of its cycles. -/
def execLoadLevel (s : State) : MOut :=
  let c := s.sel
  let k := s.core c
  .next (if k.cycle < k.levelAt then s
    else
      let s := s.setCore c { k with levelAt := k.cycle + 4096 }
      match s.lightest c with
      | none => s
      | some rcpt =>
        let m := s.core rcpt
        if k.ready.length < m.ready.length + 8 then s
        else
          let n := Nat.min ((k.ready.length - m.ready.length) / 2) (256 - m.ready.length)
          let (keep, out) := shipFrom s c rcpt k.ready.reverse n
          let s := s.setCore c { s.core c with ready := keep.reverse }
          (out.foldl (fun s x => s.postArr rcpt (.ready x)) s).note 0x7 c out.length)

/-! ## Arrivals (R328, R337; 01 R14, R15) -/

/-- Position i of the network is the first of its sender and receiver: one pair's arrivals stay in order. -/
def State.firstOf (s : State) (i : Nat) : Option (Nat × Arrival) :=
  match s.net[i]? with
  | some (src, dst, a) => if (s.net.take i).any (fun x => x.1 == src && x.2.1 == dst) then none else some (dst, a)
  | none => none
/-- JOIN_DECREMENT_APPLY: the decrement at place `sel` of the network reaches its home core. -/
def execJoinDecrementApply (s : State) : MOut :=
  .next (match s.firstOf s.sel with
    | some (dst, .decr off l) => { s with net := ldel s.net s.sel }.arrive dst (.decr off l)
    | _ => s)
/-- MESSAGE_ARRIVAL: the message at place `sel` of the network reaches its core. -/
def execMessageArrival (s : State) : MOut :=
  .next (match s.firstOf s.sel with
    | some (dst, .msg m) => { s with net := ldel s.net s.sel }.arrive dst (.msg m)
    | _ => s)
/-- The first held arrival of a core enters its ring, or sets its slot's JOIN to 0 and goes on waiting (01 R15). -/
def State.applyHeld (s : State) (c : Nat) : State :=
  let k := s.core c
  match k.held with
  | [] => s
  | a :: t =>
    let s0 := s.setCore c { k with held := [] }
    match s0.applyArrival c a with
    | some s1 => s1.setCore c { s1.core c with held := t }
    | none =>
      let s1 := s0.holdArrival c a
      s1.setCore c { s1.core c with held := (s1.core c).held ++ t }
/-- The first held system-ring arrival enters the ring, which ends a halted core's rest (19 R386). -/
def State.applyHeldSys (s : State) (c : Nat) : State :=
  let k := s.core c
  match k.heldSys with
  | [] => s
  | e :: t =>
    if k.sysring.length < 64 then s.setCore c { k with sysring := k.sysring ++ [e], heldSys := t, halted := false }
    else s
/-- ARRIVAL_APPLY: of core `sel`, the sequence that `sel2` names: 0 the inbox, ready-ring and decrement sequence, 1 the
system ring's, else what posting agents hold for it. -/
def execArrivalApply (s : State) : MOut :=
  .next (if s.sel2 == 0 then s.applyHeld s.sel else if s.sel2 == 1 then s.applyHeldSys s.sel else s.pump s.sel)

/-! ## Late writes (04 R102) -/

/-- Land the i-th pending write of a core. -/
def Core.land (k : Core) (i : Nat) (v : W64) : Core :=
  match k.pend[i]? with
  | none => k
  | some p =>
    let k := { k with pend := ldel k.pend i }
    if p.fw then { k with fwregs := tput k.fwregs p.word v }
    else match k.rsLine? p.word with
    | some l => { k with rs := tput k.rs (p.word / 8) { l with dirty := true, words := lset l.words (p.word % 8) v } }
    | none => k
def landKind (kind : PendKind) (s : State) : State :=
  let k := s.core s.sel
  match k.pend[s.sel2]? with
  | some p =>
    -- writes to one word land in program order
    let first := !(k.pend.take s.sel2).any fun q => q.word == p.word && q.fw == p.fw
    if p.kind == kind && first then s.setCore s.sel (k.land s.sel2 p.val) else s
  | none => s
/-- PENDING_REGISTER_WRITE_LANDS: write `sel2` of core `sel`. -/
def execPendingRegisterWriteLands (s : State) : MOut := .next (landKind .data s)
/-- ALLOC_REPLY (10 R268). -/
def execAllocReply (s : State) : MOut := .next (landKind .alloc s)

/-! ## The watchdog (18 R364, R365) -/

/-- A stopped task whose data stream has drained ends, or goes back to its ready ring. A partition control's result that is
still to come lands before another task starts (R364, 19 R384; log 20). -/
def State.finishStop (s : State) (c : Nat) : State :=
  let k := s.core c
  match k.task, k.stopAt with
  | some t, some st =>
    if !k.dq.isEmpty then s
    else
      let s := (s.dropControls c).refuseCmds c
      if !st.counted && t.tr.restart && t.restarts < 3 && (t.kind == .normal || t.kind == .sys) then
        let e : Entry := { tr := t.tr, src := t.src, origin := t.origin, launch := t.launch, restarts := t.restarts + 1,
                           passed := 0 }
        (s.setCore c (s.core c).idle).arrive c (.ready e)
      else s.endTask c (some 0x0d)
  | _, _ => s
/-- Stop a core's task where its scalar stream stands: its unretired commands retire refused at once (11 R277). -/
def State.beginStop (s : State) (c : Nat) : State :=
  let k := s.core c
  if k.task.isNone || k.stopAt.isSome then s
  else match k.ending with
  -- a task that a fault has ended already waits for its commands alone
  | some (code, addr) => (s.refuseCmds c).endTask c (some code) addr
  | none =>
    ((s.setCore c { k.dropBar with stopAt := some { waited := 0, counted := false } }).refuseCmds c).finishStop c
/-- WATCHDOG_STOP, of core `sel`: the count has reached the limit, or a stop under way finishes. -/
def execWatchdogStop (s : State) : MOut :=
  let c := s.sel
  let k := s.core c
  .next (if k.stopAt.isSome then s.finishStop c
    else if k.task.isSome && k.tasklimL ≤ k.wd then (s.note 0xf c 1).beginStop c
    else s)

/-- Whether the oldest waiting data instruction cannot pop or push its port. -/
def State.portBlocked (s : State) (c : Nat) : Bool :=
  match (s.core c).dq with
  | [] => false
  | h :: _ =>
    let (src, dst) := portFields h.instr
    let k := s.core c
    (h.vals.isEmpty && (List.range 4).any fun d => (k.port d).length < (src.filter fun r => portDir r == some d).length) ||
    (match dst.bind portDir with
      | some d => match s.neighbour c d with
        | some n => Config.portDepth ≤ (s.core n).portHeld ((d + 2) % 4)
        | none => false
      | none => false)
/-- WATCHDOG_DRAIN_ABANDONED, of core `sel`: 4,096 cycles after the stop. -/
def execWatchdogDrainAbandoned (s : State) : MOut :=
  let c := s.sel
  let k := s.core c
  .next (match k.stopAt with
    | some st =>
      if 4096 ≤ st.waited && s.portBlocked c then (s.setCore c k.dropBar.dropDq).finishStop c else s
    | none => s)

/-! ## Partition controls (19 R384, 04 R91) -/

/-- A tick that no step has taken yet has fallen (18 R370). -/
def State.tickDue (s : State) : Bool := s.lastTick / s.swtick.toNat < s.time / s.swtick.toNat

/-- A mailbox command finishes (03 R72). -/
def State.mbDone (s : State) (result : Nat) : State :=
  { s with mbcmd := s.mbcmd &&& 0x7fffffff#32, mbstat := BitVec.ofNat 32 result, mbRefuse := false, mbBusy := false }
/-- An active node is idle (R91): no launch is placing or running there, one that ends after it was placed among them. -/
def State.nodeIdle (s : State) (n : Nat) : Bool :=
  (s.node? n).isSome &&
  !(s.launches.any fun l => l.part == n && (l.st == .placing || l.st == .running || (l.st == .ending && l.rootK.isSome))) &&
  !(s.saved.any fun v => v.node == n)
/-- A split or merge empties the ports of the node (07 R180). -/
def State.clearPorts (s : State) (n : Nat) : State :=
  (nodeCoreList n).foldl (fun s c => s.setCore c { s.core c with portN := [], portE := [], portS := [], portW := [] }) s
def newNode (n : Nat) (tset : List Nat) (used : Bool) : Node :=
  { n := n, tset := tset, resident := none, requests := [], partReq := none, phase := .steady, quiet := [], late := [],
    judged := false, graced := false, used := used }
/-- Requests for a node that goes are refused (03 R74). -/
def State.dropRequests (s : State) (merge : Bool) (n : Nat) : State :=
  let gone (x : Node) : Bool := if merge then x.n == 2 * n || x.n == 2 * n + 1 else x.n == n
  if s.nodes.any fun x => gone x && !x.requests.isEmpty then s.mbDone 2 else s
/-- Make a split (false) or a merge (true) of node n. -/
def State.changeTree (s : State) (merge : Bool) (n : Nat) : State :=
  let s := (s.clearPorts n).dropRequests merge n
  if merge then
    let a := s.node? (2 * n)
    let b := s.node? (2 * n + 1)
    let set (x : Option Node) : List Nat := match x with | some y => y.tset | none => []
    let used (x : Option Node) : Bool := match x with | some y => y.used | none => false
    { s with nodes := newNode n (set a ++ set b).eraseDups (used a || used b) ::
                        s.nodes.filter fun x => x.n != 2 * n && x.n != 2 * n + 1 }
  else
    match s.node? n with
    | none => s
    | some x =>
      { s with nodes := newNode (2 * n) x.tset x.used :: newNode (2 * n + 1) x.tset x.used ::
                          s.nodes.filter fun y => y.n != n }
/-- Nodes whose resident tenant a control must first take off. -/
def State.partNodes (s : State) (p : PartCtl) : List Node :=
  s.nodes.filter fun x => if p.merge then x.n == 2 * p.node || x.n == 2 * p.node + 1 else x.n == p.node
/-- The front end decides the oldest control, once (R384); a control that waits for a switch holds the later ones. -/
def State.decidePart (s : State) (p : PartCtl) : PartCtl × State :=
  let ask (s : State) : State :=
    (s.partNodes p).foldl (fun s x => s.setNode x.n fun y => { y with partReq := some (!p.merge, p.node) }) s
  let gone (s : State) : Bool := (s.partNodes p).all fun x => x.resident.isNone && x.phase == .steady
  if p.decided.isSome then (p, s)
  else if p.waits then
    if gone s then ({ p with decided := some 0, waits := false }, s.changeTree p.merge p.node) else (p, s)
  else if 256 ≤ p.node then ({ p with decided := some 2 }, s)
  else
    let ok := if p.merge then s.nodeIdle (2 * p.node) && s.nodeIdle (2 * p.node + 1) else s.nodeIdle p.node
    if !ok then ({ p with decided := some 1 }, s)
    else if gone s then ({ p with decided := some 0 }, s.changeTree p.merge p.node)
    else ({ p with waits := true }, ask s)
/-- The result reaches its core, or the mailbox; `none` while a queue or port it goes to is full, or an earlier write to the word
has still to land (04 R102). -/
def State.partReply (s : State) (p : PartCtl) (v : Nat) : Option State :=
  match p.core with
  | none => some (s.mbDone (if v == 1 then 10 else v))
  | some c =>
    let k := s.core c
    if p.reg.toNat < 0xf80 then
      match lfind (fun q => q.word == p.word && q.fw == p.fw) k.pend with
      | some i => if (k.pend[i]?).any (·.kind == .partctl) then some (s.setCore c (k.land i (w64 v))) else none
      | none => some s
    else match (writeW p.reg (w64 v)).run (s.asCore c) with
    | .ok _ s1 => some s1
    | .error _ _ => none
/-- PARTCTL_REPLY. -/
def execPartctlReply (s : State) : MOut :=
  .next (match s.parts with
    | [] => s
    | p :: t =>
      -- a control counts from the first tick after it: one that has fallen is taken first
      if s.tickDue then s else
      let (p, s1) := s.decidePart p
      match p.decided with
      | none => { s1 with parts := p :: t }
      | some v => match { s1 with parts := t }.partReply p v with
        | some s2 => s2
        | none => { s1 with parts := p :: t })

/-! ## Fetch ahead (05 R116, R125) -/

/-- LINE_FETCH: core c fetches a line ahead of execution, or, with `sel` 1 or 2, the sequencer of its row or the copy engine
of its cluster does; with `sel2` above 0 the fill reads only granule `sel2` - 1 of its source yet. A line that cannot be
fetched faults only when it is reached. -/
def execLineFetch (c : Nat) (line : W64) (s : State) : MOut :=
  let who : Agent := if s.sel == 0 then .core c else if s.sel == 1 then .seq (rowOf c) else .eng (cluOf c)
  let runs := match who with
    | .seq r => (s.seqU r).inst.isSome
    | .eng g => (s.engU g).inst.isSome
    | _ => (s.core c).task.isSome
  let go : M Unit := if s.sel2 == 0 then do let _ ← fetchLine (lineAddr line) else fetchPart (lineAddr line) (s.sel2 - 1)
  .next (if !runs then s
    else match go.run { s with cur := who } with
    | .ok _ s1 => s1
    | .error _ _ => s)

/-! ## Demand fetches (18 R366) -/

/-- The outstanding demand fetch of a waiter. -/
def State.demandOf (s : State) : Waiter → Option Demand
  | .core c => (s.core c).demand
  | .data c => (s.core c).demandD
  | .chan r => (s.chan r).copies.head?.bind (·.demand)
  | .cmd r => (s.cmd? r).bind (·.demand)
  | .seq r => (s.seqU r).demand
  | .eng g => (s.engU g).demand
  | .launch a => (s.launch? a).bind (·.demand)
def State.setDemand (s : State) (w : Waiter) (d : Option Demand) : State :=
  match w with
  | .core c => s.setCore c { s.core c with demand := d }
  | .data c => s.setCore c { s.core c with demandD := d }
  | .chan r => match (s.chan r).head with
    | some c => s.setChan r ((s.chan r).setHead { c with demand := d })
    | none => s
  | .cmd r => match s.cmd? r with | some x => s.setCmd r { x with demand := d } | none => s
  | .seq r => s.setSeq r { s.seqU r with demand := d }
  | .eng g => s.setEng g { s.engU g with demand := d }
  | .launch a => s.modLaunch a fun l => { l with demand := d }

/-- A leaf entry that points at a frame and is valid. -/
def pointTo (e frame : Nat) : Nat := e / 2 ^ 52 * 2 ^ 52 + frame + e % 4096 / 2 * 2 + 1
/-- The free ranges without a frame of n bytes, which must be aligned; `none` where no range holds it. -/
def takeFrame (fs : List (Nat × Nat)) (f n : Nat) : Option (List (Nat × Nat)) :=
  if f % n != 0 then none
  else match lfind (fun x : Nat × Nat => x.1 ≤ f && f + n ≤ x.1 + x.2) fs with
  | none => none
  | some i => match fs[i]? with
    | none => none
    | some x => some (ldel fs i ++ [(x.1, f - x.1), (f + n, x.1 + x.2 - (f + n))].filter fun y => 0 < y.2)
/-- The first aligned frame of n bytes in the free ranges. -/
def freeFrame (fs : List (Nat × Nat)) (n : Nat) : Option Nat :=
  fs.findSome? fun x =>
    let f := (x.1 + n - 1) / n * n
    if f + n ≤ x.1 + x.2 then some f else none
/-- Bring a page Sluice holds up into a frame; `none` where the frame is not free, or no entry maps the page. -/
def State.bringUp (s : State) (p : FarPage) (frame : Nat) : Option State :=
  match s.leafOf p.asid p.va p.size, takeFrame s.frames frame p.size with
  | some ea, some rest =>
    let m := (s.mem.clear frame p.size).overlay (p.bytes.map fun b => (frame + b.1, b.2))
    let s := { s with mem := m, pages := s.pages.filter (fun x => x != p), frames := rest }
    some (((s.dropStale frame p.size).clobber hostAgent 0 0 frame p.size).feStore ea 8 (pointTo (s.mem.le ea 8) frame))
  | _, _ => none
/-- DEMAND_FETCH_SERVED: Sluice brings the demanded page up into one of its frames. -/
def execDemandFetchServed (w : Waiter) (frame : Nat) (s : State) : MOut :=
  .next (match s.demandOf w with
    | none => s
    | some d =>
      match s.pages.find? fun p => p.asid == d.asid && p.va ≤ d.va && d.va < p.va + p.size with
      | none => s
      | some p =>
        match s.bringUp p frame with
        | some s1 => s1.setDemand w none
        | none => s)
/-- DEMAND_TIMEOUT: the fetch is not served within its limit; the access then raises residency. A launch that waits in
ACCEPTED has no limit of its own (log 24). -/
def execDemandTimeout (w : Waiter) (s : State) : MOut :=
  .next (match s.demandOf w with
    | none => s
    | some d =>
      let ended := match w with | .launch _ => true | _ => decide (d.limit ≤ d.waited)
      if ended then s.setDemand w (some { d with expired := true }) else s)

/-! ## Machine checks and team faults (18 R368, R369) -/

/-- MACHINE_CHECK: a line is poisoned by an error that the ECC cannot correct; the task of core c, if one runs there,
consumed its data. -/
def execMachineCheck (c pa : Nat) (s : State) : MOut :=
  let s := if s.poisoned pa then s else { s with poison := lineOf pa :: s.poison }
  .next (if c < Config.nCores && (s.core c).task.isSome then s.machineEnd c 0x12 pa else s)
/-- TEAM_FAULT of instance i. -/
def execTeamFault (i code : Nat) (s : State) : MOut := .next (s.teamFaultNow i code)

end Sys2Proof.Machine
end

