-- ==== Sys2Proof/Machine/Launch.lean ====
section
/-!
DEFINITION. Queues and launches: doorbells, signals, the queue helpers, the checks of acceptance, predecessors, the
residency gate, placement, team binding, the end of a launch and its completion event (spec 03; 01 R18 to R33; 04 R92
to R95; 13 R319, R320; 21 R393, R394).
-/
namespace Sys2Proof.Machine

/-! ## Memory as the front end reads it -/

/-- Bytes at a physical address, an expanded alias included; an address that is no memory reads as zeros. -/
def State.physBytes (s : State) (pa n : Nat) : List Byte :=
  match physKind pa with
  | .device => s.mem.bytes pa n
  | .host => s.mem.bytes pa n
  | .alias_ => match s.aliasWin pa with | some w => s.aliasBytes w pa n | none => List.replicate n 0
  | _ => List.replicate n 0

/-- A poisoned line, or one of host memory that the link answers with an error, among n bytes (18 R369, 09 R409). -/
def State.anyPoison (s : State) (pa n : Nat) : Bool := s.poison.any fun l => pa < 64 * l + 64 && 64 * l < pa + n

/-- How an acceptance ends before its last check. -/
inductive AccStop
  | reject (reason : Nat)
  | wait (d : Demand)
  deriving DecidableEq, Repr
abbrev A := EStateM AccStop State
def checkA (c : Bool) (reason : Nat) : A Unit := if c then pure () else throw (.reject reason)

/-- Read n bytes at a virtual address of a launch, page by page (R410): a page that cannot be read fails the check, and
one that Sluice holds below is fetched on demand. Poison fails it too, with a machine-check event that names no core (18
R369, log 72). -/
def feRead (l : Launch) (reason : Nat) : Nat → Nat → Nat → A (List Byte)
  | 0, _, _ => return []
  | f + 1, va, n =>
    if n == 0 then return []
    else do
      let s ← get
      let m := Nat.min n (4096 - va % 4096)
      match s.feXlate l.asid va .load with
      | .ok (pa, _, s1) => do
        set s1
        let k := physKind pa
        let bad := match k with
          | .alias_ => (s1.aliasWin pa).isNone
          | .device => false
          | .host => false
          | _ => true
        if bad then throw (.reject reason)
        let poison := match k, s1.aliasWin pa with
          | .alias_, some w => s1.aliasBadN w pa m
          | _, _ => if s1.anyPoison pa m then some pa else none
        match poison with
        | some q => do
          set (s1.launchEvent (some l.no) 6 0x12 (w64 0xffffffff) (w64 q))
          throw (.reject reason)
        | none => pure ()
        let bs := s1.physBytes pa m
        return bs ++ (← feRead l reason f ((va + m) % 2 ^ 64) (n - m))
      | .error .protection => throw (.reject reason)
      | .error (.machine pa) => do
        set (s.launchEvent (some l.no) 6 0x12 (w64 0xffffffff) (w64 pa))
        throw (.reject reason)
      | .error .busy => throw (.reject reason)   -- no translation of the front end records a page
      | .error .notPresent =>
        match s.missKind l.asid va l.demand with
        | .fault _ => throw (.reject reason)
        | .demand => throw (.wait (demandFor l.demand l.asid va 0))
def feReadAll (l : Launch) (reason va n : Nat) : A (List Byte) := feRead l reason (n / 4096 + 2) va n

/-! ## Doorbells and signals (R65, R79) -/

def qHalted (q : Queue) : Bool := q.status / 2 % 2 == 1
/-- Act on a recorded tail: more records than the ring holds halt the queue, and no record is read (R65). -/
def State.actBell (s : State) (q v : Nat) : State :=
  match s.queue? q with
  | none => s
  | some qu =>
    let s := s.modQueue q fun x => { x with bell := none, tail := v }
    if 2 ^ qu.logsz < (v + 2 ^ 32 - qu.head) % 2 ^ 32 then
      (s.qError q (8 + 2) 0 0 true).postEvent q 4 0 0 (w64 v) (w64 qu.head)
    else s
/-- A write to a queue's doorbell (R65): the helper acts on it unless the queue is halted, or its snapshot evicted. -/
def State.ring (s : State) (q v : Nat) : State :=
  match s.queue? q with
  | none => s
  | some qu =>
    let s1 := s.modQueue q fun x => { x with bell := some v }
    if qu.draining || qHalted qu || !qu.held then s1 else s1.actBell q v
/-- DOORBELL. -/
def execDoorbell (q : Nat) (v : BitVec 32) (s : State) : MOut := .next (s.ring q v.toNat)

/-- Predecessor entries (R29). -/
def predLid (e : Nat) : Nat := e % 2 ^ 32
def predDom (e : Nat) : Nat := e / 2 ^ 32 % 256
def predDev (e : Nat) : Nat := e / 2 ^ 40

inductive Resolved
  | satisfied | wait | failed
  deriving DecidableEq, Repr
/-- The last n elements. -/
def lastN {α : Type} (n : Nat) (l : List α) : List α := l.drop (l.length - n)
/-- `Resolve` (R78). -/
def State.resolve (s : State) (tenant e : Nat) : Resolved :=
  let signal (dev : Nat) : Resolved :=
    match (tget [] s.signals tenant).reverse.find? fun g => g.dev == dev && g.lid == predLid e with
    | none => .wait
    | some g => if g.status == 1 then .failed else .satisfied
  if predDom e == 1 then
    match (lastN 1024 (s.launches.filter fun l => l.tenant == tenant)).reverse.find? fun l => l.lid == predLid e with
    | none => .satisfied
    | some l => if l.st != .done then .wait else if l.reason != 0 || l.pfail then .failed else .satisfied
  else if predDom e == 2 then signal (2 ^ 22)
  else if predDom e == 3 then signal (predDev e)
  else .satisfied

/-! ## The residency gate (R83) -/

/-- A 2 MiB unit of the address space has a page, and every page that it has lies in near memory: from a table of some
level down (log 28). -/
def unitMapped (m : Memory) (va : Nat) : Nat → Nat → Bool
  | 0, table =>
    let es := ((List.range 512).map fun i => m.le (table + 8 * i) 8).filter (pteBit · 0)
    !es.isEmpty && es.all fun e => decide (ptePpn e < Config.devEnd)
  | lv + 1, table =>
    let e := m.le (table + 8 * ((va >>> (12 + 9 * (lv + 1))) % 512)) 8
    if !pteBit e 0 then false
    else if pteBit e 7 then decide (ptePpn e < Config.devEnd)
    else unitMapped m va lv (ptePpn e)
/-- A page unit is resident (R83): its page lies in near memory, and Sluice holds none of it below. -/
def State.unitNear (s : State) (asid vp : Nat) : Bool :=
  let root := tget 0 s.roots asid
  bitOf root 0 && unitMapped s.mem (vp * 0x200000) 4 (4096 * bitsOf root 12 40) &&
  !s.pages.any fun p => p.asid == asid && vpage p.va ≤ vp && vp ≤ vpage (p.va + p.size - 1)
/-- The page units of a launch. -/
def Launch.units (l : Launch) : List Nat :=
  l.extents.flatMap fun e => ((List.range 64).filter fun j => e.2.testBit j).map fun j => vpage e.1 + j
/-- Units of the region table. -/
def regionUnits (r : Region) : Nat := (r.size + 0x1fffff) / 0x200000
/-- The gate, with the launch's tenant resident or not. -/
def State.gateWith (s : State) (l : Launch) (home : Bool) : Bool :=
  let pages := l.units
  let regs := l.regions.foldl (fun n r => n + regionUnits r) 0
  let up := (pages.filter fun p => s.unitNear l.asid p || s.unreach.contains (l.asid, p)).length
  !s.ovsub || l.rth * (pages.length + regs) ≤ 256 * (up + (if home then regs else 0))
def State.gateOpen (s : State) (l : Launch) : Bool := s.gateWith l ((s.node? l.part).bind (·.resident) == some l.tenant)
/-- The front end asks Sluice for a launch's page units, in extent order. A region's come up with its tenant (log 28). -/
def State.ask (s : State) (a : Nat) : State :=
  match s.launch? a with
  | none => s
  | some l =>
    let want := (l.units.map fun u => (l.asid, u)).filter fun u => !s.unitNear u.1 u.2 && !s.unreach.contains u
    { s with asked := s.asked ++ want.filter fun u => !s.asked.contains u }
/-- The unit that Sluice reports on next. -/
def State.nextAsked (s : State) : Option (Nat × Nat) :=
  s.asked.find? fun u => !s.unitNear u.1 u.2 && !s.unreach.contains u
/-- The extents of a launch's working set: bases and bits. -/
def extentsOf (bs : List Byte) (n : Nat) : List (Nat × Nat) :=
  (List.range n).map fun i => (fieldAt bs (16 * i) 8, fieldAt bs (16 * i + 8) 8)
/-- The extents a gated launch asks Sluice for: as they stand when it is gated. -/
def State.rereadExtents (s : State) (a : Nat) : State :=
  match s.launch? a with
  | none => s
  | some l =>
    if l.wset == 0 || (l.st != .gated && l.st != .placing) then s
    else match (do
        let h ← feReadAll l 5 l.wset 64
        return extentsOf (← feReadAll l 5 (fieldAt h 16 8) (16 * l.extents.length)) l.extents.length : A _).run s with
      | .ok xs s1 => s1.modLaunch a fun x => { x with extents := xs }
      | .error _ _ => s
/-- A launch has ended: fabric time at that moment is its TIME (01 R33). -/
def State.endLaunch (s : State) (a : Nat) (f : Launch → Launch) : State :=
  s.modLaunch a fun x => { f x with st := .ending, time := s.time }
/-- A launch's predecessors are resolved, and its gate looked at (R76). -/
def State.advanceLaunch (s : State) (a : Nat) : State :=
  match s.launch? a with
  | none => s
  | some l =>
    let rs := l.preds.map (s.resolve l.tenant)
    let s := if l.st != .waiting || (rs.contains .wait && !rs.contains .failed) then s
      else if rs.contains .failed then s.endLaunch a fun x => { x with pfail := true }
      else ((s.modLaunch a fun x => { x with st := .gated }).rereadExtents a).ask a
    match s.launch? a with
    | none => s
    | some l =>
      if l.st == .gated && s.gateOpen l then s.modLaunch a fun x => { x with st := .placing } else s
/-- Every launch's predecessors and gate are looked at again. -/
def State.advanceAll (s : State) : State := s.launches.foldl (fun s l => s.advanceLaunch l.no) s

/-- File a signal in a tenant's table: the 256 most recent. -/
def State.fileSignal (s : State) (tenant dev lid status : Nat) : State :=
  let g : Signal := { dev := dev, lid := lid, status := status }
  { s with signals := tput s.signals tenant (lastN 256 (tget [] s.signals tenant ++ [g])) }.advanceAll
/-- A write to a queue's external signal (R79). -/
def State.signal (s : State) (q : Nat) (v : W64) : State :=
  match s.queue? q with
  | none => s
  | some qu => if v.toNat / 2 ^ 32 < 2 then s.fileSignal qu.tenant (2 ^ 22) (bitsOf v 0 32) (bitsOf v 32 8) else s
/-- EXTERNAL_SIGNAL. -/
def execExternalSignal (q : Nat) (v : W64) (s : State) : MOut := .next (s.signal q v)
/-- PEER_SIGNAL: while COLRUM is accepted (R62). -/
def execPeerSignal (tenant dev lid status : Nat) (s : State) : MOut :=
  .next (if s.feat 3 && status < 2 && dev < 2 ^ 22 && tenant < 256 then s.fileSignal tenant dev (lid % 2 ^ 32) status
    else s)

/-! ## The queue helpers (R66, R67, R70) -/

/-- INTEG (R69): over the QCB's address and its first sixteen bytes, under the key of this boot. -/
def State.integOf (s : State) (qcb : Nat) (bs : List Byte) : Nat :=
  leNat ((Config.hmac384 (Config.queueKey s.mgmt.bootCount) (leBytes qcb 8 ++ bs.take 16)).take 4)
/-- A refetch of an evicted snapshot (R70): the queue halts on a mismatch, and where the bytes are poisoned (log 72). -/
def State.refetch (s : State) (q : Nat) : State × Bool :=
  match s.queue? q with
  | none => (s, false)
  | some qu =>
    let bs := s.mem.bytes qu.qcb 20
    if !s.anyPoison qu.qcb 20 && s.integOf qu.qcb bs == fieldAt bs 16 4 then
      (s.modQueue q fun x => { x with held := true, base := fieldAt bs 0 8, logsz := fieldAt bs 8 1,
                                      prio := fieldAt bs 9 1, tenant := fieldAt bs 10 1, asid := fieldAt bs 12 2 }, true)
    else ((s.qError q (4 + 2) 0 0x0f true).postEvent q 3 0x0f 0 (w64 qu.qcb) 0, false)
/-- The queue is served: past 256 snapshots the least recently served is evicted. -/
def State.touch (s : State) (q : Nat) : State :=
  let s := { s with servedNo := s.servedNo + 1 }
  let s : State := s.modQueue q fun x => { x with served := s.servedNo }
  let held : List Queue := s.queues.filter (·.held)
  if held.length ≤ 256 then s
  else
    let least := held.foldl (fun m x => Nat.min m x.served) s.servedNo
    { s with queues := lmapIf (fun x => x.held && x.served == least) (fun x => { x with held := false }) s.queues }

def Launch.live (l : Launch) : Bool := l.st == .placing || l.st == .running || (l.st == .ending && l.rootK.isSome)
def State.notDone (s : State) (q : Nat) : Nat := (s.launches.filter fun l => l.q == q && l.st != .done).length
/-- Records are pending (R65): the recorded tail names some, and no more than the ring holds. -/
def Queue.pending (qu : Queue) : Bool := qu.tail != qu.head && (qu.tail + 2 ^ 32 - qu.head) % 2 ^ 32 ≤ 2 ^ qu.logsz
/-- Whether a helper has something to do at a queue. -/
def State.serves (s : State) (h : Nat) (qu : Queue) : Bool :=
  qu.q % 6 == h && !qu.draining && !qHalted qu && s.notDone qu.q < 16 && (qu.bell.isSome || qu.pending)
/-- The next queue of helper h: the highest class first, round robin within it. -/
def State.nextQueue (s : State) (h : Nat) : Option Queue :=
  let qs := s.queues.filter (s.serves h)
  let top := qs.foldl (fun m x => Nat.max m x.prio) 0
  let cls := qs.filter fun x => x.prio == top
  let last := tget 4096 s.helperAt (4 * h + top)
  let after := cls.filter fun x => last < x.q && last < 4096
  let pick := if after.isEmpty then cls else after
  let least := pick.foldl (fun m x => Nat.min m x.q) 4095
  pick.find? fun x => x.q == least

/-- The launch a record makes (R29). -/
def launchOf (no : Nat) (qu : Queue) (bs : List Byte) (slotPa : Nat) : Launch :=
  { no := no, q := qu.q, tenant := qu.tenant, lid := fieldAt bs 0 4, part := fieldAt bs 4 2, asid := fieldAt bs 6 2,
    lfl := fieldAt bs 8 2, nent := fieldAt bs 10 1, rth := fieldAt bs 11 1, team := fieldAt bs 16 8,
    wset := fieldAt bs 24 8, cev := fieldAt bs 32 8, enta := fieldAt bs 40 8,
    preds := (List.range 4).map fun i => fieldAt bs (48 + 8 * i) 8, ent := recOfBytes (bs.drop 96), raw := bs,
    slotPa := slotPa, st := .accepted, entries := [], desc := [], regions := [], extents := [], record := false,
    rootK := none, released := false, ninst := 0, ndisp := 0, nfault := 0, faults := false, fcode := 0, strag := false,
    time := 0, reason := 0, pfail := false, flushed := false, published := false, demand := none }
/-- QUEUE_HELPER_VISIT, of helper `sel`. -/
def execQueueHelperVisit (s : State) : MOut :=
  .next (if 6 ≤ s.sel || 4096 ≤ (s.launches.filter fun l => l.st != .done).length then s
    else match s.nextQueue s.sel with
    | none => s
    | some qu =>
      let s := { s with helperAt := tput s.helperAt (4 * s.sel + qu.prio) qu.q }
      let (s, ok) := if qu.held then (s, true) else s.refetch qu.q
      if !ok then s
      else
        let s := s.touch qu.q
        let s := match qu.bell with | some v => s.actBell qu.q v | none => s
        match s.queue? qu.q with
        | none => s
        | some q1 =>
          if qHalted q1 || !q1.pending then s
          else
            let pa := q1.base + 128 * (q1.head % 2 ^ q1.logsz)
            -- a poisoned record reads as zeros, which R29 rejects (log 72)
            let bad := s.anyPoison pa 128
            let l := launchOf (s.acceptNo + 1) q1 (if bad then List.replicate 128 0 else s.physBytes pa 128) pa
            let n := (q1.head + 1) % 2 ^ 32
            let s := if bad then s.postEvent q1.q 6 0x12 0 (w64 0xffffffff) (w64 pa) else s
            let s := { s with launches := s.launches ++ [l], acceptNo := s.acceptNo + 1 }
            (s.modQueue q1.q fun x => { x with head := n }).feStore (q1.qcb + 20) 4 n)

/-! ## Acceptance (R410; 01 R19, R25 to R27, R29; 03 R71, R77, R81) -/

/-- Role entries of a team descriptor: KIND, WHERE, WWORDS, MEMBERS. -/
def roleEntry (d : List Byte) (e : Nat) : Nat × Nat × Nat × Nat :=
  let o := 16 + 8 * e
  (fieldAt d o 1, fieldAt d (o + 1) 1, fieldAt d (o + 2) 2, fieldAt d (o + 4) 4)
def teamRoles (d : List Byte) : Nat := fieldAt d 9 1
def teamEntries (d : List Byte) : List (Nat × Nat × Nat × Nat) := (List.range (teamRoles d)).map (roleEntry d)
def bitCount (x n : Nat) : Nat := ((List.range n).filter fun i => x.testBit i).length
/-- One role entry keeps to R26 and R27. -/
def roleOk (clu : Bool) (e : Nat × Nat × Nat × Nat) : Bool :=
  let (kind, where_, ww, mem) := e
  match kind with
  | 0 => where_ == 0 && ww == 0 && mem == 0
  | 1 => 1 ≤ where_ && where_ ≤ 8 && 2 ≤ ww && ww ≤ 3968 && bitCount mem 32 == where_ && (clu || mem < 256)
  | 2 => ww == 0 && mem == 0 && (if clu then where_ ≤ 3 else where_ == 0)
  | 3 => ww == 0 && mem == 0 && where_ == 0
  | _ => false
/-- Two entries bind the same core or engine. -/
def rolesMeet (a b : Nat × Nat × Nat × Nat) : Bool :=
  a.1 == b.1 && (if a.1 == 1 then Nat.land a.2.2.2 b.2.2.2 != 0 else (a.1 == 2 || a.1 == 3) && a.2.1 == b.2.1)
def anyMeet : List (Nat × Nat × Nat × Nat) → Bool
  | [] => false
  | a :: t => t.any (rolesMeet a) || anyMeet t
/-- The team checks: reason 2. -/
def teamOk (va : Nat) (d : List Byte) : Bool :=
  let es := teamEntries d
  va % 8 == 0 && fieldAt d 8 1 ≤ 1 && 1 ≤ teamRoles d && teamRoles d ≤ 15 && fieldAt d 10 1 ≤ 15 && fieldAt d 11 1 == 0 &&
  fieldAt d 14 2 == 0 && (d.drop (16 + 8 * teamRoles d)).all (· == 0) && es.all (roleOk (fieldAt d 8 1 == 1)) &&
  !anyMeet es && es.any fun e => e.1 == 1
/-- Instances a descriptor asks for on a node: none where the node is too small. -/
def teamCount (node : Nat) (d : List Byte) : Option Nat :=
  let units := if fieldAt d 8 1 == 1 then nodeRows node / 4 else nodeRows node
  let n := if fieldAt d 12 2 == 0 then units else fieldAt d 12 2
  if units == 0 || units < n then none else some n

def regionOf (bs : List Byte) (i : Nat) : Region :=
  { name := fieldAt bs (16 * i) 4, space := fieldAt bs (16 * i + 4) 1, keep := fieldAt bs (16 * i + 5) 1 % 2 == 1,
    off := fieldAt bs (16 * i + 8) 4, size := fieldAt bs (16 * i + 12) 4 }
/-- Bytes of a space that regions lie in (01 R18, 04 R93). -/
def regionSpace (node sp : Nat) : Nat :=
  if sp == 0 then Config.spadSize
  else if sp == 1 then 0x40000 * Nat.min (nodeCores node) 32
  else Config.dieShare * Nat.min (nodeRows node) 32
def regionOk (node : Nat) (bs : List Byte) (i : Nat) : Bool :=
  let r := regionOf bs i
  r.space ≤ 2 && fieldAt bs (16 * i + 5) 1 ≤ 1 && fieldAt bs (16 * i + 6) 2 == 0 && r.off % 64 == 0 && r.size % 64 == 0 &&
  0 < r.size && r.off + r.size ≤ regionSpace node r.space
def regionsMeet (a b : Region) : Bool := a.name == b.name || (a.space == b.space && rangesMeet a.off a.size b.off b.size)
def anyRegionsMeet : List Region → Bool
  | [] => false
  | a :: t => t.any (regionsMeet a) || anyRegionsMeet t

def anyDup : List Nat → Bool
  | [] => false
  | a :: t => t.contains a || anyDup t
/-- The working-set record, its region table and its extents (R81, 01 R19). -/
def acceptWset (l : Launch) : A Launch := do
  if l.wset == 0 then return l
  let h ← feReadAll l 5 l.wset 64
  let nreg := fieldAt h 0 1
  let nx := fieldAt h 4 4
  checkA (l.wset % 64 == 0 && nreg ≤ 64 && fieldAt h 1 1 ≤ 1 && fieldAt h 2 2 == 0 && nx ≤ 4096 &&
    fieldAt h 16 8 % 16 == 0 && (h.drop 28).all (· == 0)) 5
  let rt ← feReadAll l 5 (fieldAt h 8 8) (16 * nreg)
  checkA ((List.range nreg).all (regionOk l.part rt)) 5
  let regs := (List.range nreg).map (regionOf rt)
  checkA (!anyRegionsMeet regs) 5
  let xs := extentsOf (← feReadAll l 5 (fieldAt h 16 8) (16 * nx)) nx
  checkA (xs.all (fun e => e.1 % 0x8000000 == 0) && !anyDup (xs.map (·.1))) 5
  return { l with regions := regs, extents := xs, record := fieldAt h 1 1 == 1 }

/-- A predecessor entry is valid (R77; without COLRUM a domain-3 entry is not, R62). -/
def predOk (s : State) (lid e : Nat) : Bool :=
  match predDom e with
  | 0 => e == 0
  | 1 => predLid e != 0 && predLid e != lid && predDev e == 0
  | 2 => predLid e != 0 && predLid e != lid && predDev e == 0
  | 3 => predLid e != 0 && predLid e != lid && predDev e < 2 ^ 22 && s.feat 3
  | _ => false
/-- The checks of R410, in their order. An ENTA that is not a multiple of 32 is read where it lies (log 68). -/
def acceptBody (l : Launch) : A Launch := do
  let s ← get
  checkA (l.lid != 0 && l.asid < 1024 && l.lfl < 2 && l.cev % 32 == 0 && fieldAt l.raw 12 4 == 0 &&
    ((l.raw.drop 80).take 16).all (· == 0)) 1
  let qasid := match s.queue? l.q with | some q => q.asid | none => 1024
  let mine := match s.node? l.part with | some n => n.tset.contains l.tenant | none => false
  checkA (l.asid == qasid && mine) 1
  checkA (!s.launches.any fun y => y.no < l.no && y.tenant == l.tenant && y.lid == l.lid && y.st != .done) 1
  let es ← (if l.nent == 0 then pure []
    else if l.nent == 1 then pure [(l.ent, w64 (l.slotPa + 96))]
    else do
      let bs ← feReadAll l 1 l.enta (32 * l.nent)
      pure ((List.range l.nent).map fun i => (recOfBytes (bs.drop (32 * i)), w64 (l.enta + 32 * i))))
  let l := { l with entries := es }
  let l ← (if l.team == 0 then pure l
    else do
      checkA (s.feat 4) 2
      let d ← feReadAll l 2 l.team 136
      checkA (teamOk l.team d) 2
      match teamCount l.part d with
      | none => throw (.reject 3)
      | some n => pure { l with desc := d, ninst := n })
  let l ← acceptWset l
  checkA (l.preds.all (predOk s l.lid)) 4
  return { l with st := .waiting, demand := none }
/-- LAUNCH_ACCEPT, of the launch with acceptance number `sel`: any launch in ACCEPTED. The records of a queue are numbered in ring
order as their helper copies them, and R67 is read as saying no more: the checks of R410 on them may run in any order (log 81,
DESIGN CHOICE). -/
def execLaunchAccept (s : State) : MOut :=
  .next (match s.launch? s.sel with
    | none => s
    | some l =>
      if l.st != .accepted then s
      else match (acceptBody l).run s with
      | .ok l1 s1 => (s1.modLaunch l.no fun _ => l1).advanceLaunch l.no
      | .error (.reject r) s1 => s1.endLaunch l.no fun x => { x with reason := r, demand := none }
      | .error (.wait d) _ => s.modLaunch l.no fun x => { x with demand := some d })

def bringAll (s : State) : List FarPage → Option State
  | [] => some s
  | p :: t => match freeFrame s.frames p.size with
    | some f => match s.bringUp p f with
      | some s1 => bringAll s1 t
      | none => none
    | none => none
/-- SLUICE_UNIT_REPORT (R83, R84): Sluice has brought a 2 MiB unit up, into its free frames, or marks it unreachable. Units
that the front end has asked for come in the order in which it asked. -/
def execSluiceUnitReport (asid vpage_ : Nat) (reached : Bool) (s : State) : MOut :=
  let u := (asid, vpage_)
  .next (if s.asked.contains u && s.nextAsked != some u then s
    else
      let s0 := { s with asked := s.asked.filter fun x => x != u }
      if reached then
        match bringAll s0 (s.pages.filter fun p => p.asid == asid && vpage p.va ≤ vpage_ && vpage_ ≤ vpage (p.va + p.size - 1)) with
        | some s1 => { s1 with unreach := s1.unreach.filter (fun x => x != u),
                               raised := s1.raised.filter fun x => x != u }.advanceAll
        | none => s
      else if s.unitNear asid vpage_ then s
      else if s.unreach.contains u then s0.advanceAll
      else { s0 with unreach := u :: s.unreach, raised := s.raised.filter fun x => x != u }.advanceAll)

/-! ## Placement (R76, R92; 01 R19, R30, R31) -/

/-- Zero a range of a space on every core, cluster or die of a node. -/
def State.clearRegion (s : State) (node : Nat) (r : Region) : State :=
  let cores := nodeCoreList node
  if r.space == 0 then
    cores.foldl (fun s c => (s.putSpad c ((s.core c).spad.clear r.off r.size)).clobber hostAgent 1 c r.off r.size) s
  else if r.space == 1 then
    cores.foldl (fun s c =>
      let b := 0x40000 * (c - Nat.max (8 * nodeRow0 node) (32 * cluOf c))
      let lo := Nat.max r.off b
      let hi := Nat.min (r.off + r.size) (b + 0x40000)
      if lo < hi then
        (s.setCore c { s.core c with cspad := (s.core c).cspad.clear (lo - b) (hi - lo) }).clobber hostAgent 2 c (lo - b) (hi - lo)
      else s) s
  else
    (cores.map dieOf).eraseDups.foldl (fun s d =>
      let b := Config.dieShare * (Nat.max (nodeRow0 node) (32 * d) % 32)
      { s with dspad := tput s.dspad d (Memory.clear (tget [] s.dspad d) (b + r.off) r.size) }.clobber hostAgent 3 d (b + r.off)
        r.size) s

/-- The lowest root index that no launch of the node holds (01 R31). -/
def State.rootIndex (s : State) (node : Nat) : Option Nat :=
  let heldK := (s.launches.filter fun l => l.part == node && l.live).filterMap (·.rootK)
  (List.range 16).find? fun k => !heldK.contains k
/-- The instances of a launch, queued for binding (01 R25, 04 R94). -/
def instOf (l : Launch) (k : Nat) : Inst :=
  let d := l.desc
  let clu := fieldAt d 8 1 == 1
  let row := nodeRow0 l.part + (if clu then 4 * k else k)
  let es := teamEntries d
  let at_ (kind : Nat) : List (Nat × (Nat × Nat × Nat × Nat)) :=
    ((List.range es.length).zip es).filter fun x => x.2.1 == kind
  { launch := l.no, k := k, st := .queued, prog := w64 (fieldAt d 0 8), clu := clu, nroles := teamRoles d, roles := es,
    drift := if fieldAt d 10 1 == 0 then 4 else fieldAt d 10 1, row := row,
    cores := (at_ 1).flatMap fun x =>
      ((List.range 32).filter fun b => x.2.2.2.2.testBit b).map fun b => (8 * row + b, x.1 + 1),
    live := [], counts := [], pipes := [], faulted := false,
    seqs := (at_ 2).map fun x => (row + (if clu then x.2.2.1 else 0), x.1 + 1),
    eng := (at_ 3).head?.map fun x => (row / 4, x.1 + 1) }
def State.queueInsts (s : State) (l : Launch) : State :=
  (List.range l.ninst).foldl (fun s k =>
    { s with insts := tput s.insts s.instNo (some (instOf l k)), instNo := s.instNo + 1 }) s
/-- Whether a launch may leave PLACING: its tenant resident, no earlier one of the partition waiting there, an index free
(R92; 18 R371). -/
def State.placeable (s : State) (l : Launch) : Bool :=
  l.st == .placing && (match s.node? l.part with
    | some n => n.resident == some l.tenant && n.phase != .saved
    | none => false) &&
  !(s.launches.any fun y => y.no < l.no && y.part == l.part && y.st == .placing) &&
  (s.rootIndex l.part).isSome
/-- Another launch of the tenant that is RUNNING on the partition names the region (01 R19). -/
def State.shared (s : State) (l : Launch) (r : Region) : Bool :=
  s.launches.any fun y => y.no != l.no && y.tenant == l.tenant && y.part == l.part &&
    (y.st == .running || (y.st == .ending && y.rootK.isSome)) && y.regions.any fun q => q.name == r.name
/-- No launch of the tenant has named the region since the tenant was defined. -/
def State.firstNamed (s : State) (l : Launch) (r : Region) : Bool :=
  !s.launches.any fun y => y.no != l.no && y.tenant == l.tenant && y.rootK.isSome && y.regions.any fun q => q.name == r.name
/-- The regions that a launch finds zero: those with KEEP clear that no running launch shares, and those with KEEP set that
no launch has named before (01 R19). -/
def State.zeroRegions (s : State) (l : Launch) : List Region :=
  l.regions.filter fun r => if r.keep then s.firstNamed l r else !s.shared l r
/-- Seed entry records, the i-th on partition core i mod N (01 R30). -/
def State.seed (s : State) (l : Launch) : State :=
  let c0 := 8 * nodeRow0 l.part
  let n := nodeCores l.part
  ((List.range l.entries.length).zip l.entries).foldl (fun s x =>
    s.postArr (c0 + x.1 % n) (.ready { tr := x.2.1, src := x.2.2, origin := x.1 % n, launch := some l.no, restarts := 0,
                                       passed := 0 })) s
/-- The root slot (01 R31). -/
def State.putRoot (s : State) (node k join : Nat) : State :=
  let c0 := 8 * nodeRow0 node
  s.putRec c0 (0x3ffe0 - 32 * k) { ctrl := w64 join }
/-- LAUNCH_PLACE, of the launch with acceptance number `sel`: regions are cleared, the root slot is written, entries are
seeded and instances queued, in this order (log 69). -/
def execLaunchPlace (s : State) : MOut :=
  .next (match s.launch? s.sel with
    | none => s
    | some l =>
      if !s.placeable l then s
      else match s.rootIndex l.part with
      | none => s
      | some k =>
        let join := l.entries.length + l.ninst
        let s := (s.zeroRegions l).foldl (fun s r => s.clearRegion l.part r) s
        (((s.putRoot l.part k join).seed l).queueInsts l).modLaunch l.no fun x =>
          { x with st := .running, rootK := some k, released := join == 0 })

/-! ## Team binding (04 R95; 01 R28; 17 R350, R352) -/

/-- Every member has stopped: cores run nothing, engines have finished what was issued to them. -/
def State.membersIdle (s : State) (x : Inst) : Bool :=
  x.cores.all (fun m =>
    let k := s.core m.1
    k.task.isNone && k.taken.isNone && k.cmds.isEmpty && k.pend.isEmpty && !s.controls m.1) &&
  x.seqs.all (fun r => (s.seqU r.1).cmds.isEmpty && (List.range 8).all fun p => (s.core (8 * r.1 + p)).cmds.isEmpty) &&
  (match x.eng with
    | some (g, _) => (s.engU g).chans.all (fun c => c.2.items.isEmpty) &&
        (List.range 32).all fun p => (s.core (32 * g + p)).chans.all fun c => c.2.items.isEmpty
    | none => true)
/-- WWORDS of a role. -/
def Inst.wwords (x : Inst) (r : Nat) : Nat := match x.role r with | some e => e.2.2.1 | none => 0
/-- Zero the write pointers of a core that no channel binds (17 R352). -/
def State.freeCwp (s : State) (c : Nat) : State :=
  (List.range 8).foldl (fun s n =>
    if s.cwpBound c n then s else s.setCore c { s.core c with cwp := tput (s.core c).cwp n 0 }) s
/-- Why a member does not start. -/
inductive MemberStop
  | fault (f : TrapInfo)
  | check (code pa : Nat)
  | wait (d : Option Demand)
  deriving DecidableEq, Repr
/-- Start one core member (01 R28). -/
def startMember (i : Nat) (x : Inst) (m : Nat × Nat) (s : State) : Except MemberStop State :=
  let c := m.1
  let s1 := (s.discard c).renew c (some x.launch)
  let k := s1.core c
  let t : Task := { kind := .member, tr := {}, src := 0, origin := s.pidx c, launch := some x.launch, restarts := 0,
                    asid := s.recAsid c (some x.launch), answers := 0 }
  let k1 := { k.fresh t x.prog k.dwb (w64 (x.wwords m.2)) false with role := m.2, inst := some i, halted := false }
  match (writeWords k.dwb.toNat [0, 0] 0).run ((s1.setCore c k1).asCore c) with
  | .ok _ s2 => .ok (((s2.setCore c { s2.core c with demand := none }).freeCwp c).counted c (some x.launch))
  | .error (.trap f) _ => .error (.fault f)
  | .error (.machine pa code _) _ => .error (.check code pa)
  | .error (.wait d) _ => .error (.wait d)
  | .error _ _ => .error (.wait none)
def startMembers (i : Nat) (x : Inst) : List (Nat × Nat) → State → Except (Nat × MemberStop) State
  | [], s => .ok s
  | m :: t, s => match startMember i x m s with
    | .ok s1 => startMembers i x t s1
    | .error e => .error (m.1, e)
/-- Start the engines of an instance at PROG; `DEMANDLIM` is latched as at a member's start (18 R364). -/
def State.startEngines (s : State) (i : Nat) (x : Inst) (asid : Nat) : State :=
  let limit := (s.core (s.leadOf i)).demandlim.toNat
  let s := x.seqs.foldl (fun s r =>
    s.setSeq r.1 { s.seqU r.1 with inst := some i, role := r.2, pc := x.prog, asid := asid, halted := false, lines := [],
                                   part := none, dlim := limit, demand := none }) s
  match x.eng with
  | some (g, r) => s.setEng g { inst := some i, role := r, pc := x.prog, asid := asid, halted := false,
                                dlim := limit }
  | none => s
/-- TEAM_BIND, of instance `sel`. -/
def execTeamBind (s : State) : MOut :=
  let i := s.sel
  .next (match tget none s.insts i with
    | none => s
    | some x =>
      if !s.takenBy x || !s.membersIdle x then s
      else
        let run := { x with st := .running, live := x.cores.map (·.1) }
        let s0 := { s with insts := tput s.insts i (some run) }
        let fits := x.cores.all fun m => (s.core m.1).dwb.toNat + x.wwords m.2 ≤ (s.core m.1).rbl.toNat
        if !fits then s0.teamFaultNow i 0x06
        else match startMembers i run x.cores s0 with
        | .ok s1 => s1.startEngines i x (s.recAsid 0 (some x.launch))
        | .error (_, .fault f) => (s0.markRaised f.unit).teamFaultNow i f.code
        -- poison at the window posts the machine-check event (18 R369)
        | .error (c, .check code pa) => ((s0.rsLose c pa).checkEvent (some x.launch) code c pa).teamFaultNow i code
        | .error (c, .wait d) => s.waitFor c d)

/-! ## The end of a launch (01 R32, R33; 21 R393, R394) -/

def SysEntry.launch : SysEntry → Option Nat
  | .fault _ _ _ _ _ l => l
  | .sys _ l => l
  | _ => none
def Arrival.launch : Arrival → Option Nat
  | .decr _ l => l
  | .ready e => e.launch
  | .msg m => m.launch
def Posted.launch : Posted → Option Nat
  | .sys e => e.launch
  | .arr a => a.launch
def Taken.launch : Taken → Option Nat
  | .sys e => e.launch
  | .entry e _ => e.launch
  | _ => none
/-- Nothing of launch a is left on a core: no record, no task, no command of one. -/
def Core.clearOf (k : Core) (a : Nat) : Bool :=
  !((k.sysring ++ k.heldSys).any fun e => e.launch == some a) && !(k.inbox.any fun m => m.launch == some a) &&
  !(k.ready.any fun e => e.launch == some a) && !(k.held.any fun h => h.launch == some a) && k.launch != some a &&
  !(match k.taken with | some t => t.launch == some a | none => false) && !(k.cmds.any fun x => x.launch == some a) &&
  k.dqHeld == 0 && (k.pend.isEmpty || k.lastRun != some a)
/-- LAUNCH_END (01 R32), of the launch with acceptance number `sel`. -/
def execLaunchEnd (s : State) : MOut :=
  .next (match s.launch? s.sel with
    | none => s
    | some l =>
      let here := (s.node? l.part).bind (·.resident) == some l.tenant
      let allClear := (s.cores.filter fun x => s.nodeOf x.1 == l.part).all fun x => x.2.clearOf l.no
      if l.st == .running && l.released && here && allClear && !(s.net.any fun x => x.2.2.launch == some l.no) &&
          !(s.posts.any fun x => x.2.launch == some l.no) then
        s.endLaunch l.no id
      else s)

/-- The release flush of a node (13 R319): what its cores hold dirty reaches the L3; the launches that have met the
conditions of R32 are flushed. -/
def State.flushNode (s : State) (node : Nat) : State :=
  { s with stale := s.stale.filter (fun x => !(nodeHasRow node (rowOf x.2.core))),
           launches := lmapIf (fun l => l.part == node && (l.st == .ending || l.st == .done))
             (fun l => { l with flushed := true }) s.launches }
def Launch.flush (l : Launch) : Bool := l.lfl % 2 == 1
/-- RELEASE_FLUSH, of node `sel`: a launch that ends with FLUSH set asks for it. -/
def execReleaseFlush (s : State) : MOut :=
  .next (if s.launches.any fun l => l.part == s.sel && l.st == .ending && l.rootK.isSome && l.flush && !l.flushed then
      s.flushNode s.sel
    else s)

/-- The STATUS field of a completion event (R33). -/
def Launch.status (l : Launch) : Nat :=
  1 + 2 * bN l.faults + 4 * bN l.strag + 8 * bN (l.reason != 0) + 16 * l.reason + 256 * bN l.pfail
/-- A completion event as four words. -/
def Launch.event (l : Launch) : List W64 :=
  [w64 (l.lid + 2 ^ 32 * l.status + 2 ^ 48 * l.fcode), w64 l.ndisp, w64 l.nfault, w64 l.time]
/-- Write words at a virtual address of a launch: `none` where no valid translation to memory stands. -/
def State.feWrite (s : State) (asid va : Nat) (ws : List W64) : Option State :=
  match s.feXlate asid va .store with
  | .error _ => none
  | .ok (pa, _, s1) =>
    if physKind pa == .device || physKind pa == .host then
      some (s1.feBytes pa (ws.flatMap fun w => leBytes w.toNat 8))
    else none
/-- Step 2 of R393: the completion event goes to CEV, or KIND 8 to the event ring. -/
def State.publishEvent (s : State) (l : Launch) : State :=
  if l.published then s
  else
    let ev := l.event
    let s := if l.cev == 0 then s
      else match s.feWrite l.asid l.cev ev with
      | some s1 => s1
      | none => s.postEvent l.q 8 0 l.lid (ev.getD 0 0) (ev.getD 1 0)
    s.modLaunch l.no fun x => { x with published := true }
/-- Step 3 of R393: KIND 1 or 2, where 03 R85 calls for one. -/
def State.postEnd (s : State) (l : Launch) : State :=
  if l.posted then s
  else
    let d0 := l.event.getD 0 0
    let d1 := l.event.getD 1 0
    let s := if l.reason != 0 || l.pfail then s.postEvent l.q 1 0 l.lid d0 d1
      else if l.faults then s.postEvent l.q 2 l.fcode l.lid d0 d1 else s
    s.modLaunch l.no fun x => { x with posted := true }
/-- COMPLETION_EVENT, of the launch with acceptance number `sel`: steps 2 to 4 of R393. Each waits until what the one before it
has written is performed (13 R296); the next COMPLETION_EVENT then goes on. The event of a launch rejected for a CEV that is not
aligned, or for its ASID, is written at that CEV in that ASID as they stand: the spec does not say where (log 80, DESIGN
CHOICE). -/
def execCompletionEvent (s : State) : MOut :=
  .next (match s.launch? s.sel with
    | none => s
    | some l =>
      if l.st != .ending || (l.rootK.isSome && l.flush && !l.flushed) then s
      else
        let s := s.publishEvent l
        if !s.feq.isEmpty then s
        else
          let s := s.postEnd l
          if !s.feq.isEmpty then s else (s.modLaunch l.no fun x => { x with st := .done }).advanceAll)

end Sys2Proof.Machine
end

