-- ==== Sys2Proof/Machine/HostIf.lean ====
section
/-!
DEFINITION. The host's window and the mailbox: register writes, queue registration, tenants, nodes, and host or peer
accesses to memory (spec 03 R59 to R75; 13 R318; 21 R395, R408).
-/
namespace Sys2Proof.Machine

/-! ## Registers (R59 to R61; 00 R6) -/

def State.mbGo (s : State) : Bool := bitOf s.mbcmd 31
/-- A write to word k of `FEATACC` (R61). -/
def State.featWrite (s : State) (k : Nat) (v : W64) : State :=
  if 4 ≤ k then s
  else if s.featlock then { s with featerr := true }
  else { s with featacc := tput s.featacc k (if k == 0 then v &&& w64 featOffered else 0) }
/-- FEATACC_WRITE. -/
def execFeatAccWrite (k : Nat) (v : W64) (s : State) : MOut := .next (s.featWrite k v)
/-- A write to `MBCMD` (R72): with GO it issues a command, which a late `FEATACC` write spoils (R61). -/
def State.mbWrite (s : State) (v : W64) : State :=
  if s.mbGo then s
  else
    let go := bitOf v 31
    { s with mbcmd := v.setWidth 32, mbRefuse := go && s.featerr, mbBusy := false, featerr := s.featerr && !go }
/-- The queue whose doorbell, or with 8 whose external signal, stands at an offset of BAR0 (R59). -/
def pageQueue (off reg : Nat) : Option Nat :=
  if 0x100000 ≤ off && off < 0x1100000 && off % 0x1000 == reg then some ((off - 0x100000) / 0x1000) else none
/-- A write to BAR0: the doorbells and `MBCMD` are 32 bits wide, the other registers 64, and an access of any other width,
or to an offset not listed, is ignored (R59). -/
def State.barWrite (s : State) (width off : Nat) (v : W64) : State :=
  if width == 4 then
    if off == 0 then s.mbWrite v
    else match pageQueue off 0 with
    | some q => s.ring q (v.toNat % 2 ^ 32)
    | none => s
  else if width == 8 then
    if 8 ≤ off && off < 0x28 && off % 8 == 0 then
      (if s.mbGo then s else { s with mbarg := tput s.mbarg ((off - 8) / 8) v })
    else if 0x1020 ≤ off && off < 0x1040 && off % 8 == 0 then s.featWrite ((off - 0x1020) / 8) v
    else match pageQueue off 8 with
    | some q => s.signal q v
    | none => s
  else s
/-- A read of BAR0 at its register's width; any other width, and an offset not listed, reads zero (R59). What a doorbell
or an external signal reads as the spec does not say: a free value (log 70). -/
def State.barRead (s : State) (width off : Nat) : Nat :=
  if width == 4 then
    if off == 0 then s.mbcmd.toNat
    else if off == 4 then s.mbstat.toNat
    else if (pageQueue off 0).isSome then Config.freeNat s.freeCtr % 2 ^ 32
    else 0
  else if width == 8 then
    if 8 ≤ off && off < 0x28 && off % 8 == 0 then (tget 0 s.mbarg ((off - 8) / 8)).toNat
    else if off == 0x1000 then featOffered
    else if 0x1020 ≤ off && off < 0x1040 && off % 8 == 0 then (tget 0 s.featacc ((off - 0x1020) / 8)).toNat
    else if (pageQueue off 8).isSome then Config.freeNat s.freeCtr % 2 ^ 64
    else 0
  else 0
/-- REGISTER_WRITE: of BAR0 (R59), or of the device control region by firmware of the front end, which
writes it in words of eight bytes (09 R221). -/
def execRegisterWrite (bar0 : Bool) (off : RegAt) (v : W64) (s : State) : MOut :=
  .next (if bar0 then s.barWrite off.width off.off v
    else if off.width == 8 && off.off % 8 == 0 then s.dcrWrite off.off v
    else s)
/-- FORMAT_WINDOW_WRITE (09 R219, R220, R226): register k of window n. -/
def execFormatWindowWrite (n k : Nat) (v : W64) (s : State) : MOut :=
  .next (if n < 16 && k < 4 then s.fwWrite n k v else s)
/-- SWITCH_REGISTER_WRITE (18 R370). -/
def execSwitchRegisterWrite (k : Nat) (v : W64) (s : State) : MOut := .next (if k < 3 then s.switchWrite k v else s)
/-- MONSEL_WRITE (21 R397). -/
def execMonselWrite (off : Nat) (v : W64) (s : State) : MOut := .next (s.monselWrite off v)

/-! ## Host and peer accesses (13 R318) -/

def bytesAt (pa : Nat) (bs : List Byte) : List (Loc × Byte) :=
  (List.range bs.length).map (fun i => Loc.phys (pa + i) true) |>.zip bs
/-- HOST_WRITE: device memory, once the sharers of an overflowed line have acknowledged (R296), or the host's own
memory; any other address is answered with an error and changes nothing. -/
def execHostWrite (pa : Nat) (bytes : List Byte) (s : State) : MOut :=
  let n := bytes.length
  let inside := pa + n ≤ Config.devEnd || (Config.hostBase ≤ pa && pa + n ≤ Config.aliasBase)
  let bs := bytesAt pa bytes
  .next (if inside && (linesOf (bs.map (·.1))).all (s.mayWrite hostAgent) then s.putBytes hostAgent bs else s)
/-- A byte as the L3 or memory holds it (R318, R319). -/
def State.l3Byte (s : State) (pa : Nat) : Byte :=
  match s.stale.find? fun x => x.1 == pa with
  | some x => x.2.old
  | none => s.mem.get pa
/-- A read over CXL.mem (R318), of device memory or of an expanded alias. -/
def State.hostRead (s : State) (pa n : Nat) : State :=
  if pa + n ≤ Config.devEnd then
    let lines := (List.range n).map (fun i => lineOf (pa + i)) |>.eraseDups
    if lines.any s.poison.contains then s
    else
      let bs := (List.range n).map fun i => s.l3Byte (pa + i)
      { lines.foldl (fun s l => s.dirRead hostAgent l) s with hostData := bs }
  else if Config.aliasBase ≤ pa && pa + n ≤ Config.dcrBase then
    match s.aliasWin pa with
    | none => s
    | some w =>
      if pa + n ≤ w.xbase + w.xlen && (s.aliasBadN w pa n).isNone then { s with hostData := s.aliasBytes w pa n } else s
  else s
/-- HOST_READ: of memory, or of BAR0 at an offset (03 R59). `hostData` holds the bytes of the last read that was answered
with data. -/
def execHostRead (pa : HostPlace) (n : Nat) (s : State) : MOut :=
  .next (match pa with
    | .bar0 off => { s.spent with hostData := leBytes (s.barRead n off) n }
    | .mem pa => s.hostRead pa n)

/-! ## The mailbox (R72) -/

def State.mbCode (s : State) : Nat := bitsOf s.mbcmd 0 8
def State.arg (s : State) (k : Nat) : W64 := tget 0 s.mbarg k
/-- Perform a command that has been issued and is not under way, once the front end's kernel runs. With no valid image,
only commands 0x06 to 0x0a are answered (21 R404). -/
def State.mbRun (s : State) (code : Nat) (body : State → State) : State :=
  if !s.mbGo || s.mbCode != code || s.mbBusy then s
  else if s.mgmt.alive && s.mgmt.layer != 2 then s
  else if !s.mgmt.alive && !(6 ≤ code && code ≤ 10) then s
  else if s.mbRefuse then s.mbDone 5
  else body s
/-- MAILBOX_UNKNOWN. -/
def execMailboxUnknown (cmd : BitVec 8) (s : State) : MOut :=
  .next (if 1 ≤ cmd.toNat && cmd.toNat ≤ 15 then s else s.mbRun cmd.toNat fun s => s.mbDone 6)

/-- EVBASE and EVLOG of a QCB are in range. -/
def evOk (bs : List Byte) : Bool := 4 ≤ fieldAt bs 40 1 && fieldAt bs 40 1 ≤ 16 && fieldAt bs 32 8 % 32 == 0
/-- The checks of R68 step 2. -/
def State.qcbOk (s : State) (bs : List Byte) : Bool :=
  fieldAt bs 0 8 % 128 == 0 && 4 ≤ fieldAt bs 8 1 && fieldAt bs 8 1 ≤ 16 && fieldAt bs 9 1 ≤ 3 && fieldAt bs 12 2 < 1024 &&
  fieldAt bs 11 1 == 0 && fieldAt bs 14 2 == 0 && fieldAt bs 41 1 == 0 && evOk bs &&
  tget 256 s.asidOwner (fieldAt bs 12 2) == fieldAt bs 10 1
/-- REGQ (R68). Of several results the first in the order 1, 3, 2 is given (log 71). A QCB in a poisoned line cannot be
read: result 2 (log 72). -/
def regQueue (s : State) : State :=
  let pa := (s.arg 0).toNat
  let q := (s.arg 1).toNat
  if 4095 < q then s.mbDone 1
  else if (s.queue? q).isSome then s.mbDone 3
  else if pa % 128 != 0 || Config.devEnd < pa + 128 then s.mbDone 2
  else
    let bs := s.mem.bytes pa 128
    if s.anyPoison pa 128 || !s.qcbOk bs then s.mbDone 2
    else
      let qu : Queue :=
        { q := q, qcb := pa, held := true, base := fieldAt bs 0 8, logsz := fieldAt bs 8 1, prio := fieldAt bs 9 1,
          tenant := fieldAt bs 10 1, asid := fieldAt bs 12 2, evbase := fieldAt bs 32 8, evlog := fieldAt bs 40 1,
          head := 0, tail := 0, bell := none, status := 0, evhead := 0, ovcnt := 0, draining := false, served := 0 }
      let s := s.feStore (pa + 16) 4 (s.integOf pa bs)
      let s := (((s.feStore (pa + 20) 4 0).feStore (pa + 24) 8 0).feStore (pa + 44) 4 0).feStore (pa + 52) 4 0
      ({ s with queues := s.queues ++ [qu], featlock := true }.touch q).mbDone 0
def execRegq (s : State) : MOut := .next (s.mbRun 1 regQueue)
/-- UNREGQ: intake stops at once; the command goes on (UNREGQ_DRAINED). -/
def execUnregq (s : State) : MOut :=
  .next (s.mbRun 2 fun s =>
    let q := (s.arg 1).toNat
    if 4095 < q then s.mbDone 1
    else if (s.queue? q).isNone then s.mbDone 3
    else { (s.modQueue q fun x => { x with draining := true }) with mbBusy := true })
/-- UNREGQ_DRAINED. -/
def execUnregqDrained (s : State) : MOut :=
  let q := (s.arg 1).toNat
  .next (if s.mbGo && s.mbBusy && s.mbCode == 2 && s.notDone q == 0 then
      { s with queues := s.queues.filter (fun x => x.q != q) }.mbDone 0
    else s)
/-- QRESUME: a doorbell recorded while the queue was halted is acted on (R65). -/
def execQresume (s : State) : MOut :=
  .next (s.mbRun 3 fun s =>
    let q := (s.arg 1).toNat
    if 4095 < q then s.mbDone 1
    else match s.queue? q with
    | none => s.mbDone 3
    | some qu =>
      let (s, ok) := s.refetch q
      if !ok then s.mbDone 11
      else
        let s := s.touch q
        let bs := s.mem.bytes qu.qcb 48
        if s.anyPoison qu.qcb 48 || !evOk bs then s.mbDone 2
        else
          let s := s.modQueue q fun x => { x with evbase := fieldAt bs 32 8, evlog := fieldAt bs 40 1 }
          let s := s.putStatus qu 0
          (match qu.bell with | some v => s.actBell q v | none => s).mbDone 0)
/-- LCANCEL. -/
def execLcancel (s : State) : MOut :=
  .next (s.mbRun 4 fun s =>
    match s.launches.find? fun l => l.tenant == (s.arg 1).toNat && l.lid == (s.arg 2).toNat &&
        (l.st == .waiting || l.st == .gated) with
    | some l => (s.endLaunch l.no fun x => { x with reason := 6 }).mbDone 0
    | none => s.mbDone 4)

/-! ## Tenants and nodes (R73 to R75) -/

/-- Bytes that lie in device or host memory. -/
def inMemory (pa n : Nat) : Bool := pa + n ≤ Config.devEnd || (Config.hostBase ≤ pa && pa + n ≤ Config.aliasBase)
def tenantOf (bs : List Byte) : Tenant :=
  { rsbase := w64 (fieldAt bs 0 8), rsstride := w64 (fieldAt bs 8 8), rswords := fieldAt bs 16 4, dwb := fieldAt bs 20 4,
    twb := fieldAt bs 24 4, twl := fieldAt bs 28 4, tvec := w64 (fieldAt bs 32 8), tasklim := w64 (fieldAt bs 40 8),
    demandlim := w64 (fieldAt bs 48 8), ways := fieldAt bs 56 2, hasid := fieldAt bs 58 2 }
/-- The ranges of R73; `TVEC`, `TASKLIM` and `DEMANDLIM` as 18 R358 and R364 lay them out. -/
def tenantOk (bs : List Byte) : Bool :=
  let t := tenantOf bs
  t.rsbase.toNat % 4096 == 0 && t.rsstride.toNat % 4096 == 0 && t.rswords ≤ 2 ^ 20 && t.rswords % 8 == 0 &&
  8 * t.rswords ≤ t.rsstride.toNat && t.dwb < 2 ^ 20 && t.twb < 2 ^ 20 && 1 ≤ t.twl && t.twl ≤ 3968 &&
  (t.tvec == 0 || (canonical57 t.tvec.toNat && bitsOf t.tvec 3 3 == 0 && bitsOf t.tvec 0 3 ≤ 4)) &&
  2 ^ 12 ≤ t.tasklim.toNat && t.tasklim.toNat < 2 ^ 40 && 2 ^ 10 ≤ t.demandlim.toNat && t.demandlim.toNat < 2 ^ 40 &&
  t.hasid < 1024 && (bs.drop 60).all (· == 0)
/-- The node a tenant is resident on, and the state saved for it. -/
def State.homeNode (s : State) (t : Nat) : Option Nat := (s.nodes.find? fun x => x.resident == some t).map (·.n)
def State.savedOf (s : State) (t : Nat) : Option Saved := s.saved.find? fun v => v.tenant == t
/-- TENDEF. -/
def execTendef (s : State) : MOut :=
  .next (s.mbRun 0x0b fun s =>
    let pa := (s.arg 0).toNat
    let t := (s.arg 1).toNat
    let bs := s.physBytes pa 128
    if 255 < t || pa % 64 != 0 || !inMemory pa 128 || s.anyPoison pa 128 || !tenantOk bs then s.mbDone 2
    else if (s.homeNode t).isSome || (s.savedOf t).isSome then s.mbDone 10
    else
      -- a region that the new definition's launches have not named reads zero (01 R19)
      let past := lmapIf (fun l : Launch => l.tenant == t && l.st == .done) (fun l => { l with regions := [] }) s.launches
      { s with tenants := tput s.tenants t (some (tenantOf bs)), launches := past }.mbDone 0)
/-- ASIDSET: the root word is that of 19 R380. It waits as an invalidation does (09 R247). -/
def execAsidset (s : State) : MOut :=
  .next (s.mbRun 0x0c fun s =>
    let a := (s.arg 1).toNat
    let t := (s.arg 2).toNat
    let r := s.arg 3
    let old := tget 256 s.asidOwner a
    let busy := old != 256 && old != t &&
      (s.queues.any (fun q => q.asid == a && q.tenant == old) ||
       s.launches.any fun l => l.asid == a && l.tenant == old && l.st != .done)
    if 1023 < a || 255 < t || bitsOf r 52 12 != 0 || bitsOf r 1 11 != 0 then s.mbDone 2
    else if busy then s.mbDone 10
    else if s.pinHit (some a) (fun _ => true) then s
    else match s.rsDrop (some a) fun _ => true with
    | none => s
    | some s1 =>
      ({ s1 with asidOwner := tput s1.asidOwner a t, roots := tput s1.roots a r }.tlbDrop fun e => e.asid == a).mbDone 0)
/-- TENSET. -/
def execTenset (s : State) : MOut :=
  .next (s.mbRun 0x0d fun s =>
    let pa := (s.arg 0).toNat
    let n := (s.arg 1).toNat
    let mask := leNat (s.physBytes pa 32)
    let new := (List.range 256).filter fun t => mask.testBit t
    match s.node? n with
    | none => s.mbDone 2
    | some x =>
      if !inMemory pa 32 || s.anyPoison pa 32 then s.mbDone 2
      else
        let gone := x.tset.filter fun t => !new.contains t
        if gone.any fun t => x.resident == some t || s.saved.any fun v => v.tenant == t && v.node == n then s.mbDone 10
        else (s.setNode n fun y => { y with tset := new }).mbDone 0)
/-- TENRES (R75): it finishes at once for the resident tenant, else when the tenant has become resident. A request counts
from the first tick after it: while a tick that has fallen is still to be taken, the command waits (log 58). -/
def execTenres (s : State) : MOut :=
  .next (s.mbRun 0x0e fun s =>
    if s.tickDue then s else
    let n := (s.arg 1).toNat
    let t := (s.arg 2).toNat
    match s.node? n, s.tenantDef t with
    | some x, some d =>
      if !x.tset.contains t || tget 256 s.asidOwner d.hasid != t then s.mbDone 2
      else
        let away := match s.homeNode t with | some m => m != n | none => false
        let deep := match s.savedOf t with | some v => nodeDepth v.node != nodeDepth n | none => false
        if away || deep then s.mbDone 10
        else if x.resident == some t && x.requests.isEmpty then s.mbDone 0
        else { (s.setNode n fun y => { y with requests := y.requests ++ [t] }) with mbBusy := true }
    | _, _ => s.mbDone 2)
/-- NODECTL (19 R384): it joins the controls of firmware tasks. -/
def execNodectl (s : State) : MOut :=
  .next (s.mbRun 0x0f fun s =>
    let n := (s.arg 2).toNat
    if 1 < (s.arg 1).toNat || n == 0 || 256 ≤ n then s.mbDone 2
    else
      let p : PartCtl :=
        { merge := s.arg 1 == 1, node := n, core := none, reg := 0, word := 0, fw := false, decided := none,
          waits := false }
      { s with parts := s.parts ++ [p], mbBusy := true })

/-- PFLUSH (21 R394, R395). -/
def execPflush (s : State) : MOut :=
  .next (s.mbRun 5 fun s =>
    let n := (s.arg 1).toNat
    if (s.node? n).isSome then (s.flushNode n).mbDone 0 else s.mbDone 2)
/-- IDENT (21 R408). -/
def execIdent (s : State) : MOut :=
  .next (s.mbRun 0x0a fun s =>
    { s with mbarg := tput (tput (tput s.mbarg 0 0x2048) 1 1) 2 (w64 Config.stepping) }.mbDone 0)

end Sys2Proof.Machine
end

