-- ==== Sys2Proof/Machine/Switch.lean ====
section
/-!
DEFINITION. The tenant switch (spec 18 R370 to R374; 04 R91; 03 R73, R75; 09 R216, R237), Sluice's moves of pages
(13 R317; 09 R226, R247; 18 R366, R372) and the alignment of fabric time (18 R412).
-/
namespace Sys2Proof.Machine

/-! ## The tick (R370, R371) -/

/-- Cores of a node stop or resume taking new work. -/
def State.setQuiescing (s : State) (n : Nat) (q : Bool) : State :=
  (nodeCoreList n).foldl (fun s c => s.setCore c { s.core c with quiescing := q }) s
/-- What a tick begins on one node: a node without a resident tenant has nothing to quiesce or save (03 R75). -/
def State.tickNode (s : State) (t0 : Nat) (x : Node) : State :=
  if x.phase != .steady || (x.partReq.isNone && x.requests.isEmpty) then s
  else if x.resident.isNone then
    -- a node that a partition control waits for takes no tenant (04 R91)
    if x.partReq.isSome then s else s.setNode x.n fun y => { y with phase := .saved, gone := none }
  else if x.partReq.isNone && x.requests.head? == x.resident then
    (s.setNode x.n fun y => { y with requests := y.requests.tail }).mbDone 0
  else
    (s.setQuiescing x.n true).setNode x.n fun y =>
      { y with phase := .quiesce t0, quiet := [], late := [], judged := false, graced := false }
/-- A tick that falls ends the rest of every halted core (19 R386). -/
def State.wakeAll (s : State) : State := { s with cores := s.cores.map fun x => (x.1, { x.2 with halted := false }) }
/-- SWITCH_TICK: ticks fall on every node together. -/
def execSwitchTick (s : State) : MOut :=
  .next (if s.tickDue then
      let t0 := s.time / s.swtick.toNat * s.swtick.toNat
      s.nodes.foldl (fun s x => s.tickNode t0 x) { s.wakeAll with lastTick := s.time }
    else s)

/-! ## Quiet dies (R371) -/

def nodeDies (n : Nat) : List Nat := ((List.range (nodeRows n)).map fun i => (nodeRow0 n + i) / 32).eraseDups
/-- The first held arrival cannot be applied, and its release stands already in the held sequence (01 R15). -/
def State.heldStill (s : State) (c : Nat) : Bool :=
  match (s.core c).held with
  | [] => true
  | .decr _ _ :: _ => false
  | a :: _ => ((s.setCore c { s.core c with held := [] }).applyArrival c a).isNone
/-- A core runs nothing, and what was issued on it is over. -/
def State.coreQuiet (s : State) (c : Nat) : Bool :=
  let k := s.core c
  k.task.isNone && k.taken.isNone && k.sysring.isEmpty && k.heldSys.isEmpty &&
  k.pend.all (fun p => p.kind == .partctl) && k.cmds.isEmpty && k.chans.all (fun ch => ch.2.items.isEmpty) &&
  (s.seqU (rowOf c)).cmds.isEmpty && (s.engU (cluOf c)).chans.all (fun ch => ch.2.items.isEmpty) && s.heldStill c &&
  s.net.all (fun x => x.1 != c && x.2.1 != c) && s.posts.all fun x => x.1 != c
/-- Every core of a node on a die is quiet, and no launch is left to place. -/
def State.dieQuiet (s : State) (n d : Nat) : Bool :=
  ((nodeCoreList n).filter fun c => dieOf c == d).all s.coreQuiet && !s.launches.any fun l => l.part == n && s.placeable l
/-- Whether the save deadline of a switch that began at `t0` has passed, or the grace period. -/
def State.pastDead (s : State) (t0 : Nat) : Bool := t0 + 1000 * s.swdead.toNat ≤ s.time
def State.pastGrace (s : State) (t0 : Nat) : Bool := t0 + 1000 * s.swgrace.toNat ≤ s.time
/-- DIE_QUIET, of die `sel2` of node `sel`: after the deadline, once the late dies have been told apart. -/
def execDieQuiet (s : State) : MOut :=
  .next (match s.node? s.sel with
    | none => s
    | some x =>
      match x.phase with
      | .quiesce t0 =>
        if x.quiet.contains s.sel2 || !(nodeDies x.n).contains s.sel2 || !s.dieQuiet x.n s.sel2 ||
            (s.pastDead t0 && !x.judged) then s
        else s.setNode x.n fun y => { y with quiet := y.quiet ++ [s.sel2] }
      | _ => s)

/-! ## Late dies (R374) -/

/-- LATE_SWITCH, of node `sel`: an event for each late die on the queue of each running launch. -/
def execLateSwitch (s : State) : MOut :=
  .next (match s.node? s.sel with
    | none => s
    | some x =>
      match x.phase with
      | .quiesce t0 =>
        if x.judged || !s.pastDead t0 then s
        else
          let late := (nodeDies x.n).filter fun d => !x.quiet.contains d
          let hit := s.launches.filter fun l => l.part == x.n && l.st == .running && some l.tenant == x.resident
          let s := s.setNode x.n fun y => { y with judged := true, late := late }
          if late.isEmpty then s
          else
            (hit.foldl (fun s l => late.foldl (fun s d => s.postEvent l.q 5 0x10 l.lid (w64 d) 0) s) s).logEvent 3
      | _ => s)
/-- GRACE_STOP, of node `sel`: every task still running on a late die is stopped (R364, R365). -/
def execGraceStop (s : State) : MOut :=
  .next (match s.node? s.sel with
    | none => s
    | some x =>
      match x.phase with
      | .quiesce t0 =>
        if !x.judged || x.graced || !s.pastGrace t0 then s
        else
          let cores := (nodeCoreList x.n).filter fun c => x.late.contains (dieOf c) && !x.quiet.contains (dieOf c)
          (cores.foldl (fun s c => s.beginStop c) s).setNode x.n fun y => { y with graced := true }
      | _ => s)

/-! ## Saving (R372) -/

/-- The listed bytes of a memory inside some of the ranges (offset, length). -/
def Memory.within (m : Memory) (rs : List (Nat × Nat)) : Memory :=
  m.filter fun c => rs.any fun r => r.1 ≤ c.1 && c.1 < r.1 + r.2
/-- The part of a cluster-shared range that lies in the share of core c of a node (04 R93). -/
def cluPart (node c : Nat) (r : Region) : Nat × Nat :=
  let b := 0x40000 * (c - Nat.max (8 * nodeRow0 node) (32 * cluOf c))
  let lo := Nat.max r.off b
  let hi := Nat.min (r.off + r.size) (b + 0x40000)
  (lo - b, hi - lo)
/-- The regions that Sluice carries over a switch: those of live launches, and those with KEEP set (01 R19). -/
def State.savedRegions (s : State) (node tenant : Nat) : List Region :=
  (s.launches.filter fun l => l.part == node && l.tenant == tenant && l.rootK.isSome).flatMap fun l =>
    if l.live then l.regions else l.regions.filter (·.keep)
/-- The completion rings that open bindings of the node's channels name (09 R234). -/
def State.openRings (s : State) (node : Nat) : List (Nat × Nat × Nat) :=
  (nodeCoreList node).flatMap fun c => (s.core c).chans.filterMap fun ch =>
    ch.2.bind.bind fun b => b.ring.map fun r => (r.1, r.2, 32 + 32 * 2 ^ b.logn)
/-- Scratchpad ranges of a core that are saved. -/
def State.spadRanges (s : State) (node tenant c : Nat) : List (Nat × Nat) :=
  let roots := if c == 8 * nodeRow0 node then
      (s.launches.filter fun l => l.part == node && l.tenant == tenant && l.live).filterMap fun l =>
        l.rootK.map fun k => (0x3ffe0 - 32 * k, 32)
    else []
  (0x37fc0, 0x4040) :: roots ++
  ((s.savedRegions node tenant).filter fun r => r.space == 0).map (fun r => (r.off, r.size)) ++
  ((s.openRings node).filter fun r => r.1 == c).map (·.2)
def State.saveCore (s : State) (node tenant c : Nat) : SavedCore :=
  let k := s.core c
  { ready := k.ready, inbox := k.inbox, held := k.held, spad := k.spad.within (s.spadRanges node tenant c),
    cspad := k.cspad.within (((s.savedRegions node tenant).filter fun r => r.space == 1).map (cluPart node c)),
    chans := k.chans, cwp := k.cwp, bars := k.bars, codeimg := k.codeimg, cwb := k.cwb, tasklim := k.tasklim,
    demandlim := k.demandlim, rbb := k.rbb, rbl := k.rbl, dwb := k.dwb, twb := k.twb, twl := k.twl, tvec := k.tvec,
    inboxRun := k.inboxRun, dqLaunch := k.dqLaunch }
/-- Base and size of a node's share of a die scratchpad. -/
def dieBase (node d : Nat) : Nat := Config.dieShare * (Nat.max (nodeRow0 node) (32 * d) % 32)
def dieBytes (node : Nat) : Nat := Config.dieShare * Nat.min (nodeRows node) 32
def State.saveDie (s : State) (node tenant d : Nat) : Memory :=
  let m : Memory := Memory.slice (tget [] s.dspad d) (dieBase node d) (dieBytes node) 0
  m.within (((s.savedRegions node tenant).filter fun r => r.space == 2).map fun r => (r.off, r.size))
/-- What is not saved goes: other scratchpad reads zero afterwards, tiles and accumulators are reset, and so is the id
space of the core's commands (11 R274). -/
def Core.cleared (k : Core) : Core :=
  { k with ready := [], inbox := [], held := [], spad := [], cspad := [], slices := [], chans := [], cwp := [], bars := [],
           portN := [], portE := [], portS := [], portW := [], tiles := [], scales := [], accs := [], tcfg := [],
           recs := [], gang := 0, inboxRun := 0, dqLaunch := none }
def State.clearNode (s : State) (node : Nat) : State :=
  let s := (nodeCoreList node).foldl (fun s c => s.setCore c (s.core c).cleared) s
  let rows := (List.range (nodeRows node)).map (· + nodeRow0 node)
  let s := rows.foldl (fun s r => s.setSeq r { s.seqU r with recs := [], gangRef := [] }) s
  (nodeDies node).foldl (fun s d =>
    { s with dspad := tput s.dspad d (Memory.clear (tget [] s.dspad d) (dieBase node d) (dieBytes node)) }) s

/-- Where a tenant's heap descriptor of a die stands (09 R236). -/
def State.heapAt (s : State) (t d : Nat) : Option Nat :=
  let w := tget 0 s.heaptab t
  if bitOf w 0 then some (64 * bitsOf w 6 46 + 192 * d) else none
/-- A front-end write of whole 64-byte lines. -/
def State.feLines (s : State) (pa : Nat) (bs : List Byte) : Nat → State
  | 0 => s
  | n + 1 => (s.feBytes pa (bs.take 64)).feLines (pa + 64) (bs.drop 64) n
/-- A tenant's allocators write their descriptors back (09 R237), to the table that `HEAPTAB` names then (log 65). -/
def State.heapsBack (s : State) (node t : Nat) : State :=
  (nodeDies node).foldl (fun s d =>
    let h := s.heap d t
    let s := match s.heapAt t d with
      | some pa => if h.isEmpty || !inMemory pa 192 then s else s.feLines pa h 3
      | none => s
    { s with heaps := tdel s.heaps (heapKey d t) }) s
/-- A tenant's allocators take their descriptors; one that breaks the table gives its die no heap. -/
def State.heapsTake (s : State) (node t : Nat) : State :=
  (nodeDies node).foldl (fun s d =>
    match s.heapAt t d with
    | some pa =>
      let h := s.physBytes pa 192
      if inMemory pa 192 && !s.anyPoison pa 192 && heapOk h then { s with heaps := tput s.heaps (heapKey d t) h } else s
    | none => s) s

/-- Save the resident tenant of a node. -/
def State.saveTenant (s : State) (node t : Nat) : State :=
  let v : Saved := { tenant := t, node := node, cores := (nodeCoreList node).map (s.saveCore node t),
                     dies := (nodeDies node).map (s.saveDie node t) }
  let s := (nodeCoreList node).foldl (fun s c => s.rsGive c fun _ => true) s
  let s := ((s.heapsBack node t).clearNode node).flushNode node
  { s with saved := s.saved ++ [v] }
/-- Every dirty line of a node's register stores may be written back (13 R296). -/
def State.rsFree (s : State) (node : Nat) : Bool :=
  (nodeCoreList node).all fun c => (s.core c).rs.all fun x => s.rsMayWrite c x.2
/-- TENANT_SAVE, of node `sel`: every die is quiet. -/
def execTenantSave (s : State) : MOut :=
  .next (match s.node? s.sel with
    | none => s
    | some x =>
      match x.phase, x.resident with
      | .quiesce _, some t =>
        if (nodeDies x.n).all (fun d => x.quiet.contains d && s.dieQuiet x.n d) && s.rsFree x.n then
          (s.saveTenant x.n t).setNode x.n fun y => { y with phase := .saved, resident := none, gone := some t }
        else s
      | _, _ => s)

/-! ## Restoring (R373; 03 R73) -/

/-- Partition-relative homes go to the new node: a physical core moves by `8 * (b - a)` rows. -/
def movedCore (a b c : Nat) : Nat := c - 8 * a + 8 * b
def Binding.moved (x : Binding) (a b : Nat) : Binding :=
  { x with cons := x.cons.map fun c => (movedCore a b c.1, c.2), ring := x.ring.map fun r => (movedCore a b r.1, r.2) }
def Inst.moved (x : Inst) (a b : Nat) : Inst :=
  let row := x.row - a + b
  { x with row := row, cores := x.cores.map fun m => (movedCore a b m.1, m.2), seqs := x.seqs.map fun r => (r.1 - a + b, r.2),
           eng := x.eng.map fun e => (row / 4, e.2) }
/-- The launches and the queued instances of a tenant follow it to another node. -/
def State.followTenant (s : State) (t old new : Nat) : State :=
  if old == new then s
  else
    let mine := (s.launches.filter fun l => l.tenant == t && l.part == old).map (·.no)
    { s with launches := lmapIf (fun l => mine.contains l.no) (fun l => { l with part := new }) s.launches,
             insts := s.insts.map fun (x : Nat × Option Inst) =>
               (x.1, x.2.map fun i => if mine.contains i.launch && i.st == .queued then
                 i.moved (nodeRow0 old) (nodeRow0 new) else i) }
def State.restoreCore (s : State) (c a b : Nat) (v : SavedCore) : State :=
  let k := s.core c
  let chans := v.chans.map fun (ch : Nat × Chan) => (ch.1, { ch.2 with bind := ch.2.bind.map fun x => x.moved a b })
  s.setCore c { k with
    ready := v.ready, inbox := v.inbox, held := v.held, spad := v.spad, cspad := v.cspad, chans := chans, cwp := v.cwp,
    bars := v.bars, codeimg := v.codeimg, cwb := v.cwb, tasklim := v.tasklim, demandlim := v.demandlim, rbb := v.rbb,
    rbl := v.rbl, dwb := v.dwb, twb := v.twb, twl := v.twl, tvec := v.tvec, inboxRun := v.inboxRun,
    dqLaunch := v.dqLaunch }
/-- Install a tenant's saved state. -/
def State.restoreSaved (s : State) (node : Nat) (v : Saved) : State :=
  let a := nodeRow0 v.node
  let b := nodeRow0 node
  let s := ((nodeCoreList node).zip v.cores).foldl (fun s x => s.restoreCore x.1 a b x.2) s
  let s := ((nodeDies node).zip v.dies).foldl (fun s x =>
    let put : Memory := x.2.map fun c => (c.1 + dieBase node x.1, c.2)
    { s with dspad := tput s.dspad x.1 (Memory.overlay (tget [] s.dspad x.1) put) }) s
  { s.followTenant v.tenant v.node node with saved := s.saved.filter (fun y => y.tenant != v.tenant) }
/-- The state in which a tenant's cores start after its definition (03 R73). -/
def State.restoreFirst (s : State) (node : Nat) (d : Tenant) : State :=
  ((List.range (nodeCores node)).zip (nodeCoreList node)).foldl (fun s x =>
    let k := s.core x.2
    s.setCore x.2 { k with
      rbb := (d.rsbase + w64 x.1 * d.rsstride) &&& 0x01fffffffffff000#64, rbl := w64 d.rswords, dwb := w64 d.dwb,
      twb := w64 d.twb, twl := w64 d.twl, tvec := d.tvec, tasklim := d.tasklim, demandlim := d.demandlim, codeimg := [],
      cwb := [], inboxRun := 0, dqLaunch := none }) s
/-- A tenant becomes resident on a node: its way mask, its heaps, and its cores may dispatch. -/
def State.enterTenant (s : State) (node t : Nat) (d : Tenant) : State :=
  let s := match s.savedOf t with
    | some v => s.restoreSaved node v
    | none => s.restoreFirst node d
  let rows := (List.range (nodeRows node)).map (· + nodeRow0 node)
  let s := { s with ways := rows.foldl (fun w r => tput w r (w64 d.ways)) s.ways }
  let s := (s.heapsTake node t).setQuiescing node false
  let s := (nodeCoreList node).foldl (fun s c => s.setCore c { s.core c with halted := false }) s
  s.setNode node fun y => { y with resident := some t, used := true, phase := .steady, requests := y.requests.tail }
/-- The page units of the incoming tenant's launches have come up to their threshold, or are unreachable (R372; 03 R83). -/
def State.broughtUp (s : State) (t : Nat) : Bool :=
  s.launches.all fun l => l.tenant != t || !(l.st == .placing || l.st == .running) || s.gateWith l true
/-- The front end asks Sluice for those units. -/
def State.askFor (s : State) (t : Nat) : State :=
  s.launches.foldl (fun s l => if l.tenant == t && (l.st == .placing || l.st == .running) then s.ask l.no else s) s
/-- TENANT_RESTORE, of node `sel`: every die has saved. A node that a partition control has emptied takes no tenant, and
another takes one once Sluice has brought its units up. -/
def execTenantRestore (s : State) : MOut :=
  .next (match s.node? s.sel with
    | none => s
    | some x =>
      if x.phase != .saved then s
      else if x.partReq.isSome then (s.setQuiescing x.n false).setNode x.n fun y => { y with phase := .steady }
      else match x.requests with
      | [] => (s.setQuiescing x.n false).setNode x.n fun y => { y with phase := .steady }
      | t :: _ =>
        match s.tenantDef t with
        | some d =>
          if x.tset.contains t then
            if s.broughtUp t then ((s.enterTenant x.n t d).mbDone 0).advanceAll else s.askFor t
          else (s.setNode x.n fun y => { y with requests := y.requests.tail }).mbDone 2
        | none => (s.setNode x.n fun y => { y with requests := y.requests.tail }).mbDone 2)

/-! ## Sluice's moves (13 R317) -/

/-- Every leaf below a table of the tree: address, size and frame. -/
def leavesOf (m : Memory) : Nat → Nat → Nat → List (Nat × Nat × Nat)
  | 0, _, _ => []
  | lv + 1, va0, table =>
    (List.range 512).flatMap fun i =>
      let e := m.le (table + 8 * i) 8
      let va := va0 + i * 4096 * 512 ^ lv
      if !pteBit e 0 then []
      else if lv == 0 || pteBit e 7 then [(va, 4096 * 512 ^ lv, ptePpn e)]
      else leavesOf m lv va (ptePpn e)
/-- Every table of the tree below one. -/
def tablesOf (m : Memory) : Nat → Nat → List Nat
  | 0, _ => []
  | lv + 1, table =>
    table :: (List.range 512).flatMap fun i =>
      let e := m.le (table + 8 * i) 8
      if pteBit e 0 && lv != 0 && !pteBit e 7 then tablesOf m lv (ptePpn e) else []
def rootOf (w : W64) : Nat := 4096 * bitsOf w 12 40
/-- How often frames of a physical range are mapped, in every address space. -/
def State.mapCount (s : State) (pa n : Nat) : Nat :=
  (s.roots.filter fun x => bitOf x.2 0).foldl (fun k x =>
    k + ((leavesOf s.mem 5 0 (rootOf x.2)).filter fun l => rangesMeet pa n l.2.2 l.2.1).length) 0
/-- A physical range that something names by its physical address: tables, rings, queue and heap control blocks, and
the ranges of enabled format windows (09 R226). -/
def State.pinnedRange (s : State) (pa n : Nat) : Bool :=
  (s.roots.any fun x => bitOf x.2 0 && (tablesOf s.mem 5 (rootOf x.2)).any fun t => rangesMeet pa n t 4096) ||
  (s.queues.any fun q => rangesMeet pa n q.qcb 128 || rangesMeet pa n q.base (128 * 2 ^ q.logsz)) ||
  (s.heaptab.any fun h => bitOf h.2 0 && rangesMeet pa n (64 * bitsOf h.2 6 46) (8 * 192)) ||
  (s.winList.any fun w => rangesMeet pa n w.2.pbase w.2.len || (w.2.fmt == 0 && rangesMeet pa n w.2.sbase (w.2.len / 16)))

/-- The leaf that maps an address: its entry's place, its size (of one entry of a 64 KiB group) and its frame. -/
def State.leafAt (s : State) (asid va : Nat) : Option (Nat × Nat × Nat) :=
  let root := tget 0 s.roots asid
  if !bitOf root 0 then none
  else match walkFrom s.mem va .fill false 5 (rootOf root) [] with
  | .ok (t, ea :: _) => some (ea, if t.size == 65536 then 4096 else t.size, ptePpn (s.mem.le ea 8))
  | _ => none
/-- No cached translation of a page stands any more, and no line of a register store that its translation found; none while an
engine is using the translation (09 R247). -/
def State.forget (s : State) (asid va n : Nat) : Option State :=
  if s.pinHit (some asid) fun x => va ≤ x && x < va + n then none
  else match s.rsDrop (some asid) fun x => va ≤ x && x < va + n with
  | none => none
  | some s1 => some (s1.tlbDrop fun t => t.asid == asid && rangesMeet va n t.va t.size)
/-- The caches hold nothing of a range of frames, and no stream knows what was there. -/
def State.dropLines (s : State) (pa n : Nat) : State :=
  let inside (l : Nat) : Bool := pa ≤ 64 * l && 64 * l < pa + n
  let t : State := { s with
    dir := s.dir.filter (fun x => !inside x.1), ovtab := s.ovtab.filter (fun x => !inside x.1),
    stale := s.stale.filter (fun x => !(pa ≤ x.1 && x.1 < pa + n)),
    l1d := s.l1d.map (fun x => (x.1, x.2.filter fun l => !inside l)), l2 := s.l2.filter (fun x => !inside x.line),
    l3 := s.l3.filter (fun l => !inside l) }
  t.clobber hostAgent 0 0 pa n
/-- A frame's bytes, listed from 0, and the memory without them. -/
def frameBytes (m : Memory) (pa n : Nat) : Memory := m.slice pa n 0
/-- Sluice may write the page down: its address space is of the tenant that a switch under way has taken off (18 R372). -/
def State.mayGoDown (s : State) (asid : Nat) : Bool :=
  s.ovsub && s.nodes.any fun x => x.phase == .saved && x.gone == some (tget 256 s.asidOwner asid)
/-- SLUICE_MOVE: a page of device memory that one address space maps once is moved into a free frame, aligned to its size
(R317), or, at a tenant switch, down to far memory (18 R366, R372). -/
def execSluiceMove (asid : Nat) (va : W64) (dest : Option Nat) (s : State) : MOut :=
  .next (if !canonical57 va.toNat then s
    else match s.leafAt asid va.toNat with
    | none => s
    | some (_, n, pa) =>
      let page := va.toNat / n * n
      if s.anyPoison pa n || Config.devEnd < pa + n || s.mapCount pa n != 1 || s.pinnedRange pa n then s
      else match s.forget asid page n with
      | none => s
      | some s1 =>
        match s1.leafAt asid va.toNat with
        | none => s
        | some (ea, _, _) =>
          let bytes := frameBytes s1.mem pa n
          let e := s1.mem.le ea 8
          let s2 : State := { s1 with mem := s1.mem.clear pa n }
          let s2 : State := s2.dropLines pa n
          match dest with
          | none =>
            if !s.mayGoDown asid then s
            else
              let far : FarPage := { asid := asid, va := page, size := n, bytes := bytes }
              let s3 : State := { s2 with pages := s2.pages ++ [far], frames := s2.frames ++ [(pa, n)] }
              s3.feStore ea 8 (e / 2 * 2)
          | some f =>
            match takeFrame s.frames f n with
            | none => s
            | some rest =>
              let m := (s2.mem.clear f n).overlay (bytes.map fun b => (f + b.1, b.2))
              let s3 : State := { s2.dropLines f n with mem := m, frames := rest ++ [(pa, n)] }
              s3.feStore ea 8 (pointTo e f))

/-! ## Fabric time (18 R412) -/

/-- TIME_ALIGN: the fabric's time is `t`, while COLRUM is accepted. Time never goes back: it is held instead. -/
def execTimeAlign (t : Nat) (s : State) : MOut :=
  .next (if !s.feat 3 then s
    else if s.time ≤ t then { s with time := t, hold := 0 } else { s with hold := s.time - t })

end Sys2Proof.Machine
end

