-- ==== Sys2Proof/Machine/Manage.lean ====
section
/-!
DEFINITION. The management side: reset and boot, measurement, signed updates, sensors and the board link (spec 21 R400
to R407; 04 R90).
-/
namespace Sys2Proof.Machine

/-! ## Image copies in flash (R403, R404) -/

/-- An image: its header of 384 bytes and its body. -/
structure FlashImage where
  header : List Byte
  body : List Byte
  deriving DecidableEq, Repr
def FlashImage.field (x : FlashImage) (o n : Nat) : List Byte := (x.header.drop o).take n
def FlashImage.imgid (x : FlashImage) : Nat := leNat (x.field 0 8)
def FlashImage.version (x : FlashImage) : Nat := leNat (x.field 8 4)
def FlashImage.svn (x : FlashImage) : Nat := leNat (x.field 12 4)
def FlashImage.digest (x : FlashImage) : List Byte := Config.sha384 (x.header ++ x.body)
/-- The images of a copy, one after another from its start, up to a header of zeros (log 19). -/
def imagesFrom (m : Memory) : Nat → Nat → List FlashImage
  | 0, _ => []
  | f + 1, a =>
    let h := m.bytes a 384
    if h.all (· == 0) then []
    else
      let len := leNat ((h.drop 16).take 8)
      { header := h, body := m.bytes (a + 384) len } :: imagesFrom m f (a + 384 + len)
def imagesOf (m : Memory) : List FlashImage := imagesFrom m m.length 0
def Mgmt.copy (g : Mgmt) (b : Bool) : Memory := if b then g.copyB else g.copyA
/-- The checks of R404 but the security version. -/
def Mgmt.signed (g : Mgmt) (x : FlashImage) : Bool :=
  let key := x.field 168 97
  (g.keyDigests.take 2).contains (Config.sha384 key) &&
  Config.ecdsaVerify key (Config.sha384 (x.field 0 72)) (x.field 72 96) && x.field 24 48 == Config.sha384 x.body
def Mgmt.current (g : Mgmt) (x : FlashImage) : Bool := g.floor ≤ x.svn
/-- A copy with two layer images or more, all valid. -/
def Mgmt.valid (g : Mgmt) (b : Bool) : Bool :=
  let xs := imagesOf (g.copy b)
  2 ≤ xs.length && xs.all fun x => g.signed x && g.current x

/-! ## The mailbox (R395, R402) -/

def MLogEnt.bytes (e : MLogEnt) : List Byte :=
  leBytes e.layer 1 ++ leBytes e.kind 1 ++ leBytes 0 2 ++ leBytes e.version 4 ++ leBytes e.imgid 8 ++
  (e.digest ++ List.replicate 48 0).take 48
/-- What GETLOG writes. -/
def State.logBlob (s : State) : List Byte :=
  let g := s.mgmt
  let head := leBytes g.mlog.length 4 ++ leBytes (bN g.runB) 4 ++ leBytes g.bootCount 8 ++ leBytes (s.arg 2).toNat 8 ++
    leBytes (s.arg 3).toNat 8 ++ g.mlog.flatMap MLogEnt.bytes
  let sig := (Config.ecdsaSign (layerKey (g.seed 2)) (Config.sha384 head) ++ List.replicate 96 0).take 96
  let certs := g.certs.flatMap id
  head ++ sig ++ leBytes certs.length 4 ++ certs
/-- n bytes at a host physical address lie in host memory (09 R409). -/
def inHost (ha n : Nat) : Bool := Config.hostBase + ha + n ≤ Config.aliasBase
/-- GETLOG: `MBARG0` is a host physical address. Its write waits as any does for an overflowed line (13 R296); where the host link
answers it with an error, the command gives result 2, and the machine check is logged (09 R409, log 75). -/
def execGetlog (s : State) : MOut :=
  .next (s.mbRun 6 fun s =>
    let ha := (s.arg 0).toNat
    let bs := s.logBlob
    if !inHost ha bs.length then s.mbDone 2
    else if (s.arg 1).toNat < bs.length then s.mbDone 7
    else if s.anyPoison (Config.hostBase + ha) bs.length then (s.logEvent 2).mbDone 2
    else if !(linesOf ((bytesAt (Config.hostBase + ha) bs).map (·.1))).all (s.mayWrite hostAgent) then s
    else (s.putBytes hostAgent (bytesAt (Config.hostBase + ha) bs)).mbDone 0)
/-- UPDWRITE: into the copy that is not running. Bytes that the host link answers with an error write nothing: the command gives
result 2, and the machine check is logged (18 R369, log 72). -/
def execUpdwrite (s : State) : MOut :=
  .next (s.mbRun 7 fun s =>
    let ha := (s.arg 0).toNat
    let n := (s.arg 1).toNat
    let g := s.mgmt
    if !inHost ha n then s.mbDone 2
    else if s.anyPoison (Config.hostBase + ha) n then (s.logEvent 2).mbDone 2
    else
      let put (m : Memory) : Memory := m.setBytes (s.arg 2).toNat (s.physBytes (Config.hostBase + ha) n)
      let g := if g.runB then { g with copyA := put g.copyA } else { g with copyB := put g.copyB }
      ({ s with mgmt := g }.logEvent 4).mbDone 0)
/-- UPDARM: the copy that is not running is selected for the next reset. -/
def execUpdarm (s : State) : MOut :=
  .next (s.mbRun 8 fun s =>
    let g := s.mgmt
    let xs := imagesOf (g.copy (!g.runB))
    if xs.length < 2 || !xs.all g.signed then s.mbDone 8
    else if !xs.all g.current then s.mbDone 9
    else ({ s with mgmt := { g with selB := !g.runB, armed := true, fails := 0 } }.logEvent 4).mbDone 0)
/-- The least security version of the running copy's images. -/
def Mgmt.runSvn (g : Mgmt) : Nat :=
  let xs := imagesOf (g.copy g.runB)
  if xs.isEmpty then 0 else xs.foldl (fun m x => Nat.min m x.svn) 64
/-- UPDSVN: fuses are never unblown. -/
def execUpdsvn (s : State) : MOut :=
  .next (s.mbRun 9 fun s =>
    let g := s.mgmt
    ({ s with mgmt := { g with floor := Nat.max g.floor (Nat.min 64 g.runSvn) } }.logEvent 4).mbDone 0)

/-! ## Reset and boot (R90, R400, R401, R404) -/

/-- What survives a reset: flash, fuses and the management log. -/
def Mgmt.kept (g : Mgmt) : Mgmt :=
  { g with layer := 0, mlog := [], m1 := [], m2 := [], causes := [], cap := 2800, reply := [], clocks := [], alive := true }
/-- Memory after a reset: a byte that a cache held newer is left at either value (log 19). -/
def State.settledMem (s : State) : Memory :=
  s.stale.foldl (fun m x => if Config.freeNat (s.freeCtr + x.1) % 2 == 0 then m.set x.1 x.2.old else m) s.mem
/-- DEVICE_RESET: every register and scratchpad at its reset value, node 1 alone active; memory and flash stay. -/
def execDeviceReset (s : State) : MOut :=
  .next { State.reset with
    mem := s.settledMem, poison := s.poison, mgmt := s.mgmt.kept, agenda := s.agenda, freeCtr := s.freeCtr + 1 }

/-- Measurements of a copy's images (R401): the first two are layers 1 and 2; then come helper images, core firmware and
microcode, which an image's identifier tells apart (log 19). -/
def measure (xs : List FlashImage) : List MLogEnt :=
  ((List.range xs.length).zip xs).map fun x =>
    { layer := Nat.min x.1 2, kind := if x.1 < 2 then 1 else 2 + Config.imageKind x.2.imgid % 3, version := x.2.version,
      imgid := x.2.imgid, digest := x.2.digest }
/-- A copy boots: its layers' digests are what seeds, keys and certificates come from. -/
def Mgmt.bootCopy (g : Mgmt) (b : Bool) : Mgmt :=
  match imagesOf (g.copy b) with
  | x1 :: x2 :: rest =>
    { g with runB := b, layer := 2, bootCount := g.bootCount + 1, m1 := x1.digest, m2 := x2.digest,
             mlog := measure (x1 :: x2 :: rest) }
  | _ => g
/-- The armed copy has not reached layer 2: the third time in a row it is dropped (R404). -/
def Mgmt.bootFailed (g : Mgmt) : Mgmt :=
  if !g.armed then g
  else if g.fails < 2 then { g with fails := g.fails + 1 }
  else { g with selB := !g.selB, armed := false, fails := 0 }
/-- BOOT, once after a reset; with `sel` nonzero the copy that is started fails to reach layer 2. Whenever the selected copy
does not reach it, the reset counts as failed. -/
def execBoot (s : State) : MOut :=
  .next (
    let g := s.mgmt
    if g.layer != 0 || !g.alive then s
    else
      let go (b : Bool) : State :=
        if s.sel != 0 then { s with mgmt := { g.bootFailed with runB := b, layer := 1 } }
        else
          let g1 := if b == g.selB then { g with armed := false, fails := 0 } else g.bootFailed
          { s with mgmt := g1.bootCopy b }.logEvent 5
      if g.valid g.selB then go g.selB
      else if g.valid (!g.selB) then go (!g.selB)
      else { s with mgmt := { g.bootFailed with alive := false } })

/-! ## Sensors (R405) -/

def Mgmt.clock (g : Mgmt) (d : Nat) : Nat := tget 2250 g.clocks d
/-- The sensors of compute die d: its own, its base die's and that die's stacks' (log 19), each with its limit in tenths
of a degree. -/
def dieSensors (r : Sensors) (d : Nat) : List (Nat × Nat) :=
  (r.compute.getD d 0, 1050) :: (r.base.getD (d / 2) 0, 1000) ::
  (List.range 3).map fun i => (r.hbm.getD (3 * (d / 2) + i) 0, 950)
/-- The sensors that throttle a die after a poll: those that did and are not yet cool, and those at their limit. Number 0
is the package's power, the others the die's in order. -/
def newCauses (old : List Nat) (cap watts : Nat) (xs : List (Nat × Nat)) : List Nat :=
  let one (i : Nat) (hot cool : Bool) : List Nat := if hot || (old.contains i && !cool) then [i] else []
  one 0 (cap ≤ watts) (100 * watts ≤ 95 * cap) ++
  ((List.range xs.length).zip xs).flatMap fun x => one (x.1 + 1) (x.2.2 ≤ x.2.1) (x.2.1 + 50 ≤ x.2.2)
/-- One step down while a sensor is at its limit, the whole way up once none throttles, or as it is. -/
def newClock (clock : Nat) (hot : Bool) (causes : List Nat) : Nat :=
  if hot then Nat.max 1200 (clock - 75) else if causes.isEmpty then 2250 else clock
/-- SENSOR_POLL. -/
def execSensorPoll (r : Sensors) (s : State) : MOut :=
  .next (
    let dies := List.range 8
    let tooHot := (dies.any fun d => (dieSensors r d).any fun x => x.2 + 100 ≤ x.1)
    if tooHot then
      let s := s.queues.foldl (fun s q => s.postEvent q.q 6 0 0 0 0) s
      let s := s.logEvent 1
      { s with mgmt := { s.mgmt with shut := true, sensors := r } }
    else
      let g := s.mgmt
      let causes := dies.foldl (fun t d => tset [] t d (newCauses (tget [] g.causes d) g.cap r.watts (dieSensors r d))) g.causes
      let clocks := dies.foldl (fun t d =>
        let hot := g.cap ≤ r.watts || (dieSensors r d).any fun x => x.2 ≤ x.1
        tset 2250 t d (newClock (g.clock d) hot (tget [] causes d))) g.clocks
      let lower := dies.any fun d => tget 2250 clocks d < g.clock d
      let s := { s with mgmt := { g with clocks := clocks, causes := causes, sensors := r } }
      if lower then s.logEvent 0 else s)

/-! ## The board link (R407) -/

/-- A sensor's last reading (R405): of a compute die, a base die, a stack, or the package's power. -/
def sensorReading (r : Sensors) (kind u : Nat) : Nat :=
  match kind with
  | 0 => r.compute.getD u 0
  | 1 => r.base.getD u 0
  | 2 => r.hbm.getD u 0
  | _ => r.watts
/-- MCTP_MESSAGE: the cap lies from 1,200 W to 2,800 W, and no request sets it outside. -/
def execMctpMessage (m : Mctp) (s : State) : MOut :=
  .next (
    let g := s.mgmt
    match m with
    | .setCap w => if 1200 ≤ w && w ≤ 2800 then { s with mgmt := { g with cap := w } } else s
    | .getCap => { s with mgmt := { g with reply := leBytes g.cap 4 } }
    | .getSensor kind u => { s with mgmt := { g with reply := leBytes (sensorReading g.sensors kind u) 4 } }
    | .spdm => { s with mgmt := { g with reply := Config.spdmReply g.certs } })

end Sys2Proof.Machine
end

