-- ==== Sys2Proof/Machine/Dispatch.lean ====
section
/-!
DEFINITION. Every instruction and every step of another agent, to its meaning.
-/
namespace Sys2Proof.Machine

def exec (i : Instr) (s : State) : Host.Outcome State Fault Refusal :=
  match i with
  | .doorbell q v => Sys2Proof.Machine.execDoorbell q v s
  | .externalSignal q v => Sys2Proof.Machine.execExternalSignal q v s
  | .peerSignal tenant dev lid status => Sys2Proof.Machine.execPeerSignal tenant dev lid status s
  | .featAccWrite k v => Sys2Proof.Machine.execFeatAccWrite k v s
  | .registerWrite bar0 off v => Sys2Proof.Machine.execRegisterWrite bar0 off v s
  | .mailboxUnknown cmd => Sys2Proof.Machine.execMailboxUnknown cmd s
  | .formatWindowWrite n k v => Sys2Proof.Machine.execFormatWindowWrite n k v s
  | .switchRegisterWrite k v => Sys2Proof.Machine.execSwitchRegisterWrite k v s
  | .monselWrite off v => Sys2Proof.Machine.execMonselWrite off v s
  | .sluiceUnitReport asid vpage reached => Sys2Proof.Machine.execSluiceUnitReport asid vpage reached s
  | .teamFault k code => Sys2Proof.Machine.execTeamFault k code s
  | .lineFetch c line => Sys2Proof.Machine.execLineFetch c line s
  | .demandFetchServed w frame => Sys2Proof.Machine.execDemandFetchServed w frame s
  | .demandTimeout w => Sys2Proof.Machine.execDemandTimeout w s
  | .machineCheck c pa => Sys2Proof.Machine.execMachineCheck c pa s
  | .hostWrite pa bytes => Sys2Proof.Machine.execHostWrite pa bytes s
  | .hostRead pa n => Sys2Proof.Machine.execHostRead pa n s
  | .copyStart ch => Sys2Proof.Machine.execCopyStart ch s
  | .copyChunk ch => Sys2Proof.Machine.execCopyChunk ch s
  | .copyComplete ch => Sys2Proof.Machine.execCopyComplete ch s
  | .commandStart k => Sys2Proof.Machine.execCommandStart k s
  | .commandRetire k => Sys2Proof.Machine.execCommandRetire k s
  | .sluiceMove asid va dest => Sys2Proof.Machine.execSluiceMove asid va dest s
  | .sensorPoll r => Sys2Proof.Machine.execSensorPoll r s
  | .timeAlign t => Sys2Proof.Machine.execTimeAlign t s
  | .add ty d a b => Sys2Proof.Machine.execAdd ty d a b s
  | .sub ty d a b => Sys2Proof.Machine.execSub ty d a b s
  | .mul ty d a b => Sys2Proof.Machine.execMul ty d a b s
  | .mulh ty d a b => Sys2Proof.Machine.execMulh ty d a b s
  | .div ty d a b => Sys2Proof.Machine.execDiv ty d a b s
  | .rem ty d a b => Sys2Proof.Machine.execRem ty d a b s
  | .and ty d a b => Sys2Proof.Machine.execAnd ty d a b s
  | .or ty d a b => Sys2Proof.Machine.execOr ty d a b s
  | .xor ty d a b => Sys2Proof.Machine.execXor ty d a b s
  | .shl ty d a b => Sys2Proof.Machine.execShl ty d a b s
  | .shr ty d a b => Sys2Proof.Machine.execShr ty d a b s
  | .rotr ty d a b => Sys2Proof.Machine.execRotr ty d a b s
  | .min ty d a b => Sys2Proof.Machine.execMin ty d a b s
  | .max ty d a b => Sys2Proof.Machine.execMax ty d a b s
  | .cmp cc ty d a b => Sys2Proof.Machine.execCmp cc ty d a b s
  | .sel n d a b c => Sys2Proof.Machine.execSel n d a b c s
  | .mov n d a => Sys2Proof.Machine.execMov n d a s
  | .bext n d a b c => Sys2Proof.Machine.execBext n d a b c s
  | .bins d a b c => Sys2Proof.Machine.execBins d a b c s
  | .clz ty d a => Sys2Proof.Machine.execClz ty d a s
  | .ctz ty d a => Sys2Proof.Machine.execCtz ty d a s
  | .popc ty d a => Sys2Proof.Machine.execPopc ty d a s
  | .brev ty d a => Sys2Proof.Machine.execBrev ty d a s
  | .bswap ty d a => Sys2Proof.Machine.execBswap ty d a s
  | .adda k d a b => Sys2Proof.Machine.execAdda k d a b s
  | .madd ty d a b c => Sys2Proof.Machine.execMadd ty d a b c s
  | .sext ty d a => Sys2Proof.Machine.execSext ty d a s
  | .zext ty d a => Sys2Proof.Machine.execZext ty d a s
  | .addk n d a kw ko => Sys2Proof.Machine.execAddk n d a kw ko s
  | .movk n d kw ko => Sys2Proof.Machine.execMovk n d kw ko s
  | .li d imm => Sys2Proof.Machine.execLi d imm s
  | .addi d a imm => Sys2Proof.Machine.execAddi d a imm s
  | .andi d a imm => Sys2Proof.Machine.execAndi d a imm s
  | .ori d a imm => Sys2Proof.Machine.execOri d a imm s
  | .xori d a imm => Sys2Proof.Machine.execXori d a imm s
  | .shli d a sh => Sys2Proof.Machine.execShli d a sh s
  | .shri d a sh => Sys2Proof.Machine.execShri d a sh s
  | .srai d a sh => Sys2Proof.Machine.execSrai d a sh s
  | .cmpi cc d a imm => Sys2Proof.Machine.execCmpi cc d a imm s
  | .lih d a imm => Sys2Proof.Machine.execLih d a imm s
  | .muli d a imm => Sys2Proof.Machine.execMuli d a imm s
  | .maxi d a imm => Sys2Proof.Machine.execMaxi d a imm s
  | .lpc d imm => Sys2Proof.Machine.execLpc d imm s
  | .mini d a imm => Sys2Proof.Machine.execMini d a imm s
  | .beq slot a b off => Sys2Proof.Machine.execBeq slot a b off s
  | .bne slot a b off => Sys2Proof.Machine.execBne slot a b off s
  | .blt slot a b off => Sys2Proof.Machine.execBlt slot a b off s
  | .bge slot a b off => Sys2Proof.Machine.execBge slot a b off s
  | .bltn slot a b off => Sys2Proof.Machine.execBltn slot a b off s
  | .bgen slot a b off => Sys2Proof.Machine.execBgen slot a b off s
  | .j slot off => Sys2Proof.Machine.execJ slot off s
  | .call slot d off => Sys2Proof.Machine.execCall slot d off s
  | .jr a => Sys2Proof.Machine.execJr a s
  | .callr d a => Sys2Proof.Machine.execCallr d a s
  | .ret a => Sys2Proof.Machine.execRet a s
  | .win a b => Sys2Proof.Machine.execWin a b s
  | .wini delta size => Sys2Proof.Machine.execWini delta size s
  | .winqBase d => Sys2Proof.Machine.execWinqBase d s
  | .winqSize d => Sys2Proof.Machine.execWinqSize d s
  | .mfs d num => Sys2Proof.Machine.execMfs d num s
  | .mts a num => Sys2Proof.Machine.execMts a num s
  | .mtsCodeimg a n => Sys2Proof.Machine.execMtsCodeimg a n s
  | .mtsFcsr a => Sys2Proof.Machine.execMtsFcsr a s
  | .mtsRbb a => Sys2Proof.Machine.execMtsRbb a s
  | .wlt d a b => Sys2Proof.Machine.execWlt d a b s
  | .qstat d q => Sys2Proof.Machine.execQstat d q s
  | .ld w d a imm => Sys2Proof.Machine.execLd w d a imm s
  | .st w d a imm => Sys2Proof.Machine.execSt w d a imm s
  | .ldx ty d a b => Sys2Proof.Machine.execLdx ty d a b s
  | .stx ty d a b => Sys2Proof.Machine.execStx ty d a b s
  | .pref lv a imm => Sys2Proof.Machine.execPref lv a imm s
  | .cmoClean lv a => Sys2Proof.Machine.execCmoClean lv a s
  | .cmoInval lv a => Sys2Proof.Machine.execCmoInval lv a s
  | .cmoFlush lv a => Sys2Proof.Machine.execCmoFlush lv a s
  | .lds w d a imm => Sys2Proof.Machine.execLds w d a imm s
  | .sts w d a imm => Sys2Proof.Machine.execSts w d a imm s
  | .ldc w d a imm => Sys2Proof.Machine.execLdc w d a imm s
  | .stc w d a imm => Sys2Proof.Machine.execStc w d a imm s
  | .ldd w d a imm => Sys2Proof.Machine.execLdd w d a imm s
  | .std w d a imm => Sys2Proof.Machine.execStd w d a imm s
  | .vld d a m ofs => Sys2Proof.Machine.execVld d a m ofs s
  | .vst d a m ofs => Sys2Proof.Machine.execVst d a m ofs s
  | .vlds d a b m => Sys2Proof.Machine.execVlds d a b m s
  | .vsts d a b m => Sys2Proof.Machine.execVsts d a b m s
  | .vgat d a b m => Sys2Proof.Machine.execVgat d a b m s
  | .vsct d a b m => Sys2Proof.Machine.execVsct d a b m s
  | .ldl d a b m => Sys2Proof.Machine.execLdl d a b m s
  | .stl d a b m => Sys2Proof.Machine.execStl d a b m s
  | .vlsp d a m ofs => Sys2Proof.Machine.execVlsp d a m ofs s
  | .vssp d a m ofs => Sys2Proof.Machine.execVssp d a m ofs s
  | .vlcl d a m ofs => Sys2Proof.Machine.execVlcl d a m ofs s
  | .vscl d a m ofs => Sys2Proof.Machine.execVscl d a m ofs s
  | .vldd d a m ofs => Sys2Proof.Machine.execVldd d a m ofs s
  | .vstd d a m ofs => Sys2Proof.Machine.execVstd d a m ofs s
  | .send d a b c src dst => Sys2Proof.Machine.execSend d a b c src dst s
  | .sendb d a b c src dst => Sys2Proof.Machine.execSendb d a b c src dst s
  | .chctlOpen d a b => Sys2Proof.Machine.execChctlOpen d a b s
  | .chctlClose d => Sys2Proof.Machine.execChctlClose d s
  | .chctlReset d => Sys2Proof.Machine.execChctlReset d s
  | .cwait d a b => Sys2Proof.Machine.execCwait d a b s
  | .crpop d a try_ => Sys2Proof.Machine.execCrpop d a try_ s
  | .seal a sp => Sys2Proof.Machine.execSeal a sp s
  | .alloc d a nf => Sys2Proof.Machine.execAlloc d a nf s
  | .free a => Sys2Proof.Machine.execFree a s
  | .chq d a => Sys2Proof.Machine.execChq d a s
  | .vadd sat ty d a b m => Sys2Proof.Machine.execVadd sat ty d a b m s
  | .vsub sat ty d a b m => Sys2Proof.Machine.execVsub sat ty d a b m s
  | .vmul ty d a b m => Sys2Proof.Machine.execVmul ty d a b m s
  | .vmulh ty d a b m => Sys2Proof.Machine.execVmulh ty d a b m s
  | .vdiv ty d a b m => Sys2Proof.Machine.execVdiv ty d a b m s
  | .vrem ty d a b m => Sys2Proof.Machine.execVrem ty d a b m s
  | .vand ty d a b m => Sys2Proof.Machine.execVand ty d a b m s
  | .vor ty d a b m => Sys2Proof.Machine.execVor ty d a b m s
  | .vxor ty d a b m => Sys2Proof.Machine.execVxor ty d a b m s
  | .vshl ty d a b m => Sys2Proof.Machine.execVshl ty d a b m s
  | .vshr ty d a b m => Sys2Proof.Machine.execVshr ty d a b m s
  | .vmin ty d a b m => Sys2Proof.Machine.execVmin ty d a b m s
  | .vmax ty d a b m => Sys2Proof.Machine.execVmax ty d a b m s
  | .vcmp cc ty d a b m => Sys2Proof.Machine.execVcmp cc ty d a b m s
  | .vsel d a b c m => Sys2Proof.Machine.execVsel d a b c m s
  | .vabs w d a m => Sys2Proof.Machine.execVabs w d a m s
  | .vfadd ty rm d a b m => Sys2Proof.Machine.execVfadd ty rm d a b m s
  | .vfsub ty rm d a b m => Sys2Proof.Machine.execVfsub ty rm d a b m s
  | .vfmul ty rm d a b m => Sys2Proof.Machine.execVfmul ty rm d a b m s
  | .vfdiv ty rm d a b m => Sys2Proof.Machine.execVfdiv ty rm d a b m s
  | .vfsqrt ty rm d a m => Sys2Proof.Machine.execVfsqrt ty rm d a m s
  | .vfmin ty d a b m => Sys2Proof.Machine.execVfmin ty d a b m s
  | .vfmax ty d a b m => Sys2Proof.Machine.execVfmax ty d a b m s
  | .vfabs ty d a m => Sys2Proof.Machine.execVfabs ty d a m s
  | .vfneg ty d a m => Sys2Proof.Machine.execVfneg ty d a m s
  | .vfsgn op ty d a b m => Sys2Proof.Machine.execVfsgn op ty d a b m s
  | .vfcls ty d a m => Sys2Proof.Machine.execVfcls ty d a m s
  | .vfcmp cc ty d a b m => Sys2Proof.Machine.execVfcmp cc ty d a b m s
  | .vcvt td ts rm sat part d a m => Sys2Proof.Machine.execVcvt td ts rm sat part d a m s
  | .vfrint ty rm d a m => Sys2Proof.Machine.execVfrint ty rm d a m s
  | .vfscl ty rm d a b m => Sys2Proof.Machine.execVfscl ty rm d a b m s
  | .vfma ty rm d a b c m => Sys2Proof.Machine.execVfma ty rm d a b c m s
  | .vfms ty rm d a b c m => Sys2Proof.Machine.execVfms ty rm d a b c m s
  | .vfnma ty rm d a b c m => Sys2Proof.Machine.execVfnma ty rm d a b c m s
  | .vfnms ty rm d a b c m => Sys2Proof.Machine.execVfnms ty rm d a b c m s
  | .vfaddk ty rm d a m kw ko => Sys2Proof.Machine.execVfaddk ty rm d a m kw ko s
  | .vfmulk ty rm d a m kw ko => Sys2Proof.Machine.execVfmulk ty rm d a m kw ko s
  | .vaddk ty d a m kw ko => Sys2Proof.Machine.execVaddk ty d a m kw ko s
  | .vmulk ty d a m kw ko => Sys2Proof.Machine.execVmulk ty d a m kw ko s
  | .vbcast d a m => Sys2Proof.Machine.execVbcast d a m s
  | .vbcastk d m kw ko => Sys2Proof.Machine.execVbcastk d m kw ko s
  | .vins d a b => Sys2Proof.Machine.execVins d a b s
  | .vext d a b => Sys2Proof.Machine.execVext d a b s
  | .vmask d a m => Sys2Proof.Machine.execVmask d a m s
  | .vperm d a b m => Sys2Proof.Machine.execVperm d a b m s
  | .vrot d a b m => Sys2Proof.Machine.execVrot d a b m s
  | .vzip hi d a b m => Sys2Proof.Machine.execVzip hi d a b m s
  | .vunzip hi d a b m => Sys2Proof.Machine.execVunzip hi d a b m s
  | .vcompress d a b => Sys2Proof.Machine.execVcompress d a b s
  | .vexpand d a b => Sys2Proof.Machine.execVexpand d a b s
  | .vredadd ty d a m => Sys2Proof.Machine.execVredadd ty d a m s
  | .vredmin ty d a m => Sys2Proof.Machine.execVredmin ty d a m s
  | .vredmax ty d a m => Sys2Proof.Machine.execVredmax ty d a m s
  | .vfredadd ty rm d a m => Sys2Proof.Machine.execVfredadd ty rm d a m s
  | .vfredmin ty d a m => Sys2Proof.Machine.execVfredmin ty d a m s
  | .vfredmax ty d a m => Sys2Proof.Machine.execVfredmax ty d a m s
  | .vredand ty d a m => Sys2Proof.Machine.execVredand ty d a m s
  | .vredor ty d a m => Sys2Proof.Machine.execVredor ty d a m s
  | .vmcnt d a m => Sys2Proof.Machine.execVmcnt d a m s
  | .vredxor ty d a m => Sys2Proof.Machine.execVredxor ty d a m s
  | .xclr m => Sys2Proof.Machine.execXclr m s
  | .xfma neg a b m => Sys2Proof.Machine.execXfma neg a b m s
  | .xadd neg a m => Sys2Proof.Machine.execXadd neg a m s
  | .xsum m => Sys2Proof.Machine.execXsum m s
  | .xsgn d m => Sys2Proof.Machine.execXsgn d m s
  | .xrnd rm d m => Sys2Proof.Machine.execXrnd rm d m s
  | .xst a m => Sys2Proof.Machine.execXst a m s
  | .xld a m => Sys2Proof.Machine.execXld a m s
  | .tld ty sp d a ids => Sys2Proof.Machine.execTld ty sp d a ids s
  | .tst ty sp d a ids => Sys2Proof.Machine.execTst ty sp d a ids s
  | .tzero d ids => Sys2Proof.Machine.execTzero d ids s
  | .mma ty g ad nb na d a b ids => Sys2Proof.Machine.execMma ty g ad nb na d a b ids s
  | .amov ty sat d a b ids => Sys2Proof.Machine.execAmov ty sat d a b ids s
  | .ast sp d a ids => Sys2Proof.Machine.execAst sp d a ids s
  | .ald sp d a ids => Sys2Proof.Machine.execAld sp d a ids s
  | .azero d ids => Sys2Proof.Machine.execAzero d ids s
  | .mwait seq d cid => Sys2Proof.Machine.execMwait seq d cid s
  | .ldacq w sc sp d a ofs => Sys2Proof.Machine.execLdacq w sc sp d a ofs s
  | .strel w sc sp d a ofs => Sys2Proof.Machine.execStrel w sc sp d a ofs s
  | .fence k sc => Sys2Proof.Machine.execFence k sc s
  | .amo op ty sc sp ord d a b => Sys2Proof.Machine.execAmo op ty sc sp ord d a b s
  | .cas ty sc sp ord d a b c => Sys2Proof.Machine.execCas ty sc sp ord d a b c s
  | .famo ty rm sc sp ord d a b => Sys2Proof.Machine.execFamo ty rm sc sp ord d a b s
  | .barArrive d a => Sys2Proof.Machine.execBarArrive d a s
  | .barWait d a b => Sys2Proof.Machine.execBarWait d a b s
  | .barSync d a => Sys2Proof.Machine.execBarSync d a s
  | .barInit sc a b => Sys2Proof.Machine.execBarInit sc a b s
  | .fork a => Sys2Proof.Machine.execFork a s
  | .jdec sc a => Sys2Proof.Machine.execJdec sc a s
  | .msg a b => Sys2Proof.Machine.execMsg a b s
  | .dqopPop d => Sys2Proof.Machine.execDqopPop d s
  | .dqopSteal d a => Sys2Proof.Machine.execDqopSteal d a s
  | .dqopCount d => Sys2Proof.Machine.execDqopCount d s
  | .hand role rcv pipe a lmap => Sys2Proof.Machine.execHand role rcv pipe a lmap s
  | .tbindMyrole d => Sys2Proof.Machine.execTbindMyrole d s
  | .tbindMembers d a => Sys2Proof.Machine.execTbindMembers d a s
  | .trap a => Sys2Proof.Machine.execTrap a s
  | .tlbiAsid a => Sys2Proof.Machine.execTlbiAsid a s
  | .tlbiPage a b => Sys2Proof.Machine.execTlbiPage a b s
  | .asidctl d a b => Sys2Proof.Machine.execAsidctl d a b s
  | .wdctlGet d => Sys2Proof.Machine.execWdctlGet d s
  | .wdctlSet a => Sys2Proof.Machine.execWdctlSet a s
  | .partctlSplit d a => Sys2Proof.Machine.execPartctlSplit d a s
  | .partctlMerge d a => Sys2Proof.Machine.execPartctlMerge d a s
  | .evpost a b => Sys2Proof.Machine.execEvpost a b s
  | .loopc slot d a off => Sys2Proof.Machine.execLoopc slot d a off s
  | .vdotx n d a b c m => Sys2Proof.Machine.execVdotx n d a b c m s
  | .tldq ty d a b ids => Sys2Proof.Machine.execTldq ty d a b ids s
  | .swapw d a => Sys2Proof.Machine.execSwapw d a s
  | .mctpMessage m => Sys2Proof.Machine.execMctpMessage m s
  | .unassignedOpcode code faddr data => Sys2Proof.Machine.execUnassignedOpcode code faddr data s
  | .regq => Sys2Proof.Machine.execRegq s
  | .unregq => Sys2Proof.Machine.execUnregq s
  | .unregqDrained => Sys2Proof.Machine.execUnregqDrained s
  | .qresume => Sys2Proof.Machine.execQresume s
  | .lcancel => Sys2Proof.Machine.execLcancel s
  | .tendef => Sys2Proof.Machine.execTendef s
  | .asidset => Sys2Proof.Machine.execAsidset s
  | .tenset => Sys2Proof.Machine.execTenset s
  | .tenres => Sys2Proof.Machine.execTenres s
  | .nodectl => Sys2Proof.Machine.execNodectl s
  | .pflush => Sys2Proof.Machine.execPflush s
  | .getlog => Sys2Proof.Machine.execGetlog s
  | .updwrite => Sys2Proof.Machine.execUpdwrite s
  | .updarm => Sys2Proof.Machine.execUpdarm s
  | .updsvn => Sys2Proof.Machine.execUpdsvn s
  | .ident => Sys2Proof.Machine.execIdent s
  | .queueHelperVisit => Sys2Proof.Machine.execQueueHelperVisit s
  | .launchAccept => Sys2Proof.Machine.execLaunchAccept s
  | .launchPlace => Sys2Proof.Machine.execLaunchPlace s
  | .teamBind => Sys2Proof.Machine.execTeamBind s
  | .launchEnd => Sys2Proof.Machine.execLaunchEnd s
  | .releaseFlush => Sys2Proof.Machine.execReleaseFlush s
  | .completionEvent => Sys2Proof.Machine.execCompletionEvent s
  | .dispatch => Sys2Proof.Machine.execDispatch s
  | .stealAttempt => Sys2Proof.Machine.execStealAttempt s
  | .loadLevel => Sys2Proof.Machine.execLoadLevel s
  | .joinDecrementApply => Sys2Proof.Machine.execJoinDecrementApply s
  | .arrivalApply => Sys2Proof.Machine.execArrivalApply s
  | .messageArrival => Sys2Proof.Machine.execMessageArrival s
  | .watchdogStop => Sys2Proof.Machine.execWatchdogStop s
  | .gangJoin => Sys2Proof.Machine.execGangJoin s
  | .allocReply => Sys2Proof.Machine.execAllocReply s
  | .partctlReply => Sys2Proof.Machine.execPartctlReply s
  | .switchTick => Sys2Proof.Machine.execSwitchTick s
  | .dieQuiet => Sys2Proof.Machine.execDieQuiet s
  | .tenantSave => Sys2Proof.Machine.execTenantSave s
  | .tenantRestore => Sys2Proof.Machine.execTenantRestore s
  | .lateSwitch => Sys2Proof.Machine.execLateSwitch s
  | .graceStop => Sys2Proof.Machine.execGraceStop s
  | .deviceReset => Sys2Proof.Machine.execDeviceReset s
  | .boot => Sys2Proof.Machine.execBoot s
  | .nop => Sys2Proof.Machine.execNop s
  | .done => Sys2Proof.Machine.execDone s
  | .tret => Sys2Proof.Machine.execTret s
  | .tlbiAll => Sys2Proof.Machine.execTlbiAll s
  | .isync => Sys2Proof.Machine.execIsync s
  | .halt => Sys2Proof.Machine.execHalt s
  | .pendingRegisterWriteLands => Sys2Proof.Machine.execPendingRegisterWriteLands s
  | .watchdogDrainAbandoned => Sys2Proof.Machine.execWatchdogDrainAbandoned s

end Sys2Proof.Machine
end

