-- ==== Sys2Proof/Machine/Run.lean ====
section
/-!
DEFINITION. What a step does around an instruction: the next slot of an agent and the slots its role skips (spec 05
R117 to R120; 14 R340, R342), the events a schedule may choose, the replacement of cached copies, clocks, and the
monitors (spec 09 R245; 13 R319; 18 R364, R366, R412; 21 R397 to R399; log 1, 5, 6).
-/
namespace Sys2Proof.Machine

/-! ## The next slot -/

/-- What an agent's turn comes to. -/
inductive Turn
  | run (i : Instr) (s : State)   -- an instruction executes
  | ended (s : State)              -- the turn ends without one
  deriving DecidableEq, Repr

/-- A program counter is well formed (R108). -/
def pcOk (p : W64) : Bool := bitsOf p 3 3 == 0 && bitsOf p 0 3 ≤ 4 && canonical57 p.toNat
/-- The instruction of a slot that is executed: one that is none, and any of a line whose reserved field is nonzero, raises
illegal instruction (R107, R110, 06 R147). -/
def slotInstr (l : L1Line) (pc : W64) : Instr :=
  let k := bitsOf pc 0 3
  let cls := clsOf l.bits k
  let none : Instr := .unassignedOpcode 0x01 (lineAddr pc) (cls == .d || cls == .e)
  if lineRsv l.bits != 0 then none
  else match decodeSlot cls (slotOf l.bits k) with
  | .ok i => i
  | .error _ => none
/-- A slot runs: its class is what sends a `nop` to its stream. -/
def runSlot (l : L1Line) (pc : W64) (s : State) : Turn :=
  .run (slotInstr l pc) { s with slotCls := clsOf l.bits (bitsOf pc 0 3) }
/-- A line passed whole goes on at the next line (R120). -/
def nextLine (p : W64) : W64 := ((p >>> 6) + 1) <<< 6
def lineHasHand (l : L1Line) : Bool := (List.range 5).any fun k => isHand (slotOf l.bits k)
/-- Whether a core of role r executes a slot (R119, R340). -/
def coreTakes (r : Nat) (w : Word96) : Bool :=
  slotRole w == 0 || slotRole w == r || (isHand w && r != 0 && slotRcv w == r)

/-- A core passes one slot of another role. An H-form slot waits for the drift and counts (R342); in a trap handler it does
not count (18 R368). -/
def skipSlot (c : Nat) (w : Word96) (s : State) : State :=
  let k := s.core c
  let on : State := s.setCore c { k with pc := nextPc k.pc, resume := none }
  match k.inst with
  | none => on
  | some i =>
    match tget none s.insts i with
    | none => on
    | some x =>
      if !isHand w then on
      else if k.speculative || !x.mayPass c then s
      else if k.inTrap then on
      else { on with insts := tput on.insts i (some (x.counted c)) }
/-- The line of a core's next slot is there. A line of other roles alone is passed whole, or slot by slot where it holds
H-form slots (R120). -/
def coreOnLine (c : Nat) (l : L1Line) (s : State) : Turn :=
  let k := s.core c
  let foreign := k.inst.isSome && bitsOf k.pc 0 3 == 0 && !l.mask.testBit 0 && !l.mask.testBit k.role
  let w := slotOf l.bits (bitsOf k.pc 0 3)
  if foreign && !lineHasHand l then .ended ((s.note 0xa c 1).setCore c { k with pc := nextLine k.pc, resume := none })
  else if coreTakes k.role w then runSlot l k.pc s
  else
    let t := skipSlot c w s
    .ended (if foreign && (t.core c).pc != k.pc then t.note 0xa c 1 else t)
/-- The turn of a core's scalar stream (R117); the watchdog's limit comes first (18 R364). A task that a fault has ended
waits for its commands (11 R277). -/
def coreTurn (c : Nat) (s : State) : Turn :=
  let k := s.core c
  if k.task.isNone || k.stopAt.isSome then .ended s
  else if k.tasklimL ≤ k.wd then .run .watchdogStop { s with sel := c }
  else if let some (code, addr) := k.ending then .ended (if k.cmds.isEmpty then s.endTask c (some code) addr else s)
  else if !pcOk k.pc then .run (.unassignedOpcode 0x01 (lineAddr k.pc) false) s
  else match (reachLine k.pc).run s with
  | .ok l s1 => coreOnLine c l s1
  | .error e s1 => .ended (stopCore c false (k.deferred .nop []) e s s1)
/-- The turn of a core's data stream. -/
def dataTurn (c : Nat) (s : State) : Turn :=
  match (s.core c).dq with
  | h :: _ => .run h.instr { s with slotCls := .d }
  | [] => .ended s

/-- How a fetch of a bound engine fails: a team fault, or a wait. -/
def roleStop (x core : Nat) (wait : Demand → State) (e : Stop) (s : State) : State :=
  match e with
  | .wait (some d) => wait d
  | .wait none => s
  | .waitLane _ _ _ => s
  | .trap f => (s.markRaised f.unit).teamFaultNow x f.code
  | .machine pa code _ => s.roleCheck x code core pa
  | .team code => s.teamFaultNow x code
/-- An engine of role r executes only slots of exactly its role (R119), and reaches the H-form slots whose RCV it is (R142,
14 R340). `c` is the first core of its row or cluster. -/
def roleOnLine (r c : Nat) (pc : W64) (l : L1Line) (s : State) (go : W64 → State → State) : Turn :=
  let w := slotOf l.bits (bitsOf pc 0 3)
  if bitsOf pc 0 3 == 0 && !l.mask.testBit r then .ended (go (nextLine pc) (s.note 0xa (2048 + c) 1))
  else if slotRole w == r || (isHand w && slotRcv w == r) then runSlot l pc s
  else .ended (go (nextPc pc) s)
/-- The turn of a bound row sequencer. -/
def seqTurn (r : Nat) (s : State) : Turn :=
  let u := s.seqU r
  match u.inst with
  | none => .ended s
  | some x =>
    if u.halted then .ended s
    else if !pcOk u.pc then .run (.unassignedOpcode 0x01 (lineAddr u.pc) false) s
    else match (reachLine u.pc).run s with
    | .ok l s1 => roleOnLine u.role (8 * r) u.pc l s1 fun p s => s.setSeq r { s.seqU r with pc := p }
    | .error e _ => .ended (roleStop x (8 * r) (fun d => s.setSeq r { u with demand := some d }) e s)
/-- The turn of a bound copy engine. -/
def engTurn (g : Nat) (s : State) : Turn :=
  let u := s.engU g
  match u.inst with
  | none => .ended s
  | some x =>
    if u.halted then .ended s
    else if !pcOk u.pc then .run (.unassignedOpcode 0x01 (lineAddr u.pc) false) s
    else match (reachLine u.pc).run s with
    | .ok l s1 => roleOnLine u.role (32 * g) u.pc l s1 fun p s => s.setEng g { s.engU g with pc := p }
    | .error e _ => .ended (roleStop x (s.engCore g) (fun d => s.setEng g { u with demand := some d }) e s)

/-! ## Choices of the schedule (log 1) -/

/-- The steps of other agents; a fault is no agent's choice. -/
def isEvent : Instr → Bool
  | .doorbell .. | .externalSignal .. | .peerSignal .. | .featAccWrite .. | .registerWrite .. | .mailboxUnknown ..
  | .formatWindowWrite .. | .switchRegisterWrite .. | .monselWrite .. | .sluiceUnitReport .. | .lineFetch ..
  | .demandFetchServed .. | .demandTimeout .. | .machineCheck .. | .hostWrite .. | .hostRead .. | .copyStart ..
  | .copyChunk .. | .copyComplete .. | .commandStart .. | .commandRetire .. | .sluiceMove .. | .sensorPoll ..
  | .timeAlign .. | .mctpMessage .. => true
  | .regq | .unregq | .unregqDrained | .qresume | .lcancel | .tendef | .asidset | .tenset | .tenres | .nodectl
  | .pflush | .getlog | .updwrite | .updarm | .updsvn | .ident | .queueHelperVisit | .launchAccept | .launchPlace
  | .teamBind | .launchEnd | .releaseFlush | .completionEvent | .dispatch | .stealAttempt | .loadLevel
  | .joinDecrementApply | .arrivalApply | .messageArrival | .watchdogStop | .gangJoin | .allocReply | .partctlReply
  | .dieQuiet | .tenantSave | .tenantRestore | .lateSwitch | .graceStop | .deviceReset | .boot
  | .pendingRegisterWriteLands | .watchdogDrainAbandoned => true
  | _ => false
/-- A cached copy is replaced: dirty bytes of a line that no cache holds any more reach the L3 (13 R319). -/
def State.dropEnt (s : State) (k : DropKind) (u i : Nat) : State :=
  match k with
  | .l1tlb => s.setCore u { s.core u with l1tlb := ldel (s.core u).l1tlb i }
  | .ctlb => { s with ctlb := tput s.ctlb u (ldel (tget [] s.ctlb u) i) }
  | .l1i => s.setCore u { s.core u with l1i := ldel (s.core u).l1i i }
  | .latt => s.setCore u { s.core u with lattc := ldel (s.core u).lattc i }
  | .dict => s.setCore u { s.core u with dictc := ldel (s.core u).dictc i }
  | .seqLine => s.setSeq u { s.seqU u with lines := ldel (s.seqU u).lines i }
  | .engLine => s.setEng u { s.engU u with lines := ldel (s.engU u).lines i }
  | .l1d =>
    let l := tget [] s.l1d u
    match l[i]? with
    | some v => { s with l1d := tput s.l1d u (ldel l i) }.dropUnheld v
    | none => s
  | .l2 =>
    match s.l2[i]? with
    | some v => { s with l2 := ldel s.l2 i }.dropUnheld v.line
    | none => s
  | .l3 => { s with l3 := ldel s.l3 i }
/-- The next choice, and the state past it. -/
def State.pick (s : State) : Move × State :=
  match s.agenda with
  | m :: t => (m, { s with agenda := t })
  | [] => (Config.freeMove s.freeCtr, { s with freeCtr := s.freeCtr + 1 })
/-- The turn that a choice gives. -/
def State.turn (s : State) (m : Move) : Turn :=
  match m with
  | .slot c lag => if c < Config.nCores then coreTurn c { s with cur := .core c, lag := lag } else .ended s
  | .data c => if c < Config.nCores then dataTurn c { s with cur := .data c } else .ended s
  | .seq r => if r < 256 then seqTurn r { s with cur := .seq r } else .ended s
  | .eng g => if g < 64 then engTurn g { s with cur := .eng g } else .ended s
  | .act i a b => if isEvent i then .run i { s with sel := a, sel2 := b } else .ended s
  | .drop k u i => .ended (s.dropEnt k u i)
  | .over _ _ => .ended s   -- it is made of turns of its own
/-- The core whose clock a choice advances. -/
def Move.clocked : Move → Option Nat
  | .slot c _ => some c
  | .data c => some c
  | .seq r => some (8 * r)
  | .eng g => some (32 * g)
  | .over c _ => some c
  | _ => none

/-! ## Clocks (07 R175; 18 R364, R366, R412; log 5) -/

def Demand.after (n : Nat) (d : Demand) : Demand := { d with waited := d.waited + n }
def ChanItem.after (n : Nat) : ChanItem → ChanItem
  | .copy c => .copy { c with demand := c.demand.map (Demand.after n) }
  | .reset => .reset
def chansAfter (n : Nat) (t : Tbl Chan) : Tbl Chan :=
  t.map fun (x : Nat × Chan) => (x.1, { x.2 with items := x.2.items.map (ChanItem.after n) })
def cmdsAfter (n : Nat) (l : List Cmd) : List Cmd := l.map fun x => { x with demand := x.demand.map (Demand.after n) }
/-- n cycles of a core: its count, its watchdog (which pauses on a demand fetch of either stream), its drain and what it
waits on. -/
def Core.after (n : Nat) (k : Core) : Core :=
  { k with
    cycle := k.cycle + n, wd := if k.task.isSome && k.demand.isNone && k.demandD.isNone then k.wd + n else k.wd,
    stopAt := k.stopAt.map fun x => { x with waited := x.waited + n },
    demand := k.demand.map (Demand.after n), demandD := k.demandD.map (Demand.after n), chans := chansAfter n k.chans,
    cmds := cmdsAfter n k.cmds }
/-- n cycles of core c, and of the row and cluster engines that count with it. -/
def State.cycles (s : State) (c n : Nat) : State :=
  let s := s.setCore c ((s.core c).after n)
  let s := if c % 8 != 0 then s
    else
      let u := s.seqU (rowOf c)
      s.setSeq (rowOf c) { u with demand := u.demand.map (Demand.after n), cmds := cmdsAfter n u.cmds }
  if c % 32 != 0 then s
  else
    let u := s.engU (cluOf c)
    s.setEng (cluOf c) { u with demand := u.demand.map (Demand.after n), chans := chansAfter n u.chans }
/-- Nanoseconds go by; a held count stands still first (R412). -/
def State.nanos (s : State) (n : Nat) : State :=
  { s with hold := s.hold - n, time := s.time + (n - s.hold) }

/-! ## The monitors (21 R397 to R399) -/

/-- Whether the counter at offset `off` belongs to the unit that core c stands in; 2048 + c names an agent of core c's row
or cluster, whose events no core's counter takes (R398). -/
def monUnit (off c : Nat) : Bool :=
  match monLevel off with
  | some 0 => (off - 0x100000) / 0x100 == c
  | some 1 => (off - 0x180000) / 0x200 == cluOf (c % 2048)
  | some _ => (off - 0x190000) / 0x400 == dieOf (c % 2048)
  | none => false
/-- Whether a counter selects an event. -/
def Mon.selects (m : Mon) (off : Nat) (e : MonEvent) : Bool :=
  bitOf m.sel 31 && m.ev == e.ev && e.ev != 0 && e.ev != 0x11 && monUnit off e.core &&
  (!bitOf m.sel 29 || e.tenant == some (bitsOf m.sel 20 8))
/-- Add n to a counter: it saturates and sets OVF (R398). -/
def Mon.add (m : Mon) (n : Nat) : Mon :=
  if m.cnt.toNat + n < 2 ^ 64 then { m with cnt := w64 (m.cnt.toNat + n) }
  else { m with cnt := w64 (2 ^ 64 - 1), sel := m.sel ||| 0x40000000#64 }
def Mon.hear (off : Nat) (m : Mon) (e : MonEvent) : Mon := if m.selects off e then m.add e.n else m
/-- The counters take the events of a step. -/
def State.countEvents (s : State) : State :=
  { s with mons := s.mons.map (fun x => (x.1, s.monq.foldl (Mon.hear (16 * x.1)) x.2)), monq := [] }

/-- Outstanding demand fetches, with the unit each counts for, as `monUnit` names it. -/
def State.demands (s : State) : List (Nat × Nat × Nat) :=
  let one (c : Nat) (d : Option Demand) : List (Nat × Nat × Nat) := d.toList.map fun x => (c, x.asid, x.va)
  let chans (c : Nat) (t : Tbl Chan) : List (Nat × Nat × Nat) :=
    t.flatMap fun x => x.2.copies.flatMap fun y => one c y.demand
  let cmds (c : Nat) (l : List Cmd) : List (Nat × Nat × Nat) := l.flatMap fun x => one c x.demand
  (s.cores.flatMap fun x => one x.1 x.2.demand ++ one x.1 x.2.demandD ++ chans x.1 x.2.chans ++ cmds x.1 x.2.cmds) ++
  (s.seqs.flatMap fun x => one (2048 + 8 * x.1) x.2.demand ++ cmds (2048 + 8 * x.1) x.2.cmds) ++
  (s.engs.flatMap fun x => one (2048 + 32 * x.1) x.2.demand ++ chans (2048 + 32 * x.1) x.2.chans)
/-- A scalar instruction of a core has completed in a slot of its own: it has passed on, ended its task, or left or entered a
handler as it is meant to. One that traps has not. -/
def scalarDone (data : Bool) (i : Instr) (k k1 : Core) (cur : Agent) : Bool :=
  !data && (match cur with | .core _ => true | _ => false) &&
  (k1.seq != k.seq || match i with
    | .done => k1.task.isNone && k.task.isSome
    | .halt => k1.task.isNone && k1.halted && k.task.isSome
    | .tret => k.inTrap && !k1.inTrap && k1.task.isSome
    | .trap _ => !k.inTrap && k1.inTrap && k1.trapReq
    | _ => false)
/-- A data instruction of a core has completed. -/
def dataDone (data : Bool) (k k1 : Core) (cur : Agent) : Bool :=
  data && k1.inTrap == k.inTrap && k1.task == k.task &&
  match cur with
  | .core _ => k1.seq != k.seq && k1.dq.length == k.dq.length
  | _ => k1.dq.length + 1 == k.dq.length
/-- A member stands before an H-form slot that drift does not let it pass (14 R342). -/
def State.drifting (s : State) (c : Nat) : Bool :=
  let k := s.core c
  match k.inst.bind (tget none s.insts) with
  | none => false
  | some x => !x.mayPass c &&
    (match k.l1i.find? (fun l => l.asid == k.cacheAsid && l.line == lineAddr k.pc) with
      | some l => isHand (slotOf l.bits (bitsOf k.pc 0 3))
      | none => false)
/-- The events of a step that no operation has noted: from `s`, by instruction `i` of core `c`, over `n` cycles, to `s1`. They are
of the work that the core did before the step. Corrected errors are a free count (log 6). -/
def State.observe (s s1 : State) (i : Option Instr) (c : Option Nat) (n : Nat) : State :=
  if s1.mons.isEmpty then s1
  else
    let s1 := (s1.demands.filter fun d => !s.demands.contains d).foldl (fun t d => t.note 0xe d.1 1) s1
    match c with
    | none => s1
    | some c =>
      let k := s.core c
      let k1 := s1.core c
      let note (t : State) (ev m : Nat) : State := t.noteFor ev c m (s.workOf ev c)
      let t := note s1 0x1 n
      let t := match i with
        | some i =>
          let data := s1.runsData i || (match s1.cur with | .data _ => true | _ => false)
          let t := if scalarDone data i k k1 s1.cur then note t 0x2 1 else t
          if dataDone data k k1 s1.cur then note t 0x3 1 else t
        | none => t
      let t := if s.drifting c && k1.pc == k.pc then note t 0xb n else t
      let t := if s.mgmt.clock (dieOf c) < 2250 && c % 256 == 0 then note t 0x15 n else t
      note t 0x14 (Config.freeNat s.freeCtr)
/-- The end of a step: front-end writes that the directory held may now be performed (13 R296). -/
def State.advance (s s1 : State) (i : Option Instr) (c : Option Nat) : State :=
  let n := Config.freeCycles s1.freeCtr + 1
  let s1 := if s1.feq.isEmpty then s1 else s1.feDrain s1.feq
  let t := s.observe s1 i c n
  let t := if t.monq.isEmpty then t else t.countEvents
  let t := match c with | some c => t.cycles c n | none => t
  { t.nanos (Config.freeNanos t.freeCtr) with freeCtr := t.freeCtr + 1 }

end Sys2Proof.Machine
end

