-- ==== Sys2Proof/Machine/Step.lean ====
section
/-!
DEFINITION. One step of the device (log 1): a switch tick that has fallen, or the schedule's next choice; and how the
host's checks place an instruction where the next step fetches it (log 23).
-/
namespace Sys2Proof.Machine

/-- Go on from an outcome to the end of the step. -/
def finish (s : State) (i : Option Instr) (c : Option Nat) (o : Host.Outcome State Fault Refusal) :
    Host.Outcome State Fault Refusal :=
  match o with
  | .next s1 => .next (s.advance s1 i c)
  | .fault f => .fault f
  | .refused r => .refused r
/-- One turn. -/
def runTurn (t : Turn) : Host.Outcome State Fault Refusal :=
  match t with
  | .run i s => exec i s
  | .ended s => .next s
def Turn.instr : Turn → Option Instr
  | .run i _ => some i
  | .ended _ => none
/-- n turns that one choice gives, each to its end; none where one ends the machine. -/
def turns (m : Move) : Nat → State → Option State
  | 0, s => some s
  | n + 1, s =>
    let t := s.turn m
    match finish s t.instr m.clocked (runTurn t) with
    | .next s1 => turns m n s1
    | _ => none
/-- The memory accesses of core c's next n slots come before those that its data stream holds, which it then makes: the streams
reach memory independently (10 R250, log 57). It happens only where nothing there ends the task or takes a trap, so that every
trap stays precise (18 R356). -/
def State.passOver (s : State) (c n : Nat) : Option State := do
  let s1 ← turns (.slot c true) n { s with passing := true }
  let s2 ← turns (.data c) (s1.core c).dq.length { s1 with passing := false }
  let k := s.core c
  let k2 := s2.core c
  if k2.dq.isEmpty && k2.task == k.task && k2.inTrap == k.inTrap && k2.stopAt == k.stopAt && k2.ending == k.ending then some s2
  else none
/-- One step. -/
def step (s : State) : Host.Outcome State Fault Refusal :=
  if s.mgmt.shut then .fault .shutDown
  else if s.tickDue then exec .switchTick s
  else
    let (m, s1) := s.pick
    match (match m with | .over c n => s1.passOver c n | _ => none) with
    | some s2 => .next s2
    | none =>
      let t := s1.turn m
      finish s1 t.instr m.clocked (runTurn t)

/-! ## Placing an instruction -/

/-- A fetch line whose slot 0 holds a word, of the class its opcode admits, the other slots `nop`; with its parity. -/
def lineWith (w : Word96) : Line :=
  let cls : Nat := match opcClass (fOpc w).toNat with
    | some .d => 1
    | some .e => 2
    | some .b => 3
    | _ => 0
  let nop : Nat := 0x01 * 2 ^ 84
  let body : Nat := w.toNat + nop * (2 ^ 96 + 2 ^ 192 + 2 ^ 288 + 2 ^ 384) + 2 ^ 485 * cls
  let l : Line := BitVec.ofNat 512 body
  BitVec.ofNat 512 (body + 2 ^ 504 * parNeeded l)
/-- The task that runs a placed instruction: a firmware task, which addresses physical memory (19 R376). -/
def placedTask : Task :=
  { kind := .firmware, tr := {}, src := 0, origin := 0, launch := none, restarts := 0, asid := 0, answers := 0 }
/-- The state with an instruction placed at physical address 0, core 0 about to fetch it there. -/
def State.withFetchWord (s : State) (nbits w : Nat) : State :=
  let word : Word96 := BitVec.ofNat 96 (w % 2 ^ nbits)
  let k := s.core 0
  let k1 : Core := { k with
    task := some placedTask, pc := 0, sup := true, stopAt := none, ending := none, dq := [], wd := 0,
    tasklimL := 0x400000, resume := none, barAt := none, barPop := [], demand := none, demandD := none, part := none, wbase := 0,
    wlim := 256, role := slotRole word, inst := none, l1i := [] }
  { s.setCore 0 k1 with
    agenda := [.slot 0 false], passing := false, lastTick := s.time, mgmt := { s.mgmt with shut := false },
    poison := s.poison.filter (· != 0), mem := s.mem.setBytes 0 (leBytes (lineWith word).toNat 64) }

end Sys2Proof.Machine
end

