-- ==== Sys2Proof/Safety.lean ====
section
/-!
DEFINITION. The terms that claims use: canonical memories, runs, and the operands of a core at its next slot as spec 04
R98 to R100 and 06 R134 to R136 give them, while the register-space words they name stand in the register store.
-/
namespace Sys2Proof.Machine

/-! ## Safe states and runs -/

/-- The memories of a core are in canonical form. -/
def Core.memOk (k : Core) : Bool := k.tiles.wf && k.scales.wf && k.spad.wf && k.cspad.wf && k.slices.wf
def SavedCore.memOk (v : SavedCore) : Bool := v.spad.wf && v.cspad.wf
def Saved.memOk (v : Saved) : Bool := v.cores.all SavedCore.memOk && v.dies.all Memory.wf
/-- Every memory of the device is in canonical form. -/
def State.memOk (s : State) : Bool :=
  s.mem.wf && s.cores.all (fun x => x.2.memOk) && s.dspad.all (fun x => Memory.wf x.2) && s.saved.all Saved.memOk &&
  s.pages.all (fun p => p.bytes.wf) && s.mgmt.copyA.wf && s.mgmt.copyB.wf

/-- `t` is reached from `s` by steps that answer a next state. -/
inductive Reaches : State → State → Prop
  | refl (s : State) : Reaches s s
  | tail (s t u : State) : Reaches s t → step t = .next u → Reaches s u

/-- A safe state: canonical memories, and the management controller has not shut the device down. -/
def State.safe (s : State) : Bool := s.memOk && !s.mgmt.shut

/-! ## What the streams have loaded (10 R250, log 57) -/

/-- The record of unread loads changes, and nothing else. -/
def State.setLoads (s : State) (f : List Loaded → List Loaded) : State := { s with loads := f s.loads }
/-- Core c has read register-space word i. -/
def State.readAt (s : State) (c i : Nat) : State := s.setLoads (afterRead c i)
/-- Core c has written it. -/
def State.wrote (s : State) (c i : Nat) : State :=
  s.setLoads fun l => l.filter fun x => !(x.core == c && x.word == i)
/-- Core c has written v to it. -/
def State.putAt (s : State) (c i : Nat) (v : W64) : State := (s.wrote c i).setCore c ((s.core c).putWord i v)
/-- The scalar stream of core c has loaded n bytes of a location into D: its word is kept, or, where no window word takes it,
the stream's earlier loads of the granule stand. -/
def State.loadedAs (s : State) (c : Nat) (l : Loc) (d : Reg) (n : Nat) (signed : Bool) : State :=
  match l.place with
  | some p =>
    if 0xf80 ≤ d.toNat then s.readOver c false p
    else if l.so then s
    else s.setLoads fun x =>
      { core := c, data := false, word := (s.core c).wbase.toNat + d.toNat, place := p, n := n, signed := signed } :: x
  | none => s
/-- A stream of core c has stored to a location: `s` stood before the store, `t` stands after it. -/
def State.storedTo (s t : State) (c : Nat) (data : Bool) (l : Loc) : State :=
  match l.place with
  | some p => t.storedBy c data l.so p (s.placeBytes p.gran 8)
  | none => t

/-! ## A core at its next slot -/

/-- Core c's scalar stream is at its next slot, and its data stream has nothing left to do. -/
def State.atSlot (s : State) (c : Nat) : Bool :=
  s.cur == .core c && (s.core c).task.isSome && (s.core c).stopAt.isNone && (s.core c).ending.isNone &&
  (s.core c).dq.isEmpty && !s.lag
/-- An instruction of core c completes in `s`: execution goes on at `pc`. -/
def State.goes (s : State) (c : Nat) (pc : W64) : State :=
  s.setCore c { s.core c with pc := pc, seq := (s.core c).seq + 1, resume := none, undo := [] }
/-- One that orders both streams completes (10 R250): what they have loaded and stored before it is settled. -/
def State.goesSettled (s : State) (c : Nat) (pc : W64) : State := (s.goes c pc).settleRace c

/-- A register-space word can be used at once: no write of it is pending, and the register store holds its line. -/
def Core.holds (k : Core) (i : Nat) : Bool := !k.pending i && (k.isFw || (k.rsLine? i).isSome)
/-- The register-space word a window field names, where it lies inside the window and can be used at once. -/
def Core.winWord (k : Core) (r : Reg) : Option Nat :=
  let i := k.wbase.toNat + r.toNat
  if r.toNat < 0xf80 && r.toNat < k.wlim.toNat && k.holds i then some i else none

/-- A word source of core c (R100), in the data stream or the scalar stream: its value, and the state once a word has been
read or a queue or port has been popped. None where it would fault or wait. -/
def State.take (s : State) (c : Nat) (data : Bool) (r : Reg) : Option (W64 × State) :=
  let k := s.core c
  if r.toNat < 0xf80 then (k.winWord r).map fun i => (k.word i, s.readAt c i)
  else if r == 0xfff then some (0, s)
  else if r == 0xff8 then some (w64 (s.pidx c), s)
  else if r == 0xffe then
    match data, k.qd with
    | true, x :: t => some (x, s.setCore c { k with qd := t })
    | _, _ => none
  else if r == 0xffd then
    match data, k.qc with
    | false, x :: t => some (x, s.setCore c { k with qc := t })
    | _, _ => none
  else match portDir r with
  | some d =>
    match s.neighbour c d, k.port d with
    | some _, x :: t => some (x, s.setCore c (k.setPort d t))
    | _, _ => none
  | none => none
/-- A word destination of core c (R100): the state once it holds v. None where it would fault or wait: a queue that is
full, or whose next place a partition control keeps (06 R135). -/
def State.give (s : State) (c : Nat) (data : Bool) (r : Reg) (v : W64) : Option State :=
  let k := s.core c
  if r.toNat < 0xf80 then (k.winWord r).map fun i => s.putAt c i v
  else if r == 0xfff then some s
  else if r == 0xffe then
    if !data && k.qdHeld < 16 && !s.placeKept c r then some (s.setCore c { k with qd := k.qd ++ [v] }) else none
  else if r == 0xffd then
    if data && k.qc.length + k.qcTaken < 8 then some (s.setCore c { k with qc := k.qc ++ [v] }) else none
  else match portDir r with
  | some d =>
    match s.neighbour c d with
    | some n =>
      let e := (d + 2) % 4
      let q := (s.core n).port e
      if !s.placeKept c r && (s.core n).portHeld e < 4 then some (s.setCore n ((s.core n).setPort e (q ++ [v]))) else none
    | none => none
  | none => none

/-- Some lanes of a vector field lie inside the window and can be used at once (R100): those that a mask enables. -/
def Core.vecHeld (k : Core) (r : Reg) (m : Nat) : Bool :=
  r.toNat < 248 && 16 * r.toNat + 15 < k.wlim.toNat &&
  (List.range 16).all fun l => !laneOn m l || k.holds (k.wbase.toNat + 16 * r.toNat + l)
/-- Do something for each lane that a mask enables, in increasing order. -/
def eachLane (m : Nat) (f : State → Nat → State) (s : State) : State :=
  (List.range 16).foldl (fun s l => if laneOn m l then f s l else s) s
/-- A vector source of core c (R100): the lanes that a mask enables, the others standing as 0 (R136). -/
def State.lanes (s : State) (c : Nat) (r : Reg) (m : Nat) : Option (List W64 × State) :=
  let k := s.core c
  let b := k.wbase.toNat + 16 * r.toNat
  if r == 0xff8 then some ((List.range 16).map fun l => if laneOn m l then w64 l else 0, s)
  else if r == 0xfff then some (List.replicate 16 0, s)
  else if k.vecHeld r m then
    some ((List.range 16).map fun l => if laneOn m l then k.word (b + l) else 0, eachLane m (fun s l => s.readAt c (b + l)) s)
  else none
/-- A mask operand (R136): the lanes it enables. -/
def State.maskOf (s : State) (c : Nat) (r : Reg) : Option (Nat × State) :=
  if r == 0xfff then some (0xffff, s)
  else ((s.core c).winWord r).map fun i => (bitsOf ((s.core c).word i) 0 16, s.readAt c i)
/-- A vector destination (R100, R136): the state once lane l of each enabled lane holds `f l`. -/
def State.giveLanes (s : State) (c : Nat) (r : Reg) (m : Nat) (f : Nat → W64) : Option State :=
  let k := s.core c
  let b := k.wbase.toNat + 16 * r.toNat
  if r == 0xfff then some s
  else if k.vecHeld r m then some (eachLane m (fun s l => s.putAt c (b + l) (f l)) s)
  else none
/-- A constant word whose line the constant cache holds (05 R122). -/
def Core.constOf (k : Core) (kw : BitVec 3) (ko : BitVec 17) : Option W64 :=
  let va := 8 * (bitsOf (tget 0 k.cwb kw.toNat) 0 54 + ko.toNat) % 2 ^ 64
  (k.kcache.find? fun e => e.asid == k.cacheAsid && e.addr == va / 64).map
    fun e => w64 (leNat ((e.bytes.drop (va % 64)).take 8))

/-- A late word destination (R102): a window word is pending until its data land; any other destination takes the value
at once. -/
def State.giveLate (s : State) (c : Nat) (kind : PendKind) (r : Reg) (v : W64) : Option State :=
  let k := s.core c
  let i := k.wbase.toNat + r.toNat
  if r.toNat < 0xf80 then
    if r.toNat < k.wlim.toNat && (k.isFw || (k.rsLine? i).isSome) then
      some ((s.wrote c i).setCore c { k with pend := k.pend ++ [{ word := i, kind := kind, val := v, fw := k.isFw }] })
    else none
  else s.give c false r v

/-! ## What an access may change -/

/-- A core without what the directory may post to it (13 R295). -/
def Core.rest (k : Core) : Core := { k with sysring := [], heldSys := [], halted := false }
/-- The machine without its cores, and without what coherence keeps of an access: the directory, the caches and what the
L3 still holds, what the streams know of memory, the posts and the events it makes, and the free choices it draws (log 6). -/
def State.rest (s : State) : State :=
  { s with cores := [], dir := [], ovtab := [], stale := [], l1d := [], l2 := [], l3 := [], posts := [], monq := [],
           freeCtr := 0, loads := [], was := [] }
/-- A core without what a fetch may change in it. -/
def Core.fetchRest (k : Core) : Core :=
  { k.rest with l1tlb := [], l1i := [], kcache := [], lattc := [], dictc := [], rs := [], demand := none, demandD := none,
                part := none }
/-- The machine without its cores and without what a fetch may change: what an access may, and memory (the walks' A and D
bits and the working sets), translations, and the engines' fetched lines. -/
def State.fetchRest (s : State) : State :=
  { s.rest with mem := [], ctlb := [], seqs := [], engs := [] }
/-! ## Integers as R154 says -/

/-- `Operand` of R154. -/
def valOf (ty : IntTy) (x : W64) : Int :=
  if IntTy.signed ty then (x.setWidth (IntTy.width ty)).toInt else ((x.setWidth (IntTy.width ty)).toNat : Int)
/-- `Result` of R154. -/
def resOf (ty : IntTy) (y : Int) : W64 :=
  if IntTy.signed ty then (BitVec.ofInt (IntTy.width ty) y).signExtend 64 else (BitVec.ofInt (IntTy.width ty) y).setWidth 64

end Sys2Proof.Machine
end

