-- ==== Sys2Proof/Certificates/Slice0/Obligations.lean ====
section
/-!
DEFINITION. The statements for the provers. The tables before them give, for each shape of instruction, the fields and
the value of the rules of spec/; a statement then says for every instruction of the shape that it completes, what it
writes, and, since it names the whole next state, that it leaves everything else alone.
-/
namespace Sys2Proof.Claims
open Sys2Proof.Machine

/-! ## Values of the scalar rules -/

/-- The count or permutation of R160 on the low n bits. -/
def leadingZeros (n : Nat) (x : W64) : Int := (((List.range n).takeWhile fun j => !x.getLsbD (n - 1 - j)).length : Nat)
def trailingZeros (n : Nat) (x : W64) : Int := (((List.range n).takeWhile fun j => !x.getLsbD j).length : Nat)
def ones (n : Nat) (x : W64) : Int := (((List.range n).filter fun j => x.getLsbD j).length : Nat)
/-- A word whose bit j is `p j`, for j below n. -/
def ofBits (n : Nat) (p : Nat → Bool) : W64 := (BitVec.ofBoolListLE ((List.range n).map p)).setWidth 64
def bitsReversed (n : Nat) (x : W64) : W64 := ofBits n fun j => x.getLsbD (n - 1 - j)
def bytesReversed (n : Nat) (x : W64) : W64 := ofBits n fun j => x.getLsbD (8 * (n / 8 - 1 - j / 8) + j % 8)
/-- The extraction and insertion of R159. -/
def extracted (signed : Bool) (x y z : W64) : W64 :=
  let pos := y.toNat % 64
  let len := Nat.min (z.toNat % 128) 64
  let f := (x.toNat / 2 ^ pos) % 2 ^ len
  if len = 0 then 0 else if signed then (BitVec.ofNat len f).signExtend 64 else BitVec.ofNat 64 f
def inserted (w x y z : W64) : W64 :=
  let pos := y.toNat % 64
  let len := Nat.min (z.toNat % 128) 64
  ofBits 64 fun j => if pos ≤ j ∧ j < pos + len then x.getLsbD (j - pos) else w.getLsbD j
/-- A comparison as a word. -/
def holdsWord (b : Bool) : W64 := if b then 1 else 0
def compared (cc : Cc) (a b : Int) : Bool :=
  match cc with
  | .eq => a == b
  | .ne => a != b
  | .lt => decide (a < b)
  | .ge => decide (b ≤ a)
def comparedI (cc : CcI) (x y : W64) : Bool :=
  match cc with
  | .eq => x == y
  | .ne => x != y
  | .lt => decide (x.toInt < y.toInt)
  | .ge => decide (y.toInt ≤ x.toInt)
  | .ltn => decide (x.toNat < y.toNat)
  | .gen => decide (y.toNat ≤ x.toNat)
/-- The tail mask of R176. -/
def tailOf (x y : W64) : W64 :=
  let c := y.toInt - x.toInt
  BitVec.ofNat 64 (2 ^ (if c < 0 then 0 else if 16 < c then 16 else c.toNat) - 1)

/-- R155, R156, R161 and R176: D, A, B and the value from W(A) and W(B). -/
def twoSource : Instr → Option (Reg × Reg × Reg × (W64 → W64 → W64))
  | .add ty d a b => some (d, a, b, fun x y => resOf ty (valOf ty x + valOf ty y))
  | .sub ty d a b => some (d, a, b, fun x y => resOf ty (valOf ty x - valOf ty y))
  | .mul ty d a b => some (d, a, b, fun x y => resOf ty (valOf ty x * valOf ty y))
  | .mulh ty d a b => some (d, a, b, fun x y => resOf ty ((valOf ty x * valOf ty y).fdiv (2 ^ IntTy.width ty)))
  | .div ty d a b => some (d, a, b, fun x y => resOf ty (if valOf ty y = 0 then -1 else (valOf ty x).tdiv (valOf ty y)))
  | .rem ty d a b => some (d, a, b, fun x y =>
      resOf ty (if valOf ty y = 0 then valOf ty x else (valOf ty x).tmod (valOf ty y)))
  | .and ty d a b => some (d, a, b, fun x y => resOf ty ((x &&& y).toNat : Int))
  | .or ty d a b => some (d, a, b, fun x y => resOf ty ((x ||| y).toNat : Int))
  | .xor ty d a b => some (d, a, b, fun x y => resOf ty ((x ^^^ y).toNat : Int))
  | .shl ty d a b => some (d, a, b, fun x y => resOf ty (valOf ty x * 2 ^ (y.toNat % IntTy.width ty)))
  | .shr ty d a b => some (d, a, b, fun x y => resOf ty ((valOf ty x).fdiv (2 ^ (y.toNat % IntTy.width ty))))
  | .rotr ty d a b => some (d, a, b, fun x y =>
      resOf ty (((x.setWidth (IntTy.width ty)).rotateRight (y.toNat % IntTy.width ty)).toNat : Int))
  | .min ty d a b => some (d, a, b, fun x y => resOf ty (min (valOf ty x) (valOf ty y)))
  | .max ty d a b => some (d, a, b, fun x y => resOf ty (max (valOf ty x) (valOf ty y)))
  | .cmp cc ty d a b => some (d, a, b, fun x y => holdsWord (compared cc (valOf ty x) (valOf ty y)))
  | .adda k d a b => some (d, a, b, fun x y => BitVec.ofNat 64 (x.toNat + y.toNat * 2 ^ k.toNat))
  | .wlt d a b => some (d, a, b, tailOf)
  | _ => none

/-- R158, R160, R163 and R164: D, A and the value from W(A). -/
def oneSource : Instr → Option (Reg × Reg × (W64 → W64))
  | .mov _ d a => some (d, a, fun x => x)
  | .clz ty d a => some (d, a, fun x => resOf ty (leadingZeros (IntTy.width ty) x))
  | .ctz ty d a => some (d, a, fun x => resOf ty (trailingZeros (IntTy.width ty) x))
  | .popc ty d a => some (d, a, fun x => resOf ty (ones (IntTy.width ty) x))
  | .brev ty d a => some (d, a, fun x => resOf ty ((bitsReversed (IntTy.width ty) x).toNat : Int))
  | .bswap ty d a => some (d, a, fun x => resOf ty ((bytesReversed (IntTy.width ty) x).toNat : Int))
  | .sext ty d a => some (d, a, fun x => (x.setWidth (IntTy.width ty)).signExtend 64)
  | .zext ty d a => some (d, a, fun x => (x.setWidth (IntTy.width ty)).setWidth 64)
  | .addi d a imm => some (d, a, fun x => x + imm.signExtend 64)
  | .andi d a imm => some (d, a, fun x => x &&& imm.signExtend 64)
  | .ori d a imm => some (d, a, fun x => x ||| imm.signExtend 64)
  | .xori d a imm => some (d, a, fun x => x ^^^ imm.signExtend 64)
  | .shli d a sh => some (d, a, fun x => x <<< sh.toNat)
  | .shri d a sh => some (d, a, fun x => x >>> sh.toNat)
  | .srai d a sh => some (d, a, fun x => x.sshiftRight sh.toNat)
  | .cmpi cc d a imm => some (d, a, fun x => holdsWord (comparedI cc x (imm.signExtend 64)))
  | .lih d a imm => some (d, a, fun x => (imm ++ x.setWidth 32 : BitVec 64))
  | .muli d a imm => some (d, a, fun x => x * imm.signExtend 64)
  | .maxi d a imm => some (d, a, fun x => if x.toInt < (imm.signExtend 64).toInt then imm.signExtend 64 else x)
  | .mini d a imm => some (d, a, fun x => if x.toInt < (imm.signExtend 64).toInt then x else imm.signExtend 64)
  | _ => none

/-- R157, R159 and R161: D, A, B, C and the value from W(A), W(B) and W(C). -/
def threeSource : Instr → Option (Reg × Reg × Reg × Reg × (W64 → W64 → W64 → W64))
  | .sel _ d a b c => some (d, a, b, c, fun x y z => if x = 0 then z else y)
  | .bext n d a b c => some (d, a, b, c, extracted (!n))
  | .madd ty d a b c => some (d, a, b, c, fun x y z => resOf ty (valOf ty x * valOf ty y + valOf ty z))
  | _ => none

/-- R162, R163, R171, R172, R177, 14 R332, R339: D and the value, of instructions that write one word and read no word
operand; an `mfs` of a ring's count (10 R263) stands in its own clause. -/
def noSource (s : State) (c : Nat) : Instr → Option (Reg × W64)
  | .li d imm => some (d, imm.signExtend 64)
  | .lpc d imm => some (d, (s.core c).pc / 64 * 64 + imm.signExtend 64)
  | .movk _ d kw ko => ((s.core c).constOf kw ko).map fun v => (d, v)
  | .winqBase d => some (d, (s.core c).wbase)
  | .winqSize d => some (d, (s.core c).wlim)
  | .mfs d num => if 0x050 ≤ num.toNat ∧ num.toNat < 0x058 then none else some (d, s.sysRead c num.toNat)
  | .qstat d q => some (d, s.qstatWord c q)
  | .dqopCount d => some (d, BitVec.ofNat 64 (((s.core c).dqBot + 2 ^ 64 - (s.core c).dqTop) % 2 ^ 64))
  | _ => none

/-- The two signed or unsigned words of R166. -/
def branchTaken (x y : W64) : Instr → Option (BitVec 3 × Reg × Reg × BitVec 41 × Bool)
  | .beq t a b off => some (t, a, b, off, x == y)
  | .bne t a b off => some (t, a, b, off, x != y)
  | .blt t a b off => some (t, a, b, off, decide (x.toInt < y.toInt))
  | .bge t a b off => some (t, a, b, off, decide (y.toInt ≤ x.toInt))
  | .bltn t a b off => some (t, a, b, off, decide (x.toNat < y.toNat))
  | .bgen t a b off => some (t, a, b, off, decide (y.toNat ≤ x.toNat))
  | _ => none
/-- The target of R166: a line and a slot of it. -/
def target (p : W64) (slot : BitVec 3) (off : BitVec 41) : W64 := (p / 64 + off.signExtend 64) * 64 + slot.setWidth 64

/-! ## Windows and system registers -/

/-- R103 in the order of its checks: the code of the first that fails, for a change to base b and size n. A firmware task's
bound is its own window of 256 words (19 R376). -/
def windowCode (k : Core) (b : Int) (n : Nat) : Option Nat :=
  let in_ (lo sz : Nat) : Prop := (lo : Int) ≤ b ∧ b + n ≤ lo + sz
  if n = 0 ∨ 3968 < n then some 0x02
  else if k.isFw then (if in_ 0 256 then none else some 0x05)
  else if k.rbl.toNat < k.wfb.toNat + k.wfl.toNat then some 0x06
  else if in_ k.wfb.toNat k.wfl.toNat ∨ (k.inTrap = true ∧ in_ k.twb.toNat k.twl.toNat) then none
  else some 0x05

/-- Registers of R173 that only the supervisor writes. -/
def supervisorOnly (n : Nat) : Bool :=
  [0x000, 0x001, 0x002, 0x003, 0x004, 0x005, 0x006, 0x007, 0x008, 0x009, 0x021, 0x022, 0x023, 0x024, 0x060, 0x062, 0x080,
   0x081, 0x082, 0x083, 0x084, 0x085, 0x086, 0x087].contains n
/-- A word index and a size that fit register space together (R101). -/
def fits (x n : Nat) : Bool := decide (1 ≤ n) && decide (n ≤ 3968) && decide (x + n ≤ 2 ^ 20)
/-- What `mts` of v leaves in register n of a core: R101, R173, 18 R358, R359, R364, R366; 05 R121; 11 R270. None where
the register's own rule refuses v. Registers with another rule are not listed. -/
def stored (k : Core) (n : Nat) (v : W64) : Option Core :=
  let idx := v.toNat % 2 ^ 20
  let size := v.toNat % 2 ^ 12
  let iw : W64 := BitVec.ofNat 64 idx
  let sw : W64 := BitVec.ofNat 64 size
  let when_ (c : Bool) (k : Core) : Option Core := if c then some k else none
  if n = 0x000 then when_ (decide (idx + k.wlim.toNat ≤ 2 ^ 20)) { k with wbase := iw }
  else if n = 0x001 then when_ (fits k.wbase.toNat size) { k with wlim := sw }
  else if n = 0x002 then when_ (decide (idx + k.wfl.toNat ≤ 2 ^ 20)) { k with wfb := iw }
  else if n = 0x003 then when_ (fits k.wfb.toNat size) { k with wfl := sw }
  else if n = 0x006 then some { k with dwb := iw }
  else if n = 0x007 then when_ (decide (idx + k.twl.toNat ≤ 2 ^ 20)) { k with twb := iw }
  else if n = 0x008 then when_ (fits k.twb.toNat size) { k with twl := sw }
  else if n = 0x020 then some { k with fpc := v }
  else if n = 0x009 then when_ (v == 0 || (canonical57 v.toNat && v.toNat / 8 % 8 == 0 && decide (v.toNat % 8 ≤ 4)))
      { k with tvec := v }
  else if n = 0x021 then some { k with fcause := v &&& 0xff80ff#64 }
  else if n = 0x022 then some { k with faddr := v }
  else if n = 0x023 then some { k with fstep := BitVec.ofNat 64 (v.toNat % 256) }
  else if n = 0x024 then some { k with lstart := BitVec.ofNat 64 (v.toNat % 16) }
  else if n = 0x025 then when_ (decide (idx + k.fwl.toNat ≤ 2 ^ 20)) { k with fwb := iw }
  else if n = 0x026 then when_ (fits k.fwb.toNat size) { k with fwl := sw }
  else if 0x048 ≤ n ∧ n < 0x050 then some { k with cwb := tput k.cwb (n - 0x048) (BitVec.ofNat 64 (v.toNat % 2 ^ 54)) }
  else if n = 0x060 then when_ (decide (2 ^ 12 ≤ v.toNat) && decide (v.toNat < 2 ^ 40)) { k with tasklim := v }
  else if n = 0x062 then when_ (decide (2 ^ 10 ≤ v.toNat) && decide (v.toNat < 2 ^ 40)) { k with demandlim := v }
  else if 0x040 ≤ n ∧ n < 0x048 then
    when_ (decide (v.toNat < 2 ^ 16) && decide (1 ≤ v.toNat % 256) && decide (v.toNat % 256 ≤ 128) && v.toNat % 8 == 0)
      { k with tcfg := tput k.tcfg (n - 0x040) v }
  else if (0x030 ≤ n ∧ n ≤ 0x034) ∨ (0x050 ≤ n ∧ n < 0x058) ∨ (0x070 ≤ n ∧ n < 0x078) then some k
  else none

/-! ## Scalar accesses -/

/-- Bytes and signedness of a load width (06 R146). -/
def loadWidth : LdW → Nat × Bool
  | .i8 => (1, true)
  | .i16 => (2, true)
  | .i32 => (4, true)
  | .i64 => (8, true)
  | .n8 => (1, false)
  | .n16 => (2, false)
  | .n32 => (4, false)
def storeWidth : StW → Nat
  | .b8 => 1
  | .b16 => 2
  | .b32 => 4
  | .b64 => 8
/-- A place's granule meets the n bytes of a location (10 R250). -/
def granuleIn (l : Loc) (n : Nat) (p : Place) : Bool :=
  match l.place with
  | some q => p.space == q.space && p.unit == q.unit && decide (0 < n) && decide (p.off / 8 * 8 < q.off + n) &&
      decide (q.off < p.off / 8 * 8 + 8)
  | none => false
/-- The n low bytes of a number as a word, extended. -/
def extended (n : Nat) (signed : Bool) (v : Nat) : W64 :=
  if signed then (BitVec.ofNat (8 * n) v).signExtend 64 else (BitVec.ofNat (8 * n) v).setWidth 64

/-- R251, 14 R322: D, A, the offset, the space, bytes, signedness, and whether the form reaches the device control
region (R221). -/
def loadOf : Instr → Option (Reg × Reg × W64 × Space × Nat × Bool × Bool)
  | .ld w d a imm => some (d, a, imm.signExtend 64, .mem, (loadWidth w).1, (loadWidth w).2, (loadWidth w).1 == 8)
  | .lds w d a imm => some (d, a, imm.signExtend 64, .spad, (loadWidth w).1, (loadWidth w).2, false)
  | .ldc w d a imm => some (d, a, imm.signExtend 64, .clu, (loadWidth w).1, (loadWidth w).2, false)
  | .ldd w d a imm => some (d, a, imm.signExtend 64, .die, (loadWidth w).1, (loadWidth w).2, false)
  | .ldacq w _ sp d a ofs => some (d, a, ofs.signExtend 64, sp, (loadWidth w).1, (loadWidth w).2, false)
  | _ => none
/-- R252, 14 R322: D, A, the offset, the space, bytes, and whether the form reaches the device control region. -/
def storeOf : Instr → Option (Reg × Reg × W64 × Space × Nat × Bool)
  | .st w d a imm => some (d, a, imm.signExtend 64, .mem, storeWidth w, storeWidth w == 8)
  | .sts w d a imm => some (d, a, imm.signExtend 64, .spad, storeWidth w, false)
  | .stc w d a imm => some (d, a, imm.signExtend 64, .clu, storeWidth w, false)
  | .std w d a imm => some (d, a, imm.signExtend 64, .die, storeWidth w, false)
  | .strel w _ sp d a ofs => some (d, a, ofs.signExtend 64, sp, storeWidth w, false)
  | _ => none

/-- R254: the line's dirty data reach memory from level 2 outward, and `cmo.flush` writes them through; `cmo.inval` and
`cmo.flush` leave no copy at or inside their level. -/
def cleaned (lv : Level) (a : Reg) (i : Instr) (pa : Nat) (s : State) : State :=
  let s := if lv = .l1 ∧ i ≠ .cmoFlush lv a then s else s.dropStale (64 * (pa / 64)) 64
  if i = .cmoClean lv a then s else s.discardLine lv (pa / 64)

/-! ## Vector accesses -/

/-- R256: D, A, MASK, the offset and the space of a contiguous load. -/
def vectorLoad : Instr → Option (Reg × Reg × Reg × W64 × Space)
  | .vld d a m ofs => some (d, a, m, ofs.signExtend 64, .mem)
  | .vlsp d a m ofs => some (d, a, m, ofs.signExtend 64, .spad)
  | .vlcl d a m ofs => some (d, a, m, ofs.signExtend 64, .clu)
  | .vldd d a m ofs => some (d, a, m, ofs.signExtend 64, .die)
  | _ => none
def vectorStore : Instr → Option (Reg × Reg × Reg × W64 × Space)
  | .vst d a m ofs => some (d, a, m, ofs.signExtend 64, .mem)
  | .vssp d a m ofs => some (d, a, m, ofs.signExtend 64, .spad)
  | .vscl d a m ofs => some (d, a, m, ofs.signExtend 64, .clu)
  | .vstd d a m ofs => some (d, a, m, ofs.signExtend 64, .die)
  | _ => none
/-- Lane by lane in increasing order: `st l` stands before lane l, a disabled lane changes nothing, and an enabled one
is what `act l` makes of it (R249). -/
def LaneSteps (m : Nat) (act : Nat → State → Option State) (st : Nat → State) : Prop :=
  ∀ l < 16, act l (st l) = some (st (l + 1)) ∧ laneOn m l = true ∨ laneOn m l = false ∧ st (l + 1) = st l
/-- Some enabled lane lies in an SO page, so that every lane's access is SO (13 R299). -/
def anySo (s : State) (c : Nat) (sp : Space) (acc : Acc) (mk : Nat) (addr : Nat → W64) : Bool :=
  sp == .mem && !(s.core c).isFw && (List.range 16).any fun l =>
    laneOn mk l && s.pageSo (.core c) (s.core c).asid (addr l).toNat acc (!(s.core c).sup)
/-- The data stream of core c has loaded a word of a location into lane l of V(D) (10 R250). -/
def laneLoaded (s : State) (c : Nat) (a : Loc) (d : Reg) (l : Nat) : State :=
  match a.place with
  | some p =>
    if a.so then s
    else s.setLoads fun x => { core := c, data := true, word := (s.core c).wbase.toNat + 16 * d.toNat + l, place := p,
                               n := 8, signed := false } :: x
  | none => s
/-- One lane of a load: eight bytes at x go to lane l of V(D). -/
def laneLoad (c : Nat) (sp : Space) (d : Reg) (so : Bool) (l : Nat) (x : W64) (s : State) : Option State :=
  match (laneLoc sp so x .load).run s with
  | .error _ _ => none
  | .ok a s1 =>
    match (loadFrom true a 8).run s1 with
    | .error _ _ => none
    | .ok v s2 => if d = 0xfff then some s2
      else (s2.giveLanes c d (2 ^ l) fun _ => BitVec.ofNat 64 v).map fun t => laneLoaded t c a d l
/-- One lane of a store. -/
def laneStore (c : Nat) (sp : Space) (d : Reg) (so : Bool) (l : Nat) (x : W64) (s : State) : Option State :=
  match s.lanes c d (2 ^ l) with
  | none => none
  | some (v, s1) =>
    match (laneLoc sp so x .store).run s1 with
    | .error _ _ => none
    | .ok a s2 =>
      match (storeLoc a 8 (v.getD l 0).toNat).run s2 with
      | .error _ _ => none
      | .ok _ s3 => some (s2.storedTo s3 c true a)

/-! ## Vector values -/

/-- A lane whose element j of width n is `g` of the elements j of two lanes (R36, R182). -/
def lanes2 (n : Nat) (g : BitVec n → BitVec n → BitVec n) (x y : W64) : W64 :=
  (List.range (64 / n)).foldl (fun acc j =>
    acc ||| ((g (x.extractLsb' (n * j) n) (y.extractLsb' (n * j) n)).setWidth 64 <<< (n * j))) 0
/-- The value of an element (R154), and the element of a value. -/
def elemVal (ty : IntTy) (x : BitVec (IntTy.width ty)) : Int := if IntTy.signed ty then x.toInt else (x.toNat : Int)
def elemOfVal (ty : IntTy) (y : Int) : BitVec (IntTy.width ty) := BitVec.ofInt (IntTy.width ty) y
def typeMin (ty : IntTy) : Int := if IntTy.signed ty then -2 ^ (IntTy.width ty - 1) else 0
def typeMax (ty : IntTy) : Int := if IntTy.signed ty then 2 ^ (IntTy.width ty - 1) - 1 else 2 ^ IntTy.width ty - 1
def clamped (ty : IntTy) (sat : Bool) (y : Int) : Int := if sat then max (typeMin ty) (min (typeMax ty) y) else y

/-- R186, R187: D, A, B, MASK and each lane's value. -/
def vectorTwo : Instr → Option (Reg × Reg × Reg × Reg × (W64 → W64 → W64))
  | .vadd sat ty d a b m => some (d, a, b, m, lanes2 (IntTy.width ty) fun x y =>
      elemOfVal ty (clamped ty sat (elemVal ty x + elemVal ty y)))
  | .vsub sat ty d a b m => some (d, a, b, m, lanes2 (IntTy.width ty) fun x y =>
      elemOfVal ty (clamped ty sat (elemVal ty x - elemVal ty y)))
  | .vmul ty d a b m => some (d, a, b, m, lanes2 (IntTy.width ty) fun x y => x * y)
  | .vmulh ty d a b m => some (d, a, b, m, lanes2 (IntTy.width ty) fun x y =>
      elemOfVal ty ((elemVal ty x * elemVal ty y).fdiv (2 ^ IntTy.width ty)))
  | .vdiv ty d a b m => some (d, a, b, m, lanes2 (IntTy.width ty) fun x y =>
      elemOfVal ty (if elemVal ty y = 0 then -1 else (elemVal ty x).tdiv (elemVal ty y)))
  | .vrem ty d a b m => some (d, a, b, m, lanes2 (IntTy.width ty) fun x y =>
      elemOfVal ty (if elemVal ty y = 0 then elemVal ty x else (elemVal ty x).tmod (elemVal ty y)))
  | .vand _ d a b m => some (d, a, b, m, fun x y => x &&& y)
  | .vor _ d a b m => some (d, a, b, m, fun x y => x ||| y)
  | .vxor _ d a b m => some (d, a, b, m, fun x y => x ^^^ y)
  | .vshl ty d a b m => some (d, a, b, m, lanes2 (IntTy.width ty) fun x y => x <<< (y.toNat % IntTy.width ty))
  | .vshr ty d a b m => some (d, a, b, m, lanes2 (IntTy.width ty) fun x y =>
      if IntTy.signed ty then x.sshiftRight (y.toNat % IntTy.width ty) else x >>> (y.toNat % IntTy.width ty))
  | .vmin ty d a b m => some (d, a, b, m, lanes2 (IntTy.width ty) fun x y =>
      if elemVal ty x ≤ elemVal ty y then x else y)
  | .vmax ty d a b m => some (d, a, b, m, lanes2 (IntTy.width ty) fun x y =>
      if elemVal ty x ≤ elemVal ty y then y else x)
  | .vcmp cc ty d a b m => some (d, a, b, m, lanes2 (IntTy.width ty) fun x y =>
      if compared cc (elemVal ty x) (elemVal ty y) then BitVec.allOnes _ else 0)
  | _ => none

/-- R190 to R194: D, A, B, MASK, the type, and the value and flags of an element of two, as a function of the mode. -/
def floatTwo : Instr → Option (Reg × Reg × Reg × Reg × FpTy × (Core → Nat → Nat → Nat × Nat))
  | .vfadd ty rm d a b m => some (d, a, b, m, ty, fun k x y => fAdd (fpFmt ty) (k.rm rm) x y)
  | .vfsub ty rm d a b m => some (d, a, b, m, ty, fun k x y => fSub (fpFmt ty) (k.rm rm) x y)
  | .vfmul ty rm d a b m => some (d, a, b, m, ty, fun k x y => fMul (fpFmt ty) (k.rm rm) x y)
  | .vfdiv ty rm d a b m => some (d, a, b, m, ty, fun k x y => fDiv (fpFmt ty) (k.rm rm) x y)
  | .vfscl ty rm d a b m => some (d, a, b, m, ty, fun k x y =>
      fScl (fpFmt ty) (k.rm rm) x (BitVec.ofNat (fpFmt ty).width y).toInt)
  | .vfmin ty d a b m => some (d, a, b, m, ty, fun _ x y => fMinMax (fpFmt ty) false x y)
  | .vfmax ty d a b m => some (d, a, b, m, ty, fun _ x y => fMinMax (fpFmt ty) true x y)
  | .vfsgn op ty d a b m => some (d, a, b, m, ty, fun _ x y =>
      let n := (fpFmt ty).width
      let sx := x / 2 ^ (n - 1) % 2
      let sy := y / 2 ^ (n - 1) % 2
      (x % 2 ^ (n - 1) + 2 ^ (n - 1) * (match op with | .copy => sy | .ncopy => 1 - sy | .xor => (sx + sy) % 2), 0))
  | .vfcmp cc ty d a b m => some (d, a, b, m, ty, fun _ x y =>
      (if (fCmp (fpFmt ty) cc x y).1 then 2 ^ (fpFmt ty).width - 1 else 0, (fCmp (fpFmt ty) cc x y).2))
  | _ => none
/-- R190, R191, R193: D, A, MASK, the type and the value and flags of an element. -/
def floatOne : Instr → Option (Reg × Reg × Reg × FpTy × (Core → Nat → Nat × Nat))
  | .vfsqrt ty rm d a m => some (d, a, m, ty, fun k x => fSqrt (fpFmt ty) (k.rm rm) x)
  | .vfrint ty rm d a m => some (d, a, m, ty, fun k x => fRint (fpFmt ty) (k.rm rm) x)
  | .vfabs ty d a m => some (d, a, m, ty, fun _ x => (x % 2 ^ ((fpFmt ty).width - 1), 0))
  | .vfneg ty d a m => some (d, a, m, ty, fun _ x =>
      (x % 2 ^ ((fpFmt ty).width - 1) + 2 ^ ((fpFmt ty).width - 1) * (1 - x / 2 ^ ((fpFmt ty).width - 1) % 2), 0))
  | .vfcls ty d a m => some (d, a, m, ty, fun _ x => (fClass (fpFmt ty) x, 0))
  | _ => none
/-- R196: D, A, B, C, MASK, the type, the mode, and whether the product and the addend are negated. -/
def fused : Instr → Option (Reg × Reg × Reg × Reg × Reg × FpTy × RmF × Bool × Bool)
  | .vfma ty rm d a b c m => some (d, a, b, c, m, ty, rm, false, false)
  | .vfms ty rm d a b c m => some (d, a, b, c, m, ty, rm, false, true)
  | .vfnma ty rm d a b c m => some (d, a, b, c, m, ty, rm, true, false)
  | .vfnms ty rm d a b c m => some (d, a, b, c, m, ty, rm, true, true)
  | _ => none
/-- R197: D, A, MASK, the constant, the element width, and the value and flags of an element against it. -/
def constantForm : Instr → Option (Reg × Reg × Reg × BitVec 3 × BitVec 17 × Nat × (Core → Nat → Nat → Nat × Nat))
  | .vfaddk ty rm d a m kw ko => some (d, a, m, kw, ko, (fpFmt ty).width, fun k x y => fAdd (fpFmt ty) (k.rm rm) x y)
  | .vfmulk ty rm d a m kw ko => some (d, a, m, kw, ko, (fpFmt ty).width, fun k x y => fMul (fpFmt ty) (k.rm rm) x y)
  | .vaddk ty d a m kw ko => some (d, a, m, kw, ko, IntTy.width ty, fun _ x y => ((x + y) % 2 ^ IntTy.width ty, 0))
  | .vmulk ty d a m kw ko => some (d, a, m, kw, ko, IntTy.width ty, fun _ x y => ((x * y) % 2 ^ IntTy.width ty, 0))
  | _ => none
/-- The flags that the enabled lanes raise (R183). -/
def raised (m : Nat) (f : Nat → W64 × Nat) : W64 :=
  BitVec.ofNat 64 ((List.range 16).foldl (fun acc l => if laneOn m l then Nat.lor acc (f l).2 else acc) 0 % 32)
/-- More flags of core c's `FCSR` are set (R50). -/
def flagged (s : State) (c : Nat) (fl : W64) : State := s.setCore c { s.core c with fcsr := (s.core c).fcsr ||| fl }

/-- R199, R200: D, A, B, MASK and lane k from the lanes of A and B. -/
def permuted : Instr → Option (Reg × Reg × Reg × Reg × (List W64 → List W64 → Nat → W64))
  | .vperm d a b m => some (d, a, b, m, fun x y k => if (y.getD k 0).toNat < 16 then x.getD (y.getD k 0).toNat 0 else 0)
  | .vzip hi d a b m => some (d, a, b, m, fun x y k =>
      let i := k / 2
      (if k % 2 = 0 then x else y).getD ((if hi then 8 else 0) + i) 0)
  | .vunzip hi d a b m => some (d, a, b, m, fun x y k =>
      (if k < 8 then x else y).getD (2 * (k % 8) + if hi then 1 else 0) 0)
  | _ => none
/-- How many of the bits below k of a word are set. -/
def onesBelow (w : W64) (k : Nat) : Nat := ((List.range k).filter fun j => w.getLsbD j).length
/-- R201: lane j of `vcompress`: lane k of A for the k whose selected predecessors number j. -/
def compressed (x : List W64) (w : W64) (j : Nat) : W64 :=
  match (List.range 16).find? fun k => w.getLsbD k && onesBelow w k == j with
  | some k => x.getD k 0
  | none => 0
def expanded (x : List W64) (w : W64) (k : Nat) : W64 := if w.getLsbD k then x.getD (onesBelow w k) 0 else 0

/-- The elements of the enabled lanes, each in the low bits of a word. -/
def enabled (n m : Nat) (x : List W64) : List W64 :=
  ((List.range 16).filter (laneOn m)).flatMap fun l => (List.range (64 / n)).map fun j => x.getD l 0 >>> (n * j)
/-- R202: D, A, MASK, the type and y of the elements. -/
def reduction : Instr → Option (Reg × Reg × Reg × IntTy × (List W64 → Int))
  | .vredadd ty d a m => some (d, a, m, ty, fun l => (l.map (valOf ty)).sum)
  | .vredmin ty d a m => some (d, a, m, ty, fun l => (l.map (valOf ty)).foldl min (typeMax ty))
  | .vredmax ty d a m => some (d, a, m, ty, fun l => (l.map (valOf ty)).foldl max (typeMin ty))
  | .vredand ty d a m => some (d, a, m, ty, fun l => ((l.foldl (· &&& ·) (BitVec.allOnes 64)).toNat : Int))
  | .vredor ty d a m => some (d, a, m, ty, fun l => ((l.foldl (· ||| ·) 0).toNat : Int))
  | .vredxor ty d a m => some (d, a, m, ty, fun l => ((l.foldl (· ^^^ ·) 0).toNat : Int))
  | _ => none
/-- R203: D, A, MASK, the type, and the value and flags of a vector under a mask. -/
def floatReduction : Instr → Option (Reg × Reg × Reg × (Core → List W64 → Nat → Nat × Nat))
  | .vfredadd ty rm d a m => some (d, a, m, fun k x mk =>
      treeSum (fpFmt ty) (k.rm rm) 6 ((List.range 16).flatMap fun l => (List.range (64 / (fpFmt ty).width)).map fun j =>
        if laneOn mk l then elemOf (fpFmt ty).width j (x.getD l 0) else 2 ^ ((fpFmt ty).width - 1)) 0)
  | .vfredmin ty d a m => some (d, a, m, fun _ x mk => extremeOf (fpFmt ty) false (enabledElems (fpFmt ty).width mk x))
  | .vfredmax ty d a m => some (d, a, m, fun _ x mk => extremeOf (fpFmt ty) true (enabledElems (fpFmt ty).width mk x))
  | _ => none

/-- The accumulators after each enabled lane's has been changed. -/
def accs (m : Nat) (f : Nat → XAcc → XAcc) (t : Tbl XAcc) : Tbl XAcc :=
  (List.range 16).foldl (fun t l => if laneOn m l then tput t l (f l (tget {} t l)) else t) t
/-- R55 on a product or a value. -/
def xadded (x : XAcc) (v : Un) : XAcc :=
  match v with
  | .nan _ => { x with xnan := true }
  | .inf s => if s then { x with ninf := true } else { x with pinf := true }
  | .num s m e =>
    let q : Int := m * 2 ^ (e + 2148).toNat
    let t : Int := x.n + (if s then -q else q)
    if t < -2 ^ 4285 ∨ 2 ^ 4285 ≤ t then { x with xnan := true } else { x with n := t }
/-- R206: another accumulator merged in. -/
def xmerged (x y : XAcc) : XAcc :=
  let x := { x with pinf := x.pinf || y.pinf, ninf := x.ninf || y.ninf, xnan := x.xnan || y.xnan }
  if x.n + y.n < -2 ^ 4285 ∨ 2 ^ 4285 ≤ x.n + y.n then { x with xnan := true } else { x with n := x.n + y.n }
/-- The class of R56: NaN, +infinity, -infinity, or finite. -/
def isNanAcc (x : XAcc) : Bool := x.xnan || (x.pinf && x.ninf)
/-- `ExactSign` of R57, with its flag. -/
def signAcc (x : XAcc) : W64 × Nat :=
  if isNanAcc x then (0, 16) else if x.pinf then (1, 0) else if x.ninf then (BitVec.allOnes 64, 0)
  else (if x.n < 0 then BitVec.allOnes 64 else if x.n = 0 then 0 else 1, 0)
/-- `RoundOut` of R57, with its flags. -/
def roundAcc (rm : Rm) (x : XAcc) : W64 × Nat :=
  if isNanAcc x then (0x7ff8000000000000, 16) else if x.pinf then (0x7ff0000000000000, 0)
  else if x.ninf then (0xfff0000000000000, 0) else if x.n = 0 then (0, 0)
  else (BitVec.ofNat 64 (roundPack f64Fmt (decide (x.n < 0)) x.n.natAbs (-2148) rm false).1,
    (roundPack f64Fmt (decide (x.n < 0)) x.n.natAbs (-2148) rm false).2)
/-- R58: the image of an accumulator, and the accumulator of an image. -/
def imageOf (x : XAcc) : Nat :=
  if x.xnan || x.pinf || x.ninf then 2 ^ 4286 + (if x.xnan then 4 else 0) + (if x.ninf then 2 else 0) + (if x.pinf then 1 else 0)
  else (x.n % 2 ^ 4288).toNat
def ofImage (v : Nat) : XAcc :=
  let t := v / 2 ^ 4285 % 8
  if t = 0 then { n := v % 2 ^ 4288 }
  else if t = 7 then { n := (v % 2 ^ 4288 : Nat) - 2 ^ 4288 }
  else if t = 2 then { n := 0, xnan := v.testBit 2 || v % 8 == 0, ninf := v.testBit 1, pinf := v.testBit 0 }
  else { n := 0, xnan := true }
/-- Granule by granule: eight bytes of an image to each location, or from it. -/
def imageTo (c v : Nat) : List Loc → State → Option State
  | [], s => some s
  | l :: ls, s =>
    match (storeLoc l 8 (v % 2 ^ 64)).run s with
    | .ok _ t => imageTo c (v / 2 ^ 64) ls (s.storedTo t c true l)
    | .error _ _ => none
def imageFrom : List Loc → State → Option (Nat × State)
  | [], s => some (0, s)
  | l :: ls, s =>
    match (loadOver true l 8).run s with
    | .ok v t => (imageFrom ls t).map fun r => (v + 2 ^ 64 * r.1, r.2)
    | .error _ _ => none
/-- One lane of `xst` and of `xld`: every granule is checked, then the image is moved (R208). -/
def imageStored (c : Nat) (so : Bool) (l : Nat) (x : W64) (s : State) : Option State :=
  match (imageLocs so x .store 67 0).run s with
  | .ok locs t => imageTo c (imageOf (tget {} (t.core c).xa l)) locs t
  | .error _ _ => none
def imageLoaded (c : Nat) (so : Bool) (l : Nat) (x : W64) (s : State) : Option State :=
  match (imageLocs so x .load 67 0).run s with
  | .ok locs t => (imageFrom locs t).map fun r =>
      r.2.setCore c { r.2.core c with xa := tput (r.2.core c).xa l (ofImage r.1) }
  | .error _ _ => none
/-- An image of some enabled lane meets an SO page. -/
def imagesMeetSo (s : State) (c : Nat) (acc : Acc) (mk : Nat) (x : W64) : Bool :=
  anySo s c .mem acc mk (fun l => x + BitVec.ofNat 64 (536 * l)) ||
  anySo s c .mem acc mk fun l => x + BitVec.ofNat 64 (536 * l) + 528

/-! ## Matrix commands, channels and rings -/

/-- R280 on the `TCFG` values of D, A and B, and the window of `amov` (R286): width code in bits [15:14], rows less one
in [13:8], bytes a row in [7:0]. -/
def shaped (p : CmdSpec) (cd ca cb : Nat) (wb : W64) : Bool :=
  let width (v : Nat) : Nat := 4 * 2 ^ (v / 2 ^ 14 % 4)
  let rows (v : Nat) : Nat := v / 2 ^ 8 % 64 + 1
  let bytes (v : Nat) : Nat := v % 256
  let whole (v : Nat) : Bool := p.ty != .b4 || bytes v % 16 == 0
  let w := wb.toNat
  match p.op with
  | .mma => width ca == p.ty.width && (p.fl < 8 || rows ca == 8) && width cb == width ca && bytes cb == bytes ca && whole cb
  | .amov => width cd == p.ty.width && w / 2 ^ 6 % 4 == 0 && w / 2 ^ 14 == 0 &&
      decide (w % 64 + rows cd ≤ 64) && decide (w / 2 ^ 8 % 64 + 8 * bytes cd / width cd ≤ 64)
  | .tld | .tst | .tldq => width cd == p.ty.width && whole cd
  | _ => true
/-- A record that the command reads or writes through is aligned (R280). -/
def recordAligned (p : CmdSpec) (wa : W64) : Bool :=
  match p.op with
  | .tld | .tst | .ast | .ald => wa.toNat % 64 == 0
  | _ => true
/-- The command that an instruction issues (R281 to R287; 19 R390): its operation, its type, the tiles and accumulators
of D, A and B, its space and flags (8 gang, 4 from zero, 2 negate B, 1 negate A; for `amov` 1 saturate), its ids, and
the words it reads. None where a field names no such tile or accumulator. -/
def command : Instr → Option (CmdSpec × EIds × Option Reg × Option Reg)
  | .tld ty sp d a ids => if d.toNat < 8 then
      some ({ op := .tld, ty := ty, d := d.toNat, sp := sp }, ids, some a, none) else none
  | .tst ty sp d a ids => if d.toNat < 8 then
      some ({ op := .tst, ty := ty, d := d.toNat, sp := sp }, ids, some a, none) else none
  | .tzero d ids => if d.toNat < 8 then some ({ op := .tzero, d := d.toNat }, ids, none, none) else none
  | .mma ty g ad nb na d a b ids => if d.toNat < 4 ∧ a.toNat < 8 ∧ b.toNat < 8 then
      some ({ op := .mma, ty := ty, d := d.toNat, a := a.toNat, b := b.toNat,
              fl := (if g then 8 else 0) + (if ad then 4 else 0) + (if nb then 2 else 0) + (if na then 1 else 0) },
        ids, none, none) else none
  | .amov ty sat d a b ids => if d.toNat < 8 ∧ a.toNat < 4 then
      some ({ op := .amov, ty := ty, d := d.toNat, a := a.toNat, fl := if sat then 1 else 0 }, ids, none, some b) else none
  | .ast sp d a ids => if d.toNat < 4 then some ({ op := .ast, d := d.toNat, sp := sp }, ids, some a, none) else none
  | .ald sp d a ids => if d.toNat < 4 then some ({ op := .ald, d := d.toNat, sp := sp }, ids, some a, none) else none
  | .azero d ids => if d.toNat < 4 then some ({ op := .azero, d := d.toNat }, ids, none, none) else none
  | .tldq ty d a b ids => if d.toNat < 8 then
      some ({ op := .tldq, ty := ty, d := d.toNat }, ids, some a, some b) else none
  | _ => none
/-- A word source that may be absent. -/
def takeAny (s : State) (c : Nat) : Option Reg → Option (W64 × State)
  | some r => s.take c true r
  | none => some (0, s)
/-- The predecessors of R274: the commands that hold the ids named, and those that name the same accumulator. -/
def follows (ids : EIds) (acc : Option Nat) (y : Cmd) : Prop :=
  (ids.v1 = true ∧ y.cid = ids.p1.toNat) ∨ (ids.v2 = true ∧ y.cid = ids.p2.toNat) ∨ (acc ≠ none ∧ y.acc = acc)
/-- The accumulator of R274. -/
def accumulatorOf (p : CmdSpec) : Option Nat :=
  match p.op with
  | .mma | .ast | .ald | .azero => some p.d
  | .amov => some p.a
  | _ => none

/-- Words from a window field upward, all inside the window and usable at once: they are read, or take what `f` gives. -/
def blockHeld (k : Core) (r : Reg) (n : Nat) : Bool :=
  decide (r.toNat < 0xf80) && decide (r.toNat + n ≤ k.wlim.toNat) &&
  (List.range n).all fun j => k.holds (k.wbase.toNat + r.toNat + j)
def blockRead (s : State) (c : Nat) (r : Reg) (n : Nat) : List W64 × State :=
  let b := (s.core c).wbase.toNat + r.toNat
  ((List.range n).map fun j => (s.core c).word (b + j), (List.range n).foldl (fun s j => s.readAt c (b + j)) s)
def blockWritten (s : State) (c : Nat) (r : Reg) (n : Nat) (f : Nat → W64) : State :=
  let b := (s.core c).wbase.toNat + r.toNat
  (List.range n).foldl (fun s j => s.putAt c (b + j) (f j)) s
/-- Word j of a record. -/
def wordOf (t : Rec) (j : Nat) : W64 := if j = 0 then t.code else if j = 1 then t.frame else if j = 2 then t.arg else t.ctrl
/-- Word j of the four of a record that is absent: -1 or another negative number, then zeros. -/
def absent (v : W64) (j : Nat) : W64 := if j = 0 then v else 0

/-- The scalar stream's earlier loads of a 64-byte record stand (10 R250). -/
def recordOver (s : State) (c : Nat) (l : Loc) : State :=
  (List.range 8).foldl (fun s i => match (l.shift (8 * i)).place with
    | some p => s.readOver c false p
    | none => s) s
/-- Records of a completion ring at offset o of core c's scratchpad (09 R234). -/
def ringHolds (s : State) (c o : Nat) : Nat :=
  ((s.core c).spad.le o 4 + 2 ^ 32 - (s.core c).spad.le (o + 4) 4) % 2 ^ 32
/-- The ring a word names: its core, offset and LOGN (10 R265, R266). -/
def ringNamed (s : State) (c : Nat) (x : W64) : Option (Nat × Nat × Nat) :=
  match s.onchip c .spad x.toNat 32 with
  | some (.spad k o) =>
    let logn := ((s.core k).spad.get (o + 8)).toNat
    if x.toNat % 64 = 0 ∧ 1 ≤ logn ∧ logn ≤ 12 then some (k, o, logn) else none
  | _ => none

/-- Channel n of core c. -/
def channel (s : State) (c n : Nat) : Chan := tget {} (s.core c).chans n
def channelSet (s : State) (c n : Nat) (ch : Chan) : State :=
  s.setCore c { s.core c with chans := tput (s.core c).chans n ch }
/-- Copies of a channel that are not complete. -/
def copiesOf (ch : Chan) : Nat := (ch.items.filter fun i => match i with | .copy _ => true | .reset => false).length
/-- A copy whose bytes are over before they started: skipped, of no bytes, or refused with a code. -/
def copyEnded (cp : Copy) (outcome code : Nat) : Copy :=
  { cp with started := true, outcome := some (outcome, code, 0), demand := none, seen := [], pinS := none, pinD := none }
/-- A copy as `send` and `sendb` issue it. -/
def copyIssued (k : Core) (c : Nat) (b : Binding) (tag : Nat) (src dst : W64) (ss ds : Space) (len : Nat) (block : Bool) : Copy :=
  { tag := tag, bind := b, issuer := c, asid := k.asid, sup := k.sup, launch := k.launch, dlim := k.demandlimL,
    src := src.toNat, dst := dst.toNat, sspace := ss, dspace := ds, len := len, block := block, lay := none,
    kind := false, started := false, moved := 0, c0 := 0, olds := [], outcome := none, demand := none }

/-! ## Atomics, barriers, forks and messages -/

/-- Bytes of an atomic's operand, and its signedness (R324). -/
def amoWidth : AmoTy → Nat × Bool
  | .i32 => (4, true)
  | .i64 => (8, true)
  | .n32 => (4, false)
  | .n64 => (8, false)
/-- The value an atomic stores from the n bytes read and W(B) (R324). -/
def amoResult (op : AmoOp) (ty : AmoTy) (old : Nat) (y : W64) : Nat :=
  let n := (amoWidth ty).1
  let word (v : Nat) : BitVec (8 * n) := BitVec.ofNat (8 * n) v
  let value (v : BitVec (8 * n)) : Int := if (amoWidth ty).2 then v.toInt else (v.toNat : Int)
  let a := word old
  let b := word y.toNat
  (match op with
  | .add => a + b
  | .and => a &&& b
  | .or => a ||| b
  | .xor => a ^^^ b
  | .min => if value a ≤ value b then a else b
  | .max => if value a ≤ value b then b else a
  | .swap => b).toNat

/-- The barrier that a word names on a partition: its home core and number (R326). -/
def barrierNamed (s : State) (c : Nat) (x : W64) : Option (Nat × Nat) :=
  let idx := x.toNat / 2 ^ 32
  if x.toNat < 2 ^ 43 ∧ x.toNat % 2 ^ 32 < 1024 ∧ idx < s.nP c then some (s.base c + idx, x.toNat % 1024) else none
def barrier (s : State) (k i : Nat) : Bar := tget {} (s.core k).bars i
def barrierSet (s : State) (k i : Nat) (b : Bar) : State := s.setCore k { s.core k with bars := tput (s.core k).bars i b }
/-- One more arrival: the last of a phase starts the next (R327). -/
def arrivedAt (b : Bar) : Bar :=
  if b.arrived + 1 = b.expect then { b with arrived := 0, phase := (b.phase + 1) % 65536 }
  else { b with arrived := b.arrived + 1 }

/-- The deque of a core (R330): TOP, BOT, the spill array and the capacity; how many records it holds; and the
scratchpad offset at which record i lies, or none where it lies in the spill array. -/
def dequeTop (k : Core) : Nat := k.spad.le 0x37fc0 8
def dequeBot (k : Core) : Nat := k.spad.le 0x37fc8 8
def dequeSpill (k : Core) : Nat := k.spad.le 0x37fd0 8
def dequeLog (k : Core) : Nat := (k.spad.get 0x37fd8).toNat
def dequeCap (k : Core) : Nat := 512 + (if dequeSpill k = 0 then 0 else 2 ^ dequeLog k)
def dequeHolds (k : Core) : Nat := (dequeBot k + 2 ^ 64 - dequeTop k) % 2 ^ 64
def dequeSlot (k : Core) (i : Nat) : Option Nat :=
  if i % dequeCap k < 512 then some (0x38000 + 32 * (i % dequeCap k)) else none
def dequeSpillAt (k : Core) (i : Nat) : Nat := (dequeSpill k + 32 * (i % dequeCap k - 512)) % 2 ^ 64
/-- Record i of core k's deque as core c reads it. -/
def dequeRecord (s : State) (c k i : Nat) : Option (Rec × State) :=
  match dequeSlot (s.core k) i with
  | some o => some ((s.core k).spad.rec o, s)
  | none =>
    match (unitRead (spillWork s c) .mem (dequeSpillAt (s.core k) i) 32).run s with
    | .ok bs t => some (recOfBytes bs, t)
    | .error _ _ => none
/-- Core k's scratchpad changes: a core that sleeps in `halt` wakes when its BOT does (19 R386). `touched` says that n bytes
from an offset of it have been written by none of its streams (log 57). -/
def spadSet (s : State) (k : Nat) (m : Memory) : State :=
  s.setCore k { s.core k with spad := m, halted := (s.core k).halted && m.le 0x37fc8 8 == (s.core k).spad.le 0x37fc8 8 }
def touched (s : State) (k off n : Nat) : State := s.clobber 2048 1 k off n
def topMoved (s : State) (k : Nat) (v : Nat) : State :=
  touched (s.setCore k { s.core k with spad := (s.core k).spad.setLe 0x37fc0 8 (v % 2 ^ 64) }) k 0x37fc0 8
def botMoved (s : State) (k : Nat) (v : Nat) : State :=
  touched (spadSet s k ((s.core k).spad.setLe 0x37fc8 8 (v % 2 ^ 64))) k 0x37fc8 8
/-- A pop at the bottom and a steal at the top (R332): the words for D, and the state after. -/
def popped (s : State) (c : Nat) : Option ((Nat → W64) × State) :=
  let k := s.core c
  if dequeHolds k = 0 then some (absent (-1), s)
  else if dequeHolds k = 1 then (dequeRecord s c c (dequeTop k)).map fun x => (wordOf x.1, topMoved x.2 c (dequeTop k + 1))
  else
    let i := (dequeBot k + 2 ^ 64 - 1) % 2 ^ 64
    (dequeRecord s c c i).map fun x => (wordOf x.1, botMoved x.2 c i)
def stolen (s : State) (c k : Nat) : Option ((Nat → W64) × State) :=
  if dequeHolds (s.core k) = 0 then some (absent (-1), s.note 0x6 c 1)
  else (dequeRecord s c k (dequeTop (s.core k))).map fun x =>
    if s.inDomain x.1 k c then (wordOf x.1, (topMoved x.2 k (dequeTop (s.core k) + 1)).note 0x5 c 1)
    else (absent (-2), x.2.note 0x6 c 1)
/-- A record of four words. -/
def recordOf (l : List W64) : Rec :=
  { code := l.getD 0 0, frame := l.getD 1 0, arg := l.getD 2 0, ctrl := l.getD 3 0 }
/-- `fork` in a fault task requeues the record it answers for (18 R363). -/
def forkedBy (k : Core) : Core :=
  { k with requeued := match k.task with | some t => k.requeued || t.kind == .fault | none => false }
/-- A join address or core word whose core is in the partition: the core (01 R13, R336). -/
def coreNamed (s : State) (c : Nat) (x : W64) : Option Nat :=
  if x.toNat / 2 ^ 32 < Nat.min 2048 (s.nP c) then some (s.base c + x.toNat / 2 ^ 32) else none

/-! ## Tasks, teams and traps -/

/-- A core whose data stream has lost what it held, and with it a `bar.sync` that waited: the queue words that a waiting
instruction has read stand at the heads of their queues again (06 R135). -/
def unread (k : Core) : Core :=
  let words (p : Nat → Bool) : List W64 := ((k.dq.flatMap (·.popped) ++ k.barPop).filter fun x => p x.1).map (·.2)
  { k with qd := words (· == 4) ++ k.qd, qc := words (· == 5) ++ k.qc, portN := words (· == 0) ++ k.portN,
           portE := words (· == 1) ++ k.portE, portS := words (· == 2) ++ k.portS,
           portW := words (fun d => d == 3 || 5 < d) ++ k.portW,
           dq := [], undo := [], demandD := none, barPop := [] }
/-- A core whose task has ended. -/
def idled (k : Core) : Core :=
  { unread k with task := none, sup := false, inTrap := false, trapCode := 0, trapReq := false, requeued := false,
                  resume := none, barAt := none, qd := [], qc := [], demand := none, stopAt := none, ending := none }
/-- A core that enters its handler (18 R358, R359): the fault record, the trap window, supervisor mode, and `TVEC`. -/
def trapped (k : Core) (pc : W64) (code : Nat) (data lanes micro : Bool) (step lane : Nat) (addr : W64) (req : Bool) : Core :=
  { k with
    fpc := pc,
    fcause := BitVec.ofNat 64 (code + (if micro then 2 ^ 15 else 0) + (if data then 2 ^ 16 else 0) +
      (if k.sup then 2 ^ 17 else 0) + (if lanes then 2 ^ 18 else 0) + 2 ^ 20 * (if req then 0 else k.role)),
    faddr := addr, fstep := BitVec.ofNat 64 step, lstart := BitVec.ofNat 64 lane, fwb := k.wbase, fwl := k.wlim,
    wbase := k.twb, wlim := k.twl, sup := true, inTrap := true, trapCode := code, trapReq := req, pc := k.tvec }
/-- A core has a usable handler (R359). -/
def handled (k : Core) : Bool :=
  k.tvec != 0 && k.twl != 0 && decide (k.twb.toNat + k.twl.toNat ≤ k.rbl.toNat) && !k.inTrap && !k.isFw

/-- The words of a hand-over's list lie inside the window (06 R141). -/
def listHeld (k : Core) (a : Reg) (lmap : BitVec 16) : Bool :=
  decide (a.toNat < 0xf80) && lmap != 0 && (List.range 16).all fun j => !lmap.getLsbD j || decide (a.toNat + j < k.wlim.toNat)
/-- Their numbers in register space. -/
def listNamed (k : Core) (a : Reg) (lmap : BitVec 16) : List Nat :=
  ((List.range 16).filter fun j => lmap.getLsbD j).map fun j => k.wbase.toNat + a.toNat + j
/-- No line of any core's register store has a word pending, or is one that an instruction in progress still needs. -/
def settled (s : State) : Bool := s.cores.all fun k => k.2.pend.isEmpty && k.2.rs.all fun x => !k.2.rsPinned x.1
/-- No line of a register store waits for the acknowledgements of an overflowed line (13 R296), or fails on the host link
when it is written back (09 R409). -/
def writable (s : State) : Bool := s.cores.all fun k => k.2.rs.all fun x => s.rsMayWrite k.1 x.2 && !s.rsError x.2
/-- No partition control keeps a place in the queue that r names (06 R135). -/
def noPlaceKept (s : State) (c : Nat) (r : Reg) : Bool := s.parts.all fun p => p.core != some c || p.reg != r

/-! ## Where an address leads -/

/-- The table that a walk reads after k entries, from level 4 down, and the place and the value of its entry of a level
(09 R241). -/
def tableOf (m : Memory) (va root : Nat) : Nat → Nat
  | 0 => root
  | k + 1 => m.le (tableOf m va root k + 8 * (va / 2 ^ (12 + 9 * (4 - k)) % 512)) 8 / 2 ^ 12 % 2 ^ 40 * 2 ^ 12
def entryOf (m : Memory) (va root lv : Nat) : Nat := tableOf m va root (4 - lv) + 8 * (va / 2 ^ (12 + 9 * lv) % 512)
def entryAt (m : Memory) (va root lv : Nat) : Nat := m.le (entryOf m va root lv) 8
/-- An entry that R243 faults, and a leaf. -/
abbrev entryBad (lv e : Nat) : Prop :=
  e / 2 ^ 8 % 2 ^ 4 ≠ 0 ∨ e / 2 ^ 52 % 2 ^ 3 ≠ 0 ∨ e / 2 ^ 60 % 2 ^ 2 ≠ 0 ∨ e / 2 ^ 62 = 3 ∨ (3 ≤ lv ∧ e.testBit 7 = true)
abbrev entryLeaf (lv e : Nat) : Prop := lv = 0 ∨ (lv ≤ 2 ∧ e.testBit 7 = true)
/-- The walk comes to level lv. -/
abbrev walkComes (m : Memory) (va root lv : Nat) : Prop :=
  lv ≤ 4 ∧ ∀ j < 5, lv < j → (entryAt m va root j).testBit 0 = true ∧ ¬ entryBad j (entryAt m va root j) ∧
    ¬ entryLeaf j (entryAt m va root j)
/-- It finds a sound leaf there: the frame is aligned to its page, and lies where an access may go. -/
def leafFrame (e : Nat) : Nat := e / 2 ^ 12 % 2 ^ 40 * 2 ^ 12
abbrev leafSound (lv e : Nat) : Prop := leafFrame e % (4096 * 512 ^ lv) = 0 ∧ physKind (leafFrame e) ≠ .unassigned
/-- What a leaf permits (R242), to a user or a supervisor; no user reaches the device control region (R221). -/
abbrev leafPermits (e : Nat) (acc : Acc) (user : Bool) : Prop :=
  (user = true → e.testBit 4 = true) ∧ ¬ (physKind (leafFrame e) = .dcr ∧ e.testBit 4 = true) ∧
  (acc = .load → e.testBit 1 = true) ∧ (acc = .store → e.testBit 2 = true) ∧ (acc = .fetch → e.testBit 3 = true)
/-- Sixteen entries that form a page of 64 KiB (R244). -/
abbrev grouped (m : Memory) (ea e : Nat) : Prop :=
  leafFrame (m.le (ea / 128 * 128) 8) % 65536 = 0 ∧ ∀ i < 16, let x := m.le (ea / 128 * 128 + 8 * i) 8
    x.testBit 0 = true ∧ x.testBit 59 = true ∧ x / 2 ^ 62 % 4 = e / 2 ^ 62 % 4 ∧ x % 32 = e % 32 ∧
    leafFrame x = leafFrame (m.le (ea / 128 * 128) 8) + 4096 * i
/-- A line of that group is poisoned. -/
abbrev groupPoisoned (s : State) (ea : Nat) : Prop :=
  s.poisoned (ea / 128 * 128) = true ∨ s.poisoned (ea / 128 * 128 + 64) = true
/-- A core's task translates in an address space with no translation cached. -/
abbrev walksAfresh (s : State) (c asid va root : Nat) : Prop :=
  s.cur = .core c ∧ (s.core c).isFw = false ∧ (s.core c).l1tlb = [] ∧ tget [] s.ctlb (c / 32) = [] ∧
  (s.core c).demand = none ∧ va < 2 ^ 64 ∧ (va / 2 ^ 56 = 0 ∨ va / 2 ^ 56 = 255) ∧
  (tget 0 s.roots asid).getLsbD 0 = true ∧ root = (tget 0 s.roots asid).toNat / 2 ^ 12 % 2 ^ 40 * 2 ^ 12
/-- The fault that ends a core's instruction there, and the page unit that a residency fault marks. -/
def faultsAt {α : Type} (m : M α) (s : State) (code : Nat) (a : W64) (marks : Option (Nat × Nat) := none) : Prop :=
  m.run s = .error (.trap (TrapInfo.mk code a none false 0 marks)) s

/-! ## The host, the front end and the dispatchers -/

/-- A mailbox command of a code that has been issued and not yet performed, of a front end that runs (03 R72). -/
def issued (s : State) (code : Nat) : Bool :=
  s.mbcmd.getLsbD 31 && s.mbcmd.toNat % 256 == code && !s.mbBusy && s.mgmt.alive && s.mgmt.layer == 2 && !s.mbRefuse
/-- The registers of BAR0 and their widths in bytes (03 R59): `MBCMD`, `MBSTAT`, the argument words, FEAT0 to 3, FEATACC0
to 3, and, in the page of each queue, its doorbell and its external signal. -/
def barRegister (off : Nat) : Option Nat :=
  if off = 0 ∨ off = 4 then some 4
  else if off % 8 = 0 ∧ ((8 ≤ off ∧ off < 0x28) ∨ (0x1000 ≤ off ∧ off < 0x1040)) then some 8
  else if 0x100000 ≤ off ∧ off < 0x1100000 ∧ off % 0x1000 = 0 then some 4
  else if 0x100000 ≤ off ∧ off < 0x1100000 ∧ off % 0x1000 = 8 then some 8
  else none
/-- A read of BAR0 at a register's width finds v. -/
def barHolds (s : State) (width off v : Nat) : Prop :=
  exec (.hostRead (.bar0 off) width) s = .next { s with freeCtr := s.freeCtr + 1, hostData := leBytes v width }
/-- The command has finished with a result: GO is clear. -/
def answered (s : State) (r : Nat) : State :=
  { s with mbcmd := s.mbcmd &&& 0x7fffffff#32, mbstat := BitVec.ofNat 32 r, mbRefuse := false, mbBusy := false }
/-- The mailbox commands and their codes (03 R72 to R75; 21 R395). -/
def mailboxCommand : Instr → Option Nat
  | .regq => some 1
  | .unregq => some 2
  | .qresume => some 3
  | .lcancel => some 4
  | .pflush => some 5
  | .getlog => some 6
  | .updwrite => some 7
  | .updarm => some 8
  | .updsvn => some 9
  | .ident => some 0x0a
  | .tendef => some 0x0b
  | .asidset => some 0x0c
  | .tenset => some 0x0d
  | .tenres => some 0x0e
  | .nodectl => some 0x0f
  | _ => none
/-- The front end may write n bytes of a line at once (13 R296), and the host link does not fail (09 R409). -/
def frontWrites (s : State) (pa : Nat) : Bool := s.feq.isEmpty && s.mayWrite 2048 (pa / 64) && !s.linkError pa
/-- Argument word k of the mailbox. -/
def argument (s : State) (k : Nat) : W64 := tget 0 s.mbarg k
/-- Queue q changed. -/
def queueSet (s : State) (q : Nat) (f : Queue → Queue) : State :=
  { s with queues := s.queues.map fun x => if x.q = q then f x else x }
/-- Launch a changed. -/
def launchSet (s : State) (a : Nat) (f : Launch → Launch) : State :=
  { s with launches := s.launches.map fun x => if x.no = a then f x else x }
/-- Node n changed. -/
def nodeSet (s : State) (n : Nat) (f : Node → Node) : State :=
  { s with nodes := s.nodes.map fun x => if x.n = n then f x else x }
/-- A signal filed in a tenant's table of the 256 most recent, with every waiting launch looked at again (R78, R79). -/
def filed (s : State) (t : Nat) (g : Signal) : State :=
  State.advanceAll { s with signals := tput s.signals t (lastN 256 (tget [] s.signals t ++ [g])) }
/-- Field of n bytes at offset o of what was read. -/
def num (d : List Byte) (o n : Nat) : Nat := leNat ((d.drop o).take n)
/-- The fields of a launch are those of its record (01 R29). -/
def recordFields (l : Launch) : Prop :=
  l.lid = num l.raw 0 4 ∧ l.part = num l.raw 4 2 ∧ l.asid = num l.raw 6 2 ∧ l.lfl = num l.raw 8 2 ∧ l.nent = num l.raw 10 1 ∧
  l.rth = num l.raw 11 1 ∧ l.team = num l.raw 16 8 ∧ l.wset = num l.raw 24 8 ∧ l.cev = num l.raw 32 8 ∧
  l.enta = num l.raw 40 8 ∧ l.preds = [num l.raw 48 8, num l.raw 56 8, num l.raw 64 8, num l.raw 72 8] ∧
  l.ent = { code := BitVec.ofNat 64 (num l.raw 96 8), frame := BitVec.ofNat 64 (num l.raw 104 8),
            arg := BitVec.ofNat 64 (num l.raw 112 8), ctrl := BitVec.ofNat 64 (num l.raw 120 8) }
/-- 01 R29: every field of the record lies in its range, and its reserved bytes are zero. -/
abbrev recordGood (l : Launch) : Prop :=
  l.lid ≠ 0 ∧ l.asid ≤ 1023 ∧ l.lfl ≤ 1 ∧ l.cev % 32 = 0 ∧ num l.raw 12 4 = 0 ∧ ∀ i < 96, 80 ≤ i → l.raw.getD i 0 = 0
/-- 03 R71: the queue's address space, a partition of the tenant, and a LID that no live launch of the tenant has. -/
abbrev owned (s : State) (l : Launch) : Prop :=
  (∃ q ∈ s.queue? l.q, q.asid = l.asid) ∧ (∃ x ∈ s.node? l.part, l.tenant ∈ x.tset) ∧
  ∀ y ∈ s.launches, y.no < l.no → y.tenant = l.tenant → y.lid = l.lid → y.st = .done
/-- Role entry e of a team descriptor (01 R26). -/
def kindOf (d : List Byte) (e : Nat) : Nat := num d (16 + 8 * e) 1
def whereOf (d : List Byte) (e : Nat) : Nat := num d (17 + 8 * e) 1
def wordsOf (d : List Byte) (e : Nat) : Nat := num d (18 + 8 * e) 2
def membersOf (d : List Byte) (e : Nat) : Nat := num d (20 + 8 * e) 4
/-- 01 R26, R27 on one role entry, in cluster scope or row scope. -/
abbrev roleGood (clu : Bool) (d : List Byte) (e : Nat) : Prop :=
  (kindOf d e = 0 ∧ whereOf d e = 0 ∧ wordsOf d e = 0 ∧ membersOf d e = 0) ∨
  (kindOf d e = 1 ∧ 1 ≤ whereOf d e ∧ whereOf d e ≤ 8 ∧ 2 ≤ wordsOf d e ∧ wordsOf d e ≤ 3968 ∧
    ((List.range 32).filter (membersOf d e).testBit).length = whereOf d e ∧ (clu = true ∨ membersOf d e < 256)) ∨
  (kindOf d e = 2 ∧ wordsOf d e = 0 ∧ membersOf d e = 0 ∧ (whereOf d e = 0 ∨ clu = true ∧ whereOf d e ≤ 3)) ∨
  (kindOf d e = 3 ∧ whereOf d e = 0 ∧ wordsOf d e = 0 ∧ membersOf d e = 0)
/-- Two role entries bind the same core or engine. -/
abbrev rolesShare (d : List Byte) (e f : Nat) : Prop :=
  kindOf d e = kindOf d f ∧
  ((kindOf d e = 1 ∧ ∃ b < 32, (membersOf d e).testBit b = true ∧ (membersOf d f).testBit b = true) ∨
    ((kindOf d e = 2 ∨ kindOf d e = 3) ∧ whereOf d e = whereOf d f))
/-- 01 R25 to R27: a team descriptor is valid. -/
abbrev teamGood (va : Nat) (d : List Byte) : Prop :=
  va % 8 = 0 ∧ num d 8 1 ≤ 1 ∧ 1 ≤ num d 9 1 ∧ num d 9 1 ≤ 15 ∧ num d 10 1 ≤ 15 ∧ num d 11 1 = 0 ∧ num d 14 2 = 0 ∧
  (∀ i < 136, 16 + 8 * num d 9 1 ≤ i → d.getD i 0 = 0) ∧ (∀ e < num d 9 1, roleGood (num d 8 1 == 1) d e) ∧
  (∀ f < num d 9 1, ∀ e < f, ¬ rolesShare d e f) ∧ ∃ e < num d 9 1, kindOf d e = 1
/-- The instances that a descriptor places on a node (01 R25); none where the node has too few rows or clusters. -/
def instances (node : Nat) (d : List Byte) : Option Nat :=
  let units := if num d 8 1 = 1 then nodeRows node / 4 else nodeRows node
  let n := if num d 12 2 = 0 then units else num d 12 2
  if units = 0 ∨ units < n then none else some n
/-- Region descriptor i (01 R18), and the bytes of its space on a node (04 R93). -/
def regionIn (rt : List Byte) (i : Nat) : Region :=
  { name := num rt (16 * i) 4, space := num rt (16 * i + 4) 1, keep := num rt (16 * i + 5) 1 % 2 == 1,
    off := num rt (16 * i + 8) 4, size := num rt (16 * i + 12) 4 }
def spaceBytes (node sp : Nat) : Nat :=
  if sp = 0 then 0x40000 else if sp = 1 then 0x40000 * min (nodeCores node) 32 else 0x100000 * min (nodeRows node) 32
/-- 01 R18, R19: a table of n regions is valid. -/
abbrev regionsGood (node : Nat) (rt : List Byte) (n : Nat) : Prop :=
  (∀ i < n, (regionIn rt i).space ≤ 2 ∧ num rt (16 * i + 5) 1 ≤ 1 ∧ num rt (16 * i + 6) 2 = 0 ∧ (regionIn rt i).off % 64 = 0 ∧
    (regionIn rt i).size % 64 = 0 ∧ 0 < (regionIn rt i).size ∧
    (regionIn rt i).off + (regionIn rt i).size ≤ spaceBytes node (regionIn rt i).space) ∧
  ∀ j < n, ∀ i < j, (regionIn rt i).name ≠ (regionIn rt j).name ∧
    ((regionIn rt i).space = (regionIn rt j).space →
      (regionIn rt i).off + (regionIn rt i).size ≤ (regionIn rt j).off ∨
      (regionIn rt j).off + (regionIn rt j).size ≤ (regionIn rt i).off)
/-- 03 R81: the header of a working-set record, and its n extents. -/
abbrev headerGood (va : Nat) (h : List Byte) : Prop :=
  va % 64 = 0 ∧ num h 0 1 ≤ 64 ∧ num h 1 1 ≤ 1 ∧ num h 2 2 = 0 ∧ num h 4 4 ≤ 4096 ∧ num h 16 8 % 16 = 0 ∧
  ∀ i < 64, 28 ≤ i → h.getD i 0 = 0
abbrev extentsGood (x : List Byte) (n : Nat) : Prop :=
  (∀ i < n, num x (16 * i) 8 % 2 ^ 27 = 0) ∧ ∀ j < n, ∀ i < j, num x (16 * i) 8 ≠ num x (16 * j) 8
/-- 03 R62, R77: a predecessor entry of a launch with this LID is valid. -/
abbrev predGood (s : State) (lid e : Nat) : Prop :=
  e = 0 ∨
  (e % 2 ^ 32 ≠ 0 ∧ e % 2 ^ 32 ≠ lid ∧
    (((e / 2 ^ 32 % 256 = 1 ∨ e / 2 ^ 32 % 256 = 2) ∧ e / 2 ^ 40 = 0) ∨
      (e / 2 ^ 32 % 256 = 3 ∧ e / 2 ^ 40 < 2 ^ 22 ∧ s.feat 3 = true)))
/-- A check of acceptance fails: the launch ends with its reason, at the fabric time of then. -/
def Rejects (s : State) (l : Launch) (r : Nat) (t : State) : Prop :=
  exec .launchAccept s = .next (launchSet t l.no fun x => { x with st := .ending, reason := r, time := t.time, demand := none })
/-- A read of acceptance fails its check with a reason, or waits for its page (03 R410). -/
def Ends (s : State) (l : Launch) (r : Nat) (e : AccStop) (t : State) : Prop :=
  (e = .reject r ∧ Rejects s l r t) ∨
  ∃ d, e = .wait d ∧ exec .launchAccept s = .next (launchSet s l.no fun x => { x with demand := some d })
/-- The entries of a launch as acceptance has them (01 R29; 03 R410 item 3): `t` stands after they have been read. -/
def entriesRead (l : Launch) (s : State) (es : List (Rec × W64)) (t : State) : Prop :=
  (l.nent = 0 ∧ es = [] ∧ t = s) ∨ (l.nent = 1 ∧ es = [(l.ent, BitVec.ofNat 64 (l.slotPa + 96))] ∧ t = s) ∨
  (1 < l.nent ∧ ∃ bs, (feReadAll l 1 l.enta (32 * l.nent)).run s = .ok bs t ∧
    es = (List.range l.nent).map fun i => ({
      code := BitVec.ofNat 64 (num bs (32 * i) 8), frame := BitVec.ofNat 64 (num bs (32 * i + 8) 8),
      arg := BitVec.ofNat 64 (num bs (32 * i + 16) 8), ctrl := BitVec.ofNat 64 (num bs (32 * i + 24) 8) },
      BitVec.ofNat 64 (l.enta + 32 * i)))
/-- Its team, as acceptance has it (item 4), and its working set (item 5). -/
def teamRead (s0 : State) (l : Launch) (s : State) (l1 : Launch) (t : State) : Prop :=
  (l.team = 0 ∧ l1 = l ∧ t = s) ∨
  (l.team ≠ 0 ∧ s0.feat 4 = true ∧ ∃ d n, (feReadAll l 2 l.team 136).run s = .ok d t ∧ teamGood l.team d ∧
    instances l.part d = some n ∧ l1 = { l with desc := d, ninst := n })
def wsetRead (l : Launch) (s : State) (l1 : Launch) (t : State) : Prop :=
  (l.wset = 0 ∧ l1 = l ∧ t = s) ∨
  (l.wset ≠ 0 ∧ ∃ h rt x s1 s2, (feReadAll l 5 l.wset 64).run s = .ok h s1 ∧ headerGood l.wset h ∧
    (feReadAll l 5 (num h 8 8) (16 * num h 0 1)).run s1 = .ok rt s2 ∧ regionsGood l.part rt (num h 0 1) ∧
    (feReadAll l 5 (num h 16 8) (16 * num h 4 4)).run s2 = .ok x t ∧ extentsGood x (num h 4 4) ∧
    l1 = { l with regions := (List.range (num h 0 1)).map (regionIn rt), record := num h 1 1 == 1,
                  extents := (List.range (num h 4 4)).map fun i => (num x (16 * i) 8, num x (16 * i + 8) 8) })
/-- A region that a launch finds zero (01 R19): one with KEEP clear that no running launch of the tenant shares, or one with
KEEP set that no launch of the tenant has named since the tenant was defined. -/
def foundZero (s : State) (l : Launch) (r : Region) : Prop :=
  r ∈ l.regions ∧
  ((r.keep = false ∧ ∀ y ∈ s.launches, y.no ≠ l.no → y.tenant = l.tenant → y.part = l.part →
      (y.st = .running ∨ (y.st = .ending ∧ y.rootK.isSome = true)) → ∀ q ∈ y.regions, q.name ≠ r.name) ∨
    (r.keep = true ∧ ∀ y ∈ s.launches, y.no ≠ l.no → y.tenant = l.tenant → y.rootK.isSome = true →
      ∀ q ∈ y.regions, q.name ≠ r.name))
/-- Such a region holds byte x of a space. -/
def zeroedAt (s : State) (l : Launch) (sp x : Nat) : Prop :=
  ∃ r, foundZero s l r ∧ (if r.space ≤ 1 then r.space else 2) = sp ∧ r.off ≤ x ∧ x < r.off + r.size
/-- Instance k of a launch, waiting to be bound (01 R25, R26). -/
def instanceOf (l : Launch) (k : Nat) : Inst :=
  let d := l.desc
  let clu : Bool := num d 8 1 == 1
  let row := nodeRow0 l.part + (if clu then 4 * k else k)
  let roles := List.range (num d 9 1)
  { launch := l.no, k := k, st := .queued, prog := BitVec.ofNat 64 (num d 0 8), clu := clu, nroles := num d 9 1,
    roles := roles.map fun e => (kindOf d e, whereOf d e, wordsOf d e, membersOf d e),
    drift := if num d 10 1 = 0 then 4 else num d 10 1, row := row,
    cores := roles.flatMap fun e => if kindOf d e = 1 then
      ((List.range 32).filter (membersOf d e).testBit).map fun b => (8 * row + b, e + 1) else [],
    live := [], counts := [], pipes := [], faulted := false,
    seqs := (roles.filter fun e => kindOf d e == 2).map fun e => (row + (if clu then whereOf d e else 0), e + 1),
    eng := (roles.find? fun e => kindOf d e == 3).map fun e => (row / 4, e + 1) }

/-- An arrival taken off the network. -/
def offNet (s : State) (i : Nat) : State := { s with net := s.net.eraseIdx i }
/-- The first arrival of its sender and receiver on the network. -/
def oldest (s : State) (i src dst : Nat) (a : Arrival) : Prop :=
  s.net[i]? = some (src, dst, a) ∧ ∀ j < i, ∀ b, s.net[j]? ≠ some (src, dst, b)
/-- The task that a record starts (01 R9, R10): a fresh window at `DWB` of WREQ words, CODE, and the rest of R10. -/
def started (k : Core) (t : Task) (sup : Bool) : Core :=
  { k with task := some t, pc := t.tr.code, sup := sup, inTrap := false, trapCode := 0, trapReq := false,
           requeued := false, wbase := k.dwb, wlim := BitVec.ofNat 64 (t.tr.ctrl.toNat / 2 ^ 16 % 2 ^ 16), wfb := k.dwb,
           wfl := BitVec.ofNat 64 (t.tr.ctrl.toNat / 2 ^ 16 % 2 ^ 16), fcsr := 0, xa := [], qd := [], qc := [], wd := 0,
           resume := none, barAt := none, barPop := [], dq := [], undo := [], stopAt := none, ending := none, demandD := none,
           tasklimL := k.tasklim.toNat, demandlimL := k.demandlim.toNat }

/-- A record's dispatch class (01 R8), and the state of a core whose record is over before it starts: a fault task's entry
takes its place (01 R9). -/
def classOf (e : Entry) : Nat := e.tr.ctrl.toNat / 2 ^ 62
def recordFails (s : State) (c : Nat) (e : Entry) (code : Nat) : State :=
  let u := s.renew c e.launch
  (u.setCore c { u.core c with taken := none, demand := none }).postSys c
    (.fault code e.src e.tr.code e.tr e.origin e.launch)
/-- WREQ of a record (01 R8). -/
def windowOf (e : Entry) : Nat := e.tr.ctrl.toNat / 2 ^ 16 % 2 ^ 16
/-- 01 R9 on the fields of CTRL: LEVEL, WREQ and the reserved bits. -/
def controlGood (e : Entry) : Bool :=
  decide (e.tr.ctrl.toNat / 2 ^ 48 % 2 ^ 8 ≤ 4) && decide (2 ≤ windowOf e) && decide (windowOf e ≤ 3968) &&
  e.tr.ctrl.toNat / 2 ^ 35 % 2 ^ 13 == 0
/-- A released record (01 R14): JOIN is 0 in it, and its source is its slot. -/
def releasedFrom (s : State) (c off : Nat) (r : Rec) (l : Option Nat) : Entry :=
  { tr := { r with ctrl := r.ctrl &&& 0xffffffffffff0000#64 }, src := BitVec.ofNat 64 (s.pidx c * 2 ^ 32 + off),
    origin := s.pidx c, launch := l, restarts := 0, passed := 0 }
/-- A register-space word takes its late value (04 R102): of the firmware window, or of the register store. -/
def landed (k : Core) (p : Pend) (v : W64) : Core :=
  if p.fw then { k with fwregs := tput k.fwregs p.word v }
  else match k.rsLine? p.word with
    | some l => { k with rs := tput k.rs (p.word / 8) { l with dirty := true, words := l.words.set (p.word % 8) v } }
    | none => k
/-- A record of the command ring (11 R276). -/
def recordWord (outcome code rows cid : Nat) : W64 := BitVec.ofNat 64 (outcome + 1024 * cid + 65536 * rows + 2 ^ 24 * code)
/-- Byte i of the source or the destination of a copy (09 R231): in ordinary memory, or inside its on-chip space; a source
in a scratchpad only on the issuing core itself, and no engine reads one. -/
def sourceGood (s : State) (eng : Bool) (cp : Copy) (i : Nat) : Prop :=
  cp.sspace = .mem ∨
  (¬ (eng = true ∧ cp.sspace = .spad) ∧ ∃ l, s.onchip cp.issuer cp.sspace ((cp.src + i) % 2 ^ 64) 1 = some l ∧
    (∀ k o, l = .spad k o → k = cp.issuer) ∧ ∀ k o, l = .clu k o → eng = true ∨ k = cp.issuer)
def targetGood (s : State) (cp : Copy) (i : Nat) : Prop :=
  cp.dspace = .mem ∨ ∃ l, s.onchip cp.issuer cp.dspace ((cp.dst + i) % 2 ^ 64) 1 = some l
/-- The command at place p of a core's list retires. -/
def retired (s : State) (c p : Nat) (x : Cmd) (outcome code rows : Nat) : State :=
  (s.note 0xc c 1).setCore c { s.core c with
    cmds := (s.core c).cmds.eraseIdx p,
    recs := (x.cid, recordWord outcome code rows x.cid) :: (s.core c).recs.filter fun y => y.1 != x.cid }
/-- The command at place p of a core's list changes. -/
def cmdSet (s : State) (c p : Nat) (x : Cmd) : State :=
  s.setCore c { s.core c with cmds := (s.core c).cmds.set p x }
/-- No other command could act on the matrix state of core c while the one at place p does (R275). -/
def alone (s : State) (c p : Nat) : Prop :=
  (s.seqU (c / 8)).cmds = [] ∧ ∀ q ≠ p, ∀ y, (s.core c).cmds[q]? = some y → y.started = false ∨ y.outcome.isSome = true
/-- The shape that a command's record must have (R281, R287), and the alignment of its elements. -/
def rowStart (l : Layout) (j : Nat) : Nat := ((l.base + j * l.s1) % (2 ^ 64 : Int)).toNat
abbrev arrayShaped (x : Cmd) (l : Layout) : Prop :=
  if x.op = .ast ∨ x.op = .ald then l.esize = 3 ∧ l.n0 ≤ 64 ∧ l.n1 ≤ 64 ∧ l.n2 = 1
  else l.esize = x.cfgD / 2 ^ 14 % 4 ∧ l.n0 = 8 * (x.cfgD % 256) / (4 * 2 ^ (x.cfgD / 2 ^ 14 % 4)) ∧
    l.n1 = x.cfgD / 2 ^ 8 % 64 + 1 ∧ l.n2 = 1 ∧ (l.esize = 0 → l.s0 = 1) ∧
    (x.ty = .b4 → ∀ j < l.n1, rowStart l j % 16 = 0)
abbrev arrayAligned (x : Cmd) (l : Layout) : Prop :=
  ∀ j < l.n1, (if x.op = .ast ∨ x.op = .ald then rowStart l j % 4 = 0
    else 2 ≤ x.cfgD / 2 ^ 14 % 4 → rowStart l j % (2 ^ (x.cfgD / 2 ^ 14 % 4) / 2) = 0)
/-- Some page of the array, or of the record that describes it, is SO, so all the command's accesses are (13 R299). -/
def arrayMeetsSo (s : State) (x : Cmd) (l : Layout) : Bool :=
  (l.space == 0 && (List.range l.n1).any fun j => (List.range l.n0).any fun i =>
    s.pageSo (.clu (x.core / 32)) x.asid ((l.addr i j 0).1 / 4096 * 4096)
      (if x.op = .tst ∨ x.op = .ast then .store else .load) (!x.sup)) ||
  (x.op != .tldq && x.sp == .mem && s.pageSo (.clu (x.core / 32)) x.asid x.wa .load (!x.sup))
/-- The record that `tldq` stands for (19 R390): B is its S1. -/
def implicitRecord (x : Cmd) : Layout where
  base := x.wa
  n0 := 8 * (x.cfgD % 256) / (4 * 2 ^ (x.cfgD / 2 ^ 14 % 4))
  n1 := x.cfgD / 2 ^ 8 % 64 + 1
  n2 := 1
  s0 := 1
  s1 := (BitVec.ofNat 64 x.wb).toInt
  s2 := 0
  esize := x.cfgD / 2 ^ 14 % 4
  space := 0
/-- A command has started, or is refused, with its record read. -/
def startedWith (s : State) (x : Cmd) (l : Layout) (y : Cmd) : Prop :=
  (¬ arrayShaped x l → y = { x with started := true, outcome := some (2, 0x02), demand := none }) ∧
  (arrayShaped x l → ¬ arrayAligned x l → y = { x with started := true, outcome := some (2, 0x07), demand := none }) ∧
  (arrayShaped x l → arrayAligned x l →
    y = { x with started := true, demand := none, lay := some l, so := arrayMeetsSo s x l })
/-- Row i of a tile, expanded (R52), with its negation. -/
def expanded_ (k : Core) (ty : Ty) (t i depth : Nat) (neg : Bool) : List Un :=
  (List.range depth).map fun e =>
    let u := expandElem ty (k.scaleAt t (8 * i + e / 32)).toNat (k.tileElem t i e (Ty.width ty))
    if neg then u.neg else u
/-- R53 on an element of an accumulator and the products of two rows. -/
def product (x : Cmd) (old : Nat) (a b : List Un) : Nat :=
  mmaElem (if x.fl.testBit 2 then none else some old) (List.zipWith mulUn a b)
/-- Row by row, in increasing order. -/
def RowSteps (n : Nat) (act : Nat → State → Option State) (st : Nat → State) : Prop := ∀ j < n, act j (st j) = some (st (j + 1))
/-- Row j of a tile or an accumulator from a memory array, and to one (R281, R287). -/
def rowLoad (x : Cmd) (l : Layout) (j : Nat) (s : State) : Option State :=
  match (readElems x.work l j l.n0).run s with
  | .error _ _ => none
  | .ok vs t =>
    if x.op = .ald then some (t.setCore x.core ((List.range l.n0).foldl (fun k i => k.putAcc x.d j i (vs.getD i 0)) (t.core x.core)))
    else
      let row (t : State) : Core :=
        (t.core x.core).putRow x.d j (x.cfgD % 256) (packRow (4 * 2 ^ (x.cfgD / 2 ^ 14 % 4)) vs)
      if x.ty ≠ .b4 then some (t.setCore x.core (row t))
      else match (readScales x.work l j (l.n0 / 32)).run t with
        | .error _ _ => none
        | .ok sc t => some (t.setCore x.core ((List.range sc.length).foldl (fun k b =>
            k.setScale x.d (8 * j + b) (sc.getD b 0)) (row t)))
def rowStore (x : Cmd) (l : Layout) (j : Nat) (s : State) : Option State :=
  let vs := (List.range l.n0).map fun i =>
    if x.op = .ast then (s.core x.core).accAt x.d j i else (s.core x.core).tileElem x.d j i (4 * 2 ^ (x.cfgD / 2 ^ 14 % 4))
  match (writeElems x.work l j (if l.esize == 0 then pairUp vs else vs) 0).run s with
  | .error _ _ => none
  | .ok _ t => some t
/-- What a task that the watchdog stops leaves, on a core with nothing to drain (18 R364): the record goes back to the
ready ring while it may restart, and else the task ends with 0x0d. -/
def Stopped (s u : State) (c : Nat) (t : Task) : Prop :=
  (∀ k, k ≠ c → u.core k = s.core k) ∧
  (t.tr.ctrl.getLsbD 33 = true ∧ t.restarts < 3 →
    u.core c = { idled (unread (s.core c)) with
      ready := (s.core c).ready ++ [{
        tr := t.tr, src := t.src, origin := t.origin, launch := t.launch, restarts := t.restarts + 1, passed := 0 }],
      halted := false } ∧ u.launches = s.launches) ∧
  (¬ (t.tr.ctrl.getLsbD 33 = true ∧ t.restarts < 3) →
    u.core c = idled (unread (s.core c)) ∧ u.launches = (s.recordFault t.launch 0x0d).launches)

/-- A line that an uncorrectable error has poisoned (18 R369). -/
def poisonedAt (s : State) (pa : Nat) : State :=
  if pa / 64 ∈ s.poison then s else { s with poison := pa / 64 :: s.poison }
/-- A valid leaf entry at a frame (09 R241). -/
def leafTo (e frame : Nat) : Nat := (e / 2 ^ 52 * 2 ^ 52 + frame + e % 4096 / 2 * 2 + 1) % 2 ^ 64
/-- The launch and the signal that a predecessor entry finds (03 R78): the latest of the tenant's last 1,024 launches, and of
its signals; device 2^22 stands for the host. -/
def latestLaunch (s : State) (t lid : Nat) : Option Launch :=
  ((s.launches.filter fun l => l.tenant == t).reverse.take 1024).find? fun l => l.lid == lid
def latestSignal (s : State) (t e : Nat) : Option Signal :=
  (tget [] s.signals t).reverse.find? fun g =>
    g.dev == (if e / 2 ^ 32 % 256 = 2 then 2 ^ 22 else e / 2 ^ 40) && g.lid == e % 2 ^ 32
/-- It has failed, and it is still to be waited for. -/
abbrev predBroken (s : State) (t e : Nat) : Prop :=
  (e / 2 ^ 32 % 256 = 1 ∧ ∃ l ∈ latestLaunch s t (e % 2 ^ 32), l.st = .done ∧ (l.reason ≠ 0 ∨ l.pfail = true)) ∨
  ((e / 2 ^ 32 % 256 = 2 ∨ e / 2 ^ 32 % 256 = 3) ∧ ∃ g ∈ latestSignal s t e, g.status = 1)
abbrev predOpen (s : State) (t e : Nat) : Prop :=
  (e / 2 ^ 32 % 256 = 1 ∧ ∃ l ∈ latestLaunch s t (e % 2 ^ 32), l.st ≠ .done) ∨
  ((e / 2 ^ 32 % 256 = 2 ∨ e / 2 ^ 32 % 256 = 3) ∧ latestSignal s t e = none)
/-- The page units of a launch: one for each set bit of its extents (03 R83). -/
def pageUnits (l : Launch) : List Nat :=
  l.extents.flatMap fun e => ((List.range 64).filter fun j => e.2.testBit j).map fun j => e.1 / 0x200000 + j
/-- The residency gate (03 R83): 256 * H ≥ RTH * T, where `home` says that the launch's tenant is resident. -/
def gateOpens (s : State) (l : Launch) (home : Prop) : Prop :=
  let regs := (l.regions.map fun r => (r.size + 0x1fffff) / 0x200000).sum
  let up := ((pageUnits l).filter fun u => s.unitNear l.asid u || s.unreach.contains (l.asid, u)).length
  s.feat 1 = false ∨ (home ∧ l.rth * ((pageUnits l).length + regs) ≤ 256 * (up + regs)) ∨
    (¬ home ∧ l.rth * ((pageUnits l).length + regs) ≤ 256 * up)
abbrev atHome (s : State) (l : Launch) : Prop := ∃ x ∈ s.node? l.part, x.resident = some l.tenant
/-- Sluice has been asked for the units of a launch that are neither near nor unreachable. -/
abbrev askedFor (s : State) (l : Launch) : Prop :=
  ∀ u ∈ pageUnits l, s.unitNear l.asid u = true ∨ (l.asid, u) ∈ s.unreach ∨ (l.asid, u) ∈ s.asked
/-- A core on which nothing runs, and nothing that was issued or posted is still to come (18 R371): a held arrival stays
held while its ring is full. -/
abbrev quietCore (s : State) (c : Nat) : Prop :=
  (s.core c).task = none ∧ (s.core c).taken = none ∧ (s.core c).sysring = [] ∧ (s.core c).heldSys = [] ∧
  (∀ p ∈ (s.core c).pend, p.kind = .partctl) ∧ (s.core c).cmds = [] ∧ (∀ ch ∈ (s.core c).chans, ch.2.items = []) ∧
  (s.seqU (c / 8)).cmds = [] ∧ (∀ ch ∈ (s.engU (c / 32)).chans, ch.2.items = []) ∧
  (∀ x ∈ s.net, x.1 ≠ c ∧ x.2.1 ≠ c) ∧ (∀ x ∈ s.posts, x.1 ≠ c) ∧
  ((s.core c).held = [] ∨ (∃ e r, (s.core c).held = .ready e :: r ∧ 256 ≤ (s.core c).ready.length) ∨
    ∃ m r, (s.core c).held = .msg m :: r ∧ 64 ≤ (s.core c).inbox.length)
/-- Every core of a node on a die is quiet, and no launch is left to place there. -/
abbrev quietDie (s : State) (n d : Nat) : Prop :=
  (∀ c ∈ nodeCoreList n, c / 256 = d → quietCore s c) ∧ ∀ l ∈ s.launches, l.part = n → s.placeable l = false
/-- Sluice may report on a page unit: it was not asked for it, or it is the next of those it was asked for (03 R83). -/
def reportable (s : State) (u : Nat × Nat) : Prop :=
  u ∉ s.asked ∨ ∃ a b, s.asked = a ++ u :: b ∧ s.unitNear u.1 u.2 = false ∧ u ∉ s.unreach ∧
    ∀ v ∈ a, s.unitNear v.1 v.2 = true ∨ v ∈ s.unreach
/-- A frame of n bytes is free, and aligned. -/
abbrev frameFree (s : State) (f n : Nat) : Prop := f % n = 0 ∧ ∃ g ∈ s.frames, g.1 ≤ f ∧ f + n ≤ g.1 + g.2
/-- A page that Sluice held below stands in a frame, with its bytes and its leaf entry at `ea`; nothing else of memory
has changed. -/
def BroughtUp (s t : State) (p : FarPage) (frame ea : Nat) : Prop :=
  (∀ i < p.size, t.mem.get (frame + i) = p.bytes.get i) ∧ t.mem.le ea 8 = leafTo (s.mem.le ea 8) frame ∧
  (∀ a, (a < frame ∨ frame + p.size ≤ a) → (a < ea ∨ ea + 8 ≤ a) → t.mem.get a = s.mem.get a) ∧
  t.pages = s.pages.filter (· != p) ∧ t.cores = s.cores ∧ t.launches = s.launches
/-- A page may be brought up to a frame: its leaf entry stands at `ea`, and the front end may write that. -/
abbrev mayComeUp (s : State) (p : FarPage) (frame ea : Nat) : Prop :=
  frameFree s frame p.size ∧ s.leafOf p.asid p.va p.size = some ea ∧ s.mem.wf = true ∧ p.bytes.wf = true ∧
  (∀ b ∈ p.bytes, b.1 < p.size) ∧ (ea + 8 ≤ frame ∨ frame + p.size ≤ ea) ∧ frontWrites s ea = true
/-- What is left of a core's state when a tenant switch has saved it (18 R372). -/
def emptied (k : Core) : Prop :=
  k.rs = [] ∧ k.ready = [] ∧ k.inbox = [] ∧ k.held = [] ∧ k.spad = [] ∧ k.cspad = [] ∧ k.slices = [] ∧ k.chans = [] ∧ k.bars = [] ∧
  k.tiles = [] ∧ k.scales = [] ∧ k.accs = [] ∧ k.tcfg = [] ∧ ∀ d, k.port d = []
/-- The parts of a core that a saved image gives back. -/
def givenBack (v : SavedCore) (k : Core) : Prop :=
  k.ready = v.ready ∧ k.inbox = v.inbox ∧ k.held = v.held ∧ k.spad = v.spad ∧ k.cspad = v.cspad ∧ k.cwp = v.cwp ∧
  k.bars = v.bars ∧ k.codeimg = v.codeimg ∧ k.cwb = v.cwb ∧ k.tasklim = v.tasklim ∧ k.demandlim = v.demandlim ∧
  k.rbb = v.rbb ∧ k.rbl = v.rbl ∧ k.dwb = v.dwb ∧ k.twb = v.twb ∧ k.twl = v.twl ∧ k.tvec = v.tvec
/-- What a saved image holds of a core, the scratchpads and channels aside. -/
def keptFrom (k : Core) (v : SavedCore) : Prop :=
  v.ready = k.ready ∧ v.inbox = k.inbox ∧ v.held = k.held ∧ v.chans = k.chans ∧ v.cwp = k.cwp ∧ v.bars = k.bars ∧
  v.codeimg = k.codeimg ∧ v.cwb = k.cwb ∧ v.tasklim = k.tasklim ∧ v.demandlim = k.demandlim ∧ v.rbb = k.rbb ∧
  v.rbl = k.rbl ∧ v.dwb = k.dwb ∧ v.twb = k.twb ∧ v.twl = k.twl ∧ v.tvec = k.tvec
/-- Nodes of distinct numbers. -/
abbrev apart (l : List Node) : Prop := l.Pairwise fun x y => x.n ≠ y.n
/-- The layers' seeds, their private keys, and the three certificates (21 R400). -/
def layerSeed (g : Mgmt) (n : Nat) : List Byte :=
  match n with
  | 0 => Config.deviceSecret
  | 1 => Config.hmac384 Config.deviceSecret g.m1
  | _ => Config.hmac384 (Config.hmac384 Config.deviceSecret g.m1) g.m2
def layerPrivate (g : Mgmt) (n : Nat) : List Byte :=
  let h := leNat (Config.hmac384 (layerSeed g n) [1]).reverse
  (leBytes (1 + h % (p384Order - 1)) 48).reverse
def layerPublic (g : Mgmt) (n : Nat) : List Byte := Config.ecdsaPublic (layerPrivate g n)
def threeCertificates (g : Mgmt) : List (List Byte) :=
  [Config.identityCert (layerPublic g 0), Config.x509 (layerPublic g 1) (layerPrivate g 0),
   Config.x509 (layerPublic g 2) (layerPrivate g 1)].map (·.take (2 ^ 30))
/-- What GETLOG writes while layer 2 runs (21 R401, R402): the header, the entries, the signature, and the certificates
behind their length. -/
def logAnswer (s : State) : List Byte :=
  let entry (e : MLogEnt) : List Byte :=
    leBytes e.layer 1 ++ leBytes e.kind 1 ++ [0, 0] ++ leBytes e.version 4 ++ leBytes e.imgid 8 ++
      (e.digest ++ List.replicate 48 0).take 48
  let g := s.mgmt
  let head := leBytes g.mlog.length 4 ++ leBytes (if g.runB then 1 else 0) 4 ++ leBytes g.bootCount 8 ++
    leBytes (argument s 2).toNat 8 ++ leBytes (argument s 3).toNat 8 ++ g.mlog.flatMap entry
  let sig := Config.ecdsaSign (layerPrivate g 2) (Config.sha384 head)
  let certs := (threeCertificates g).flatten
  head ++ (sig ++ List.replicate 96 0).take 96 ++ leBytes certs.length 4 ++ certs
/-- A reset whose selected copy did not reach layer 2, as the count of UPDARM's copy takes it (21 R404). -/
abbrev bootMissed (g h : Mgmt) : Prop :=
  (g.armed = false → h.armed = false ∧ h.fails = g.fails ∧ h.selB = g.selB) ∧
  (g.armed = true → g.fails < 2 → h.armed = true ∧ h.fails = g.fails + 1 ∧ h.selB = g.selB) ∧
  (g.armed = true → 2 ≤ g.fails → h.armed = false ∧ h.selB = !g.selB)
/-- The sensors of compute die d and the power (21 R405): number 0 the power, then the die's own, its base die's and that die's
stacks'; which are at their limit, and which have cooled. -/
def sensorLimit (r : Sensors) (d i : Nat) : Nat × Nat :=
  if i = 1 then (r.compute.getD d 0, 1050) else if i = 2 then (r.base.getD (d / 2) 0, 1000)
  else (r.hbm.getD (3 * (d / 2) + (i - 3)) 0, 950)
abbrev sensorHot (r : Sensors) (cap d i : Nat) : Prop :=
  if i = 0 then cap ≤ r.watts else (sensorLimit r d i).2 ≤ (sensorLimit r d i).1
abbrev sensorCool (r : Sensors) (cap d i : Nat) : Prop :=
  if i = 0 then 100 * r.watts ≤ 95 * cap else (sensorLimit r d i).1 + 50 ≤ (sensorLimit r d i).2
/-- Opcodes of the supervisor (19 R375), and those of firmware tasks among them. -/
def supervisorRow : Instr → Bool
  | .tlbiAll | .tlbiAsid _ | .tlbiPage _ _ | .asidctl _ _ _ | .wdctlGet _ | .wdctlSet _ | .partctlSplit _ _
  | .partctlMerge _ _ | .halt => true
  | _ => false
def firmwareRow : Instr → Bool
  | .tlbiAll | .partctlSplit _ _ | .partctlMerge _ _ => true
  | _ => false
/-- Opcodes of features: of XACC (08 R204) and of DEPR (19 R387), with the feature's bit. -/
def featureRow : Instr → Option Nat
  | .xclr _ | .xfma .. | .xadd .. | .xsum _ | .xsgn .. | .xrnd .. | .xst .. | .xld .. => some 5
  | .loopc .. | .vdotx .. | .tldq .. | .swapw .. => some 0
  | _ => none
/-- Words that no scalar source names (04 R98, R100), the ports aside, and that no scalar destination names. -/
def noSourceWord (r : Reg) : Bool := (decide (0xf80 ≤ r.toNat) && decide (r.toNat < 0xff8)) || r == 0xffe
def noDestWord (r : Reg) : Bool := (decide (0xf80 ≤ r.toNat) && decide (r.toNat ≤ 0xff8)) || r == 0xffd
def aPort (r : Reg) : Bool := decide (0xff9 ≤ r.toNat) && decide (r.toNat ≤ 0xffc)
/-- A window word at or beyond `WLIM`. -/
def beyond (k : Core) (r : Reg) : Bool := decide (r.toNat < 0xf80) && decide (k.wlim.toNat ≤ r.toNat)
/-- The bit position of the first of D, A and B that fails (06 R147). -/
def firstPos (d a : Bool) : W64 := if d then 66 else if a then 54 else 42

/-! ## Slots -/

/-- A program counter is well formed (05 R108). -/
def wellFormedPc (p : W64) : Bool := p.toNat / 8 % 8 == 0 && decide (p.toNat % 8 ≤ 4) && canonical57 p.toNat
/-- A slot that a core of role r executes (05 R119, 14 R340): of every role, of its own, or a hand-over to it. -/
def takesSlot (r : Nat) (w : Word96) : Bool :=
  let role := w.toNat / 2 ^ 92 % 16
  role == 0 || role == r || (w.toNat / 2 ^ 84 % 256 == 0xec && r != 0 && w.toNat / 2 ^ 50 % 16 == r)
/-- Nothing comes before the schedule's next choice. -/
def undisturbed (s : State) : Bool := !s.mgmt.shut && !s.tickDue

end Sys2Proof.Claims

open Sys2Proof Sys2Proof.Machine Sys2Proof.Claims

/-! ## Scalar instructions -/

/-- R155, R156, R161, R176 (the values of R154, R43): an instruction with two word sources writes the value of the
rules and goes on at the next slot. -/
def Obligations.ScalarTwoSource : Prop :=
  ∀ (i : Instr) (s s1 s2 s3 : State) (c : Nat) (d a b : Reg) (f : W64 → W64 → W64) (x y : W64),
    twoSource i = some (d, a, b, f) → s.atSlot c = true → s.take c false a = some (x, s1) →
    s1.take c false b = some (y, s2) → s2.give c false d (f x y) = some s3 →
    exec i s = .next (s3.goes c (nextPc (s.core c).pc))

/-- R158, R160, R162, R163, R164, R171, R172, R177, R332: an instruction with one word source; an instruction that
reads no word operand and writes one word; 10 R263: `mfs` of a ring's count, by which what the core loaded and stored before
the copies that it counts is settled. Readings of the model: log 57. -/
def Obligations.ScalarOneSource : Prop :=
  (∀ (i : Instr) (s s1 s2 : State) (c : Nat) (d a : Reg) (f : W64 → W64) (x : W64),
    oneSource i = some (d, a, f) → s.atSlot c = true → s.take c false a = some (x, s1) →
    s1.give c false d (f x) = some s2 → exec i s = .next (s2.goes c (nextPc (s.core c).pc))) ∧
  (∀ (i : Instr) (s s1 : State) (c : Nat) (d : Reg) (v : W64),
    noSource s c i = some (d, v) → s.atSlot c = true → s.give c false d v = some s1 →
    exec i s = .next (s1.goes c (nextPc (s.core c).pc))) ∧
  (∀ (s s1 : State) (c : Nat) (d : Reg) (num : BitVec 12), 0x050 ≤ num.toNat → num.toNat < 0x058 → s.atSlot c = true →
    (s.settleRace c).give c false d (s.sysRead c num.toNat) = some s1 →
    exec (.mfs d num) s = .next (s1.goes c (nextPc (s.core c).pc)))

/-- R157, R159, R161: an instruction with three word sources; `bins`, which reads D before them; `addk`, whose second
source is a constant (R162). -/
def Obligations.ScalarThreeSource : Prop :=
  (∀ (i : Instr) (s s1 s2 s3 s4 : State) (c : Nat) (d a b e : Reg) (f : W64 → W64 → W64 → W64) (x y z : W64),
    threeSource i = some (d, a, b, e, f) → s.atSlot c = true → s.take c false a = some (x, s1) →
    s1.take c false b = some (y, s2) → s2.take c false e = some (z, s3) → s3.give c false d (f x y z) = some s4 →
    exec i s = .next (s4.goes c (nextPc (s.core c).pc))) ∧
  (∀ (s s0 s1 s2 s3 s4 : State) (c : Nat) (d a b e : Reg) (w x y z : W64),
    s.atSlot c = true → s.take c false d = some (w, s0) → s0.take c false a = some (x, s1) →
    s1.take c false b = some (y, s2) → s2.take c false e = some (z, s3) →
    s3.give c false d (inserted w x y z) = some s4 →
    exec (.bins d a b e) s = .next (s4.goes c (nextPc (s.core c).pc))) ∧
  (∀ (n : Bool) (s s1 s2 : State) (c : Nat) (d a : Reg) (kw : BitVec 3) (ko : BitVec 17) (x y : W64),
    s.atSlot c = true → s.take c false a = some (x, s1) → (s1.core c).constOf kw ko = some y →
    s1.give c false d (x + y) = some s2 →
    exec (.addk n d a kw ko) s = .next (s2.goes c (nextPc (s.core c).pc)))

/-- 06 R148, 04 R96, 05 R110: `nop` has OPC 1, of every class, with every field but ROLE and OPC zero: another word with
that OPC is no instruction, and its slot raises illegal instruction. It has no effect but that execution goes on at
the next slot, in a core whatever its queues hold, and in either engine; its slot's class sends it: to the scalar
stream, past which the data stream goes its own way; to the data stream, behind what that holds; or, of class B, once
that holds nothing. That a `nop` of class B waits for the data stream, though R148 says that it waits for nothing, is
log 77, and that it settles the races of the streams is log 57; the core's task is not ending (log 44): the model's
choices. -/
def Obligations.NopHasNoEffect : Prop :=
  (∀ role : BitVec 4, decode (role ++ 0x0100000_00000000_00000000#92) = .ok .nop) ∧
  encode .nop = some 0x00100000_00000000_00000000#96 ∧
  (∀ w : Word96, fOpc w = 0x01 →
    (∀ cls, decodeSlot cls w = decode w) ∧
    (w &&& 0x0fffffff_ffffffff_ffffffff#96 ≠ 0x00100000_00000000_00000000#96 → ∃ e, decode w = .error e)) ∧
  (∀ (s : State) (c : Nat) (a : W64) (data : Bool), s.atSlot c = true →
    exec (.unassignedOpcode 0x01 a data) s =
      .next (s.deliver c (s.core c).pc data { code := 0x01, addr := a } (s.core c).seq)) ∧
  (∀ (s : State) (c : Nat), s.cur = .core c → (s.core c).task.isSome = true → (s.core c).stopAt = none →
    (s.core c).ending = none → s.slotCls = .s →
    exec .nop s = .next (s.setCore c { s.core c with
      pc := nextPc (s.core c).pc, seq := (s.core c).seq + 1, resume := none,
      undo := if (s.core c).speculative then (s.core c).undo else [] })) ∧
  (∀ (s : State) (c : Nat), s.atSlot c = true →
    (s.slotCls ≠ .b → exec .nop s = .next (s.goes c (nextPc (s.core c).pc))) ∧
    (s.slotCls = .b → exec .nop s = .next (s.goesSettled c (nextPc (s.core c).pc)))) ∧
  (∀ (s : State) (c : Nat), s.cur = .core c → (s.core c).task.isSome = true → (s.core c).stopAt = none →
    (s.core c).ending = none → (s.core c).dq ≠ [] →
    (s.slotCls = .b → exec .nop s = .next s) ∧
    ((s.slotCls = .d ∨ s.slotCls = .e) → exec .nop s = .next (s.setCore c { s.core c with
      dq := (s.core c).dq ++ [{ pc := (s.core c).pc, instr := .nop, seq := (s.core c).seq, resume := (s.core c).resume,
                                vals := [], popped := [], lines := [] }],
      pc := nextPc (s.core c).pc, seq := (s.core c).seq + 1, resume := none }))) ∧
  (∀ (s : State) (c : Nat) (h : Deferred) (r : List Deferred), s.cur = .data c → (s.core c).dq = h :: r → h.instr = .nop →
    s.slotCls ≠ .b → exec .nop s = .next (s.setCore c { s.core c with
      dq := r, undo := if Core.speculative { s.core c with dq := r } then (s.core c).undo else [] })) ∧
  (∀ (s : State) (r x : Nat), s.cur = .seq r → (s.seqU r).inst = some x →
    exec .nop s = .next (s.setSeq r { s.seqU r with pc := nextPc (s.seqU r).pc })) ∧
  (∀ (s : State) (g x : Nat), s.cur = .eng g → (s.engU g).inst = some x →
    exec .nop s = .next (s.setEng g { s.engU g with pc := nextPc (s.engU g).pc }))

/-! ## Control transfer and the window -/

/-- R108, R109, R166 to R168: a target is well formed, its line decodes, and the line marks its slot: else invalid
branch target, at the target. A conditional branch reads both words; taken, it goes to the checked target, else to the
next slot. The jumps go to the target that passes the check; `call` and `callr` write the sequential successor after
it. -/
def Obligations.ControlTransfers : Prop :=
  (∀ (i : Instr) (s s1 s2 : State) (c : Nat) (slot : BitVec 3) (a b : Reg) (off : BitVec 41) (taken : Bool) (x y : W64),
    branchTaken x y i = some (slot, a, b, off, taken) → s.atSlot c = true → s.take c false a = some (x, s1) →
    s1.take c false b = some (y, s2) →
    (taken = false → exec i s = .next (s2.goes c (nextPc (s.core c).pc))) ∧
    (taken = true → ∀ s3, (checkTarget (target (s.core c).pc slot off)).run s2 = .ok ⟨⟩ s3 →
      exec i s = .next (s3.goes c (target (s.core c).pc slot off)))) ∧
  (∀ (slot : BitVec 3) (off : BitVec 41) (s s1 : State) (c : Nat), s.atSlot c = true →
    (checkTarget (target (s.core c).pc slot off)).run s = .ok ⟨⟩ s1 →
    exec (.j slot off) s = .next (s1.goes c (target (s.core c).pc slot off))) ∧
  (∀ (slot : BitVec 3) (d : Reg) (off : BitVec 41) (s s1 s2 : State) (c : Nat), s.atSlot c = true →
    (checkTarget (target (s.core c).pc slot off)).run s = .ok ⟨⟩ s1 →
    s1.give c false d (nextPc (s.core c).pc) = some s2 →
    exec (.call slot d off) s = .next (s2.goes c (target (s.core c).pc slot off))) ∧
  (∀ (d a : Reg) (s s1 s2 : State) (c : Nat) (x : W64), s.atSlot c = true → s.take c false a = some (x, s1) →
    (checkTarget x).run s1 = .ok ⟨⟩ s2 →
    exec (.jr a) s = .next (s2.goes c x) ∧ exec (.ret a) s = .next (s2.goes c x) ∧
    ∀ s3, s2.give c false d (nextPc (s.core c).pc) = some s3 → exec (.callr d a) s = .next (s3.goes c x)) ∧
  (∀ (t : W64) (s : State), wellFormedPc t = false →
    (checkTarget t).run s = .error (.trap { code := 0x03, addr := t }) s) ∧
  (∀ (t : W64) (l : L1Line) (s s1 : State), wellFormedPc t = true → (fetchLine (t / 64 * 64)).run s = .ok (.line l) s1 →
    (checkTarget t).run s = (if bitsOf l.bits 499 5 = 0 ∧ l.bits.getLsbD (480 + t.toNat % 8) = true then .ok ⟨⟩ s1
      else .error (.trap { code := 0x03, addr := t }) s1)) ∧
  (∀ (t : W64) (s s1 : State), wellFormedPc t = true → (fetchLine (t / 64 * 64)).run s = .ok .undecodable s1 →
    (checkTarget t).run s = .error (.trap { code := 0x03, addr := t }) s1) ∧
  (∀ (a : Reg) (s s1 s2 : State) (c : Nat) (x : W64), s.atSlot c = true → s.take c false a = some (x, s1) →
    (checkTarget x).run s1 = .error (.trap { code := 0x03, addr := x }) s2 →
    exec (.jr a) s = .next (s.deliver c (s.core c).pc false { code := 0x03, addr := x } (s.core c).seq))

/-- R103, R169, R170: `win` and `wini` move the window in exact arithmetic, or take the fault of the first check that
fails, with the window as it was. -/
def Obligations.WindowMoves : Prop :=
  (∀ (a b : Reg) (s s1 s2 : State) (c : Nat) (x y : W64), s.atSlot c = true → s.take c false a = some (x, s1) →
    s1.take c false b = some (y, s2) →
    exec (.win a b) s = .next (match windowCode (s2.core c) x.toNat y.toNat with
      | none => (s2.setCore c { s2.core c with wbase := x, wlim := y }).goesSettled c (nextPc (s.core c).pc)
      | some code => s.deliver c (s.core c).pc false { code := code } (s.core c).seq)) ∧
  (∀ (delta : BitVec 22) (size : BitVec 12) (s : State) (c : Nat), s.atSlot c = true →
    exec (.wini delta size) s = .next (match windowCode (s.core c) ((s.core c).wbase.toNat + delta.toInt) size.toNat with
      | none => (s.setCore c { s.core c with
          wbase := BitVec.ofInt 64 ((s.core c).wbase.toNat + delta.toInt), wlim := size.setWidth 64 }).goesSettled c
          (nextPc (s.core c).pc)
      | some code => s.deliver c (s.core c).pc false { code := code } (s.core c).seq))

/-- R101, R172 to R174: `mts` of a value the register's layout takes; a register of the supervisor raises protection
in user mode, whatever A names, with nothing written. 02 R50; 04 R102; 05 R112, R124; 14 R342: `mts` to `FCSR`; to `RBB` and `RBL`,
which write back and drop the register store; to `CODEIMG`n with EN zero; and to `TDRIFT`, in a team and outside one.
Readings of the model: log 7, 32, 45, 53 and 57. -/
def Obligations.SystemWrites : Prop :=
  (∀ (a : Reg) (num : BitVec 12) (s s1 : State) (c : Nat) (x : W64) (k : Core), s.atSlot c = true →
    ((s.core c).sup = true ∨ supervisorOnly num.toNat = false) → s.take c false a = some (x, s1) →
    stored (s1.core c) num.toNat x = some k →
    exec (.mts a num) s = .next ((s1.setCore c k).goesSettled c (nextPc (s.core c).pc))) ∧
  (∀ (i : Instr) (a : Reg) (num : BitVec 12) (n : BitVec 3) (s : State) (c : Nat), s.atSlot c = true →
    (s.core c).sup = false →
    ((i = .mts a num ∧ supervisorOnly num.toNat = true) ∨ i = .mtsRbb a ∨ i = .mtsCodeimg a n) →
    exec i s = .next (s.deliver c (s.core c).pc false { code := 0x09 } (s.core c).seq)) ∧
  (∀ (a : Reg) (n : BitVec 3) (s s1 : State) (c : Nat) (x : W64), s.atSlot c = true → s.take c false a = some (x, s1) →
    exec (.mtsFcsr a) s = .next ((s1.setCore c { s1.core c with
      fcsr := BitVec.ofNat 64 (x.toNat % 32 + if x.toNat / 32 % 8 ≤ 4 then 32 * (x.toNat / 32 % 8) else 0) }).goesSettled c
      (nextPc (s.core c).pc)) ∧
    ((s.core c).sup = true → (s1.core c).pend = [] → (∀ l ∈ (s1.core c).rs, s1.rsMayWrite c l.2 = true ∧ s1.rsError l.2 = false) →
      exec (.mtsRbb a) s = .next (((s1.rsFlush c fun _ => true).setCore c { (s1.rsFlush c fun _ => true).core c with
        rbb := BitVec.ofNat 64 (x.toNat / 4096 % 2 ^ 45 * 4096) }).goesSettled c (nextPc (s.core c).pc)) ∧
      (x.toNat % 2 ^ 21 ≤ 2 ^ 20 → x.toNat % 8 = 0 →
        exec (.mts a 0x005) s = .next (((s1.rsFlush c fun _ => true).setCore c { (s1.rsFlush c fun _ => true).core c with
          rbl := BitVec.ofNat 64 (x.toNat % 2 ^ 21) }).goesSettled c (nextPc (s.core c).pc)))) ∧
    ((s.core c).sup = true → x.getLsbD 0 = false →
      exec (.mtsCodeimg a n) s = .next ((State.discard (s1.setCore c { s1.core c with
        codeimg := tput (s1.core c).codeimg n.toNat { raw := x &&& 0x01ffffffffffffc0#64, img := none } }) c).goesSettled c
        (nextPc (s.core c).pc))) ∧
    ((s.core c).inst = none → exec (.mts a 0x061) s = .next (s1.goesSettled c (nextPc (s.core c).pc))) ∧
    (∀ i y, (s.core c).inst = some i → tget none s.insts i = some y → 1 ≤ x.toNat → x.toNat ≤ 15 →
      exec (.mts a 0x061) s = .next (State.goesSettled { s1 with
        insts := tput s1.insts i (some { y with drift := x.toNat }) } c (nextPc (s.core c).pc))))

/-! ## Memory accesses -/

/-- R248, R251, R102, 14 R322: a scalar load reads its bytes at W(A) plus the offset, or plus the scaled index, and
its destination takes them extended. Readings of the model: log 15 and 57. -/
def Obligations.ScalarLoads : Prop :=
  (∀ (i : Instr) (s s1 s2 s3 s4 : State) (c : Nat) (d a : Reg) (ofs : W64) (sp : Space) (n v : Nat) (sg dcr : Bool) (x : W64)
      (l : Loc),
    loadOf i = some (d, a, ofs, sp, n, sg, dcr) → s.atSlot c = true → s.take c false a = some (x, s1) →
    (accessLoc sp (s1.core c).asid (x + ofs) n .load dcr).run s1 = .ok l s2 → (loadLoc l n).run s2 = .ok v s3 →
    s3.giveLate c .data d (extended n sg v) = some s4 →
    exec i s = .next ((s4.loadedAs c l d n sg).goes c (nextPc (s.core c).pc))) ∧
  (∀ (ty : IntTy) (s s1 s2 s3 s4 s5 : State) (c n v : Nat) (d a b : Reg) (x y : W64) (l : Loc),
    s.atSlot c = true → s.take c false a = some (x, s1) → s1.take c false b = some (y, s2) → n = IntTy.width ty / 8 →
    (accessLoc .mem (s2.core c).asid (x + y * BitVec.ofNat 64 n) n .load (n == 8)).run s2 = .ok l s3 →
    (loadLoc l n).run s3 = .ok v s4 → s4.giveLate c .data d (extended n (IntTy.signed ty) v) = some s5 →
    exec (.ldx ty d a b) s = .next ((s5.loadedAs c l d n (IntTy.signed ty)).goes c (nextPc (s.core c).pc)))

/-- R248, R252, 14 R322: a scalar store writes the low bytes of W(D) at W(A) plus the offset, or plus the scaled
index. Readings of the model: log 13 and 57. -/
def Obligations.ScalarStores : Prop :=
  (∀ (i : Instr) (s s0 s1 s2 s3 : State) (c : Nat) (d a : Reg) (ofs : W64) (sp : Space) (n : Nat) (dcr : Bool) (v x : W64)
      (l : Loc),
    storeOf i = some (d, a, ofs, sp, n, dcr) → s.atSlot c = true → s.take c false d = some (v, s0) →
    s0.take c false a = some (x, s1) → (accessLoc sp (s1.core c).asid (x + ofs) n .store dcr).run s1 = .ok l s2 →
    (storeLoc l n (v.toNat % 256 ^ n)).run s2 = .ok ⟨⟩ s3 →
    exec i s = .next ((s2.storedTo s3 c false l).goes c (nextPc (s.core c).pc))) ∧
  (∀ (ty : IntTy) (s s0 s1 s2 s3 s4 : State) (c n : Nat) (d a b : Reg) (v x y : W64) (l : Loc),
    s.atSlot c = true → s.take c false d = some (v, s0) → s0.take c false a = some (x, s1) →
    s1.take c false b = some (y, s2) → n = IntTy.width ty / 8 →
    (accessLoc .mem (s2.core c).asid (x + y * BitVec.ofNat 64 n) n .store (n == 8)).run s2 = .ok l s3 →
    (storeLoc l n (v.toNat % 256 ^ n)).run s3 = .ok ⟨⟩ s4 →
    exec (.stx ty d a b) s = .next ((s3.storedTo s4 c false l).goes c (nextPc (s.core c).pc)))

/-- R212, R248; 10 R250: what an access changes, by where it lands. A store leaves its value there, little-endian, and
every other byte of that memory as it was. In ordinary memory it changes nothing else but what coherence keeps (the
directory, the caches, the events they make) and the poison of lines it covers; in a scratchpad, nothing but a halted
core's wait, which ends when its BOT changes; in the device control region, nothing but that region's registers and the cached lines they end. A load
reads its bytes and changes nothing but what coherence keeps. A store then changes no word but those that the core's
other stream has loaded of the same granule and nothing has read since. What the streams of other cores knew of its granules
then holds no longer. Readings of the model: log 2, 11, 22 and 57.
-/
def Obligations.AccessFrame : Prop :=
  (∀ (l : Loc) (n v : Nat) (s t : State), s.memOk = true → (storeLoc l n v).run s = .ok ⟨⟩ t →
    (match l with
      | .phys pa _ =>
        t.rest = State.rest { s with mem := t.mem, poison := t.poison } ∧ t.cores = s.cores ∧ t.posts = s.posts ∧
        t.mem.le pa n = v % 256 ^ n ∧ (∀ a, a < pa ∨ pa + n ≤ a → t.mem.get a = s.mem.get a) ∧
        t.poison = s.poison.filter fun x => !(decide (pa ≤ 64 * x) && decide (64 * x + 64 ≤ pa + n))
      | .spad k o =>
        t = { s with cores := t.cores, loads := t.loads, was := t.was } ∧ (∀ c, c ≠ k → t.core c = s.core c) ∧
        t.core k = { s.core k with spad := (t.core k).spad, halted :=
          (s.core k).halted && (t.core k).spad.le 0x37fc8 8 == (s.core k).spad.le 0x37fc8 8 } ∧
        (t.core k).spad.le o n = v % 256 ^ n ∧ ∀ a, a < o ∨ o + n ≤ a → (t.core k).spad.get a = (s.core k).spad.get a
      | .clu k o =>
        t = { s with cores := t.cores, loads := t.loads, was := t.was } ∧ (∀ c, c ≠ k → t.core c = s.core c) ∧
        t.core k = { s.core k with cspad := (t.core k).cspad } ∧ (t.core k).cspad.le o n = v % 256 ^ n ∧
        ∀ a, a < o ∨ o + n ≤ a → (t.core k).cspad.get a = (s.core k).cspad.get a
      | .die d o =>
        t = { s with dspad := t.dspad, loads := t.loads, was := t.was } ∧ (∀ e, e ≠ d → tget [] t.dspad e = tget [] s.dspad e) ∧
        Memory.le (tget [] t.dspad d) o n = v % 256 ^ n ∧
        ∀ a, a < o ∨ o + n ≤ a → Memory.get (tget [] t.dspad d) a = Memory.get (tget [] s.dspad d) a
      | .dcr _ =>
        t = { s with fw := t.fw, ways := t.ways, heaptab := t.heaptab, swtick := t.swtick, swdead := t.swdead,
                     swgrace := t.swgrace, lastTick := t.lastTick, mons := t.mons, l1d := t.l1d, l2 := t.l2 }
      | .ali _ _ => t = s) ∧
    t.loads = (s.loads.filter fun x => x.core == s.actor || !granuleIn l n x.place) ∧
    t.was = s.was.filter fun x => x.core == s.actor || !granuleIn l n x.place) ∧
  (∀ (l : Loc) (n v : Nat) (s t : State), (loadLoc l n).run s = .ok v t →
    t.rest = s.rest ∧ (∀ c, (t.core c).rest = (s.core c).rest) ∧
    (match l with
      | .phys pa _ => v = s.mem.le pa n
      | .spad k o => t = s ∧ v = (s.core k).spad.le o n
      | .clu k o => t = s ∧ v = (s.core k).cspad.le o n
      | .die d o => t = s ∧ v = Memory.le (tget [] s.dspad d) o n
      | .dcr o => t = s ∧ v = (s.dcrRead o).toNat
      | .ali w pa => t.cores = s.cores ∧ v = leNat (s.aliasBytes w pa n))) ∧
  (∀ (l : Loc) (c : Nat) (data : Bool) (s t u : State), u = s.storedTo t c data l →
    u = { t with loads := u.loads, was := u.was, freeCtr := u.freeCtr, cores := u.cores } ∧
    (∀ k, k ≠ c → u.core k = t.core k) ∧
    u.core c = { t.core c with rs := (u.core c).rs, fwregs := (u.core c).fwregs, pend := (u.core c).pend } ∧
    (∀ i, (∀ x ∈ t.loads, x.core = c → x.data ≠ data → x.word = i → some x.place.gran ≠ l.place.map Place.gran) →
      (u.core c).word i = (t.core c).word i) ∧
    (l.place = none → u = t))

/-- R253, R254, 14 R323, 06 R148, 19 R382: `pref`, `cmo`, `fence`, `nop` and `isync` complete, and change no register,
no memory and no queue: a word that they name is read, a line may become clean or leave the caches, and `isync`
discards fetched lines and constants. A `cmo` has no effect on a page that is not present or in an expanded alias; in
the device control region it is misaligned. Readings of the model: log 53 and 57. -/
def Obligations.Hints : Prop :=
  (∀ (k : FenceKind) (sc : Scope) (s : State) (c : Nat), s.atSlot c = true →
    (s.slotCls ≠ .b → exec .nop s = .next (s.goes c (nextPc (s.core c).pc))) ∧
    exec (.fence k sc) s = .next (s.goesSettled c (nextPc (s.core c).pc)) ∧
    exec .isync s = .next ((s.discard c).goesSettled c (nextPc (s.core c).pc)) ∧
    ((s.discard c).core c).l1i = [] ∧ ((s.discard c).core c).kcache = [] ∧ ((s.discard c).core c).lattc = [] ∧
    ((s.discard c).core c).dictc = [] ∧ ((s.discard c).seqU (c / 8)).lines = [] ∧
    ((s.discard c).engU (c / 32)).lines = []) ∧
  (∀ (lv : Level) (a : Reg) (imm : BitVec 54) (s s1 : State) (c : Nat) (x : W64), s.atSlot c = true →
    s.take c false a = some (x, s1) → exec (.pref lv a imm) s = .next (s1.goes c (nextPc (s.core c).pc))) ∧
  (∀ (lv : Level) (a : Reg) (i : Instr) (s s1 : State) (c : Nat) (x : W64),
    i ∈ [Instr.cmoClean lv a, Instr.cmoInval lv a, Instr.cmoFlush lv a] → s.atSlot c = true →
    s.take c false a = some (x, s1) →
    ((s1.core c).isFw = true →
      ((physKind x.toNat = .device ∨ physKind x.toNat = .host) →
        exec i s = .next ((cleaned lv a i x.toNat s1).goes c (nextPc (s.core c).pc))) ∧
      (Config.dcrBase ≤ x.toNat → x.toNat < Config.physEnd →
        exec i s = .next (s.deliver c (s.core c).pc false { code := 0x07, addr := x } (s.core c).seq)) ∧
      (physKind x.toNat = .alias_ → s1.aliasWin x.toNat = none →
        exec i s = .next (s.deliver c (s.core c).pc false { code := 0x09, addr := x } (s.core c).seq))) ∧
    (∀ pa e s2, (s1.core c).isFw = false → s1.xlate (.core c) (s1.core c).launch (s1.core c).asid x.toNat .maint
        (!(s1.core c).sup) = .ok (pa, e, s2) →
      ((physKind pa = .device ∨ physKind pa = .host) →
        exec i s = .next ((cleaned lv a i pa s2).goes c (nextPc (s.core c).pc))) ∧
      (physKind pa = .alias_ → (s2.aliasWin pa).isSome = true → exec i s = .next (s2.goes c (nextPc (s.core c).pc))) ∧
      (physKind pa = .dcr →
        exec i s = .next (s.deliver c (s.core c).pc false { code := 0x07, addr := x } (s.core c).seq))) ∧
    ((s1.core c).isFw = false → s1.xlate (.core c) (s1.core c).launch (s1.core c).asid x.toNat .maint
        (!(s1.core c).sup) = .error .notPresent →
      exec i s = .next (s1.goes c (nextPc (s.core c).pc))))

/-- R249, R256, R257, 13 R299: a vector load performs its enabled lanes in increasing order, each an eight-byte
access; where one of them lies in an SO page, all are SO. Readings of the model: log 57. -/
def Obligations.VectorLoads : Prop :=
  (∀ (i : Instr) (s s1 s2 : State) (st : Nat → State) (c mk : Nat) (d a m : Reg) (ofs : W64) (sp : Space) (x : W64) (so : Bool),
    vectorLoad i = some (d, a, m, ofs, sp) → s.atSlot c = true → (s.core c).resume = none →
    s.take c true a = some (x, s1) → s1.maskOf c m = some (mk, s2) → st 0 = s2 → (s2.giveLanes c d 0 fun _ => 0).isSome = true →
    so = anySo s2 c sp .load mk (fun l => x + ofs + BitVec.ofNat 64 (8 * l)) →
    LaneSteps mk (fun l => laneLoad c sp d so l (x + ofs + BitVec.ofNat 64 (8 * l))) st →
    exec i s = .next ((st 16).goes c (nextPc (s.core c).pc))) ∧
  (∀ (s s1 s2 s3 : State) (st : Nat → State) (c mk : Nat) (d a b m : Reg) (x y : W64) (so : Bool), s.atSlot c = true →
    (s.core c).resume = none → s.take c true a = some (x, s1) → s1.take c true b = some (y, s2) →
    s2.maskOf c m = some (mk, s3) → st 0 = s3 → (s3.giveLanes c d 0 fun _ => 0).isSome = true →
    so = anySo s3 c .mem .load mk (fun l => x + BitVec.ofNat 64 l * y) →
    LaneSteps mk (fun l => laneLoad c .mem d so l (x + BitVec.ofNat 64 l * y)) st →
    exec (.vlds d a b m) s = .next ((st 16).goes c (nextPc (s.core c).pc))) ∧
  (∀ (s s1 s2 s3 : State) (st : Nat → State) (c mk : Nat) (d a b m : Reg) (x : W64) (y : List W64) (so : Bool),
    s.atSlot c = true → (s.core c).resume = none → s.take c true a = some (x, s1) → s1.maskOf c m = some (mk, s2) →
    s2.lanes c b mk = some (y, s3) → st 0 = s3 → (s3.giveLanes c d 0 fun _ => 0).isSome = true →
    so = anySo s3 c .mem .load mk (fun l => x + y.getD l 0) →
    LaneSteps mk (fun l => laneLoad c .mem d so l (x + y.getD l 0)) st →
    exec (.vgat d a b m) s = .next ((st 16).goes c (nextPc (s.core c).pc)))

/-- R249, R256, R257, 13 R299: a vector store performs its enabled lanes in increasing order, each an eight-byte
access; where one of them lies in an SO page, all are SO. Readings of the model: log 57. -/
def Obligations.VectorStores : Prop :=
  (∀ (i : Instr) (s s1 s2 : State) (st : Nat → State) (c mk : Nat) (d a m : Reg) (ofs : W64) (sp : Space) (x : W64) (so : Bool),
    vectorStore i = some (d, a, m, ofs, sp) → s.atSlot c = true → (s.core c).resume = none →
    s.take c true a = some (x, s1) → s1.maskOf c m = some (mk, s2) → st 0 = s2 → (s2.lanes c d 0).isSome = true →
    so = anySo s2 c sp .store mk (fun l => x + ofs + BitVec.ofNat 64 (8 * l)) →
    LaneSteps mk (fun l => laneStore c sp d so l (x + ofs + BitVec.ofNat 64 (8 * l))) st →
    exec i s = .next ((st 16).goes c (nextPc (s.core c).pc))) ∧
  (∀ (s s1 s2 s3 : State) (st : Nat → State) (c mk : Nat) (d a b m : Reg) (x y : W64) (so : Bool), s.atSlot c = true →
    (s.core c).resume = none → s.take c true a = some (x, s1) → s1.take c true b = some (y, s2) →
    s2.maskOf c m = some (mk, s3) → st 0 = s3 → (s3.lanes c d 0).isSome = true →
    so = anySo s3 c .mem .store mk (fun l => x + BitVec.ofNat 64 l * y) →
    LaneSteps mk (fun l => laneStore c .mem d so l (x + BitVec.ofNat 64 l * y)) st →
    exec (.vsts d a b m) s = .next ((st 16).goes c (nextPc (s.core c).pc))) ∧
  (∀ (s s1 s2 s3 : State) (st : Nat → State) (c mk : Nat) (d a b m : Reg) (x : W64) (y : List W64) (so : Bool),
    s.atSlot c = true → (s.core c).resume = none → s.take c true a = some (x, s1) → s1.maskOf c m = some (mk, s2) →
    s2.lanes c b mk = some (y, s3) → st 0 = s3 → (s3.lanes c d 0).isSome = true →
    so = anySo s3 c .mem .store mk (fun l => x + y.getD l 0) →
    LaneSteps mk (fun l => laneStore c .mem d so l (x + y.getD l 0)) st →
    exec (.vsct d a b m) s = .next ((st 16).goes c (nextPc (s.core c).pc)))

/-- R258: each enabled lane reads or writes eight bytes of its own slice. -/
def Obligations.LaneSlices : Prop :=
  (∀ (s s1 s2 s3 s4 : State) (c mk : Nat) (d a b m : Reg) (x : W64) (y : List W64), s.atSlot c = true →
    (s.core c).resume = none → s.take c true a = some (x, s1) → s1.maskOf c m = some (mk, s2) →
    s2.lanes c b mk = some (y, s3) →
    (∀ l < 16, laneOn mk l = true → (x + y.getD l 0).toNat % 8 = 0 ∧ (x + y.getD l 0).toNat < 4096) →
    s3.giveLanes c d mk (fun l => BitVec.ofNat 64 ((s.core c).slices.le (4096 * l + (x + y.getD l 0).toNat) 8)) = some s4 →
    exec (.ldl d a b m) s = .next (s4.goes c (nextPc (s.core c).pc))) ∧
  (∀ (s s1 s2 s3 s4 : State) (c mk : Nat) (d a b m : Reg) (x : W64) (v y : List W64), s.atSlot c = true →
    (s.core c).resume = none → s.take c true a = some (x, s1) → s1.maskOf c m = some (mk, s2) →
    s2.lanes c b mk = some (y, s3) → s3.lanes c d mk = some (v, s4) →
    (∀ l < 16, laneOn mk l = true → (x + y.getD l 0).toNat % 8 = 0 ∧ (x + y.getD l 0).toNat < 4096) →
    exec (.stl d a b m) s = .next ((s4.setCore c { s4.core c with
      slices := (List.range 16).foldl (fun sl l => if laneOn mk l then
        sl.setLe (4096 * l + (x + y.getD l 0).toNat) 8 (v.getD l 0).toNat else sl) (s.core c).slices }).goes c
      (nextPc (s.core c).pc)))

/-! ## Vector instructions -/

/-- R136, R154, R182, R186 to R189: the elementwise integer instructions, `vsel` bit by bit, and `vabs`, in the
enabled lanes; the other lanes keep their words, and are not read. -/
def Obligations.VectorIntegers : Prop :=
  (∀ (i : Instr) (s s1 s2 s3 s4 : State) (c mk : Nat) (d a b m : Reg) (f : W64 → W64 → W64) (x y : List W64),
    vectorTwo i = some (d, a, b, m, f) → s.atSlot c = true → s.maskOf c m = some (mk, s1) →
    s1.lanes c a mk = some (x, s2) → s2.lanes c b mk = some (y, s3) →
    s3.giveLanes c d mk (fun l => f (x.getD l 0) (y.getD l 0)) = some s4 →
    exec i s = .next (s4.goes c (nextPc (s.core c).pc))) ∧
  (∀ (s s1 s2 s3 s4 s5 : State) (c mk : Nat) (d a b e m : Reg) (x y z : List W64), s.atSlot c = true →
    s.maskOf c m = some (mk, s1) → s1.lanes c a mk = some (x, s2) → s2.lanes c b mk = some (y, s3) →
    s3.lanes c e mk = some (z, s4) →
    s4.giveLanes c d mk (fun l => ofBits 64 fun j => if (x.getD l 0).getLsbD j then (y.getD l 0).getLsbD j
      else (z.getD l 0).getLsbD j) = some s5 →
    exec (.vsel d a b e m) s = .next (s5.goes c (nextPc (s.core c).pc))) ∧
  (∀ (w : StW) (s s1 s2 s3 : State) (c mk : Nat) (d a m : Reg) (x : List W64), s.atSlot c = true →
    s.maskOf c m = some (mk, s1) → s1.lanes c a mk = some (x, s2) →
    s2.giveLanes c d mk (fun l => lanes2 (8 * storeWidth w) (fun e _ => if e.toInt < 0 then -e else e) (x.getD l 0) 0) =
      some s3 →
    exec (.vabs w d a m) s = .next (s3.goes c (nextPc (s.core c).pc)))

/-! ## Rounding, said in whole numbers of the least subnormal (02 R37 to R44)

A finite code of a format is a whole number of its least subnormal, 2^(-unit). -/

/-- The formats, each with its canonical NaN (R39) and its largest finite code (R37). -/
def numberFormats : List (Fmt × Nat × Nat) :=
  [(f64Fmt, 0x7ff8000000000000, 0x7fefffffffffffff), (f32Fmt, 0x7fc00000, 0x7f7fffff), (f16Fmt, 0x7e00, 0x7bff),
   (bf16Fmt, 0x7fc0, 0x7f7f), (e4m3Fmt, 0x7f, 0x7e), (e5m2Fmt, 0x7e, 0x7b)]
def codeSign (f : Fmt) (x : Nat) : Bool := x / 2 ^ (f.eb + f.fb) % 2 == 1
def codeExp (f : Fmt) (x : Nat) : Nat := x / 2 ^ f.fb % 2 ^ f.eb
def codeFrac (f : Fmt) (x : Nat) : Nat := x % 2 ^ f.fb
def codeNan (f : Fmt) (x : Nat) : Bool :=
  codeExp f x == 2 ^ f.eb - 1 && (if f.e4 then codeFrac f x == 7 else codeFrac f x != 0)
def codeInf (f : Fmt) (x : Nat) : Bool := !f.e4 && codeExp f x == 2 ^ f.eb - 1 && codeFrac f x == 0
def codeSnan (f : Fmt) (x : Nat) : Bool := codeNan f x && f.eb + f.fb != 7 && codeFrac f x < 2 ^ (f.fb - 1)
def codeFinite (f : Fmt) (x : Nat) : Bool := !codeNan f x && !codeInf f x
/-- The least subnormal is 2^(-unit). -/
def unitExp (f : Fmt) : Nat := 2 ^ (f.eb - 1) - 2 + f.fb
def codeMag (f : Fmt) (x : Nat) : Nat :=
  if codeExp f x = 0 then codeFrac f x else (2 ^ f.fb + codeFrac f x) * 2 ^ (codeExp f x - 1)
def codeVal (f : Fmt) (x : Nat) : Int := if codeSign f x then -(codeMag f x : Int) else codeMag f x
def zeroOf (f : Fmt) (s : Bool) : Nat := if s then 2 ^ (f.eb + f.fb) else 0
def infOf (f : Fmt) (s : Bool) : Nat := zeroOf f s + (2 ^ f.eb - 1) * 2 ^ f.fb
/-- The magnitude num / den as a whole number, rounded in a mode (R49). -/
def nearby (rm : Rm) (neg : Bool) (num den : Nat) : Nat :=
  match rm with
  | .rne => if 2 * (num % den) < den ∨ (2 * (num % den) = den ∧ num / den % 2 = 0) then num / den else num / den + 1
  | .rtz => num / den
  | .rdn => if neg = true ∧ num % den ≠ 0 then num / den + 1 else num / den
  | .rup => if neg = false ∧ num % den ≠ 0 then num / den + 1 else num / den
  | .rmm => if 2 * (num % den) < den then num / den else num / den + 1
/-- The magnitude num / den at the precision of the format, in units: whole units below the normal numbers. -/
def atPrecision (f : Fmt) (rm : Rm) (neg : Bool) (num den : Nat) : Nat :=
  nearby rm neg num (den * 2 ^ ((num / den).log2 - f.fb)) * 2 ^ ((num / den).log2 - f.fb)
/-- After rounding with an unbounded exponent it is below the least normal number (R40). -/
def tinyAfter (f : Fmt) (rm : Rm) (neg : Bool) (num den : Nat) : Bool :=
  let p := den.log2 + 1 + f.fb
  let l := (num * 2 ^ p / den).log2
  nearby rm neg (num * 2 ^ p) (den * 2 ^ (l - f.fb)) * 2 ^ (l - f.fb) < 2 ^ (f.fb + p)
/-- The largest finite code of a sign, where the mode rounds an overflow toward zero (R42), else infinity. -/
def overflowCode (f : Fmt) (big : Nat) (rm : Rm) (neg : Bool) : Nat :=
  if rm = .rtz ∨ (rm = .rdn ∧ neg = false) ∨ (rm = .rup ∧ neg = true) then zeroOf f neg + big else infOf f neg
/-- A result and its flags are those of the nonzero magnitude num / den, in units of the format, rounded once. -/
def roundsTo (f : Fmt) (big : Nat) (rm : Rm) (neg : Bool) (num den : Nat) (r : Nat × Nat) : Prop :=
  let m := atPrecision f rm neg num den
  (m ≤ codeMag f big → r.1 < 2 ^ (f.eb + f.fb + 1) ∧ codeFinite f r.1 = true ∧ codeSign f r.1 = neg ∧ codeMag f r.1 = m ∧
    r.2 = (if m * den = num then 0 else if tinyAfter f rm neg num den then 3 else 1)) ∧
  (codeMag f big < m → r = if f.e4 then (0x7f, 21) else (overflowCode f big rm neg, 5))
/-- The same with overflow clamped, as a saturating conversion to an eight-bit format does (R42). -/
def roundsSat (f : Fmt) (big : Nat) (rm : Rm) (sat neg : Bool) (num den : Nat) (r : Nat × Nat) : Prop :=
  if sat = true ∧ f.eb + f.fb = 7 ∧ codeMag f big < atPrecision f rm neg num den then r = (zeroOf f neg + big, 5)
  else roundsTo f big rm neg num den r
/-- A number of n bits as an integer type reads it. -/
def intOf (ty : IntTy) (x : Nat) : Int :=
  if IntTy.signed ty = true ∧ 2 ^ (IntTy.width ty - 1) ≤ x % 2 ^ IntTy.width ty then
    (x % 2 ^ IntTy.width ty : Nat) - (2 ^ IntTy.width ty : Nat) else (x % 2 ^ IntTy.width ty : Nat)

/-- 02 R37 to R42, R44, R49; 08 R191, R195, R196: a value that is rounded, and the flags it raises: each finite
operand at its exact value in whole numbers of its least subnormal, the exact sum, product, fused product, quotient or
root rounded once; tininess after rounding; overflow; NaNs, infinities and zeros; conversions among the formats and
the integers. -/
def Obligations.RoundingCore : Prop :=
  (∀ (f : Fmt) (nan big : Nat), (f, nan, big) ∈ numberFormats →
    (∀ (rm : Rm) (s : Bool) (m j : Nat) (e : Int), 0 < m → 0 ≤ e + j →
      roundsTo f big rm s (m * 2 ^ (e + j).toNat * 2 ^ unitExp f) (2 ^ j) (roundPack f s m e rm false)) ∧
    (∀ (rm : Rm) (s : Bool) (m j n : Nat) (e : Int), 2 ^ (f.fb + 1) ≤ m → 0 ≤ e + j → m * 2 ^ (e + j).toNat < n →
      n < (m + 1) * 2 ^ (e + j).toNat → roundsTo f big rm s (n * 2 ^ unitExp f) (2 ^ j) (roundPack f s m e rm true)) ∧
    (∀ (rm : Rm) (a b : Nat),
      ((codeNan f a || codeNan f b) = true →
        fAdd f rm a b = (nan, if codeSnan f a || codeSnan f b then 16 else 0) ∧
        fMul f rm a b = (nan, if codeSnan f a || codeSnan f b then 16 else 0) ∧
        fDiv f rm a b = (nan, if codeSnan f a || codeSnan f b then 16 else 0)) ∧
      (codeInf f a = true → codeInf f b = true →
        fAdd f rm a b = (if codeSign f a = codeSign f b then (infOf f (codeSign f a), 0) else (nan, 16)) ∧
        fMul f rm a b = (infOf f (codeSign f a != codeSign f b), 0) ∧ fDiv f rm a b = (nan, 16)) ∧
      (codeInf f a = true → codeFinite f b = true →
        fAdd f rm a b = (infOf f (codeSign f a), 0) ∧ fAdd f rm b a = (infOf f (codeSign f a), 0) ∧
        fMul f rm a b = (if codeMag f b = 0 then (nan, 16) else (infOf f (codeSign f a != codeSign f b), 0)) ∧
        fMul f rm b a = (if codeMag f b = 0 then (nan, 16) else (infOf f (codeSign f a != codeSign f b), 0)) ∧
        fDiv f rm a b = (infOf f (codeSign f a != codeSign f b), 0) ∧
        fDiv f rm b a = (zeroOf f (codeSign f a != codeSign f b), 0)) ∧
      (codeFinite f a = true → codeFinite f b = true →
        (codeVal f a + codeVal f b = 0 → fAdd f rm a b =
          (zeroOf f (if codeSign f a = codeSign f b then codeSign f a else rm == .rdn), 0)) ∧
        (codeVal f a + codeVal f b ≠ 0 →
          roundsTo f big rm (codeVal f a + codeVal f b < 0) (codeVal f a + codeVal f b).natAbs 1 (fAdd f rm a b)) ∧
        (codeMag f a = 0 ∨ codeMag f b = 0 → fMul f rm a b = (zeroOf f (codeSign f a != codeSign f b), 0)) ∧
        (codeMag f a ≠ 0 → codeMag f b ≠ 0 →
          roundsTo f big rm (codeSign f a != codeSign f b) (codeMag f a * codeMag f b) (2 ^ unitExp f) (fMul f rm a b) ∧
          roundsTo f big rm (codeSign f a != codeSign f b) (codeMag f a * 2 ^ unitExp f) (codeMag f b) (fDiv f rm a b)) ∧
        (codeMag f b = 0 → fDiv f rm a b =
          if codeMag f a = 0 then (nan, 16) else (infOf f (codeSign f a != codeSign f b), 8)) ∧
        (codeMag f a = 0 → codeMag f b ≠ 0 → fDiv f rm a b = (zeroOf f (codeSign f a != codeSign f b), 0)))) ∧
    (∀ (rm : Rm) (p q ps cs : Bool) (a b c : Nat),
      ps = ((codeSign f a != codeSign f b) != p) → cs = (codeSign f c != q) →
      ((codeInf f a && codeFinite f b && codeMag f b == 0 || codeInf f b && codeFinite f a && codeMag f a == 0) = true →
        fFma f rm p q a b c = (nan, 16)) ∧
      (¬ (codeInf f a && codeFinite f b && codeMag f b == 0 || codeInf f b && codeFinite f a && codeMag f a == 0) = true →
        ((codeNan f a || codeNan f b || codeNan f c) = true →
          fFma f rm p q a b c = (nan, if codeSnan f a || codeSnan f b || codeSnan f c then 16 else 0)) ∧
        ((codeNan f a || codeNan f b || codeNan f c) = false → (codeInf f a || codeInf f b) = true →
          fFma f rm p q a b c = (if codeInf f c = true ∧ ps ≠ cs then (nan, 16) else (infOf f ps, 0))) ∧
        (codeFinite f a = true → codeFinite f b = true → codeInf f c = true → fFma f rm p q a b c = (infOf f cs, 0))) ∧
      (codeFinite f a = true → codeFinite f b = true → codeFinite f c = true →
        ∀ t : Int, t = (if ps then (-1 : Int) else 1) * (codeMag f a * codeMag f b : Nat) +
            (if cs then (-1 : Int) else 1) * (codeMag f c * 2 ^ unitExp f : Nat) →
          (t = 0 → fFma f rm p q a b c = (zeroOf f (if ps = cs then ps else rm == .rdn), 0)) ∧
          (t ≠ 0 → roundsTo f big rm (t < 0) t.natAbs (2 ^ unitExp f) (fFma f rm p q a b c)))) ∧
    (∀ (rm : Rm) (a : Nat),
      (codeNan f a = true → fSqrt f rm a = (nan, if codeSnan f a then 16 else 0)) ∧
      (codeNan f a = false → codeMag f a ≠ 0 → codeSign f a = true → fSqrt f rm a = (nan, 16)) ∧
      (codeInf f a = true → codeSign f a = false → fSqrt f rm a = (a % 2 ^ (f.eb + f.fb + 1), 0)) ∧
      (codeFinite f a = true → codeMag f a = 0 → fSqrt f rm a = (zeroOf f (codeSign f a), 0)) ∧
      (codeFinite f a = true → codeMag f a ≠ 0 → codeSign f a = false → ∀ m p : Nat, 2 ^ (f.fb + 1) ≤ m →
        (m * m * 2 ^ unitExp f = codeMag f a * 4 ^ p →
          roundsTo f big rm false (m * 2 ^ unitExp f) (2 ^ p) (fSqrt f rm a)) ∧
        (m * m * 2 ^ unitExp f < codeMag f a * 4 ^ p → codeMag f a * 4 ^ p < (m + 1) * (m + 1) * 2 ^ unitExp f →
          roundsTo f big rm false ((2 * m + 1) * 2 ^ unitExp f) (2 ^ (p + 1)) (fSqrt f rm a))))) ∧
  (∀ (td ts : Ty) (fd fs : Fmt) (nan big x : Nat) (rm : Rm) (sat : Bool), Ty.fmt? td = some fd → Ty.fmt? ts = some fs →
    (fd, nan, big) ∈ numberFormats →
    (codeNan fs x = true → convert td ts rm sat x = (nan, if codeSnan fs x then 16 else 0)) ∧
    (codeInf fs x = true → convert td ts rm sat x =
      (if sat = true ∧ fd.eb + fd.fb = 7 then (zeroOf fd (codeSign fs x) + big, 0)
      else if fd.e4 then (nan, 16) else (infOf fd (codeSign fs x), 0))) ∧
    (codeFinite fs x = true → codeMag fs x = 0 → convert td ts rm sat x = (zeroOf fd (codeSign fs x), 0)) ∧
    (codeFinite fs x = true → codeMag fs x ≠ 0 →
      roundsSat fd big rm sat (codeSign fs x) (codeMag fs x * 2 ^ unitExp fd) (2 ^ unitExp fs) (convert td ts rm sat x))) ∧
  (∀ (td ts : Ty) (fs : Fmt) (ty : IntTy) (n x : Nat) (lo hi v : Int) (rm : Rm) (sat : Bool), Ty.int? td = some ty →
    Ty.fmt? ts = some fs → n = IntTy.width ty →
    lo = (if IntTy.signed ty then -((2 ^ (n - 1) : Nat) : Int) else 0) →
    hi = (if IntTy.signed ty then (2 ^ (n - 1) : Nat) else (2 ^ n : Nat)) - 1 →
    v = (if codeSign fs x then (-1 : Int) else 1) * (nearby rm (codeSign fs x) (codeMag fs x) (2 ^ unitExp fs) : Nat) →
    (codeNan fs x = true → convert td ts rm sat x = ((hi % (2 ^ n : Nat)).toNat, 16)) ∧
    (codeInf fs x = true → convert td ts rm sat x = (((if codeSign fs x then lo else hi) % (2 ^ n : Nat)).toNat, 16)) ∧
    (codeFinite fs x = true →
      (hi < v → convert td ts rm sat x = ((hi % (2 ^ n : Nat)).toNat, 16)) ∧
      (v < lo → convert td ts rm sat x = ((lo % (2 ^ n : Nat)).toNat, 16)) ∧
      (lo ≤ v → v ≤ hi → convert td ts rm sat x =
        ((v % (2 ^ n : Nat)).toNat, if codeMag fs x % 2 ^ unitExp fs = 0 then 0 else 1)))) ∧
  (∀ (td ts : Ty) (fd : Fmt) (ty : IntTy) (nan big x : Nat) (rm : Rm) (sat : Bool), Ty.fmt? td = some fd →
    Ty.int? ts = some ty → (fd, nan, big) ∈ numberFormats →
    (intOf ty x = 0 → convert td ts rm sat x = (0, 0)) ∧
    (intOf ty x ≠ 0 → roundsSat fd big rm sat (intOf ty x < 0) ((intOf ty x).natAbs * 2 ^ unitExp fd) 1
      (convert td ts rm sat x))) ∧
  (∀ (td ts : Ty) (ty tz : IntTy) (x : Nat) (rm : Rm) (sat : Bool) (lo hi : Int), Ty.int? td = some ty →
    Ty.int? ts = some tz →
    lo = (if IntTy.signed ty then -((2 ^ (IntTy.width ty - 1) : Nat) : Int) else 0) →
    hi = (if IntTy.signed ty then (2 ^ (IntTy.width ty - 1) : Nat) else (2 ^ IntTy.width ty : Nat)) - 1 →
    convert td ts rm sat x =
      (((if sat then max lo (min hi (intOf tz x)) else intOf tz x) % (2 ^ IntTy.width ty : Nat)).toNat, 0))

/-- R183, R190 to R197: the elementwise floating and fused instructions, the constant forms and the conversions write
the enabled lanes, and set the flags that those lanes raise; a narrowing conversion keeps the elements it does not
write. -/
def Obligations.VectorFloats : Prop :=
  (∀ (i : Instr) (s s1 s2 s3 s4 : State) (c mk : Nat) (d a b m : Reg) (ty : FpTy) (f : Core → Nat → Nat → Nat × Nat)
      (x y : List W64) (r : Nat → W64 × Nat),
    floatTwo i = some (d, a, b, m, ty, f) → s.atSlot c = true → s.maskOf c m = some (mk, s1) →
    s1.lanes c a mk = some (x, s2) → s2.lanes c b mk = some (y, s3) →
    (r = fun l => mapElems (fpFmt ty).width fun j => f (s.core c) (elemOf (fpFmt ty).width j (x.getD l 0))
      (elemOf (fpFmt ty).width j (y.getD l 0))) →
    s3.giveLanes c d mk (fun l => (r l).1) = some s4 →
    exec i s = .next ((flagged s4 c (raised mk r)).goes c (nextPc (s.core c).pc))) ∧
  (∀ (i : Instr) (s s1 s2 s3 : State) (c mk : Nat) (d a m : Reg) (ty : FpTy) (f : Core → Nat → Nat × Nat) (x : List W64)
      (r : Nat → W64 × Nat),
    floatOne i = some (d, a, m, ty, f) → s.atSlot c = true → s.maskOf c m = some (mk, s1) →
    s1.lanes c a mk = some (x, s2) →
    (r = fun l => mapElems (fpFmt ty).width fun j => f (s.core c) (elemOf (fpFmt ty).width j (x.getD l 0))) →
    s2.giveLanes c d mk (fun l => (r l).1) = some s3 →
    exec i s = .next ((flagged s3 c (raised mk r)).goes c (nextPc (s.core c).pc))) ∧
  (∀ (i : Instr) (s s1 s2 s3 s4 s5 : State) (c mk : Nat) (d a b e m : Reg) (ty : FpTy) (rm : RmF) (p q : Bool)
      (x y z : List W64) (r : Nat → W64 × Nat),
    fused i = some (d, a, b, e, m, ty, rm, p, q) → s.atSlot c = true → s.maskOf c m = some (mk, s1) →
    s1.lanes c a mk = some (x, s2) → s2.lanes c b mk = some (y, s3) → s3.lanes c e mk = some (z, s4) →
    (r = fun l => mapElems (fpFmt ty).width fun j => fFma (fpFmt ty) ((s.core c).rm rm) p q
      (elemOf (fpFmt ty).width j (x.getD l 0)) (elemOf (fpFmt ty).width j (y.getD l 0))
      (elemOf (fpFmt ty).width j (z.getD l 0))) →
    s4.giveLanes c d mk (fun l => (r l).1) = some s5 →
    exec i s = .next ((flagged s5 c (raised mk r)).goes c (nextPc (s.core c).pc))) ∧
  (∀ (i : Instr) (s s1 s2 s3 : State) (c mk n : Nat) (d a m : Reg) (kw : BitVec 3) (ko : BitVec 17)
      (f : Core → Nat → Nat → Nat × Nat) (x : List W64) (w : W64) (r : Nat → W64 × Nat),
    constantForm i = some (d, a, m, kw, ko, n, f) → s.atSlot c = true → s.maskOf c m = some (mk, s1) →
    s1.lanes c a mk = some (x, s2) → (s.core c).constOf kw ko = some w →
    (r = fun l => mapElems n fun j => f (s.core c) (elemOf n j (x.getD l 0)) (w.toNat % 2 ^ n)) →
    s2.giveLanes c d mk (fun l => (r l).1) = some s3 →
    exec i s = .next ((flagged s3 c (raised mk r)).goes c (nextPc (s.core c).pc))) ∧
  (∀ (td ts : Ty) (rm : RmF) (sat : Bool) (part : BitVec 3) (s s1 s2 s3 s4 : State) (c mk : Nat) (d a m : Reg)
      (x old : List W64) (r : Nat → W64 × Nat),
    s.atSlot c = true → s.maskOf c m = some (mk, s1) → s1.lanes c a mk = some (x, s2) →
    (Ty.width ts ≤ Ty.width td → s3 = s2) → (Ty.width td < Ty.width ts → s2.lanes c d mk = some (old, s3)) →
    (r = fun l =>
      let wd := Ty.width td
      let ws := Ty.width ts
      let e := 64 / max wd ws
      mapElems wd fun j =>
        if ws ≤ wd then convert td ts ((s.core c).rm rm) sat
          (elemOf ws ((if wd = ws then 0 else part.toNat * e) + j) (x.getD l 0))
        else if part.toNat * e ≤ j ∧ j < part.toNat * e + e then
          convert td ts ((s.core c).rm rm) sat (elemOf ws (j - part.toNat * e) (x.getD l 0))
        else (elemOf wd j (old.getD l 0), 0)) →
    s3.giveLanes c d mk (fun l => (r l).1) = some s4 →
    exec (.vcvt td ts rm sat part d a m) s = .next ((flagged s4 c (raised mk r)).goes c (nextPc (s.core c).pc)))

/-- 08 R198: broadcasts and lane moves: what each writes, and the fields of its word that must be zero, or 0xfff. -/
def Obligations.LaneMoves : Prop :=
  (∀ (s s1 s2 s3 : State) (c mk : Nat) (d a m : Reg) (x : W64), s.atSlot c = true →
    s.take c true a = some (x, s1) → s1.maskOf c m = some (mk, s2) → s2.giveLanes c d mk (fun _ => x) = some s3 →
    exec (.vbcast d a m) s = .next (s3.goes c (nextPc (s.core c).pc))) ∧
  (∀ (s s1 s2 : State) (c mk : Nat) (d m : Reg) (kw : BitVec 3) (ko : BitVec 17) (w : W64), s.atSlot c = true →
    s.maskOf c m = some (mk, s1) → (s.core c).constOf kw ko = some w → s1.giveLanes c d mk (fun _ => w) = some s2 →
    exec (.vbcastk d m kw ko) s = .next (s2.goes c (nextPc (s.core c).pc))) ∧
  (∀ (s s1 s2 s3 : State) (c : Nat) (d a b : Reg) (x i : W64), s.atSlot c = true →
    s.take c true a = some (x, s1) → s1.take c true b = some (i, s2) →
    s2.giveLanes c d (if i.toNat < 16 then 2 ^ i.toNat else 0) (fun _ => x) = some s3 →
    exec (.vins d a b) s = .next (s3.goes c (nextPc (s.core c).pc))) ∧
  (∀ (s s1 s2 s3 : State) (c : Nat) (d a b : Reg) (x : List W64) (i : W64), s.atSlot c = true →
    s.lanes c a 0xffff = some (x, s1) → s1.take c true b = some (i, s2) →
    s2.give c true d (if i.toNat < 16 then x.getD i.toNat 0 else 0) = some s3 →
    exec (.vext d a b) s = .next (s3.goes c (nextPc (s.core c).pc))) ∧
  (∀ (s s1 s2 s3 : State) (c mk : Nat) (d a m : Reg) (x : List W64), s.atSlot c = true →
    s.maskOf c m = some (mk, s1) → s1.lanes c a mk = some (x, s2) →
    s2.give c true d (ofBits 16 fun l => laneOn mk l && x.getD l 0 != 0) = some s3 →
    exec (.vmask d a m) s = .next (s3.goes c (nextPc (s.core c).pc))) ∧
  (∀ w : Word96,
    ((fOpc w = 0xa8 ∨ fOpc w = 0xac) → (rB (fLow w) ≠ 0 ∨ rC (fLow w) ≠ 0) → ∃ e, decode w = .error e) ∧
    (fOpc w = 0xa9 → (fA w ≠ 0 ∨ kZ (fLow w) ≠ 0) → ∃ e, decode w = .error e) ∧
    ((fOpc w = 0xaa ∨ fOpc w = 0xab) → rM (fLow w) ≠ 0xfff → ∃ e, decode w = .error e))

/-- 08 R199 to R201: each permute sets lanes of D from the lanes of its sources as they stand; which fields of its word must
be zero, or 0xfff, and which bit is `.hi`. -/
def Obligations.Permutes : Prop :=
  (∀ (i : Instr) (s s1 s2 s3 s4 : State) (c mk : Nat) (d a b m : Reg) (f : List W64 → List W64 → Nat → W64) (x y : List W64),
    permuted i = some (d, a, b, m, f) → s.atSlot c = true → s.lanes c a 0xffff = some (x, s1) →
    s1.lanes c b 0xffff = some (y, s2) → s2.maskOf c m = some (mk, s3) → s3.giveLanes c d mk (f x y) = some s4 →
    exec i s = .next (s4.goes c (nextPc (s.core c).pc))) ∧
  (∀ (s s1 s2 s3 s4 : State) (c mk : Nat) (d a b m : Reg) (x : List W64) (r : W64), s.atSlot c = true →
    s.lanes c a 0xffff = some (x, s1) → s1.take c true b = some (r, s2) → s2.maskOf c m = some (mk, s3) →
    s3.giveLanes c d mk (fun l => x.getD ((l + r.toNat) % 16) 0) = some s4 →
    exec (.vrot d a b m) s = .next (s4.goes c (nextPc (s.core c).pc))) ∧
  (∀ (s s1 s2 : State) (c : Nat) (d a b : Reg) (x : List W64) (w : W64), s.atSlot c = true →
    s.lanes c a 0xffff = some (x, s1) → s1.take c true b = some (w, s2) →
    (∀ s3, s2.giveLanes c d 0xffff (compressed x w) = some s3 →
      exec (.vcompress d a b) s = .next (s3.goes c (nextPc (s.core c).pc))) ∧
    (∀ s3, s2.giveLanes c d 0xffff (expanded x w) = some s3 →
      exec (.vexpand d a b) s = .next (s3.goes c (nextPc (s.core c).pc)))) ∧
  (∀ w : Word96,
    ((fOpc w = 0xb0 ∨ fOpc w = 0xb1) → rC (fLow w) ≠ 0 → ∃ e, decode w = .error e) ∧
    (∀ i, decode w = .ok i →
      (fOpc w = 0xb2 → i = .vzip ((rFl (fLow w)).getLsbD 0) (fD w) (fA w) (rB (fLow w)) (rM (fLow w))) ∧
      (fOpc w = 0xb3 → i = .vunzip ((rFl (fLow w)).getLsbD 0) (fD w) (fA w) (rB (fLow w)) (rM (fLow w)))) ∧
    ((fOpc w = 0xb4 ∨ fOpc w = 0xb5) → rM (fLow w) ≠ 0xfff → ∃ e, decode w = .error e))

/-- R154, R202, R203: the reductions write one word from the elements of the enabled lanes; the floating ones set the
flags they raise. -/
def Obligations.Reductions : Prop :=
  (∀ (i : Instr) (s s1 s2 s3 : State) (c mk : Nat) (d a m : Reg) (ty : IntTy) (f : List W64 → Int) (x : List W64),
    reduction i = some (d, a, m, ty, f) → s.atSlot c = true → s.maskOf c m = some (mk, s1) →
    s1.lanes c a mk = some (x, s2) → s2.give c true d (resOf ty (f (enabled (IntTy.width ty) mk x))) = some s3 →
    exec i s = .next (s3.goes c (nextPc (s.core c).pc))) ∧
  (∀ (s s1 s2 s3 : State) (c mk : Nat) (d a m : Reg) (x : W64), s.atSlot c = true → s.take c true a = some (x, s1) →
    s1.maskOf c m = some (mk, s2) →
    s2.give c true d (BitVec.ofNat 64 ((List.range 16).filter fun l => x.getLsbD l && laneOn mk l).length) = some s3 →
    exec (.vmcnt d a m) s = .next (s3.goes c (nextPc (s.core c).pc))) ∧
  (∀ (i : Instr) (s s1 s2 s3 : State) (c mk : Nat) (d a m : Reg) (f : Core → List W64 → Nat → Nat × Nat) (x : List W64),
    floatReduction i = some (d, a, m, f) → s.atSlot c = true → s.maskOf c m = some (mk, s1) →
    s1.lanes c a mk = some (x, s2) →
    (flagged s2 c (BitVec.ofNat 64 ((f (s.core c) x mk).2 % 32))).give c true d
      (BitVec.ofNat 64 (f (s.core c) x mk).1) = some s3 →
    exec i s = .next (s3.goes c (nextPc (s.core c).pc)))

/-- 02 R55 to R57, 08 R204 to R207: with XACC accepted, `xclr`, `xfma`, `xadd` and `xsum` change the accumulators of the
enabled lanes in exact arithmetic; `xsgn` and `xrnd` read them and leave them unchanged. The sums and the merge set
XNAN where N leaves its range under a sticky infinity: log 43, the model's choice. -/
def Obligations.ExactAccumulators : Prop :=
  (∀ (s s1 : State) (c mk : Nat) (m : Reg), s.atSlot c = true → s.feat 5 = true → s.maskOf c m = some (mk, s1) →
    exec (.xclr m) s = .next ((s1.setCore c { s1.core c with xa := accs mk (fun _ _ => {}) (s.core c).xa }).goes c
      (nextPc (s.core c).pc)) ∧
    exec (.xsum m) s = .next ((s1.setCore c { s1.core c with
      xa := (List.range 16).foldl (fun t l => if l != 0 && laneOn mk l then
        tput (tput t 0 (xmerged (tget {} t 0) (tget {} t l))) l {} else t) (s.core c).xa }).goes c (nextPc (s.core c).pc)) ∧
    (∀ d s2, s1.giveLanes c d mk (fun l => (signAcc (tget {} (s.core c).xa l)).1) = some s2 →
      exec (.xsgn d m) s = .next ((flagged s2 c (raised mk fun l => signAcc (tget {} (s.core c).xa l))).goes c
        (nextPc (s.core c).pc))) ∧
    (∀ d rm s2, s1.giveLanes c d mk (fun l => (roundAcc ((s.core c).rm rm) (tget {} (s.core c).xa l)).1) = some s2 →
      exec (.xrnd rm d m) s = .next ((flagged s2 c
        (raised mk fun l => roundAcc ((s.core c).rm rm) (tget {} (s.core c).xa l))).goes c (nextPc (s.core c).pc)))) ∧
  (∀ (neg : Bool) (s s1 s2 : State) (c mk : Nat) (a m : Reg) (x : List W64), s.atSlot c = true → s.feat 5 = true →
    s.maskOf c m = some (mk, s1) → s1.lanes c a mk = some (x, s2) →
    exec (.xadd neg a m) s = .next (((s2.note 0xd c ((List.range 16).filter (laneOn mk)).length).setCore c { s.core c with
      xa := accs mk (fun l r => xadded r (exactOf neg (x.getD l 0))) (s.core c).xa }).goes c (nextPc (s.core c).pc)) ∧
    ∀ b y s3, s2.lanes c b mk = some (y, s3) →
      exec (.xfma neg a b m) s = .next (((s3.note 0xd c ((List.range 16).filter (laneOn mk)).length).setCore c { s.core c with
        xa := accs mk (fun l r => xadded r (mulUn (exactOf neg (x.getD l 0)) (exactOf false (y.getD l 0)))) (s.core c).xa
        }).goes c (nextPc (s.core c).pc)))

/-- 02 R58, 08 R208, 13 R299: `xst` writes the images of the enabled lanes at W(A) + 536 l, `xld` restores them, in
increasing order; where one of them meets an SO page, every access is SO. What the two streams' accesses find of each
other is log 57, the model's choice. -/
def Obligations.ExactImages : Prop :=
  ∀ (s s1 s2 : State) (st : Nat → State) (c mk : Nat) (a m : Reg) (x : W64), s.atSlot c = true → s.feat 5 = true →
    (s.core c).resume = none → s.take c true a = some (x, s1) → s1.maskOf c m = some (mk, s2) → x.toNat % 8 = 0 →
    st 0 = s2 →
    (LaneSteps mk (fun l => imageStored c (imagesMeetSo s2 c .store mk x) l (x + BitVec.ofNat 64 (536 * l))) st →
      exec (.xst a m) s = .next ((st 16).goes c (nextPc (s.core c).pc))) ∧
    (LaneSteps mk (fun l => imageLoaded c (imagesMeetSo s2 c .load mk x) l (x + BitVec.ofNat 64 (536 * l))) st →
      exec (.xld a m) s = .next ((st 16).goes c (nextPc (s.core c).pc)))

/-! ## Matrix commands, copies and rings -/

/-- R273, R274, R280 to R287, 19 R390: a matrix instruction whose id is free issues its command: the words and the
`TCFG` values it latches, its predecessors, and a gang command's number. Readings of the model: log 16. -/
def Obligations.MatrixIssue : Prop :=
  ∀ (i : Instr) (s s1 s2 : State) (c : Nat) (p : CmdSpec) (ids : EIds) (ra rb : Option Reg) (wa wb : W64),
    command i = some (p, ids, ra, rb) → s.atSlot c = true → (p.op = .tldq → s.feat 0 = true) →
    (∀ y ∈ (s.core c).cmds, y.cid ≠ ids.cid.toNat) → (s.core c).cmds.length < 32 →
    (∀ x, (s.seqU (c / 8)).inst = some x → (s.core c).inst = some x) →
    takeAny s c ra = some (wa, s1) → takeAny s1 c rb = some (wb, s2) →
    shaped p (tget 0xbf80 (s.core c).tcfg p.d).toNat (tget 0xbf80 (s.core c).tcfg p.a).toNat
      (tget 0xbf80 (s.core c).tcfg p.b).toNat wb = true →
    recordAligned p wa = true →
    (p.op = .mma → 8 ≤ p.fl → (s.seqU (c / 8)).gangRef.contains (s.core c).gang = false) →
    ∃ deps : List Nat,
      (∀ n, n ∈ deps ↔ ∃ y ∈ (s.core c).cmds, y.no = n ∧ follows ids (accumulatorOf p) y) ∧
      exec i s = .next ((s2.setCore c { s2.core c with
        cmds := (s2.core c).cmds ++ [{
          no := (s.core c).cmdNo, cid := ids.cid.toNat, op := p.op, ty := p.ty, d := p.d, a := p.a, b := p.b,
          wa := wa.toNat, wb := wb.toNat, sp := p.sp, fl := p.fl,
          cfgD := (tget 0xbf80 (s.core c).tcfg p.d).toNat, cfgA := (tget 0xbf80 (s.core c).tcfg p.a).toNat,
          cfgB := (tget 0xbf80 (s.core c).tcfg p.b).toNat, cfgBs := [], olds := [], rows := 0, so := false,
          deps := deps, core := c, asid := (s.core c).asid,
          sup := (s.core c).sup, launch := (s.core c).launch, dlim := (s.core c).demandlimL, gangNo := (s.core c).gang,
          joined := false, started := false, lay := none, outcome := none, demand := none }],
        cmdNo := (s2.core c).cmdNo + 1,
        gang := if p.op = .mma ∧ 8 ≤ p.fl then (s2.core c).gang + 1 else (s2.core c).gang }).goes c
        (nextPc (s.core c).pc))

/-- 11 R276, R288; 09 R234; 10 R264 to R266: `mwait` of an id that has retired, `chq`, and `cwait` and `crpop` of a
ring that holds enough; `crpop.try` of an empty ring. What the core loaded and stored before a command or a copy that it has
waited for is settled (13 R308). Readings of the model: log 16 and 57. -/
def Obligations.Waits : Prop :=
  (∀ (d : Reg) (cid : BitVec 6) (seq : Bool) (s s1 : State) (c : Nat) (cmds : List Cmd) (recs : List (Nat × W64)),
    s.atSlot c = true → d.toNat < 0xf80 →
    cmds = (if seq then (s.seqU (c / 8)).cmds else (s.core c).cmds) →
    recs = (if seq then (s.seqU (c / 8)).recs else (s.core c).recs) → (∀ y ∈ cmds, y.cid ≠ cid.toNat) →
    (s.settleRace c).give c false d (match recs.find? fun x => x.1 == cid.toNat with
      | some x => x.2
      | none => BitVec.ofNat 64 (1024 * cid.toNat + 4)) = some s1 →
    exec (.mwait seq d cid) s = .next (s1.goes c (nextPc (s.core c).pc))) ∧
  (∀ (d a : Reg) (s s1 : State) (c : Nat), s.atSlot c = true → a.toNat < 8 →
    s.give c false d (match (channel s c a.toNat).bind with
      | none => 0
      | some b => BitVec.ofNat 64 (2 ^ 31 + (if (channel s c a.toNat).stop = some b.id then 2 ^ 30 else 0) +
          (if b.cons.isNone then 2 ^ 29 else 0) + 2 ^ 24 * copiesOf (channel s c a.toNat) +
          2 ^ 11 * (match b.cons with | some x => x.2 | none => 0) + b.consIdx)) = some s1 →
    exec (.chq d a) s = .next (s1.goes c (nextPc (s.core c).pc))) ∧
  (∀ (d a b : Reg) (s s1 s2 s3 : State) (c k o logn : Nat) (x n : W64), s.atSlot c = true →
    s.take c false a = some (x, s1) → s1.take c false b = some (n, s2) → ringNamed s2 c x = some (k, o, logn) →
    n.toNat ≤ 2 ^ logn → n.toNat ≤ ringHolds s2 k o →
    (s2.settleRace c).give c false d (BitVec.ofNat 64 (ringHolds s2 k o)) = some s3 →
    exec (.cwait d a b) s = .next (s3.goes c (nextPc (s.core c).pc))) ∧
  (∀ (d a : Reg) (try_ : Bool) (s s1 : State) (c k o logn : Nat) (x : W64), s.atSlot c = true →
    s.take c false a = some (x, s1) → ringNamed s1 c x = some (k, o, logn) → blockHeld (s1.core c) d 4 = true →
    (try_ = true → (s1.core k).spad.le o 4 = (s1.core k).spad.le (o + 4) 4 →
      exec (.crpop d a try_) s = .next ((blockWritten s1 c d 4 (absent (-1))).goes c (nextPc (s.core c).pc))) ∧
    (∀ t at_ s2 s3, (s1.core k).spad.le o 4 ≠ (s1.core k).spad.le (o + 4) 4 → t = (s1.core k).spad.le (o + 4) 4 →
      at_ = o + 32 + 32 * (t % 2 ^ logn) → at_ + 32 ≤ 0x40000 →
      s2 = blockWritten (s1.settleRace c) c d 4 (wordOf ((s1.core k).spad.rec at_)) →
      (storeLoc (.spad k (o + 4)) 4 ((t + 1) % 2 ^ 32)).run s2 = .ok ⟨⟩ s3 →
      exec (.crpop d a try_) s = .next ((s2.storedTo s3 c false (.spad k (o + 4))).goes c (nextPc (s.core c).pc))))

/-- 09 R227, R228; 10 R260 to R263: `send` and `sendb` on an open channel that holds fewer than sixteen copies issue
one; `chctl.open` binds a channel and zeroes its write pointer, `chctl.close` and `chctl.reset` end a binding and a
stop. Readings of the model: log 46. -/
def Obligations.ChannelIssue : Prop :=
  (∀ (d a b e : Reg) (ss ds : Space) (s s1 s2 s3 : State) (c : Nat) (x y z : W64) (bd : Binding), s.atSlot c = true →
    d.toNat < 8 → s.take c true a = some (x, s1) → s1.take c true b = some (y, s2) → s2.take c true e = some (z, s3) →
    (channel s3 c d.toNat).bind = some bd → copiesOf (channel s3 c d.toNat) < 16 →
    (∀ g, (s3.engU (c / 32)).inst = some g → (s3.core c).inst = some g) →
    exec (.send d a b e ss ds) s = .next ((channelSet s3 c d.toNat { channel s3 c d.toNat with
      items := (channel s3 c d.toNat).items ++
        [.copy (copyIssued (s3.core c) c bd (z.toNat / 2 ^ 32) x y ss ds (z.toNat % 2 ^ 32) false)] }).goes c
      (nextPc (s.core c).pc)) ∧
    (x.toNat % 64 = 0 → y.toNat % 64 = 0 →
      exec (.sendb d a b e ss ds) s = .next ((channelSet s3 c d.toNat { channel s3 c d.toNat with
        items := (channel s3 c d.toNat).items ++
          [.copy (copyIssued (s3.core c) c bd (z.toNat % 2 ^ 32) x y ss ds 0 true)] }).goes c (nextPc (s.core c).pc)))) ∧
  (∀ (d a b : Reg) (s s1 s2 : State) (c ci n rc off logn : Nat) (x y : W64), s.atSlot c = true → d.toNat < 8 →
    s.take c true a = some (x, s1) → s1.take c true b = some (y, s2) → (channel s2 c d.toNat).bind = none →
    ci = x.toNat / 2 ^ 32 → n = x.toNat % 8 → x.toNat % 2 ^ 32 < 16 → off = y.toNat % 2 ^ 32 → off % 64 = 0 →
    off < 0x40000 → rc = s2.base c + y.toNat / 2 ^ 32 → y.toNat / 2 ^ 32 < Nat.min 2048 (s2.nP c) →
    logn = ((s2.core rc).spad.get (off + 8)).toNat → 1 ≤ logn → logn ≤ 12 → off + 32 + 32 * 2 ^ logn ≤ 0x40000 →
    (x.getLsbD 3 = false → ci < Nat.min 2048 (s2.nP c) → s2.cwpBound (s2.base c + ci) n = false →
      ∀ t, t = channelSet { s2 with bindNo := s2.bindNo + 1 } c d.toNat { channel s2 c d.toNat with
          bind := some { id := s2.bindNo, cons := some (s2.base c + ci, n), consIdx := ci, ring := some (rc, off), logn := logn } } →
        exec (.chctlOpen d a b) s = .next ((t.setCore (s2.base c + ci) { t.core (s2.base c + ci) with
          cwp := tput (t.core (s2.base c + ci)).cwp n 0 }).goes c (nextPc (s.core c).pc))) ∧
    (x.getLsbD 3 = true → ci = 0 → n = 0 →
      exec (.chctlOpen d a b) s = .next ((channelSet { s2 with bindNo := s2.bindNo + 1 } c d.toNat { channel s2 c d.toNat with
        bind := some { id := s2.bindNo, cons := none, consIdx := 0, ring := some (rc, off), logn := logn } }).goes c
        (nextPc (s.core c).pc)))) ∧
  (∀ (d : Reg) (s : State) (c : Nat), s.atSlot c = true → d.toNat < 8 →
    exec (.chctlClose d) s = .next ((channelSet s c d.toNat { channel s c d.toNat with bind := none }).goes c
      (nextPc (s.core c).pc)) ∧
    exec (.chctlReset d) s = .next ((if (channel s c d.toNat).bind = none then s
      else if (channel s c d.toNat).items = [] then channelSet s c d.toNat { channel s c d.toNat with stop := none }
      else channelSet s c d.toNat { channel s c d.toNat with items := (channel s c d.toNat).items ++ [.reset] }).goes c
      (nextPc (s.core c).pc)))

/-- 01 R24, 09 R235 to R240, 10 R267 to R269: `seal` sets bit 0 of byte 50 of the record and its CRC-32C, in one step;
`alloc` under NF gives 0 where the tenant has no heap; `free` puts a block at the head of its class's list and leaves
0 alone. R238: a class's list gives its first block, and its head becomes that block's first word; a head in no span
of the class is dropped; an empty list takes a new span, its blocks threaded from the lowest address; with no span
left there is no block. Readings of the model: log 57, and 64 (what a span of a class is). -/
def Obligations.Allocators : Prop :=
  (∀ (a : Reg) (sp : Space) (s s1 s2 s3 s4 s5 : State) (c : Nat) (x : W64) (l : Loc) (byte : Nat → Byte), s.atSlot c = true →
    s.take c false a = some (x, s1) → x.toNat % 64 = 0 →
    (accessLoc sp (s1.core c).asid x 64 .store false).run s1 = .ok l s2 → s2.badAt l = none →
    (byte = fun i => if i = 50 then s2.byteAt (l.shift 50) ||| 1#8 else s2.byteAt (l.shift i)) →
    (storeLoc (l.shift 50) 1 (byte 50).toNat).run (recordOver s2 c l) = .ok ⟨⟩ s3 →
    s4 = (recordOver s2 c l).storedTo s3 c false (l.shift 50) →
    (storeLoc (l.shift 60) 4 (crc32c ((List.range 60).map byte))).run s4 = .ok ⟨⟩ s5 →
    exec (.seal a sp) s = .next ((s4.storedTo s5 c false (l.shift 60)).goes c (nextPc (s.core c).pc))) ∧
  (∀ (d a : Reg) (nf : Bool) (s s1 : State) (c : Nat) (n : W64), s.atSlot c = true → s.take c false a = some (n, s1) →
    1 ≤ n.toNat → n.toNat ≤ 65536 →
    (∀ s2, nf = true → (∀ t, s1.resident c = some t → s1.heap (c / 256) t = [] ∨
        heapAsid (s1.heap (c / 256) t) ≠ (s1.core c).asid) → s1.giveLate c .alloc d 0 = some s2 →
      exec (.alloc d a nf) s = .next (s2.goes c (nextPc (s.core c).pc)))) ∧
  (∀ (a : Reg) (s s1 : State) (c : Nat) (x : W64), s.atSlot c = true → s.take c false a = some (x, s1) →
    (x = 0 → exec (.free a) s = .next (s1.goes c (nextPc (s.core c).pc))) ∧
    (∀ t die cls h l s2 s3 s4, x ≠ 0 → s1.resident c = some t → h = s1.heap die t → die < 8 →
      (∀ k < 8, (s1.heap k t ≠ [] ∧ heapAsid (s1.heap k t) = (s1.core c).asid ∧ heapArena (s1.heap k t) ≤ x.toNat ∧
        x.toNat < heapArena (s1.heap k t) + 65536 * heapSpans (s1.heap k t)) ↔ k = die) →
      (blockClass h x.toNat).run s1 = .ok (some cls) s2 →
      (heapLoc (heapAsid h) x.toNat true).run s2 = .ok l s3 →
      (heapStore l 8 (heapHead h cls)).run s3 = .ok ⟨⟩ s4 →
      exec (.free a) s = .next (State.goes { s4 with
        heaps := tput s4.heaps (256 * die + t) (putField h (32 + 8 * cls) 8 x.toNat) } c (nextPc (s.core c).pc)))) ∧
  (∀ (h : List Byte) (x : Nat) (s : State),
    ((x < heapArena h ∨ heapArena h + 65536 * heapSpans h ≤ x) → (blockClass h x).run s = .ok none s) ∧
    (∀ l m s1 s2, heapArena h ≤ x → x < heapArena h + 65536 * heapSpans h →
      (heapLoc (heapAsid h) (heapMap h + (x - heapArena h) / 65536) false).run s = .ok l s1 →
      (loadLoc l 1).run s1 = .ok m s2 →
      (blockClass h x).run s =
        .ok (if 1 ≤ m ∧ m ≤ 13 ∧ (x - heapArena h) % 2 ^ (m + 3) = 0 then some (m - 1) else none) s2)) ∧
  (∀ (h : List Byte) (cls : Nat) (s s1 : State), cls < 13 →
    (∀ x l s2 nx s3, x = heapHead h cls → x ≠ 0 → (blockClass h x).run s = .ok (some cls) s1 →
      (heapLoc (heapAsid h) x false).run s1 = .ok l s2 → (loadLoc l 8).run s2 = .ok nx s3 →
      (allocate h cls).run s = .ok (x, putField h (32 + 8 * cls) 8 nx) s3) ∧
    (∀ x, x = heapHead h cls → h.length = 192 →
      (x = 0 ∧ s1 = s ∨ x ≠ 0 ∧ ∃ r, (blockClass h x).run s = .ok r s1 ∧ r ≠ some cls) →
      (heapSpans h ≤ heapNext h → (allocate h cls).run s = .ok (0, putField h (32 + 8 * cls) 8 0) s1) ∧
      (∀ va size page block m ml l nx s2 s3 s4, heapNext h < heapSpans h → va = heapArena h + 65536 * heapNext h →
        0 < va → va < 2 ^ 64 → size = 16 <<< cls →
        RowSteps 16 (fun j t => match (heapLoc (heapAsid h) (va + 4096 * j) true).run t with
          | .ok _ t => some t
          | .error _ _ => none) page → page 0 = s1 →
        m = heapMap h + heapNext h → (heapLoc (heapAsid h) m true).run (page 16) = .ok ml (block 0) →
        RowSteps (65536 / size) (fun j t => match (heapLoc (heapAsid h) (va + j * size) true).run t with
          | .error _ _ => none
          | .ok l t => match (heapStore l 8 (if (j + 1) * size < 65536 then va + (j + 1) * size else 0)).run t with
            | .ok _ t => some t
            | .error _ _ => none) block →
        (heapStore ml 1 (cls + 1)).run (block (65536 / size)) = .ok ⟨⟩ s2 →
        (heapLoc (heapAsid h) va false).run s2 = .ok l s3 → (loadLoc l 8).run s3 = .ok nx s4 →
        ∃ h', (allocate h cls).run s = .ok (va, h') s4 ∧ heapHead h' cls = nx % 2 ^ 64 ∧
          heapNext h' = heapNext h + 1 ∧ heapArena h' = heapArena h ∧ heapSpans h' = heapSpans h ∧
          heapAsid h' = heapAsid h ∧ heapMap h' = heapMap h ∧ ∀ k < 13, k ≠ cls → heapHead h' k = heapHead h k)))

/-! ## Synchronization -/

/-- 09 R235, R238: the thirteen size classes. A request of 1 to 65,536 bytes is of the least class whose blocks hold it, and
the allocator of the issuing core's die serves it from that class, its reply written late; a request of 0 or above
65,536 raises illegal operand. What the allocator takes of the heap is log 64, and where a heap instruction stands among
the accesses of the two streams is log 57: the model's choices. -/
def Obligations.SizeClasses : Prop :=
  (∀ n : Nat, 1 ≤ n → n ≤ 65536 → heapClass n < 13 ∧ n ≤ 16 <<< heapClass n ∧ ∀ k < heapClass n, 16 <<< k < n) ∧
  (∀ (d a : Reg) (nf : Bool) (s s1 s2 s3 : State) (c t x : Nat) (n : W64) (h : List Byte), s.atSlot c = true →
    s.take c false a = some (n, s1) → 1 ≤ n.toNat → n.toNat ≤ 65536 → s1.resident c = some t →
    s1.heap (c / 256) t ≠ [] → heapAsid (s1.heap (c / 256) t) = (s1.core c).asid →
    (allocate (s1.heap (c / 256) t) (heapClass n.toNat)).run s1 = .ok (x, h) s2 → (x ≠ 0 ∨ nf = true) →
    State.giveLate { s2 with heaps := tput s2.heaps (256 * (c / 256) + t) h } c .alloc d (BitVec.ofNat 64 x) = some s3 →
    exec (.alloc d a nf) s = .next (s3.goes c (nextPc (s.core c).pc))) ∧
  (∀ (d a : Reg) (nf : Bool) (s s1 : State) (c : Nat) (n : W64), s.atSlot c = true → s.take c false a = some (n, s1) →
    (n = 0 ∨ 65536 < n.toNat) → d.toNat < 0xf80 → d.toNat < (s.core c).wlim.toNat →
    ∃ at_, exec (.alloc d a nf) s = .next (s.deliver c (s.core c).pc false { code := 0x02, addr := at_ } (s.core c).seq))

/-- 14 R324, R325: `amo`, `cas` and `famo` read and write their operand in one step, and D takes the value read. A
`cas` that does not write leaves the location as it was. Readings of the model: log 57. -/
def Obligations.Atomics : Prop :=
  (∀ (op : AmoOp) (ty : AmoTy) (sc : Scope) (sp : Space) (ord : BitVec 2) (d a b : Reg) (s s1 s2 s3 s4 s5 s6 : State)
      (c n old : Nat) (x y : W64) (l : Loc),
    s.atSlot c = true → s.take c false a = some (x, s1) → s1.take c false b = some (y, s2) → n = (amoWidth ty).1 →
    (accessLoc sp (s2.core c).asid x n .atomic false).run s2 = .ok l s3 → (readLoc false l n).run s3 = .ok old s4 →
    (storeLoc l n (amoResult op ty old y)).run s4 = .ok ⟨⟩ s5 →
    (s4.storedTo s5 c false l).give c false d (extended n (amoWidth ty).2 old) = some s6 →
    exec (.amo op ty sc sp ord d a b) s = .next (s6.goes c (nextPc (s.core c).pc))) ∧
  (∀ (ty : AmoTy) (sc : Scope) (sp : Space) (ord : BitVec 2) (d a b e : Reg) (s s1 s2 s3 s4 s5 s6 s7 : State)
      (c n old : Nat) (x y z : W64) (l : Loc),
    s.atSlot c = true → s.take c false a = some (x, s1) → s1.take c false b = some (y, s2) →
    s2.take c false e = some (z, s3) → n = (amoWidth ty).1 →
    (accessLoc sp (s3.core c).asid x n .atomic false).run s3 = .ok l s4 → (readLoc false l n).run s4 = .ok old s5 →
    (old = y.toNat % 256 ^ n → (storeLoc l n (z.toNat % 256 ^ n)).run s5 = .ok ⟨⟩ s6 →
      (s5.storedTo s6 c false l).give c false d (extended n (amoWidth ty).2 old) = some s7 →
      exec (.cas ty sc sp ord d a b e) s = .next (s7.goes c (nextPc (s.core c).pc))) ∧
    (old ≠ y.toNat % 256 ^ n → ∀ v, (loadOver false l n).run s5 = .ok v s6 →
      s6.give c false d (extended n (amoWidth ty).2 old) = some s7 →
      exec (.cas ty sc sp ord d a b e) s = .next (s7.goes c (nextPc (s.core c).pc)))) ∧
  (∀ (ty : FpTy) (rm : RmF) (sc : Scope) (sp : Space) (ord : BitVec 2) (d a b : Reg) (s s1 s2 s3 s4 s5 s6 : State)
      (c n old : Nat) (x y : W64) (l : Loc),
    s.atSlot c = true → s.take c false a = some (x, s1) → s1.take c false b = some (y, s2) →
    n = (fpFmt ty).width / 8 → (accessLoc sp (s2.core c).asid x n .atomic false).run s2 = .ok l s3 →
    (readLoc false l n).run s3 = .ok old s4 →
    (storeLoc l n ((fAdd (fpFmt ty) ((s2.core c).rm rm) old (y.toNat % 256 ^ n)).1 % 256 ^ n)).run s4 = .ok ⟨⟩ s5 →
    (s4.storedTo s5 c false l).give c false d (BitVec.ofNat 64 old) = some s6 →
    exec (.famo ty rm sc sp ord d a b) s = .next (s6.goes c (nextPc (s.core c).pc)))

/-- 14 R326, R327: the barriers. `bar.sync` arrives in one step and completes in a later one, once its phase has
passed; a queue word that it names is its own from its arrival on (06 R135), and one that a trap has made it give back is read
again. Readings of the model: log 42. -/
def Obligations.Barriers : Prop :=
  (∀ (d a : Reg) (s s1 s2 : State) (c k i : Nat) (x : W64), s.atSlot c = true → s.take c false a = some (x, s1) →
    barrierNamed s c x = some (k, i) → (barrier s1 k i).expect ≠ 0 →
    (State.give (barrierSet s1 k i (arrivedAt (barrier s1 k i))) c false d (BitVec.ofNat 64 (barrier s1 k i).phase) = some s2 →
      exec (.barArrive d a) s = .next (s2.goes c (nextPc (s.core c).pc))) ∧
    ((∀ p, (s.core c).barAt = some p → p.1 ≠ (s.core c).pc) → (s.give c false d 0).isSome = true →
      ∀ t, t = barrierSet s1 k i (arrivedAt (barrier s1 k i)) →
      exec (.barSync d a) s = .next (t.setCore c { t.core c with
        barAt := some ((s.core c).pc, k, i, (barrier s1 k i).phase),
        barPop := if a = 0xffd then [(5, x)] else if aPort a = true then [(0xffc - a.toNat, x)] else [] }))) ∧
  (∀ (d a : Reg) (s s1 s2 : State) (c k i p : Nat), s.atSlot c = true →
    (s.core c).barAt = some ((s.core c).pc, k, i, p) → (barrier s k i).phase ≠ p →
    ((((s.core c).barPop ≠ [] ∨ a.toNat < 0xf80) ∧ noSourceWord a = false ∧ beyond (s.core c) a = false ∧
        (∀ e, portDir a = some e → (s.neighbour c e).isSome = true) ∧ s1 = s) ∨
      ((s.core c).barPop = [] ∧ 0xf80 ≤ a.toNat ∧ ∃ x, s.take c false a = some (x, s1))) →
    s1.give c false d (BitVec.ofNat 64 (barrier s k i).phase) = some s2 →
    exec (.barSync d a) s = .next ((s2.setCore c { s2.core c with barAt := none, barPop := [] }).goes c
      (nextPc (s.core c).pc))) ∧
  (∀ (d a b : Reg) (s s1 s2 s3 : State) (c k i : Nat) (x y : W64), s.atSlot c = true →
    s.take c false a = some (x, s1) → s1.take c false b = some (y, s2) → barrierNamed s c x = some (k, i) →
    (barrier s2 k i).phase ≠ y.toNat % 65536 → s2.give c false d (BitVec.ofNat 64 (barrier s2 k i).phase) = some s3 →
    exec (.barWait d a b) s = .next (s3.goes c (nextPc (s.core c).pc))) ∧
  (∀ (sc : Scope) (a b : Reg) (s s1 s2 : State) (c k i : Nat) (x n : W64), s.atSlot c = true →
    s.take c false a = some (x, s1) → s1.take c false b = some (n, s2) → barrierNamed s c x = some (k, i) →
    1 ≤ n.toNat → n.toNat ≤ 2048 → (barrier s2 k i).arrived = 0 →
    exec (.barInit sc a b) s = .next (State.goes
      (barrierSet s2 k i { barrier s2 k i with expect := n.toNat, scope := sc }) c (nextPc (s.core c).pc)))

/-- 14 R330 to R332, 18 R363: `fork` writes its record at BOT of the core's deque, or posts a SYS record of the
supervisor; `dqop.pop` and `dqop.steal` take the newest and the oldest record. Readings of the model: log 33 and 35, and
57 (what a stream had loaded of the bytes written stands). -/
def Obligations.Deques : Prop :=
  (∀ (a : Reg) (s u s1 : State) (c : Nat) (r : Rec), s.atSlot c = true → blockHeld (s.core c) a 4 = true →
    r = recordOf (blockRead s c a 4).1 → u = (blockRead s c a 4).2 →
    ((s.core c).sup = true → r.ctrl.getLsbD 34 = true → s.sysRoom c = true →
      s1 = u.postSys c (.sys r (s.core c).launch) →
      exec (.fork a) s = .next ((s1.setCore c (forkedBy (s1.core c))).goes c (nextPc (s.core c).pc))) ∧
    (((s.core c).sup = false ∨ r.ctrl.getLsbD 34 = false) → dequeLog (s.core c) ≤ 20 → dequeSpill (s.core c) % 32 = 0 →
      dequeHolds (s.core c) < dequeCap (s.core c) →
      (∀ o, dequeSlot (s.core c) (dequeBot (s.core c)) = some o →
        s1 = touched (spadSet u c ((s.core c).spad.setRec o r)) c o 32) →
      (dequeSlot (s.core c) (dequeBot (s.core c)) = none → ∃ s0,
        (unitWrite (spillWork u c) .mem (dequeSpillAt (s.core c) (dequeBot (s.core c))) r.bytes).run u = .ok ⟨⟩ s0 ∧
        s1 = s0.setCore c { s0.core c with demand := none }) →
      ∀ s2, s2 = botMoved s1 c (dequeBot (s1.core c) + 1) →
      exec (.fork a) s = .next ((s2.setCore c (forkedBy (s2.core c))).goes c (nextPc (s.core c).pc)))) ∧
  (∀ (d : Reg) (s t : State) (c : Nat) (f : Nat → W64), s.atSlot c = true → blockHeld (s.core c) d 4 = true →
    popped s c = some (f, t) → blockHeld (t.core c) d 4 = true →
    exec (.dqopPop d) s = .next ((blockWritten (t.setCore c { t.core c with demand := none }) c d 4 f).goes c
      (nextPc (s.core c).pc))) ∧
  (∀ (d a : Reg) (s s1 t : State) (c : Nat) (x : W64) (f : Nat → W64), s.atSlot c = true →
    s.take c false a = some (x, s1) → x.toNat < Nat.min 2048 (s.nP c) → blockHeld (s.core c) d 4 = true →
    stolen s1 c (s.base c + x.toNat) = some (f, t) → blockHeld (t.core c) d 4 = true →
    exec (.dqopSteal d a) s = .next ((blockWritten (t.setCore c { t.core c with demand := none }) c d 4 f).goes c
      (nextPc (s.core c).pc)))

/-- 03 R85, R86; 14 R328, R335 to R337; 19 R385: `jdec` and `msg` send an arrival to their core, and `msg` to the host
and `evpost` post an entry of kind 7 on the launch's queue. Readings of the model: log 21. -/
def Obligations.Sends : Prop :=
  (∀ (sc : Scope) (a : Reg) (s s1 : State) (c dst : Nat) (x : W64), s.atSlot c = true → s.take c false a = some (x, s1) →
    coreNamed s c x = some dst → x.toNat % 2 ^ 32 < 2 ^ 18 → x.toNat % 32 = 0 → s1.linkFree dst = true →
    exec (.jdec sc a) s = .next (State.goes { s1 with
      net := s1.net ++ [(c, dst, .decr (x.toNat % 2 ^ 32) (s.core c).launch)] } c (nextPc (s.core c).pc))) ∧
  (∀ (a b : Reg) (s s1 : State) (c : Nat) (w : List W64) (y : W64), s.atSlot c = true → blockHeld (s.core c) a 8 = true →
    w = (blockRead s c a 8).1 → (blockRead s c a 8).2.take c false b = some (y, s1) → y.toNat % 2 ^ 32 = 0 →
    (∀ dst, coreNamed s c y = some dst → s1.linkFree dst = true →
      exec (.msg a b) s = .next (State.goes { s1 with net := s1.net ++ [(c, dst, .msg {
        tr := recordOf w, payload := w.drop 4, src := BitVec.ofNat 64 (s.pidx c * 2 ^ 32), launch := (s.core c).launch })] }
        c (nextPc (s.core c).pc))) ∧
    (y = 0x8000000000000000 → exec (.msg a b) s =
      .next ((s1.launchEvent (s.core c).launch 7 0 (w.getD 4 0) (w.getD 5 0)).goes c (nextPc (s.core c).pc)))) ∧
  (∀ (a b : Reg) (s s1 s2 : State) (c : Nat) (x y : W64), s.atSlot c = true → s.take c false a = some (x, s1) →
    s1.take c false b = some (y, s2) →
    exec (.evpost a b) s = .next ((s2.launchEvent (s.core c).launch 7 0 x y).goes c (nextPc (s.core c).pc)))

/-- 14 R338, R344; 18 R361; 19 R386: `done` and `halt` end the task once its commands have retired, its register
writes have landed and the partition controls it owes a queue word have replied: with its fault recorded where it ends
in the handler of one, and a member leaves its instance. Readings of the model: log 44 and 57. -/
def Obligations.TaskEnds : Prop :=
  (∀ (s : State) (c : Nat) (t : Task), s.atSlot c = true → (s.core c).task = some t → (s.core c).pend = [] →
    (s.core c).cmds = [] → (∀ p ∈ s.parts, p.core = some c → p.reg = 0xfff) →
    (∃ u, exec .done s = .next u ∧ exec .halt s =
      (if (s.core c).sup then .next (u.setCore c { u.core c with halted := true })
       else .next (s.deliver c (s.core c).pc false { code := 0x09 } (s.core c).seq))) ∧
    (t.kind ≠ .member → ((s.core c).inTrap = false ∨ (s.core c).trapCode = 0 ∨ (s.core c).requeued = true) →
      exec .done s = .next (State.settleRace (s.setCore c (idled (s.core c))) c)) ∧
    (t.kind ≠ .member → t.kind ≠ .firmware → (s.core c).inTrap = true → (s.core c).trapCode ≠ 0 →
      (s.core c).requeued = false →
      exec .done s = .next (State.settleRace ((s.setCore c (idled (s.core c))).recordFault t.launch (s.core c).trapCode) c)) ∧
    (∀ i x, t.kind = .member → (s.core c).inTrap = false → (s.core c).inst = some i → tget none s.insts i = some x →
      ∀ u, u = { s.setCore c (idled (s.core c)) with insts := tput s.insts i (some { x with live := x.live.filter (· != c) }) } →
      exec .done s = .next (State.settleRace (if x.live.filter (· != c) = [] then u.endInst i else u) c))) ∧
  (∀ (s : State) (c : Nat), s.atSlot c = true →
    ((s.core c).pend ≠ [] ∨ (s.core c).cmds ≠ [] ∨ ∃ p ∈ s.parts, p.core = some c ∧ p.reg ≠ 0xfff) →
    exec .done s = .next s)

/-- 14 R339 to R342, 18 R368: `tbind` describes the executing member; `hand` appends words to each receiver's pipe
queue, or takes an entry, after which what the core loaded and stored before it is settled (13 R307), and counts for its member, but
not in a trap handler; outside a team it falls through. Readings of the model: log 57. -/
def Obligations.Teams : Prop :=
  (∀ (d : Reg) (s s1 : State) (c : Nat), s.atSlot c = true →
    s.give c false d (match (s.core c).inst.bind (tget none s.insts) with
      | none => 0
      | some x => BitVec.ofNat 64 (2 ^ 32 * x.k + 2 ^ 16 * (x.group (s.core c).role).length +
          2 ^ 8 * ((x.group (s.core c).role).findIdx? (· == c)).getD 0 + (if x.clu then 16 else 0) + (s.core c).role)) =
      some s1 →
    exec (.tbindMyrole d) s = .next (s1.goes c (nextPc (s.core c).pc))) ∧
  (∀ (d a : Reg) (s s1 s2 : State) (c : Nat) (x : W64), s.atSlot c = true → s.take c false a = some (x, s1) →
    s1.give c false d (match ((s1.core c).inst.bind (tget none s1.insts)).bind (·.role (x.toNat % 16)) with
      | none => 0
      | some (kind, where_, _, mem) => BitVec.ofNat 64 (2 ^ 56 * kind + 2 ^ 48 * where_ + mem)) = some s2 →
    exec (.tbindMembers d a) s = .next (s2.goes c (nextPc (s.core c).pc))) ∧
  (∀ (role rcv : BitVec 4) (pipe : BitVec 3) (a : Reg) (lmap : BitVec 16) (s : State) (c : Nat), s.atSlot c = true →
    listHeld (s.core c) a lmap = true → (s.core c).inst = none →
    exec (.hand role rcv pipe a lmap) s = .next (s.goes c (nextPc (s.core c).pc))) ∧
  (∀ (role rcv : BitVec 4) (pipe : BitVec 3) (a : Reg) (lmap : BitVec 16) (s : State) (c i n m : Nat) (x : Inst)
      (words : List Nat), s.atSlot c = true → listHeld (s.core c) a lmap = true →
    (s.core c).inst = some i → tget none s.insts i = some x →
    (∃ w n, x.role role.toNat = some (1, w, n)) → (∃ w n, x.role rcv.toNat = some (1, w, n)) →
    n = (x.group role.toNat).length → m = (x.group rcv.toNat).length → (n = 1 ∨ n = m) → x.mayPass c = true →
    words = listNamed (s.core c) a lmap →
    (∀ rcpt x1, (s.core c).role = role.toNat → (∀ j ∈ words, (s.core c).holds j = true) →
      rcpt = ((if n = 1 then x.group rcv.toNat
        else ((x.group rcv.toNat)[((x.group role.toNat).findIdx? (· == c)).getD 0]?).toList).filter x.live.contains) →
      (∀ r ∈ rcpt, (x.pipe pipe.toNat role.toNat rcv.toNat c r).length < 16) →
      x1 = rcpt.foldl (fun y r => y.setPipe pipe.toNat role.toNat rcv.toNat c r
        (y.pipe pipe.toNat role.toNat rcv.toNat c r ++ [words.map (s.core c).word])) x →
      exec (.hand role rcv pipe a lmap) s = .next (State.goes { words.foldl (fun u j => u.readAt c j) s with
        insts := tput s.insts i (some { x1 with counts :=
          if (s.core c).inTrap then x1.counts else tput x1.counts c (tget 0 x1.counts c + 1) }) } c
        (nextPc (s.core c).pc))) ∧
    (∀ from_ v rest x1, (s.core c).role = rcv.toNat → role ≠ rcv → (s.core c).isFw = false →
      (∀ j ∈ words, ((s.core c).rsLine? j).isSome = true) →
      from_ = (if n = 1 then (x.group role.toNat).getD 0 0
        else (x.group role.toNat).getD (((x.group rcv.toNat).findIdx? (· == c)).getD 0) 0) →
      x.pipe pipe.toNat role.toNat rcv.toNat from_ c = v :: rest →
      x1 = x.setPipe pipe.toNat role.toNat rcv.toNat from_ c rest →
      ∀ t, t = (s.settleRace c).setCore c { s.core c with
        pend := (s.core c).pend ++ (words.zip v).map fun p => { word := p.1, kind := .data, val := p.2, fw := false } } →
      exec (.hand role rcv pipe a lmap) s = .next (State.goes { t with
        insts := tput s.insts i (some { x1 with counts :=
          if (s.core c).inTrap then x1.counts else tput x1.counts c (tget 0 x1.counts c + 1) }) } c
        (nextPc (s.core c).pc))))

/-! ## Traps and the system -/

/-- 18 R356 to R359, R361; 11 R277: a trap whose handler can be entered writes the fault record and moves to the trap
window and `TVEC` in supervisor mode; what the data stream holds goes, and the queue words it has read stand again.
Without a usable handler the task ends with the fault recorded, a team member's as a team fault, once the commands it has
issued have retired. Readings of the model: log 42 (a `bar.sync` that waits), 44 (the wait for the commands) and 57 (what the
streams have loaded and stored is settled). -/
def Obligations.TrapEntry : Prop :=
  ∀ (s : State) (c n : Nat) (pc : W64) (data : Bool) (f : TrapInfo) (k : Core), (s.core c).undo = [] →
    k = { unread (s.core c) with
      resume := none, barAt := (s.core c).barAt.filter (fun b => b.1 == pc), demand := none } →
    (handled (s.core c) = true →
      s.deliver c pc data f n =
        (s.settleRace c).setCore c (trapped k pc f.code data f.lane.isSome f.micro f.step (f.lane.getD 0) f.addr false)) ∧
    (∀ t, handled (s.core c) = false → (s.core c).task = some t → (s.core c).stopAt = none →
      ((s.core c).cmds = [] →
        (t.kind ≠ .firmware → (t.kind ≠ .member ∨ (s.core c).inst = none) →
          s.deliver c pc data f n = ((s.settleRace c).setCore c (idled k)).recordFault t.launch f.code) ∧
        (∀ i, t.kind = .member → (s.core c).inst = some i →
          s.deliver c pc data f n = ((s.settleRace c).setCore c (idled k)).teamFaultNow i f.code)) ∧
      ((s.core c).cmds ≠ [] →
        s.deliver c pc data f n = (s.settleRace c).setCore c { k with ending := some (f.code, f.addr), barAt := none }))

/-- 18 R362, 19 R377, R378: `trap` enters the handler with CODE 0, the argument in `FADDR` and `FPC` after it; `tret`
in a handler restores the window, the mode and the pc that the fault record names, and a vector access's next lane.
Readings of the model: log 42, 44 and 57. -/
def Obligations.Traps : Prop :=
  (∀ (a : Reg) (s s1 : State) (c : Nat) (x : W64), s.atSlot c = true → s.take c false a = some (x, s1) →
    handled (s1.core c) = true →
    exec (.trap a) s = .next (State.settleRace (s1.setCore c
      (trapped { s1.core c with resume := none } (nextPc (s.core c).pc) 0 false false false 0 0 x true)) c)) ∧
  (∀ (s : State) (c : Nat), s.atSlot c = true → (s.core c).inTrap = true →
    (∀ t, (s.core c).task = some t → t.kind ≠ .fault) →
    windowCode { s.core c with inTrap := false } (s.core c).fwb.toNat (s.core c).fwl.toNat = none →
    exec .tret s = .next (State.settleRace (s.setCore c { s.core c with
      barAt := (s.core c).barAt.filter fun b => b.1 == (s.core c).fpc, inTrap := false, wbase := (s.core c).fwb, wlim := (s.core c).fwl, sup := (s.core c).fcause.getLsbD 17,
      pc := (s.core c).fpc, trapCode := 0, trapReq := false,
      resume := if (s.core c).fcause.getLsbD 18 && !(s.core c).fcause.getLsbD 15 then some ((s.core c).lstart.toNat % 16)
        else none }) c)) ∧
  (∀ (s : State) (c : Nat), s.atSlot c = true →
    ((s.core c).inTrap = false ∨ ∃ t, (s.core c).task = some t ∧ t.kind = .fault) →
    exec .tret s = .next (s.deliver c (s.core c).pc false { code := 0x01, addr := (s.core c).pc / 64 * 64 } (s.core c).seq))

/-- 19 R379 to R381, 09 R247, 13 R296: with no register write pending, none that waits for an overflowed line, and no copy or
command in the middle of a page of the space, `tlbi` and `asidctl` write back and drop the register lines of the space they name, and no translation of it stays
cached; `asidctl` exchanges the root. 18 R364, 19 R375, R384: `wdctl` reads and sets the watchdog count, below the
limit that the dispatch latched (the model's reading of R383: log 33); a partition control of a firmware task goes to
the front end, and a window word that it names, of the firmware window (log 20), is pending until the reply, where a
queue keeps a place for it (06 R135). Readings of the model: log 20, 33, 44 and 57. -/
def Obligations.Translation : Prop :=
  (∀ (s : State) (c : Nat), s.atSlot c = true → (s.core c).sup = true → (s.core c).isFw = true → settled s = true →
    writable s = true → s.pinHit none (fun _ => true) = false →
    ∃ t, s.rsDrop none (fun _ => true) = some t ∧
      exec .tlbiAll s = .next ((t.tlbDrop fun _ => true).goesSettled c (nextPc (s.core c).pc)) ∧
      ∀ k, ((t.tlbDrop fun _ => true).core k).l1tlb = [] ∧ tget [] (t.tlbDrop fun _ => true).ctlb k = []) ∧
  (∀ (a : Reg) (s s1 : State) (c : Nat) (x : W64), s.atSlot c = true → (s.core c).sup = true →
    s.take c false a = some (x, s1) → x.toNat < 1024 → ((s1.core c).isFw = true ∨ x.toNat = (s1.core c).asid) →
    settled s1 = true → writable s1 = true → s1.pinHit (some x.toNat) (fun _ => true) = false →
    ∃ t u, s1.rsDrop (some x.toNat) (fun _ => true) = some t ∧ u = t.tlbDrop (fun e => e.asid == x.toNat) ∧
      exec (.tlbiAsid a) s = .next (u.goesSettled c (nextPc (s.core c).pc)) ∧
      ∀ k e, (e ∈ (u.core k).l1tlb ∨ e ∈ tget [] u.ctlb k) → e.asid ≠ x.toNat) ∧
  (∀ (a b : Reg) (s s1 s2 : State) (c : Nat) (x y : W64), s.atSlot c = true → (s.core c).sup = true →
    s.take c false a = some (x, s1) → s1.take c false b = some (y, s2) → x.toNat < 1024 →
    (y.toNat < 2 ^ 56 ∨ 2 ^ 64 - 2 ^ 56 ≤ y.toNat) → ((s2.core c).isFw = true ∨ x.toNat = (s2.core c).asid) →
    settled s2 = true → writable s2 = true → s2.pinHit (some x.toNat) (fun _ => true) = false →
    ∃ n t u, 65536 ≤ n ∧ s2.rsDrop (some x.toNat) (fun va => va / n == y.toNat / n) = some t ∧
      u = t.tlbDrop (fun e => e.asid == x.toNat && decide (e.va ≤ y.toNat) && decide (y.toNat < e.va + e.size)) ∧
      exec (.tlbiPage a b) s = .next (u.goesSettled c (nextPc (s.core c).pc)) ∧
      ∀ k e, (e ∈ (u.core k).l1tlb ∨ e ∈ tget [] u.ctlb k) → e.asid = x.toNat → ¬ (e.va ≤ y.toNat ∧ y.toNat < e.va + e.size)) ∧
  (∀ (d a b : Reg) (s s1 s2 s3 : State) (c : Nat) (x y : W64), s.atSlot c = true → (s.core c).sup = true →
    s.take c false a = some (x, s1) → s1.take c false b = some (y, s2) → x.toNat < 1024 →
    y &&& 0xfff0000000000ffe = 0 → ((s2.core c).isFw = true ∨ x.toNat = (s2.core c).asid) →
    s2.give c false d (tget 0 s.roots x.toNat) = some s3 → settled s3 = true → writable s3 = true →
    s3.pinHit (some x.toNat) (fun _ => true) = false →
    ∃ t u, s3.rsDrop (some x.toNat) (fun _ => true) = some t ∧ u = t.tlbDrop (fun e => e.asid == x.toNat) ∧
      exec (.asidctl d a b) s = .next (State.goesSettled { u with roots := tput u.roots x.toNat y } c (nextPc (s.core c).pc))) ∧
  (∀ (d : Reg) (s s1 : State) (c : Nat), s.atSlot c = true → (s.core c).sup = true →
    s.give c false d (BitVec.ofNat 64 (s.core c).wd) = some s1 →
    exec (.wdctlGet d) s = .next (s1.goes c (nextPc (s.core c).pc))) ∧
  (∀ (a : Reg) (s s1 : State) (c : Nat) (x : W64), s.atSlot c = true → (s.core c).sup = true →
    s.take c false a = some (x, s1) → x.toNat < (s1.core c).tasklimL →
    exec (.wdctlSet a) s = .next ((s1.setCore c { s1.core c with wd := x.toNat }).goes c (nextPc (s.core c).pc))) ∧
  (∀ (d a : Reg) (i : Instr) (s s1 : State) (c : Nat) (x : W64) (p : PartCtl),
    i ∈ [Instr.partctlSplit d a, Instr.partctlMerge d a] → s.atSlot c = true → (s.core c).sup = true →
    (s.core c).isFw = true → s.take c false a = some (x, s1) → 1 ≤ x.toNat → x.toNat ≤ 511 →
    p = { merge := i == Instr.partctlMerge d a, node := x.toNat, core := some c, reg := d,
          word := (s.core c).wbase.toNat + d.toNat, fw := true, decided := none, waits := false } →
    (d.toNat < 0xf80 → d.toNat < (s.core c).wlim.toNat →
      exec i s = .next (State.goes { (s1.wrote c ((s.core c).wbase.toNat + d.toNat)).setCore c { s1.core c with
        pend := (s1.core c).pend ++ [{ word := (s.core c).wbase.toNat + d.toNat, kind := .partctl, val := 0, fw := true }] }
        with parts := s1.parts ++ [p] } c (nextPc (s.core c).pc))) ∧
    (0xf80 ≤ d.toNat → (s.give c false d 0).isSome = true → (d = 0xfff ∨ noPlaceKept s1 c d = true) →
      exec i s = .next (State.goes { s1 with parts := s1.parts ++ [p] } c (nextPc (s.core c).pc))))

/-- 19 R387 to R391: with DEPR accepted, `loopc` decrements and branches while the result is not 0; `vdotx` gathers,
then adds each lane's eight-bit dot product; `swapw` exchanges the window for a word. Readings of the model: log 31,
48 and 57. -/
def Obligations.Deprecated : Prop :=
  (∀ (slot : BitVec 3) (d a : Reg) (off : BitVec 41) (s s1 s2 : State) (c : Nat) (x : W64), s.atSlot c = true →
    s.feat 0 = true → d ≠ a → a.toNat < 0xf80 → d.toNat < 0xf80 → s.take c false a = some (x, s1) →
    s1.give c false d (x - 1) = some s2 →
    (x = 1 → exec (.loopc slot d a off) s = .next (s2.goes c (nextPc (s.core c).pc))) ∧
    (∀ s3, x ≠ 1 → (checkTarget (target (s.core c).pc slot off)).run s2 = .ok ⟨⟩ s3 →
      exec (.loopc slot d a off) s = .next (s3.goes c (target (s.core c).pc slot off)))) ∧
  (∀ (n : Bool) (d a b e m : Reg) (s s0 s1 s2 s3 s4 s5 : State) (c mk : Nat) (p : W64) (ts x z : List W64),
    s.atSlot c = true → s.feat 0 = true →
    (d ≠ 0xfff → d ≠ a ∧ d ≠ e ∧ ∀ r ∈ [b, m], ¬ (r.toNat < 0xf80 ∧ r.toNat / 16 = d.toNat)) →
    s.maskOf c m = some (mk, s0) → s0.take c true b = some (p, s1) →
    (gatherFrom mk (anySo s1 c .mem .load mk fun l => p + BitVec.ofNat 64 (8 * l)) p 16 0).run s1 = .ok ts s2 →
    s2.lanes c a mk = some (x, s3) → s3.lanes c e mk = some (z, s4) →
    s4.giveLanes c d mk (fun l => (List.range 8).foldl (fun acc j => acc + (if n then
      ((x.getD l 0).extractLsb' (8 * j) 8).setWidth 64 * ((ts.getD l 0).extractLsb' (8 * j) 8).setWidth 64
      else ((x.getD l 0).extractLsb' (8 * j) 8).signExtend 64 * ((ts.getD l 0).extractLsb' (8 * j) 8).signExtend 64))
      (z.getD l 0)) = some s5 →
    exec (.vdotx n d a b e m) s = .next (s5.goes c (nextPc (s.core c).pc))) ∧
  (∀ (d a : Reg) (s s1 s2 : State) (c : Nat) (x : W64), s.atSlot c = true → s.feat 0 = true → d ≠ a →
    a.toNat < 0xf80 → d.toNat < 0xf80 → s.take c false a = some (x, s1) → x.toNat < 2 ^ 32 →
    s1.give c false d (BitVec.ofNat 64 (2 ^ 20 * (s.core c).wlim.toNat + (s.core c).wbase.toNat)) = some s2 →
    windowCode (s.core c) (x.toNat % 2 ^ 20 : Nat) (x.toNat / 2 ^ 20) = none →
    exec (.swapw d a) s = .next ((s2.setCore c { s2.core c with
      wbase := BitVec.ofNat 64 (x.toNat % 2 ^ 20), wlim := BitVec.ofNat 64 (x.toNat / 2 ^ 20) }).goesSettled c
      (nextPc (s.core c).pc)))

/-! ## The host -/

/-- 03 R59 to R61, R72; 09 R219, R220; 18 R370; 21 R397: the registers that the host and the front end's firmware
write, each with the fields that its rule keeps; what the host reads; an access of another width, or to an offset not
listed, is ignored and reads zero. Readings of the model: log 59 and 60. -/
def Obligations.HostRegisters : Prop :=
  (∀ (k : Nat) (v : W64) (s : State), k < 4 → s.featlock = false →
    exec (.featAccWrite k v) s = .next { s with featacc := tput s.featacc k (if k = 0 then v &&& 0x7f else 0) } ∧
    exec (.registerWrite true ⟨0x1020 + 8 * k, 8⟩ v) s = exec (.featAccWrite k v) s) ∧
  (∀ (k : Nat) (v : W64) (s : State), k < 4 → s.featlock = true →
    exec (.featAccWrite k v) s = .next { s with featerr := true }) ∧
  (∀ (k : Nat) (v : W64) (s : State),
    (s.mbcmd.getLsbD 31 = false →
      (k < 4 → exec (.registerWrite true ⟨8 + 8 * k, 8⟩ v) s = .next { s with mbarg := tput s.mbarg k v }) ∧
      (v.getLsbD 31 = true → exec (.registerWrite true ⟨0, 4⟩ v) s = .next { s with
        mbcmd := v.setWidth 32, mbRefuse := s.featerr, mbBusy := false, featerr := false }) ∧
      (v.getLsbD 31 = false → exec (.registerWrite true ⟨0, 4⟩ v) s = .next { s with
        mbcmd := v.setWidth 32, mbRefuse := false, mbBusy := false })) ∧
    (s.mbcmd.getLsbD 31 = true →
      exec (.registerWrite true ⟨0, 4⟩ v) s = .next s ∧
      (k < 4 → exec (.registerWrite true ⟨8 + 8 * k, 8⟩ v) s = .next s))) ∧
  (∀ (width off : Nat) (v : W64) (s : State), barRegister off ≠ some width →
    exec (.registerWrite true ⟨off, width⟩ v) s = .next s ∧ barHolds s width off 0) ∧
  (∀ s : State, barHolds s 4 0 s.mbcmd.toNat ∧ barHolds s 4 4 s.mbstat.toNat ∧ barHolds s 8 0x1000 0x7f ∧
    barHolds s 8 0x1008 0 ∧
    ∀ k < 4, barHolds s 8 (8 + 8 * k) (tget 0 s.mbarg k).toNat ∧ barHolds s 8 (0x1020 + 8 * k) (tget 0 s.featacc k).toNat) ∧
  (∀ (n : Nat) (v : W64) (s : State) (w : FmtWin), n < 16 → w = tget {} s.fw n → w.ctl.getLsbD 0 = false →
    exec (.formatWindowWrite n 1 v) s = .next { s with fw := tput s.fw n { w with size := v &&& 0x000000fffffff000#64 } } ∧
    exec (.formatWindowWrite n 2 v) s = .next { s with fw := tput s.fw n { w with scale := v &&& 0x000fffffffffffc0#64 } } ∧
    exec (.formatWindowWrite n 3 v) s = .next { s with fw := tput s.fw n { w with xb := v &&& 0x000ffffffffff000#64 } } ∧
    (v.getLsbD 0 = true → s.fwOk n { w with ctl := v &&& 0x000ffffffffff00c#64 } = true →
      exec (.formatWindowWrite n 0 v) s = .next { s with fw := tput s.fw n { w with
        ctl := v &&& 0x000ffffffffff00c#64 ||| 1#64 } }) ∧
    (v.getLsbD 0 = true → s.fwOk n { w with ctl := v &&& 0x000ffffffffff00c#64 } = false →
      exec (.formatWindowWrite n 0 v) s = .next { s with fw := tput s.fw n { w with
        ctl := v &&& 0x000ffffffffff00c#64 ||| 2#64 } }) ∧
    exec (.registerWrite false ⟨0x1000 + 32 * n + 8, 8⟩ v) s = exec (.formatWindowWrite n 1 v) s) ∧
  (∀ (v : W64) (s : State),
    (10000 ≤ v.toNat % 2 ^ 32 → exec (.switchRegisterWrite 0 v) s =
      .next { s with swtick := v &&& 0xffffffff#64, lastTick := s.time }) ∧
    (v.toNat % 2 ^ 32 < 10000 → exec (.switchRegisterWrite 0 v) s = .next s) ∧
    (v.toNat % 2 ^ 20 ≤ s.swgrace.toNat → exec (.switchRegisterWrite 1 v) s = .next { s with swdead := v &&& 0xfffff#64 }) ∧
    (s.swdead.toNat ≤ v.toNat % 2 ^ 20 → exec (.switchRegisterWrite 2 v) s = .next { s with swgrace := v &&& 0xfffff#64 })) ∧
  (∀ (off lv : Nat) (v : W64) (s : State) (m : Mon), monLevel off = some lv → off % 16 = 0 →
    monAdmits lv (v.toNat % 2 ^ 16) = true → m = tget {} s.mons (off / 16) →
    exec (.monselWrite off v) s = .next { s with mons := tput s.mons (off / 16) { m with
      sel := (v &&& 0xaff0ffff#64) ||| (m.sel &&& ~~~v &&& 0x40000000#64) } })

/-- 03 R65, R66, R79; 13 R318, R319: a doorbell's tail and a signal; the host's write of device memory, and its read,
which finds what the L3 or memory holds. Readings of the model: log 10 (what the L3 holds), 27 (a tail of more records
than the ring holds) and 50. -/
def Obligations.HostAccesses : Prop :=
  (∀ (q : Nat) (v : BitVec 32) (s : State) (qu : Queue), s.queue? q = some qu → qu.held = true → qu.draining = false →
    qu.status / 2 % 2 = 0 →
    ((v.toNat + 2 ^ 32 - qu.head) % 2 ^ 32 ≤ 2 ^ qu.logsz →
      exec (.doorbell q v) s = .next (queueSet s q fun x => { x with bell := none, tail := v.toNat })) ∧
    (2 ^ qu.logsz < (v.toNat + 2 ^ 32 - qu.head) % 2 ^ 32 →
      ∃ t qt, exec (.doorbell q v) s = .next t ∧ t.queue? q = some qt ∧ qt.tail = v.toNat ∧ qt.head = qu.head ∧
        qt.bell = none ∧ qt.status % 2 = 1 ∧ qt.status / 2 % 2 = 1 ∧ qt.status / 8 % 2 = 1)) ∧
  (∀ (q : Nat) (v : BitVec 32) (s : State) (qu : Queue), s.queue? q = some qu →
    (qu.draining = true ∨ qu.status / 2 % 2 = 1 ∨ qu.held = false) →
    exec (.doorbell q v) s = .next (queueSet s q fun x => { x with bell := some v.toNat })) ∧
  (∀ (q : Nat) (v : W64) (s : State) (qu : Queue), s.queue? q = some qu → v.toNat < 2 ^ 33 →
    exec (.externalSignal q v) s = .next (filed s qu.tenant
      { dev := 2 ^ 22, lid := v.toNat % 2 ^ 32, status := v.toNat / 2 ^ 32 })) ∧
  (∀ (tenant dev lid status : Nat) (s : State), s.feat 3 = true → status < 2 → dev < 2 ^ 22 → tenant < 256 →
    exec (.peerSignal tenant dev lid status) s = .next (filed s tenant
      { dev := dev, lid := lid % 2 ^ 32, status := status })) ∧
  (∀ (pa : Nat) (bs : List Byte) (s : State), pa + bs.length ≤ 0xc000000000 → s.mem.wf = true →
    (∀ l, pa / 64 ≤ l → 64 * l < pa + bs.length → s.mayWrite 2048 l = true) →
    ∃ t, exec (.hostWrite pa bs) s = .next t ∧ (∀ i < bs.length, t.mem.get (pa + i) = bs.getD i 0) ∧
      (∀ a, a < pa ∨ pa + bs.length ≤ a → t.mem.get a = s.mem.get a) ∧ t.cores = s.cores) ∧
  (∀ (pa n : Nat) (s : State), pa + n ≤ 0xc000000000 →
    (∀ l ∈ s.poison, 64 * l + 64 ≤ pa ∨ pa + n ≤ 64 * l) →
    ∃ t, exec (.hostRead (.mem pa) n) s = .next t ∧ t.mem = s.mem ∧ t.hostData.length = n ∧
      ∀ i < n, t.hostData.getD i 0 = (match s.stale.find? fun x => x.1 == pa + i with
        | some x => x.2.old
        | none => s.mem.get (pa + i)))

/-- 03 R61, R65, R68 to R72: the mailbox commands of queues and launches, each with the results that its rule gives; a
command issued after a late `FEATACC` write is refused. Readings of the model: log 38; log 71 (which of several
results REGQ gives) and 72 (poison). -/
def Obligations.MailboxQueues : Prop :=
  (∀ (s : State) (i : Instr) (code : Nat), mailboxCommand i = some code → s.mbcmd.getLsbD 31 = true →
    s.mbcmd.toNat % 256 = code → s.mbBusy = false → s.mgmt.alive = true → s.mgmt.layer = 2 → s.mbRefuse = true →
    exec i s = .next (answered s 5)) ∧
  (∀ (s : State) (pa q : Nat), issued s 1 = true → pa = (argument s 0).toNat → q = (argument s 1).toNat →
    (4095 < q → exec .regq s = .next (answered s 1)) ∧
    (q ≤ 4095 → (s.queue? q).isSome = true → exec .regq s = .next (answered s 3)) ∧
    (q ≤ 4095 → s.queue? q = none → (pa % 128 ≠ 0 ∨ 0xc000000000 < pa + 128) → exec .regq s = .next (answered s 2)) ∧
    (q ≤ 4095 → s.queue? q = none → (s.qcbOk (s.mem.bytes pa 128) = false ∨ s.anyPoison pa 128 = true) →
      exec .regq s = .next (answered s 2)) ∧
    (q ≤ 4095 → s.queue? q = none → pa % 128 = 0 → pa + 128 ≤ 0xc000000000 → s.qcbOk (s.mem.bytes pa 128) = true →
      s.anyPoison pa 128 = false → frontWrites s pa = true → s.mem.wf = true → s.queues = [] →
      ∃ t qu, exec .regq s = .next t ∧ t.queue? q = some qu ∧ t.featlock = true ∧ t.mbcmd.getLsbD 31 = false ∧ t.mbstat = 0 ∧
        qu.held = true ∧ qu.qcb = pa ∧ qu.base = s.mem.le pa 8 ∧ qu.tenant = s.mem.le (pa + 10) 1 ∧ qu.head = 0 ∧
        qu.tail = 0 ∧ qu.status = 0 ∧ t.mem.le (pa + 16) 4 = s.integOf pa (s.mem.bytes pa 128) ∧ t.mem.le (pa + 20) 4 = 0 ∧
        t.mem.le (pa + 24) 8 = 0 ∧ t.mem.le (pa + 44) 4 = 0 ∧ t.mem.le (pa + 52) 4 = 0)) ∧
  (∀ (s : State) (q : Nat), issued s 2 = true → q = (argument s 1).toNat →
    (4095 < q → exec .unregq s = .next (answered s 1)) ∧
    (q ≤ 4095 → s.queue? q = none → exec .unregq s = .next (answered s 3)) ∧
    (q ≤ 4095 → (s.queue? q).isSome = true →
      exec .unregq s = .next { queueSet s q fun x => { x with draining := true } with mbBusy := true })) ∧
  (∀ (s : State) (q : Nat), s.mbcmd.getLsbD 31 = true → s.mbcmd.toNat % 256 = 2 → s.mbBusy = true →
    q = (argument s 1).toNat →
    ((∀ l ∈ s.launches, l.q = q → l.st = .done) →
      exec .unregqDrained s = .next (answered { s with queues := s.queues.filter fun x => x.q != q } 0)) ∧
    ((∃ l ∈ s.launches, l.q = q ∧ l.st ≠ .done) → exec .unregqDrained s = .next s)) ∧
  (∀ (s : State) (q : Nat), issued s 3 = true → q = (argument s 1).toNat →
    (4095 < q → exec .qresume s = .next (answered s 1)) ∧
    (q ≤ 4095 → s.queue? q = none → exec .qresume s = .next (answered s 3))) ∧
  (∀ (s : State) (q : Nat) (qu : Queue), issued s 3 = true → q = (argument s 1).toNat → q ≤ 4095 → s.queue? q = some qu →
    s.queues = [qu] → s.anyPoison qu.qcb 48 = false →
    (s.mem.le (qu.qcb + 16) 4 = s.integOf qu.qcb (s.mem.bytes qu.qcb 20) →
      (evOk (s.mem.bytes qu.qcb 48) = false →
        ∃ t, exec .qresume s = .next t ∧ t.mbcmd.getLsbD 31 = false ∧ t.mbstat = 2 ∧ t.mem = s.mem) ∧
      (evOk (s.mem.bytes qu.qcb 48) = true → qu.bell = none → frontWrites s (qu.qcb + 24) = true → s.mem.wf = true →
        ∃ t, exec .qresume s = .next t ∧ t.mbcmd.getLsbD 31 = false ∧ t.mbstat = 0 ∧ t.mem.le (qu.qcb + 24) 8 = 0 ∧
          ∃ qt, t.queue? q = some qt ∧ qt.status = 0 ∧ qt.held = true ∧
            qt.evbase = s.mem.le (qu.qcb + 32) 8 ∧ qt.evlog = s.mem.le (qu.qcb + 40) 1)) ∧
    (s.mem.le (qu.qcb + 16) 4 ≠ s.integOf qu.qcb (s.mem.bytes qu.qcb 20) →
      ∃ t, exec .qresume s = .next t ∧ t.mbcmd.getLsbD 31 = false ∧ t.mbstat = 11)) ∧
  (∀ (s : State), issued s 4 = true →
    (∀ l, (s.launches.find? fun l => l.tenant == (argument s 1).toNat && l.lid == (argument s 2).toNat &&
        (l.st == .waiting || l.st == .gated)) = some l →
      exec .lcancel s = .next (answered (launchSet s l.no fun x => { x with st := .ending, reason := 6, time := s.time }) 0)) ∧
    ((∀ l ∈ s.launches, l.tenant = (argument s 1).toNat → l.lid = (argument s 2).toNat → l.st ≠ .waiting ∧ l.st ≠ .gated) →
      exec .lcancel s = .next (answered s 4))) ∧
  (∀ (cmd : BitVec 8) (s : State), (cmd.toNat = 0 ∨ 16 ≤ cmd.toNat) → issued s cmd.toNat = true →
    exec (.mailboxUnknown cmd) s = .next (answered s 6))

/-- 03 R73 to R75; 19 R380, R384: the mailbox commands of tenants, address spaces and nodes, each with the results
that its rule gives. Readings of the model: log 38, and 72 (poison). -/
def Obligations.MailboxTenants : Prop :=
  (∀ (s : State) (pa t : Nat), issued s 0x0b = true → pa = (argument s 0).toNat → t = (argument s 1).toNat →
    ((255 < t ∨ pa % 64 ≠ 0 ∨ inMemory pa 128 = false ∨ s.anyPoison pa 128 = true ∨ tenantOk (s.physBytes pa 128) = false) →
      exec .tendef s = .next (answered s 2)) ∧
    (t ≤ 255 → pa % 64 = 0 → inMemory pa 128 = true → s.anyPoison pa 128 = false → tenantOk (s.physBytes pa 128) = true →
      (((∃ x ∈ s.nodes, x.resident = some t) ∨ ∃ v ∈ s.saved, v.tenant = t) → exec .tendef s = .next (answered s 10)) ∧
      ((∀ x ∈ s.nodes, x.resident ≠ some t) → (∀ v ∈ s.saved, v.tenant ≠ t) →
        exec .tendef s = .next (answered { s with
          tenants := tput s.tenants t (some (tenantOf (s.physBytes pa 128))),
          launches := s.launches.map fun l => if l.tenant = t ∧ l.st = .done then { l with regions := [] } else l } 0)))) ∧
  (∀ (s : State) (a t : Nat), issued s 0x0c = true → a = (argument s 1).toNat → t = (argument s 2).toNat →
    ((1023 < a ∨ 255 < t ∨ argument s 3 &&& 0xfff0000000000ffe ≠ 0) → exec .asidset s = .next (answered s 2)) ∧
    (a ≤ 1023 → t ≤ 255 → argument s 3 &&& 0xfff0000000000ffe = 0 →
      (tget 256 s.asidOwner a ≠ 256 → tget 256 s.asidOwner a ≠ t →
        ((∃ q ∈ s.queues, q.asid = a ∧ q.tenant = tget 256 s.asidOwner a) ∨
          ∃ l ∈ s.launches, l.asid = a ∧ l.tenant = tget 256 s.asidOwner a ∧ l.st ≠ .done) →
        exec .asidset s = .next (answered s 10)) ∧
      ((tget 256 s.asidOwner a = 256 ∨ tget 256 s.asidOwner a = t ∨
          (∀ q ∈ s.queues, q.asid = a → q.tenant ≠ tget 256 s.asidOwner a) ∧
          ∀ l ∈ s.launches, l.asid = a → l.tenant = tget 256 s.asidOwner a → l.st = .done) →
        s.pinHit (some a) (fun _ => true) = false → ∀ u, s.rsDrop (some a) (fun _ => true) = some u →
        exec .asidset s = .next (answered (State.tlbDrop { u with
          asidOwner := tput u.asidOwner a t, roots := tput u.roots a (argument s 3) } fun e => e.asid == a) 0)))) ∧
  (∀ (s : State) (pa n : Nat) (set : List Nat), issued s 0x0d = true → pa = (argument s 0).toNat →
    n = (argument s 1).toNat →
    set = (List.range 256).filter (fun t => (leNat (s.physBytes pa 32)).testBit t) →
    ((s.node? n = none ∨ inMemory pa 32 = false ∨ s.anyPoison pa 32 = true) → exec .tenset s = .next (answered s 2)) ∧
    (∀ x, s.node? n = some x → inMemory pa 32 = true → s.anyPoison pa 32 = false →
      ((∃ t ∈ x.tset, t ∉ set ∧ (x.resident = some t ∨ ∃ v ∈ s.saved, v.tenant = t ∧ v.node = n)) →
        exec .tenset s = .next (answered s 10)) ∧
      ((∀ t ∈ x.tset, t ∉ set → x.resident ≠ some t ∧ ∀ v ∈ s.saved, v.tenant = t → v.node ≠ n) →
        exec .tenset s = .next (answered (nodeSet s n fun y => { y with tset := set }) 0)))) ∧
  (∀ (s : State) (n t : Nat), issued s 0x0e = true → s.tickDue = false → n = (argument s 1).toNat →
    t = (argument s 2).toNat →
    ((s.node? n = none ∨ tget none s.tenants t = none) → exec .tenres s = .next (answered s 2)) ∧
    (∀ x d, s.node? n = some x → tget none s.tenants t = some d →
      ((t ∉ x.tset ∨ tget 256 s.asidOwner d.hasid ≠ t) → exec .tenres s = .next (answered s 2)) ∧
      (t ∈ x.tset → tget 256 s.asidOwner d.hasid = t →
        ((∃ y ∈ s.nodes, y.resident = some t) → (∀ y ∈ s.nodes, y.resident = some t → y.n ≠ n) →
          exec .tenres s = .next (answered s 10)) ∧
        ((∃ v ∈ s.saved, v.tenant = t) → (∀ v ∈ s.saved, v.tenant = t → nodeDepth v.node ≠ nodeDepth n) →
          exec .tenres s = .next (answered s 10)) ∧
        ((∀ y ∈ s.nodes, y.resident = some t → y.n = n) →
          (∀ v ∈ s.saved, v.tenant = t → nodeDepth v.node = nodeDepth n) →
          exec .tenres s = .next (if x.resident = some t ∧ x.requests = [] then answered s 0
            else { nodeSet s n fun y => { y with requests := y.requests ++ [t] } with mbBusy := true }))))) ∧
  (∀ (s : State) (n : Nat), issued s 0x0f = true → n = (argument s 2).toNat →
    ((1 < (argument s 1).toNat ∨ n = 0 ∨ 256 ≤ n) → exec .nodectl s = .next (answered s 2)) ∧
    ((argument s 1).toNat ≤ 1 → 1 ≤ n → n < 256 →
      exec .nodectl s = .next { s with
        parts := s.parts ++ [{
          merge := argument s 1 == 1, node := n, core := none, reg := 0, word := 0, fw := false, decided := none,
          waits := false }], mbBusy := true }))

/-- 21 R394, R395, R401 to R408: the mailbox commands of the management side, each with the results that its rule
gives. Readings of the model: log 18, 19, 38, 72 and 75. -/
def Obligations.MailboxManagement : Prop :=
  (∀ (s : State) (n : Nat), issued s 5 = true → n = (argument s 1).toNat →
    (s.node? n = none → exec .pflush s = .next (answered s 2)) ∧
    ((s.node? n).isSome = true →
      ∃ t, exec .pflush s = .next (answered t 0) ∧ t.mem = s.mem ∧ t.cores = s.cores ∧
        (∀ x ∈ t.stale, x ∈ s.stale ∧ nodeHasRow n (x.2.core / 8) = false) ∧
        ∀ x ∈ s.stale, nodeHasRow n (x.2.core / 8) = false → x ∈ t.stale)) ∧
  (∀ (s : State) (ha pa : Nat), issued s 6 = true → ha = (argument s 0).toNat → pa = 0x8000000000000 + ha →
    (0xf000000000000 < pa + (logAnswer s).length → exec .getlog s = .next (answered s 2)) ∧
    (pa + (logAnswer s).length ≤ 0xf000000000000 → (argument s 1).toNat < (logAnswer s).length →
      exec .getlog s = .next (answered s 7)) ∧
    (pa + (logAnswer s).length ≤ 0xf000000000000 → (logAnswer s).length ≤ (argument s 1).toNat →
      s.anyPoison pa (logAnswer s).length = true → exec .getlog s = .next (answered (s.logEvent 2) 2)) ∧
    (pa + (logAnswer s).length ≤ 0xf000000000000 → (logAnswer s).length ≤ (argument s 1).toNat → s.mem.wf = true →
      s.anyPoison pa (logAnswer s).length = false →
      (∀ l, pa / 64 ≤ l → 64 * l < pa + (logAnswer s).length → s.mayWrite 2048 l = true) →
      ∃ t, exec .getlog s = .next (answered t 0) ∧
        (∀ i < (logAnswer s).length, t.mem.get (pa + i) = (logAnswer s).getD i 0) ∧
        ∀ a, a < pa ∨ pa + (logAnswer s).length ≤ a → t.mem.get a = s.mem.get a)) ∧
  (∀ (s : State) (pa n : Nat), issued s 7 = true → pa = 0x8000000000000 + (argument s 0).toNat → n = (argument s 1).toNat →
    (0xf000000000000 < pa + n → exec .updwrite s = .next (answered s 2)) ∧
    (pa + n ≤ 0xf000000000000 → s.anyPoison pa n = true →
      exec .updwrite s = .next (answered (s.logEvent 2) 2)) ∧
    (pa + n ≤ 0xf000000000000 → s.anyPoison pa n = false →
      ∃ t, exec .updwrite s = .next (answered t 0) ∧ t.mem = s.mem ∧
        t.mgmt.copy s.mgmt.runB = s.mgmt.copy s.mgmt.runB ∧
        t.mgmt.copy (!s.mgmt.runB) = (s.mgmt.copy (!s.mgmt.runB)).setBytes (argument s 2).toNat (s.mem.bytes pa n))) ∧
  (∀ (s : State) (xs : List FlashImage), issued s 8 = true → xs = imagesOf (s.mgmt.copy (!s.mgmt.runB)) →
    exec .updarm s = .next (if xs.length < 2 || !xs.all s.mgmt.signed then answered s 8
      else if xs.any (fun x => decide (x.svn < s.mgmt.floor)) then answered s 9
      else answered (State.logEvent { s with mgmt := { s.mgmt with selB := !s.mgmt.runB, armed := true, fails := 0 } } 4) 0)) ∧
  (∀ (s : State) (xs : List FlashImage) (v : Nat), issued s 9 = true → xs = imagesOf (s.mgmt.copy s.mgmt.runB) →
    v = (if xs = [] then 0 else xs.foldl (fun m x => min m x.svn) 64) →
    exec .updsvn s = .next (answered (State.logEvent { s with mgmt := { s.mgmt with floor := max s.mgmt.floor v } } 4) 0)) ∧
  (∀ (s : State), issued s 0x0a = true →
    exec .ident s = .next (answered { s with
      mbarg := tput (tput (tput s.mbarg 0 0x2048) 1 1) 2 (BitVec.ofNat 64 Config.stepping) } 0))

/-! ## Launches -/

/-- 03 R66, R76, R410; 01 R19, R29, R30, R31: a helper takes the next record of its queue; a launch is checked in the
order of R410, and ends with the reason of the first check that fails, or waits for its predecessors; a placed launch
finds its regions zero, has its root slot, its entries in the ready rings and its instances in line, and runs.
Readings of the model: log 37; 68 (where entry records and descriptors may lie), 69 (which of PLACING's writes comes
first) and 72 (poison). -/
def Obligations.LaunchIntake : Prop :=
  (∀ (s : State) (qu : Queue) (pa : Nat), s.sel < 6 → (s.launches.filter fun l => l.st != .done).length < 4096 →
    s.nextQueue s.sel = some qu → s.queues = [qu] → qu.held = true → qu.bell = none → qu.status = 0 → qu.tail ≠ qu.head →
    pa = qu.base + 128 * (qu.head % 2 ^ qu.logsz) → s.anyPoison pa 128 = false → frontWrites s (qu.qcb + 20) = true →
    s.mem.wf = true →
    ∃ t qt l, exec .queueHelperVisit s = .next t ∧ t.queue? qu.q = some qt ∧ qt.head = (qu.head + 1) % 2 ^ 32 ∧
      t.launches = s.launches ++ [l] ∧ l.no = s.acceptNo + 1 ∧ t.acceptNo = s.acceptNo + 1 ∧ l.st = .accepted ∧
      l.q = qu.q ∧ l.tenant = qu.tenant ∧ l.raw = s.physBytes pa 128 ∧ l.slotPa = pa ∧ recordFields l ∧
      t.mem.le (qu.qcb + 20) 4 = (qu.head + 1) % 2 ^ 32) ∧
  (∀ (s : State) (l : Launch), s.launch? s.sel = some l → l.st = .accepted →
    (¬ recordGood l → Rejects s l 1 s) ∧
    (recordGood l → ¬ owned s l → Rejects s l 1 s) ∧
    (recordGood l → owned s l →
      (∀ e t, 1 < l.nent → (feReadAll l 1 l.enta (32 * l.nent)).run s = .error e t → Ends s l 1 e t) ∧
      (∀ es s1 l1, entriesRead l s es s1 → l1 = { l with entries := es } →
        (l.team ≠ 0 → s.feat 4 = false → Rejects s l 2 s1) ∧
        (l.team ≠ 0 → s.feat 4 = true →
          (∀ e t, (feReadAll l1 2 l.team 136).run s1 = .error e t → Ends s l 2 e t) ∧
          (∀ d t, (feReadAll l1 2 l.team 136).run s1 = .ok d t →
            (¬ teamGood l.team d → Rejects s l 2 t) ∧
            (teamGood l.team d → instances l.part d = none → Rejects s l 3 t))) ∧
        (∀ l2 s2, teamRead s l1 s1 l2 s2 →
          (l.wset ≠ 0 →
            (∀ e t, (feReadAll l2 5 l.wset 64).run s2 = .error e t → Ends s l 5 e t) ∧
            (∀ h s3, (feReadAll l2 5 l.wset 64).run s2 = .ok h s3 →
              (¬ headerGood l.wset h → Rejects s l 5 s3) ∧
              (headerGood l.wset h →
                (∀ e t, (feReadAll l2 5 (num h 8 8) (16 * num h 0 1)).run s3 = .error e t → Ends s l 5 e t) ∧
                (∀ rt s4, (feReadAll l2 5 (num h 8 8) (16 * num h 0 1)).run s3 = .ok rt s4 →
                  (¬ regionsGood l.part rt (num h 0 1) → Rejects s l 5 s4) ∧
                  (regionsGood l.part rt (num h 0 1) →
                    (∀ e t, (feReadAll l2 5 (num h 16 8) (16 * num h 4 4)).run s4 = .error e t → Ends s l 5 e t) ∧
                    (∀ x t, (feReadAll l2 5 (num h 16 8) (16 * num h 4 4)).run s4 = .ok x t →
                      ¬ extentsGood x (num h 4 4) → Rejects s l 5 t)))))) ∧
          (∀ l3 s3, wsetRead l2 s2 l3 s3 →
            ((∃ e ∈ l.preds, ¬ predGood s l.lid e) → Rejects s l 4 s3) ∧
            ((∀ e ∈ l.preds, predGood s l.lid e) →
              exec .launchAccept s =
                .next ((launchSet s3 l.no fun _ => { l3 with st := .waiting, demand := none }).advanceLaunch l.no)) ∧
            ((∀ e ∈ l.preds, e = 0) → s.feat 1 = false → l.wset = 0 → l.extents = [] →
              exec .launchAccept s = .next (launchSet s3 l.no fun _ => { l3 with st := .placing, demand := none }))))))) ∧
  (∀ (s : State) (l : Launch) (k c0 n : Nat), s.launch? s.sel = some l → s.placeable l = true →
    s.rootIndex l.part = some k → s.memOk = true → c0 = 8 * nodeRow0 l.part → n = nodeCores l.part →
    ∃ t lt, exec .launchPlace s = .next t ∧ t.launch? l.no = some lt ∧ lt.st = .running ∧ lt.rootK = some k ∧
      (lt.released = true ↔ l.entries = [] ∧ l.ninst = 0) ∧ t.mem = s.mem ∧
      (t.core c0).spad.rec (0x3ffe0 - 32 * k) = { ctrl := BitVec.ofNat 64 (l.entries.length + l.ninst) } ∧
      (∀ c a, (c ≠ c0 ∨ a < 0x3ffe0 - 32 * k ∨ 0x40000 - 32 * k ≤ a) →
        (c ∈ nodeCoreList l.part → zeroedAt s l 0 a → (t.core c).spad.get a = 0) ∧
        ((c ∉ nodeCoreList l.part ∨ ¬ zeroedAt s l 0 a) → (t.core c).spad.get a = (s.core c).spad.get a)) ∧
      (∀ c o x, o < 0x40000 → x = 0x40000 * (c - max c0 (32 * (c / 32))) + o →
        (c ∈ nodeCoreList l.part → zeroedAt s l 1 x → (t.core c).cspad.get o = 0) ∧
        ((c ∉ nodeCoreList l.part ∨ ¬ zeroedAt s l 1 x) → (t.core c).cspad.get o = (s.core c).cspad.get o)) ∧
      (∀ d b x, b = 0x100000 * (max (nodeRow0 l.part) (32 * d) % 32) →
        ((∃ c ∈ nodeCoreList l.part, c / 256 = d) → zeroedAt s l 2 x → Memory.get (tget [] t.dspad d) (b + x) = 0) ∧
        (((∀ c ∈ nodeCoreList l.part, c / 256 ≠ d) ∨ ¬ zeroedAt s l 2 x) →
          Memory.get (tget [] t.dspad d) (b + x) = Memory.get (tget [] s.dspad d) (b + x)) ∧
        ∀ y < b, Memory.get (tget [] t.dspad d) y = Memory.get (tget [] s.dspad d) y) ∧
      (∀ p < n, (s.core (c0 + p)).held = [] → s.linkFree (c0 + p) = true → s.arrPosted (c0 + p) = false →
        (s.core (c0 + p)).ready.length + l.entries.length ≤ 256 →
        (t.core (c0 + p)).ready = (s.core (c0 + p)).ready ++
          ((List.range l.entries.length).filter fun i => i % n == p).map fun i => {
            tr := (l.entries.getD i ({}, 0)).1, src := (l.entries.getD i ({}, 0)).2, origin := p, launch := some l.no,
            restarts := 0, passed := 0 }) ∧
      t.instNo = s.instNo + l.ninst ∧
      (∀ j < l.ninst, tget none t.insts (s.instNo + j) = some (instanceOf l j)) ∧
      ∀ j, (j < s.instNo ∨ s.instNo + l.ninst ≤ j) → tget none t.insts j = tget none s.insts j)

/-- 01 R25, R28, R32, R33; 04 R95; 13 R319; 14 R411; 17 R350, R352; 18 R368; 21 R393: an instance whose cores and
engines are free starts every member at PROG in its window, with `w0` and `w1` zero and the other effects of R28, or
ends at once where some window passes `RBL`; a running launch whose root slot was released and of which nothing is
left ends; its flush, its completion event and its entry in the event ring follow, each once what the one before wrote is
performed (R393). Readings of the model: log 29, 37 and 80. -/
def Obligations.LaunchEnds : Prop :=
  (∀ (s : State) (x : Inst) (l : Launch), tget none s.insts s.sel = some x → s.takenBy x = true → s.membersIdle x = true →
    s.launch? x.launch = some l → (x.cores.map (·.1)).Nodup → (x.seqs.map (·.1)).Nodup →
    (∀ m ∈ x.cores, (s.core m.1).dwb.toNat + x.wwords m.2 ≤ (s.core m.1).rbl.toNat ∧
      ∀ j < 2, (s.core m.1).holds ((s.core m.1).dwb.toNat + j) = true) →
    ∃ t, exec .teamBind s = .next t ∧
      tget none t.insts s.sel = some { x with st := .running, live := x.cores.map (·.1) } ∧
      (∃ lt, t.launch? x.launch = some lt ∧ lt.ndisp = l.ndisp + x.cores.length) ∧
      (∀ c, c ∉ x.cores.map (·.1) → t.core c = s.core c) ∧
      (∀ m ∈ x.cores, ∀ k u, k = s.core m.1 → u = t.core m.1 →
        u.task = some {
          kind := .member, tr := {}, src := 0, origin := s.pidx m.1, launch := some x.launch, restarts := 0,
          asid := l.asid, answers := 0 } ∧
        u.pc = x.prog ∧ u.role = m.2 ∧ u.inst = some s.sel ∧ u.sup = false ∧ u.inTrap = false ∧
        u.wbase = k.dwb ∧ u.wlim = BitVec.ofNat 64 (x.wwords m.2) ∧ u.wfb = u.wbase ∧ u.wfl = u.wlim ∧
        u.word k.dwb.toNat = 0 ∧ u.word (k.dwb.toNat + 1) = 0 ∧
        u.xa = [] ∧ u.fcsr = 0 ∧ u.qd = [] ∧ u.qc = [] ∧ u.dq = [] ∧ u.wd = 0 ∧
        u.tasklimL = k.tasklim.toNat ∧ u.demandlimL = k.demandlim.toNat ∧
        u.l1i = [] ∧ u.kcache = [] ∧ u.lattc = [] ∧ u.dictc = [] ∧
        ∀ n < 8, s.cwpBound m.1 n = false → tget 0 u.cwp n = 0) ∧
      (∀ r ∈ x.seqs, (t.seqU r.1).inst = some s.sel ∧ (t.seqU r.1).role = r.2 ∧ (t.seqU r.1).pc = x.prog ∧
        (t.seqU r.1).asid = l.asid ∧ (t.seqU r.1).halted = false ∧ (t.seqU r.1).lines = []) ∧
      (∀ g r, x.eng = some (g, r) → (t.engU g).inst = some s.sel ∧ (t.engU g).role = r ∧ (t.engU g).pc = x.prog ∧
        (t.engU g).asid = l.asid ∧ (t.engU g).halted = false ∧ (t.engU g).lines = [] ∧ (t.engU g).words = [])) ∧
  (∀ (s : State) (x : Inst) (l : Launch), tget none s.insts s.sel = some x → s.takenBy x = true → s.membersIdle x = true →
    s.launch? x.launch = some l → x.faulted = false →
    (∃ m ∈ x.cores, (s.core m.1).rbl.toNat < (s.core m.1).dwb.toNat + x.wwords m.2) →
    ∃ t xt lt, exec .teamBind s = .next t ∧ (∀ c, (t.core c).task = (s.core c).task) ∧
      tget none t.insts s.sel = some xt ∧ xt.st = .ended ∧ t.launch? x.launch = some lt ∧ lt.faults = true ∧
      lt.fcode = (if l.fcode = 0 then 0x06 else l.fcode) ∧ lt.nfault = min (l.nfault + x.cores.length) 0xffffffff) ∧
  (∀ (s : State) (l : Launch) (nd : Node), s.launch? s.sel = some l → l.st = .running → l.released = true →
    s.node? l.part = some nd → nd.resident = some l.tenant →
    ((∀ x ∈ s.cores, s.nodeOf x.1 = l.part → x.2.clearOf l.no = true) →
      (∀ x ∈ s.net, Arrival.launch x.2.2 ≠ some l.no) → (∀ x ∈ s.posts, Posted.launch x.2 ≠ some l.no) →
      exec .launchEnd s = .next (launchSet s l.no fun x => { x with st := .ending, time := s.time })) ∧
    ((∃ x ∈ s.cores, s.nodeOf x.1 = l.part ∧
        ((∃ t, x.2.task = some t ∧ t.launch = some l.no) ∨ (∃ e ∈ x.2.ready, e.launch = some l.no) ∨
          (∃ m ∈ x.2.inbox, m.launch = some l.no) ∨ (∃ e ∈ x.2.sysring, e.launch = some l.no) ∨ dequeHolds x.2 ≠ 0)) →
      exec .launchEnd s = .next s)) ∧
  (∀ (s : State) (l : Launch), l ∈ s.launches → l.part = s.sel → l.st = .ending → l.rootK.isSome = true →
    l.lfl % 2 = 1 → l.flushed = false →
    ∃ t, exec .releaseFlush s = .next t ∧ t.mem = s.mem ∧ t.cores = s.cores ∧
      (∀ x ∈ t.stale, nodeHasRow s.sel (x.2.core / 8) = false) ∧ ∃ u ∈ t.launches, u.no = l.no ∧ u.flushed = true) ∧
  (∀ (s : State) (l : Launch) (w n : W64), s.launch? s.sel = some l → l.st = .ending →
    w = BitVec.ofNat 64 (l.lid + 2 ^ 32 * (1 + (if l.faults then 2 else 0) + (if l.strag then 4 else 0) +
      (if l.reason ≠ 0 then 8 else 0) + 16 * l.reason + (if l.pfail then 256 else 0)) + 2 ^ 48 * l.fcode) →
    n = BitVec.ofNat 64 l.ndisp →
    (l.rootK.isSome = true → l.lfl % 2 = 1 → l.flushed = false → exec .completionEvent s = .next s) ∧
    ((l.rootK = none ∨ l.lfl % 2 = 0 ∨ l.flushed = true) → ∀ s1,
      ((l.published = true ∧ s1 = s) ∨
        (l.published = false ∧ ∃ s0, s1 = launchSet s0 l.no (fun x => { x with published := true }) ∧
          ((l.cev = 0 ∧ s0 = s) ∨
            (l.cev ≠ 0 ∧ s.feWrite l.asid l.cev [w, n, BitVec.ofNat 64 l.nfault, BitVec.ofNat 64 l.time] = some s0) ∨
            (l.cev ≠ 0 ∧ s.feWrite l.asid l.cev [w, n, BitVec.ofNat 64 l.nfault, BitVec.ofNat 64 l.time] = none ∧
              s0 = s.postEvent l.q 8 0 l.lid w n)))) →
      (s1.feq ≠ [] → exec .completionEvent s = .next s1) ∧
      (s1.feq = [] → ∀ s2,
        ((l.posted = true ∧ s2 = s1) ∨
          (l.posted = false ∧ ∃ s0, s2 = launchSet s0 l.no (fun x => { x with posted := true }) ∧
            ((l.reason ≠ 0 ∨ l.pfail = true) ∧ s0 = s1.postEvent l.q 1 0 l.lid w n ∨
              (l.reason = 0 ∧ l.pfail = false ∧ l.faults = true) ∧ s0 = s1.postEvent l.q 2 l.fcode l.lid w n ∨
              (l.reason = 0 ∧ l.pfail = false ∧ l.faults = false) ∧ s0 = s1))) →
        (s2.feq ≠ [] → exec .completionEvent s = .next s2) ∧
        (s2.feq = [] → exec .completionEvent s =
          .next (State.advanceAll (launchSet s2 l.no fun x => { x with st := .done })))))) ∧
  (∀ (s t : State) (asid va pa : Nat) (x : TlbEnt) (ws : List W64), s.feXlate asid va .store = .ok (pa, x, t) →
    (physKind pa = .device ∨ physKind pa = .host) → frontWrites t pa = true → t.mem.wf = true →
    ∃ u, s.feWrite asid va ws = some u ∧ (∀ j < ws.length, u.mem.le (pa + 8 * j) 8 = (ws.getD j 0).toNat) ∧
      ∀ a, a < pa ∨ pa + 8 * ws.length ≤ a → u.mem.get a = t.mem.get a)

/-! ## Dispatch and arrivals -/

/-- 01 R9, R10, R34; 05 R109; 14 R329, R332 to R334: a free core takes a system entry, else a message, else a ready
record, the aged one or the oldest of the highest class, else its newest deque record, and starts it, or posts the
fault of the check that fails; an idle one steals, and a levelling unit ships the excess to the lightest neighbour.
Readings of the model: log 34 and 82. -/
def Obligations.Dispatching : Prop :=
  (∀ (s : State) (c : Nat), c = s.sel → s.free c = true → (s.core c).taken = none →
    (∀ e t, (s.core c).sysring = e :: t →
      exec .dispatch s = .next ((s.setCore c { s.core c with sysring := t, taken := some (.sys e) }).begin c (.sys e))) ∧
    (∀ m t e, (s.core c).sysring = [] → (s.core c).quiescing = false → (s.core c).inbox = m :: t →
      ((s.core c).inboxRun < 8 ∨ (s.core c).ready = []) →
      e = { tr := m.tr, src := m.src, origin := m.src.toNat / 2 ^ 32 % 2 ^ 11, launch := m.launch, restarts := 0,
            passed := 0 } →
      exec .dispatch s = .next ((s.setCore c { s.core c with
        inbox := t, inboxRun := (s.core c).inboxRun + 1, taken := some (.entry e m.payload) }).begin c
        (.entry e m.payload))) ∧
    (∀ i e, (s.core c).sysring = [] → (s.core c).quiescing = false → ((s.core c).inbox = [] ∨ 8 ≤ (s.core c).inboxRun) →
      (s.core c).ready[i]? = some e →
      ((64 ≤ e.passed ∧ ∀ j < i, ∀ x, (s.core c).ready[j]? = some x → x.passed < 64) ∨
        (∀ x ∈ (s.core c).ready, x.passed < 64 ∧ classOf x ≤ classOf e) ∧
          ∀ j < i, ∀ x, (s.core c).ready[j]? = some x → classOf x < classOf e) →
      exec .dispatch s = .next ((s.setCore c { s.core c with
        ready := ((s.core c).ready.eraseIdx i).map fun x =>
          if classOf x < classOf e then { x with passed := x.passed + 1 } else x,
        inboxRun := 0, taken := some (.entry e []) }).begin c (.entry e []))) ∧
    ((s.core c).sysring = [] → (s.core c).quiescing = false → (s.core c).inbox = [] → (s.core c).ready = [] →
      dequeHolds (s.core c) ≠ 0 →
      exec .dispatch s = .next ((s.setCore c { s.core c with taken := some .pop }).begin c .pop))) ∧
  (∀ (s u : State) (c : Nat) (e : Entry) (p : List W64) (k : Core) (t : Task),
    t = { kind := .normal, tr := e.tr, src := e.src, origin := e.origin, launch := e.launch, restarts := e.restarts,
          asid := s.recAsid c e.launch, answers := 0 } → u = s.renew c e.launch → k = u.core c →
    (controlGood e = false → s.begin c (.entry e p) = recordFails s c e 0x02) ∧
    (controlGood e = true → e.tr.ctrl.getLsbD 34 = true → s.begin c (.entry e p) = recordFails s c e 0x09) ∧
    (controlGood e = true → e.tr.ctrl.getLsbD 34 = false →
      (∀ f s1, (checkTarget e.tr.code).run { u.setCore c { started k t false with demand := k.demand } with cur := .core c } =
          .error (.trap f) s1 → s.begin c (.entry e p) = recordFails (s.markRaised f.unit) c e f.code) ∧
      (∀ s1, (checkTarget e.tr.code).run { u.setCore c { started k t false with demand := k.demand } with cur := .core c } =
          .ok ⟨⟩ s1 →
        (k.rbl.toNat < k.dwb.toNat + windowOf e → s.begin c (.entry e p) = recordFails s c e 0x06) ∧
        (k.dwb.toNat + windowOf e ≤ k.rbl.toNat → ∀ s2,
          (writeWords k.dwb.toNat (([e.tr.frame, e.tr.arg] ++ p).take (windowOf e)) 0).run s1 = .ok ⟨⟩ s2 →
          s.begin c (.entry e p) = (s2.setCore c { s2.core c with taken := none, demand := none }).counted c e.launch)))) ∧
  (∀ (t : W64) (s : State),
    (wellFormedPc t = false → ∃ s1, (checkTarget t).run s = .error (.trap { code := 0x03, addr := t }) s1) ∧
    (wellFormedPc t = true → ∀ l s1, (fetchLine (lineAddr t)).run s = .ok (.line l) s1 →
      (checkTarget t).run s =
        (if l.bits.toNat / 2 ^ 499 % 2 ^ 5 = 0 ∧ l.bits.getLsbD (480 + t.toNat % 8) = true then .ok ⟨⟩ s1
        else .error (.trap { code := 0x03, addr := t }) s1)) ∧
    (wellFormedPc t = true → ∀ s1, (fetchLine (lineAddr t)).run s = .ok .undecodable s1 →
      (checkTarget t).run s = .error (.trap { code := 0x03, addr := t }) s1)) ∧
  (∀ (s : State) (c v : Nat), c = s.sel → s.free c = true → (s.core c).taken = none → (s.core c).quiescing = false →
    (s.core c).sysring = [] → (s.core c).inbox = [] → (s.core c).ready = [] → dequeHolds (s.core c) = 0 →
    (s.core c).stealAt ≤ (s.core c).cycle → (s.victims c) ≠ [] →
    (s.victims c)[(s.core c).stealPos % (s.victims c).length]? = some v →
    exec .stealAttempt s = .next ((s.setCore c { s.core c with
      stealAt := (s.core c).cycle + 16, taken := some (.steal v) }).begin c (.steal v))) ∧
  (∀ (s : State) (c : Nat), c = s.sel →
    ((s.core c).cycle < (s.core c).levelAt → exec .loadLevel s = .next s) ∧
    ((s.core c).levelAt ≤ (s.core c).cycle →
      ((∀ rcpt, s.lightest c = some rcpt → (s.core c).ready.length < (s.core rcpt).ready.length + 8) →
        exec .loadLevel s = .next (s.setCore c { s.core c with levelAt := (s.core c).cycle + 4096 })) ∧
      (∀ rcpt n m, s.lightest c = some rcpt → m = (s.core rcpt).ready.length → m < 256 → m + 8 ≤ (s.core c).ready.length →
        (s.core rcpt).held = [] → s.linkFree rcpt = true → s.arrPosted rcpt = false →
        n = min (((s.core c).ready.length - m) / 2) (256 - m) →
        (∀ e ∈ (s.core c).ready, e.tr.ctrl.getLsbD 32 = true ∧ s.inDomain e.tr (s.base c + e.origin) rcpt = true) →
        exec .loadLevel s = .next (((s.setCore c { s.core c with
          levelAt := (s.core c).cycle + 4096, ready := (s.core c).ready.take ((s.core c).ready.length - n) }).setCore rcpt {
            s.core rcpt with
            ready := (s.core rcpt).ready ++ ((s.core c).ready.reverse.take n).map fun e => { e with passed := 0 },
            halted := false }).note 0x7 c n))))

/-- 01 R13 to R15, R31; 04 R102; 10 R268; 14 R328, R337: the oldest decrement of its sender and receiver, on a core
that holds none, counts JOIN down, releases the record or the root slot, or is a fault; a message enters the inbox; a
held arrival enters its ring; a late word lands in its register. Readings of the model: log 21 and 34, and 57
(what a stream had loaded of JOIN stands). -/
def Obligations.Arrivals : Prop :=
  (∀ (s : State) (src dst off : Nat) (l : Option Nat) (r : Rec) (n : Nat) (e : Entry),
    oldest s s.sel src dst (.decr off l) → (s.core dst).held = [] → r = (s.core dst).spad.rec off →
    n = r.ctrl.toNat % 65536 → e = releasedFrom s dst off r l →
    (1 < n → exec .joinDecrementApply s = .next ((touched (offNet s s.sel) dst (off + 24) 2).setCore dst { s.core dst with
      spad := (s.core dst).spad.setLe (off + 24) 2 (n - 1) })) ∧
    (n = 0 → exec .joinDecrementApply s =
      .next ((offNet s s.sel).postSys dst (.fault 0x02 e.src r.code r (s.pidx dst) l))) ∧
    (n = 1 → r.code ≠ 0 → (s.core dst).ready.length < 256 →
      exec .joinDecrementApply s = .next ((touched (offNet s s.sel) dst (off + 24) 2).setCore dst { s.core dst with
        spad := (s.core dst).spad.setLe (off + 24) 2 0, ready := (s.core dst).ready ++ [e], halted := false })) ∧
    (n = 1 → r.code ≠ 0 → 256 ≤ (s.core dst).ready.length →
      exec .joinDecrementApply s = .next ((touched (offNet s s.sel) dst (off + 24) 2).setCore dst { s.core dst with
        spad := (s.core dst).spad.setLe (off + 24) 2 0, held := [.ready e] })) ∧
    (n = 1 → r.code = 0 → exec .joinDecrementApply s = .next { (touched (offNet s s.sel) dst (off + 24) 2).setCore dst { s.core dst with
        spad := (s.core dst).spad.setLe (off + 24) 2 0 } with
      launches := s.launches.map fun y =>
        if y.part = s.nodeOf dst ∧ some y.tenant = s.resident dst ∧ s.pidx dst = 0 ∧ (y.st = .running ∨ y.st = .placing) ∧
          (∃ k, y.rootK = some k ∧ off + 32 * k = 0x3ffe0) then { y with released := true } else y })) ∧
  (∀ (s : State) (src dst : Nat) (a : Arrival), (oldest s s.sel src dst a) → (∃ off l, a = .decr off l) →
    (s.core dst).held ≠ [] →
    exec .joinDecrementApply s = .next ((offNet s s.sel).setCore dst { s.core dst with
      held := (s.core dst).held ++ [a] })) ∧
  (∀ (s : State) (src dst : Nat) (m : Msg), oldest s s.sel src dst (.msg m) →
    ((s.core dst).held = [] → (s.core dst).inbox.length < 64 →
      exec .messageArrival s = .next ((offNet s s.sel).setCore dst { s.core dst with
        inbox := (s.core dst).inbox ++ [m], halted := false })) ∧
    (((s.core dst).held ≠ [] ∨ 64 ≤ (s.core dst).inbox.length) →
      exec .messageArrival s = .next ((offNet s s.sel).setCore dst { s.core dst with
        held := (s.core dst).held ++ [.msg m] }))) ∧
  (∀ (s : State) (c : Nat), c = s.sel → s.sel2 = 0 →
    (∀ m t, (s.core c).held = .msg m :: t → (s.core c).inbox.length < 64 →
      exec .arrivalApply s = .next (s.setCore c { s.core c with
        inbox := (s.core c).inbox ++ [m], halted := false, held := t })) ∧
    (∀ e t, (s.core c).held = .ready e :: t → (s.core c).ready.length < 256 →
      exec .arrivalApply s = .next (s.setCore c { s.core c with
        ready := (s.core c).ready ++ [e], halted := false, held := t }))) ∧
  (∀ (s : State) (c : Nat) (e : SysEntry) (t : List SysEntry), c = s.sel → s.sel2 = 1 → (s.core c).heldSys = e :: t →
    ((s.core c).sysring.length < 64 →
      exec .arrivalApply s = .next (s.setCore c { s.core c with
        sysring := (s.core c).sysring ++ [e], heldSys := t, halted := false })) ∧
    (64 ≤ (s.core c).sysring.length → exec .arrivalApply s = .next s)) ∧
  (∀ (s : State) (c : Nat) (p : Posted) (t : List (Nat × Posted)), c = s.sel → 2 ≤ s.sel2 → s.posts = (c, p) :: t →
    (∀ e, p = .sys e → (s.core c).sysring.length < 64 → (s.core c).heldSys = [] →
      exec .arrivalApply s = .next { s.setCore c { s.core c with
        sysring := (s.core c).sysring ++ [e], halted := false } with posts := t }) ∧
    (∀ a, p = .arr a →
      (s.linkFree c = true → exec .arrivalApply s = .next (State.arrive { s with posts := t } c a)) ∧
      (s.linkFree c = false → exec .arrivalApply s = .next s))) ∧
  (∀ (s : State) (c : Nat) (p : Pend), c = s.sel → (s.core c).pend[s.sel2]? = some p →
    (∀ j < s.sel2, ∀ q, (s.core c).pend[j]? = some q → q.word ≠ p.word ∨ q.fw ≠ p.fw) →
    (p.kind = .data → exec .pendingRegisterWriteLands s = .next (s.setCore c (landed { s.core c with
      pend := (s.core c).pend.eraseIdx s.sel2 } p p.val))) ∧
    (p.kind = .alloc → exec .allocReply s = .next (s.setCore c (landed { s.core c with
      pend := (s.core c).pend.eraseIdx s.sel2 } p p.val))))

/-- 04 R91, 07 R180, 19 R384: the front end answers the oldest partition control: 2 for a node below level 8, 1 for a
node that is not idle, and 0 with the tree changed, the ports empty and no tenant resident; the answer goes to the
mailbox or lands in the word that the control named, after the earlier writes of that word (04 R102). Readings of the model:
log 20. -/
def Obligations.PartitionControls : Prop :=
  (∀ (s : State) (p : PartCtl) (t : List PartCtl) (v : Nat), s.tickDue = false → s.parts = p :: t → p.decided = none → p.waits = false →
    ((256 ≤ p.node ∧ v = 2) ∨ (p.node < 256 ∧ v = 1 ∧
      (p.merge = false → s.nodeIdle p.node = false) ∧
      (p.merge = true → (s.nodeIdle (2 * p.node) && s.nodeIdle (2 * p.node + 1)) = false))) →
    (p.core = none →
      exec .partctlReply s = .next (answered { s with parts := t } (if v = 1 then 10 else v))) ∧
    (∀ c i, p.core = some c → p.reg.toNat < 0xf80 → p.fw = true →
      (s.core c).pend[i]? = some { word := p.word, kind := .partctl, val := 0, fw := true } →
      (∀ j < i, ∀ q : Pend, (s.core c).pend[j]? = some q → q.word ≠ p.word ∨ q.fw = false) →
      exec .partctlReply s = .next (State.setCore { s with parts := t } c (landed { s.core c with
        pend := (s.core c).pend.eraseIdx i } { word := p.word, kind := .partctl, val := 0, fw := true }
        (BitVec.ofNat 64 v)))) ∧
    (∀ (c i : Nat) (q : Pend), p.core = some c → p.reg.toNat < 0xf80 → p.fw = true → (s.core c).pend[i]? = some q → q.word = p.word →
      q.fw = true → q.kind ≠ .partctl →
      (∀ j < i, ∀ q : Pend, (s.core c).pend[j]? = some q → q.word ≠ p.word ∨ q.fw = false) →
      exec .partctlReply s = .next { s with parts := { p with decided := some v } :: t })) ∧
  (∀ (s : State) (p : PartCtl) (t : List PartCtl) (x : Node), s.tickDue = false → s.parts = p :: t → p.decided = none → p.waits = false →
    p.merge = false → p.core = none → 1 ≤ p.node → p.node < 256 → s.node? p.node = some x → s.nodeIdle p.node = true →
    (∀ y ∈ s.nodes, y.n = p.node → y.resident = none ∧ y.phase = .steady) →
    ∃ u a b, exec .partctlReply s = .next u ∧ u.parts = t ∧ u.mbstat = 0 ∧ u.mbcmd.getLsbD 31 = false ∧
      u.node? p.node = none ∧ u.node? (2 * p.node) = some a ∧ u.node? (2 * p.node + 1) = some b ∧
      a.tset = x.tset ∧ b.tset = x.tset ∧ a.resident = none ∧ b.resident = none ∧
      ∀ c ∈ nodeCoreList p.node, ∀ d, (u.core c).port d = []) ∧
  (∀ (s : State) (p : PartCtl) (t : List PartCtl) (x y : Node), s.tickDue = false → s.parts = p :: t → p.decided = none → p.waits = false →
    p.merge = true → p.core = none → 1 ≤ p.node → p.node < 256 → s.node? (2 * p.node) = some x →
    s.node? (2 * p.node + 1) = some y → s.nodeIdle (2 * p.node) = true → s.nodeIdle (2 * p.node + 1) = true →
    (∀ z ∈ s.nodes, z.n = 2 * p.node ∨ z.n = 2 * p.node + 1 → z.resident = none ∧ z.phase = .steady) →
    ∃ u a, exec .partctlReply s = .next u ∧ u.parts = t ∧ u.mbstat = 0 ∧ u.mbcmd.getLsbD 31 = false ∧
      u.node? (2 * p.node) = none ∧ u.node? (2 * p.node + 1) = none ∧ u.node? p.node = some a ∧ a.resident = none ∧
      (∀ k, k ∈ a.tset ↔ k ∈ x.tset ∨ k ∈ y.tset) ∧ ∀ c ∈ nodeCoreList p.node, ∀ d, (u.core c).port d = [])

/-! ## Engines at work -/

/-- 09 R229, R231 to R234; 10 R261: the next copy of a channel is skipped after a stop, complete at once with no
bytes, refused, or starts; its bytes reach the destination, at most to the next step of 64 bytes at once, and BYTES
and the outcome follow; its record goes to the ring, whose WHEAD advances, and the resets behind it clear the stop.
Readings of the model: log 17, 46 and 63, and 57 (what a stream had loaded of the record's bytes stands). -/
def Obligations.Copies : Prop :=
  (∀ (s : State) (r : ChanRef) (cp d : Copy) (rest : List ChanItem), (s.chan r).items = .copy cp :: rest →
    cp.started = false → cp.block = false → cp.lay = none → s.ringFull cp.bind = false →
    d = { cp with c0 := match cp.bind.cons with | some (k, n) => (tget 0 (s.core k).cwp n).toNat | none => 0 } →
    ((s.chan r).stop = some cp.bind.id ∧ (∃ t, exec (.copyStart r) s = .next t ∧ t.mem = s.mem ∧
      t.chan r = { s.chan r with
        items := .copy (copyEnded d 3 0) :: rest }) ∨
    (s.chan r).stop ≠ some cp.bind.id ∧ cp.len = 0 ∧ (∃ t, exec (.copyStart r) s = .next t ∧ t.mem = s.mem ∧
      t.chan r = { s.chan r with
        items := .copy (copyEnded d 0 0) :: rest }) ∨
    (s.chan r).stop ≠ some cp.bind.id ∧ cp.len ≠ 0 ∧ s.aliasHeld d = true ∧ exec (.copyStart r) s = .next s ∨
    (s.chan r).stop ≠ some cp.bind.id ∧ cp.len ≠ 0 ∧ s.aliasHeld d = false ∧ (∃ t s1 o, exec (.copyStart r) s = .next t ∧
      s.refusal (refEng r) d = (o, s1) ∧ t.mem = s1.mem ∧
      t.chan r = { s.chan r with items := .copy (match o with
        | some code => copyEnded d 2 code
        | none => { d with started := true, kind := s1.copySo d, demand := none }) :: rest }))) ∧
  (∀ (s : State) (eng : Bool) (cp : Copy), cp.lay = none →
    (((∃ i < cp.len, ¬ sourceGood s eng cp i) ∨ ∃ i < cp.len, ¬ targetGood s cp i) →
      s.refusal eng cp = (some 0x09, s)) ∧
    ((∀ i < cp.len, sourceGood s eng cp i ∧ targetGood s cp i) →
      (cp.dspace ≠ .mem → s.refusal eng cp = (none, s)) ∧
      (cp.dspace = .mem → (s.refusal eng cp).1 =
        if (s.hitsAlias cp.work cp.dstAt cp.len).1 then some 0x0a else none))) ∧
  (∀ (s : State) (r : ChanRef) (cp : Copy) (rest : List ChanItem), (s.chan r).items = .copy cp :: rest →
    cp.started = true → cp.outcome = none → cp.lay = none →
    ∃ t, exec (.copyChunk r) s = .next t ∧ ∀ d, (t.chan r).head = some d →
      cp.moved ≤ d.moved ∧ d.moved ≤ cp.moved / 64 * 64 + 71) ∧
  (∀ (s : State) (c n : Nat) (cp : Copy) (rest : List ChanItem) (d o : Nat), (s.chan (.core c n)).items = .copy cp :: rest →
    cp.started = true → cp.outcome = none → cp.moved = 0 → cp.lay = none → cp.issuer = c → cp.olds = [] → cp.seen = [] →
    cp.pinS = none → cp.pinD = none → 0 < cp.len →
    cp.len ≤ 64 → cp.sspace = .spad → cp.dspace = .die → cp.src + cp.len ≤ 2 ^ 64 → cp.dst + cp.len ≤ 2 ^ 64 →
    (∀ i < cp.len, s.onchip c .spad (cp.src + i) 1 = some (.spad c (cp.src % 0x40000 + i))) →
    (∀ i < cp.len, s.onchip c .die (cp.dst + i) 1 = some (.die d (o + i))) → Memory.wf (tget [] s.dspad d) = true →
    ∃ t, exec (.copyChunk (.core c n)) s = .next t ∧ t.mem = s.mem ∧
      (∀ i < cp.len, Memory.get (tget [] t.dspad d) (o + i) = (s.core c).spad.get (cp.src % 0x40000 + i)) ∧
      (∀ a, a < o ∨ o + cp.len ≤ a → Memory.get (tget [] t.dspad d) a = Memory.get (tget [] s.dspad d) a) ∧
      (t.chan (.core c n)).head.map (fun x => (x.moved, x.outcome)) = some (cp.len, some (0, 0, 0))) ∧
  (∀ (s s1 s2 : State) (c n : Nat) (cp : Copy) (rest : List ChanItem) (p q : Nat) (so rcpt : Bool),
    (s.chan (.core c n)).items = .copy cp :: rest → cp.started = true → cp.outcome = none → cp.moved = 0 → cp.lay = none →
    cp.olds = [] → cp.seen = [] → cp.pinS = none → cp.pinD = none → 0 < cp.len → cp.len ≤ 64 → cp.src < 2 ^ 64 → cp.dst < 2 ^ 64 → cp.src % 4096 + cp.len ≤ 4096 →
    cp.dst % 4096 + cp.len ≤ 4096 → cp.sspace = .mem → cp.dspace = .mem →
    (cp.src + cp.len ≤ cp.dst ∨ cp.dst + cp.len ≤ cp.src) →
    (unitLoc cp.work .mem cp.src 1 .load).run s = .ok (.phys p so) s1 →
    (unitLoc cp.work .mem cp.dst 1 .store).run s1 = .ok (.phys q rcpt) s2 →
    p % 4096 = cp.src % 4096 → q % 4096 = cp.dst % 4096 → s1.poisoned p = false →
    (∀ i < cp.len, s2.poisoned (p + i) = false ∧ s2.linkError (q + i) = false) →
    (∀ l, q / 64 ≤ l → 64 * l < q + cp.len → s2.mayWrite (4096 + cp.issuer / 8) l = true) → s2.mem.wf = true →
    ∃ t, exec (.copyChunk (.core c n)) s = .next t ∧ (∀ i < cp.len, t.mem.get (q + i) = s2.mem.get (p + i)) ∧
      (∀ a, a < q ∨ q + cp.len ≤ a → t.mem.get a = s2.mem.get a) ∧
      (t.chan (.core c n)).head.map (fun x => (x.moved, x.outcome)) = some (cp.len, some (0, 0, 0))) ∧
  (∀ (s : State) (c n : Nat) (cp : Copy) (rest : List ChanItem) (o : Nat × Nat × Nat) (ch : Chan),
    (s.chan (.core c n)).items = .copy cp :: rest → cp.outcome = some o →
    (s.ringFull cp.bind = true → exec (.copyComplete (.core c n)) s = .next s) ∧
    (s.ringFull cp.bind = false → ch = { s.chan (.core c n) with
        items := rest.dropWhile (· == .reset),
        stop := if rest.head? = some .reset then none else if o.1 = 1 ∨ o.1 = 2 then some cp.bind.id
          else (s.chan (.core c n)).stop } →
      (cp.bind.ring = none → exec (.copyComplete (.core c n)) s = .next (channelSet s c n ch)) ∧
      (∀ k off h at_, cp.bind.ring = some (k, off) → h = (s.core k).spad.le off 4 →
        at_ = off + 32 + 32 * (h % 2 ^ cp.bind.logn) →
        exec (.copyComplete (.core c n)) s = .next (channelSet (touched (touched (spadSet s k
          (((s.core k).spad.setLe at_ 32 (cp.tag + 2 ^ 32 * o.1 + 2 ^ 48 * o.2.1 + 2 ^ 56 * n + 2 ^ 64 * cp.moved +
            2 ^ 128 * o.2.2 + 2 ^ 192 * s.pidx cp.issuer)).setLe off 4 ((h + 1) % 2 ^ 32))) k at_ 32) k off 4) c n ch))))

/-- 11 R274 to R276, R281 to R287, R289; 19 R390: a command whose predecessors have retired starts, with its record
checked; a started one has its effect as it retires, with the record of its outcome, and one that has started beside
it keeps what the core held and which cells were written; a row that faults stops its command there; the eight gang commands of a row join, and are
refused where they differ; a sequencer's command latches the `TCFG` values of the eight cores. Readings of the model:
log 16. -/
def Obligations.Commands : Prop :=
  (∀ (s : State) (c p : Nat) (x : Cmd), (s.core c).cmds[p]? = some x → x.started = false → x.outcome = none →
    x.gang = false → (∀ n ∈ x.deps, ∀ y ∈ (s.core c).cmds, y.no ≠ n) →
    (x.op ∈ [CmdOp.mma, CmdOp.amov, CmdOp.tzero, CmdOp.azero] →
      exec (.commandStart (.core c p)) s = .next (cmdSet s c p { x with started := true, demand := none })) ∧
    (∀ l : Layout, x.op = .tldq → l = implicitRecord x →
      ∃ y, exec (.commandStart (.core c p)) s = .next (cmdSet s c p y) ∧ startedWith s x l y) ∧
    (∀ bs s1, x.op ∈ [CmdOp.tld, CmdOp.tst, CmdOp.ast, CmdOp.ald] → (unitRead x.work x.sp x.wa 64).run s = .ok bs s1 →
      ∃ y, exec (.commandStart (.core c p)) s = .next (cmdSet s1 c p y) ∧
        (layoutValid bs = false → y = { x with started := true, outcome := some (2, 0x0c), demand := none }) ∧
        (layoutValid bs = true → startedWith s1 x (layoutOf bs) y))) ∧
  (∀ (s : State) (c p : Nat) (x : Cmd), (s.core c).cmds[p]? = some x →
    (∀ o code, x.outcome = some (o, code) → exec (.commandRetire (.core c p)) s = .next (retired s c p x o code 0)) ∧
    (∀ q y, x.outcome = none → x.started = true → x.op = .tzero → (s.core c).cmds[q]? = some y → q ≠ p →
      y.started = true → y.outcome = none →
      ∃ t, exec (.commandRetire (.core c p)) s = .next t ∧
        { y with olds := (c, { (s.core c).mat with
          wrote := { tiles := [(8192 * x.d, 8192)], scales := [(512 * x.d, 512)] } }) :: y.olds } ∈ (t.core c).cmds) ∧
    (alone s c p → x.olds = [] → x.outcome = none → x.started = true →
    (x.op = .tzero →
      exec (.commandRetire (.core c p)) s = .next (retired (s.setCore c { s.core c with
        tiles := (s.core c).tiles.clear (8192 * x.d) 8192, scales := (s.core c).scales.clear (512 * x.d) 512 }) c p x 0 0 0) ∧
      ∀ j < 64, ∀ i, ∀ w, w * (i + 1) ≤ 1024 → (((s.core c).zeroTile x.d).tileElem x.d j i w = 0) ∧
        (i < 512 → ((s.core c).zeroTile x.d).scaleAt x.d i = 0x28)) ∧
    (x.op = .azero →
      ∃ k, exec (.commandRetire (.core c p)) s = .next (retired (s.setCore c k) c p x 0 0 0) ∧
        k = { s.core c with accs := k.accs } ∧
        (∀ i < 64, ∀ j < 64, k.accAt x.d i j = 0) ∧
        ∀ a ≠ x.d, ∀ i < 64, ∀ j < 64, k.accAt a i j = (s.core c).accAt a i j) ∧
    (∀ d rows cols, x.op = .mma → x.gang = false →
      rows = x.cfgA / 2 ^ 8 % 64 + 1 → cols = x.cfgB / 2 ^ 8 % 64 + 1 →
      d = 8 * (x.cfgA % 256) / (4 * 2 ^ (x.cfgA / 2 ^ 14 % 4)) →
      ∃ k, exec (.commandRetire (.core c p)) s = .next (retired (s.setCore c k) c p x 0 0 0) ∧
        k = { s.core c with accs := k.accs } ∧
        ∀ a i j, i < 64 → j < 64 → k.accAt a i j = (if a = x.d ∧ i < rows ∧ j < cols then
          product x ((s.core c).accAt a i j) (expanded_ (s.core c) x.ty x.a i d (x.fl.testBit 0))
            (expanded_ (s.core c) x.ty x.b j d (x.fl.testBit 1)) % 2 ^ 32
          else (s.core c).accAt a i j)) ∧
    (∀ d rows w, x.op = .amov → (s.core c).memOk = true →
      rows = x.cfgD / 2 ^ 8 % 64 + 1 → w = 4 * 2 ^ (x.cfgD / 2 ^ 14 % 4) → d = 8 * (x.cfgD % 256) / w → x.cfgD % 256 ≤ 128 →
      ∃ k, exec (.commandRetire (.core c p)) s = .next (retired (s.setCore c k) c p x 0 0 0) ∧
        k = { s.core c with tiles := k.tiles } ∧
        (∀ b, (∀ j < rows, b < 8192 * x.d + 128 * j ∨ 8192 * x.d + 128 * j + x.cfgD % 256 ≤ b) →
          k.tiles.get b = (s.core c).tiles.get b) ∧
        ∀ j < rows, ∀ i < d, k.tileElem x.d j i w =
          (convert x.ty .f32 .rne (x.fl == 1) ((s.core c).accAt x.a (x.wb % 64 + j) (x.wb / 256 % 64 + i))).1 % 2 ^ w) ∧
    (∀ l st, x.lay = some l → x.rows = 0 → s.sel2 = 0 → st 0 = s →
      (x.op ∈ [CmdOp.tst, CmdOp.ast] → RowSteps l.n1 (rowStore x l) st →
        exec (.commandRetire (.core c p)) s = .next (retired (st l.n1) c p x 0 0 l.n1)) ∧
      (x.op ∈ [CmdOp.tld, CmdOp.ald, CmdOp.tldq] → RowSteps l.n1 (rowLoad x l) st →
        exec (.commandRetire (.core c p)) s = .next (retired (st l.n1) c p x 0 0 l.n1)) ∧
      (∀ j code ad u, j < l.n1 → x.op ∈ [CmdOp.tld, CmdOp.ald, CmdOp.tldq] → RowSteps j (rowLoad x l) st →
        (readElems x.work l j l.n0).run (st j) = .error (.fault code ad) u →
        exec (.commandRetire (.core c p)) s =
          .next (retired (u.markRaised (raisedUnit code x.asid ad)) c p x 1 code j))))) ∧
  (∀ (s : State) (row g : Nat) (x : Nat → Cmd), row = s.sel →
    (∀ p < 8, (s.core (8 * row + p)).cmds = [x p] ∧ (x p).op = .mma ∧ 8 ≤ (x p).fl ∧ (x p).gangNo = g ∧
      (x p).joined = false ∧ (x p).outcome = none) →
    ∃ t, exec .gangJoin s = .next t ∧ ∀ p < 8, (t.core (8 * row + p)).cmds = [{ x p with
      joined := true,
      outcome := if (List.range 8).all fun q => (x q).ty == (x 0).ty && (x q).fl % 8 == (x 0).fl % 8 &&
        cfgDepth (x q).cfgA == cfgDepth (x 0).cfgA then none else some (2, 0x02) }]) ∧
  (∀ (s : State) (row g d : Nat) (x : Nat → Cmd), (s.seqU row).cmds = [] →
    (∀ p < 8, (s.core (8 * row + p)).cmds = [x p] ∧ (x p).op = .mma ∧ 8 ≤ (x p).fl ∧ (x p).gangNo = g ∧
      (x p).core = 8 * row + p ∧ (x p).olds = [] ∧ (x p).joined = true ∧ (x p).outcome = none ∧
      cfgDepth (x p).cfgA = d) →
    ((∀ p < 8, (x p).started = false ∧ ∀ n ∈ (x p).deps, (x p).no ≠ n) →
      ∀ p < 8, ∃ t, exec (.commandStart (.core (8 * row + p) 0)) s = .next t ∧
        ∀ q < 8, (t.core (8 * row + q)).cmds = [{ x q with started := true, demand := none }]) ∧
    ((∀ p < 8, (x p).started = true) →
      ∀ p < 8, ∃ t, exec (.commandRetire (.core (8 * row + p) 0)) s = .next t ∧
        ∀ q < 8, (t.core (8 * row + q)).cmds = [] ∧
          ∀ i < 64, ∀ j < 64, (t.core (8 * row + q)).accAt (x q).d i j = (if j < (x q).cfgB / 2 ^ 8 % 64 + 1 then
            product (x q) ((s.core (8 * row + q)).accAt (x q).d i j)
              (expanded_ (s.core (8 * row + i / 8)) (x (i / 8)).ty (x (i / 8)).a (i % 8) d ((x (i / 8)).fl.testBit 0))
              (expanded_ (s.core (8 * row + q)) (x q).ty (x q).b j d ((x q).fl.testBit 1)) % 2 ^ 32
            else (s.core (8 * row + q)).accAt (x q).d i j))) ∧
  (∀ (s : State) (q p : Nat) (x : Cmd), (s.seqU q).cmds[p]? = some x → x.started = false → x.outcome = none →
    (∀ n ∈ x.deps, ∀ y ∈ (if n % 16 = 8 then (s.seqU q).cmds else (s.core (8 * q + n % 16)).cmds), y.no ≠ n / 16) →
    (x.joined = false → exec (.commandStart (.seq q p)) s = .next (s.setSeq q { s.seqU q with
      cmds := (s.seqU q).cmds.set p { x with started := true, outcome := some (2, 0x02), demand := none } })) ∧
    (x.joined = true → (x.op = .mma → ∀ j < 8,
        shaped { op := .mma, ty := x.ty, fl := 8 } 0 ((s.core (8 * q + j)).cfg x.a) ((s.core (8 * q + j)).cfg x.b) 0 = true ∧
        cfgDepth ((s.core (8 * q + j)).cfg x.a) = cfgDepth ((s.core (8 * q)).cfg x.a)) →
      exec (.commandStart (.seq q p)) s = .next (s.setSeq q { s.seqU q with
        cmds := (s.seqU q).cmds.set p { x with
          started := true, demand := none, cfgA := (s.core (8 * q)).cfg x.a,
          cfgBs := (List.range 8).map fun j => (s.core (8 * q + j)).cfg x.b } })) ∧
    (x.joined = true → x.op = .mma → (∃ j < 8,
        shaped { op := .mma, ty := x.ty, fl := 8 } 0 ((s.core (8 * q + j)).cfg x.a) ((s.core (8 * q + j)).cfg x.b) 0 = false ∨
        cfgDepth ((s.core (8 * q + j)).cfg x.a) ≠ cfgDepth ((s.core (8 * q)).cfg x.a)) →
      exec (.commandStart (.seq q p)) s = .next (s.setSeq q { s.seqU q with
        cmds := (s.seqU q).cmds.set p { x with started := true, outcome := some (2, 0x02), demand := none } }))) ∧
  (∀ (s : State) (q d : Nat) (x : Cmd), (s.seqU q).cmds = [x] → x.started = true → x.outcome = none → x.olds = [] →
    (∀ i y, (s.seqU q).inst = some i → tget none s.insts i = some y → y.st = .running) →
    (∀ p < 8, (s.core (8 * q + p)).cmds = []) → d = cfgDepth x.cfgA →
    ∃ t, exec (.commandRetire (.seq q 0)) s = .next t ∧ (t.seqU q).cmds = [] ∧
      (t.seqU q).recs.head? = some (x.cid, recordWord 0 0 0 x.cid) ∧
      ∀ j < 8, (x.op = .mma → ∀ i < 64, ∀ m < 64, (t.core (8 * q + j)).accAt x.d i m =
          (if m < x.cfgBs.getD j 0 / 2 ^ 8 % 64 + 1 then
            product x ((s.core (8 * q + j)).accAt x.d i m)
              (expanded_ (s.core (8 * q + i / 8)) x.ty x.a (i % 8) d (x.fl.testBit 0))
              (expanded_ (s.core (8 * q + j)) x.ty x.b m d (x.fl.testBit 1)) % 2 ^ 32
            else (s.core (8 * q + j)).accAt x.d i m)) ∧
        (x.op = .azero → ∀ i < 64, ∀ m < 64, (t.core (8 * q + j)).accAt x.d i m = 0) ∧
        (x.op = .tzero → ∀ i < 64, ∀ m w, w * (m + 1) ≤ 1024 → (t.core (8 * q + j)).tileElem x.d i m w = 0))

/-! ## Stops, residency, switches and the management side -/

/-- 06 R147; 11 R277; 18 R361, R364, R365, R368, R369: a slot with no instruction raises its fault; a team fault ends
every member; a machine check poisons the line and ends the task that consumed its data, once its commands have
retired; the watchdog stops a task, whose commands retire refused, and which restarts or ends with 0x0d; a drain that
a port holds up is abandoned after 4,096 cycles. Readings of the model: log 36, 41, 44 (a member's fault too
waits for its commands) and 75 (a dirty line that the host link refuses). -/
def Obligations.Stops : Prop :=
  (∀ (code : BitVec 8) (addr : W64) (data : Bool) (s : State) (c : Nat), s.atSlot c = true →
    exec (.unassignedOpcode code addr data) s =
      .next (s.deliver c (s.core c).pc data { code := code.toNat, addr := addr } (s.core c).seq)) ∧
  (∀ (code : BitVec 8) (addr : W64) (data : Bool) (s : State) (r i : Nat), s.cur = .seq r → (s.seqU r).inst = some i →
    exec (.unassignedOpcode code addr data) s = exec (.teamFault i code.toNat) s) ∧
  (∀ (code : BitVec 8) (addr : W64) (data : Bool) (s : State) (g i : Nat), s.cur = .eng g → (s.engU g).inst = some i →
    exec (.unassignedOpcode code addr data) s = exec (.teamFault i code.toNat) s) ∧
  (∀ (s : State) (i code : Nat) (x : Inst) (l : Launch), tget none s.insts i = some x →
    (x.faulted = true → exec (.teamFault i code) s = .next s) ∧
    (x.faulted = false → x.st = .running → s.launch? x.launch = some l →
      ∃ t xt lt, exec (.teamFault i code) s = .next t ∧
        (∀ c ∈ x.live, (s.core c).task.isSome = true → (t.core c).cmds = [] ∧
          ((s.core c).dq = [] → (t.core c).task = none) ∧
          ((s.core c).dq ≠ [] → (t.core c).stopAt = some { waited := 0, counted := true })) ∧
        tget none t.insts i = some xt ∧ (xt.st = .draining ∨ xt.st = .ended) ∧ xt.live = [] ∧ xt.pipes = [] ∧
        xt.faulted = true ∧ t.launch? x.launch = some lt ∧ lt.faults = true ∧
        lt.fcode = (if l.fcode = 0 then code else l.fcode) ∧
        lt.nfault = Nat.min (l.nfault + x.cores.length) 0xffffffff)) ∧
  (∀ (s : State) (c pa : Nat), (2048 ≤ c ∨ (s.core c).task = none) →
    exec (.machineCheck c pa) s = .next (poisonedAt s pa)) ∧
  (∀ (s u : State) (c pa : Nat) (t : Task), c < 2048 → (s.core c).task = some t → t.kind ≠ .firmware →
    (∀ st, (s.core c).stopAt = some st → st.counted = false) →
    u = ((State.rsLose (poisonedAt s pa) c pa).launchEvent t.launch 6 0x12 (BitVec.ofNat 64 c) (BitVec.ofNat 64 pa)).logEvent 2 →
    (t.kind ≠ .member → (s.core c).cmds = [] → exec (.machineCheck c pa) s =
      .next ((u.setCore c (idled (unread (u.core c)))).recordFault t.launch 0x12)) ∧
    ((s.core c).cmds ≠ [] → exec (.machineCheck c pa) s = .next (u.setCore c { unread (u.core c) with
      ending := some (0x12, BitVec.ofNat 64 pa), resume := none, barAt := none, demand := none, stopAt := none }))) ∧
  (∀ (s : State) (c pa i : Nat) (t : Task) (x : Inst) (l : Launch), c < 2048 → (s.core c).task = some t →
    t.kind = .member → (s.core c).inst = some i → (s.core c).stopAt = none → (s.core c).cmds = [] → tget none s.insts i = some x →
    x.faulted = false → x.st = .running → s.launch? x.launch = some l →
    ∃ u xt lt, exec (.machineCheck c pa) s = .next u ∧ (u.core c).task = none ∧ (u.core c).cmds = [] ∧
      tget none u.insts i = some xt ∧ xt.live = [] ∧ xt.faulted = true ∧ u.launch? x.launch = some lt ∧ lt.faults = true ∧
      lt.fcode = (if l.fcode = 0 then 0x12 else l.fcode) ∧
      lt.nfault = Nat.min (l.nfault + x.cores.length) 0xffffffff) ∧
  (∀ (s : State) (c : Nat) (t : Task), c = s.sel → (s.core c).task = some t → (t.kind = .normal ∨ t.kind = .sys) →
    (s.core c).held = [] → (s.core c).ready.length < 256 →
    ((s.core c).stopAt = none → (s.core c).wd < (s.core c).tasklimL → exec .watchdogStop s = .next s) ∧
    ((s.core c).stopAt = none → (s.core c).dq = [] → (s.core c).tasklimL ≤ (s.core c).wd →
      ((s.core c).ending = none → (s.core c).pend = [] → (s.core c).cmds = [] →
        ∃ u, exec .watchdogStop s = .next u ∧ Stopped s u c t) ∧
      (∀ x, (s.core c).cmds = [x] → ∃ u, exec .watchdogStop s = .next u ∧ (u.core c).task = none ∧ (u.core c).cmds = [] ∧
        (u.core c).recs.head? = some (x.cid, recordWord 2 0x0d x.rows x.cid)) ∧
      (∀ code a, (s.core c).ending = some (code, a) → ∃ u, exec .watchdogStop s = .next u ∧ (u.core c).task = none ∧
        (u.core c).cmds = [] ∧ u.launches = (s.recordFault t.launch code).launches)) ∧
    (∀ st, (s.core c).stopAt = some st → st.counted = false → (s.core c).pend = [] → (s.core c).cmds = [] →
      4096 ≤ st.waited → s.portBlocked c = true →
      ∃ u, exec .watchdogDrainAbandoned s = .next u ∧ Stopped s u c t) ∧
    (∀ st, (s.core c).stopAt = some st → (st.waited < 4096 ∨ s.portBlocked c = false) →
      exec .watchdogDrainAbandoned s = .next s))

/-- 03 R78, R83, R84; 05 R116; 13 R317; 18 R366, R372: a waiting launch resolves its predecessors, and its gate opens
when its units are up; Sluice's reports, in the order in which it was asked, let the gates be looked at again; a
demand fetch is served from the page that Sluice holds, or expires at its limit, that of a launch at any time, since 21
R410 gives it none (log 24, the model's choice); a page moves to another frame, or, at
a tenant switch, to far memory, with its bytes and its leaf entry; a line fetched ahead changes nothing but what a
fetch may. Readings of the model: log 24, 28 and 40. -/
def Obligations.Residency : Prop :=
  (∀ (s : State) (a : Nat) (l : Launch), s.launch? a = some l →
    (l.st = .waiting →
      ((∃ e ∈ l.preds, predBroken s l.tenant e) →
        s.advanceLaunch a = launchSet s a fun x => { x with pfail := true, st := .ending, time := s.time }) ∧
      ((∀ e ∈ l.preds, ¬ predBroken s l.tenant e) → (∃ e ∈ l.preds, predOpen s l.tenant e) → s.advanceLaunch a = s) ∧
      ((∀ e ∈ l.preds, ¬ predBroken s l.tenant e ∧ ¬ predOpen s l.tenant e) →
        ∃ t m, s.advanceLaunch a = t ∧ t.launch? a = some m ∧ askedFor t m ∧ t.cores = s.cores ∧
          (gateOpens t m (atHome t m) → m.st = .placing) ∧ (¬ gateOpens t m (atHome t m) → m.st = .gated))) ∧
    (l.st = .gated →
      (gateOpens s l (atHome s l) → s.advanceLaunch a = launchSet s a fun x => { x with st := .placing }) ∧
      (¬ gateOpens s l (atHome s l) → s.advanceLaunch a = s)) ∧
    (l.st ≠ .waiting → l.st ≠ .gated → s.advanceLaunch a = s)) ∧
  (∀ (s : State) (asid vp : Nat),
    (¬ reportable s (asid, vp) → ∀ b, exec (.sluiceUnitReport asid vp b) s = .next s) ∧
    (reportable s (asid, vp) →
      (s.unitNear asid vp = false → (asid, vp) ∉ s.unreach →
        exec (.sluiceUnitReport asid vp false) s = .next (State.advanceAll { s with
          asked := s.asked.filter fun u => u != (asid, vp), unreach := (asid, vp) :: s.unreach,
          raised := s.raised.filter fun u => u != (asid, vp) })) ∧
      (s.unitNear asid vp = true →
        exec (.sluiceUnitReport asid vp false) s = .next s ∧
        exec (.sluiceUnitReport asid vp true) s = .next (State.advanceAll { s with
          asked := s.asked.filter fun u => u != (asid, vp), unreach := s.unreach.filter fun u => u != (asid, vp),
          raised := s.raised.filter fun u => u != (asid, vp) })))) ∧
  (∀ (s : State) (asid vp ea : Nat) (p : FarPage) (f : Nat × Nat), reportable s (asid, vp) → s.pages = [p] →
    p.asid = asid → p.va / 0x200000 ≤ vp → vp ≤ (p.va + p.size - 1) / 0x200000 → s.frames = [f] → 0 < p.size →
    mayComeUp s p f.1 ea →
    ∃ t, BroughtUp s t p f.1 ea ∧ t.asked = (s.asked.filter fun u => u != (asid, vp)) ∧
      exec (.sluiceUnitReport asid vp true) s =
        .next (State.advanceAll { t with
          unreach := t.unreach.filter fun u => u != (asid, vp), raised := t.raised.filter fun u => u != (asid, vp) })) ∧
  (∀ (s : State) (w : Waiter) (frame ea : Nat) (d : Demand) (p : FarPage), s.demandOf w = some d →
    s.pages = [p] → p.asid = d.asid → p.va ≤ d.va → d.va < p.va + p.size → mayComeUp s p frame ea →
    ∃ t, BroughtUp s t p frame ea ∧ exec (.demandFetchServed w frame) s = .next (t.setDemand w none) ∧
      (∀ c, w = .core c → t.setDemand w none = t.setCore c { t.core c with demand := none }) ∧
      (∀ c, w = .data c → t.setDemand w none = t.setCore c { t.core c with demandD := none })) ∧
  (∀ (s : State) (w : Waiter) (d : Demand), s.demandOf w = some d →
    (((∃ a, w = .launch a) ∨ d.limit ≤ d.waited) →
      exec (.demandTimeout w) s = .next (s.setDemand w (some { d with expired := true }))) ∧
    ((∀ a, w ≠ .launch a) → d.waited < d.limit → exec (.demandTimeout w) s = .next s)) ∧
  (∀ (s s1 : State) (asid n pa ea0 ea : Nat) (va : W64), canonical57 va.toNat = true →
    s.leafAt asid va.toNat = some (ea0, n, pa) →
    s.anyPoison pa n = false → pa + n ≤ 0xc000000000 → s.mapCount pa n = 1 →
    s.pinnedRange pa n = false → s.forget asid (va.toNat / n * n) n = some s1 → s1.leafAt asid va.toNat = some (ea, n, pa) →
    s1.mem.wf = true → (ea + 8 ≤ pa ∨ pa + n ≤ ea) → frontWrites s1 ea = true →
    (∀ f, frameFree s f n → (f + n ≤ pa ∨ pa + n ≤ f) → (ea + 8 ≤ f ∨ f + n ≤ ea) →
      ∃ t, exec (.sluiceMove asid va (some f)) s = .next t ∧ (∀ i < n, t.mem.get (f + i) = s1.mem.get (pa + i)) ∧
        t.mem.le ea 8 = leafTo (s1.mem.le ea 8) f ∧ (pa, n) ∈ t.frames ∧
        ∀ a, (a < f ∨ f + n ≤ a) → (a < pa ∨ pa + n ≤ a) → (a < ea ∨ ea + 8 ≤ a) → t.mem.get a = s1.mem.get a) ∧
    (s.ovsub = true → (∃ x ∈ s.nodes, x.phase = .saved ∧ x.gone = some (tget 256 s.asidOwner asid)) →
      ∃ t p, exec (.sluiceMove asid va none) s = .next t ∧ t.pages = s.pages ++ [p] ∧ p.asid = asid ∧
        p.va = va.toNat / n * n ∧ p.size = n ∧ (∀ i < n, p.bytes.get i = s1.mem.get (pa + i)) ∧ (pa, n) ∈ t.frames ∧
        t.mem.le ea 8 = s1.mem.le ea 8 / 2 * 2 ∧
        ∀ a, (a < pa ∨ pa + n ≤ a) → (a < ea ∨ ea + 8 ≤ a) → t.mem.get a = s1.mem.get a) ∧
    ((s.ovsub = false ∨ ∀ x ∈ s.nodes, x.phase = .saved → x.gone ≠ some (tget 256 s.asidOwner asid)) →
      exec (.sluiceMove asid va none) s = .next s)) ∧
  (∀ (s s1 : State) (c : Nat) (line : W64), (s.core c).task.isSome = true → s.sel = 0 → s.sel2 = 0 →
    (∀ r, (fetchLine ((line >>> 6) <<< 6)).run { s with cur := .core c } = .ok r s1 →
      exec (.lineFetch c line) s = .next s1 ∧ ∀ x, r = .line x → x ∈ (s1.core c).l1i) ∧
    (∀ e, (fetchLine ((line >>> 6) <<< 6)).run { s with cur := .core c } = .error e s1 →
      exec (.lineFetch c line) s = .next s)) ∧
  (∀ (s : State) (c : Nat) (line : W64), ∃ t, exec (.lineFetch c line) s = .next t ∧
    State.fetchRest { t with cur := s.cur } = s.fetchRest ∧ ∀ k, (t.core k).fetchRest = (s.core k).fetchRest)

/-- 03 R75; 04 R91; 18 R370 to R374; 19 R386: a tick wakes the halted cores, and on each node with a request begins a
switch; a die reports quiet; the deadline tells the late dies, the grace period stops their tasks; the tenant is saved
once every die is quiet, and the next one, once its units are up, is restored or starts from its definition. Readings
of the model: log 28 and 39. -/
def Obligations.Switches : Prop :=
  (∀ (s : State), s.time / s.swtick.toNat ≤ s.lastTick / s.swtick.toNat → exec .switchTick s = .next s) ∧
  (∀ (s : State), s.lastTick / s.swtick.toNat < s.time / s.swtick.toNat → apart s.nodes →
    ∃ t, exec .switchTick s = .next t ∧ t.lastTick = s.time ∧ (∀ c, (t.core c).halted = false) ∧
      (∀ x ∈ s.nodes, (x.phase ≠ .steady ∨ (x.partReq = none ∧ x.requests = []) ∨ (x.resident = none ∧ x.partReq ≠ none)) →
        t.node? x.n = some x) ∧
      (∀ x ∈ s.nodes, x.phase = .steady → x.resident = none → x.partReq = none → x.requests ≠ [] →
        t.node? x.n = some { x with phase := .saved, gone := none }) ∧
      (∀ x ∈ s.nodes, ∀ u rest, x.phase = .steady → x.resident = some u → x.partReq = none → x.requests = u :: rest →
        t.node? x.n = some { x with requests := rest } ∧ t.mbstat = 0 ∧ t.mbcmd.getLsbD 31 = false) ∧
      (∀ x ∈ s.nodes, ∀ u, x.phase = .steady → x.resident = some u →
        (x.partReq ≠ none ∨ ∃ v rest, x.requests = v :: rest ∧ v ≠ u) →
        t.node? x.n = some { x with
          phase := .quiesce (s.time / s.swtick.toNat * s.swtick.toNat), quiet := [], late := [], judged := false, graced := false } ∧
        ∀ c ∈ nodeCoreList x.n, (t.core c).quiescing = true)) ∧
  (∀ (s : State) (x : Node) (d t0 : Nat), s.node? s.sel = some x → d = s.sel2 → x.phase = .quiesce t0 → d ∉ x.quiet →
    d ∈ nodeDies x.n → (s.time < t0 + 1000 * s.swdead.toNat ∨ x.judged = true) →
    (quietDie s x.n d → exec .dieQuiet s = .next (nodeSet s x.n fun y => { y with quiet := y.quiet ++ [d] })) ∧
    (¬ quietDie s x.n d → exec .dieQuiet s = .next s)) ∧
  (∀ (s : State) (x : Node) (t0 : Nat), s.node? s.sel = some x → apart s.nodes → x.phase = .quiesce t0 → x.judged = false →
    (s.time < t0 + 1000 * s.swdead.toNat → exec .lateSwitch s = .next s) ∧
    (t0 + 1000 * s.swdead.toNat ≤ s.time →
      ∃ t, exec .lateSwitch s = .next t ∧ t.cores = s.cores ∧
        t.node? x.n = some { x with judged := true, late := (nodeDies x.n).filter fun d => !x.quiet.contains d } ∧
        ((∀ d ∈ nodeDies x.n, d ∈ x.quiet) → t.mem = s.mem) ∧
        ((∃ d ∈ nodeDies x.n, d ∉ x.quiet) → t.mgmt.evseq ≠ s.mgmt.evseq) ∧
        ∀ d l u, ((nodeDies x.n).filter fun d => !x.quiet.contains d) = [d] → x.resident = some u →
          (s.launches.filter fun l => l.part == x.n && l.st == .running && l.tenant == u) = [l] →
          t = ((nodeSet s x.n fun y => { y with judged := true, late := [d] }).postEvent l.q 5 0x10 l.lid
            (BitVec.ofNat 64 d) 0).logEvent 3)) ∧
  (∀ (s : State) (x : Node) (t0 : Nat), s.node? s.sel = some x → apart s.nodes → x.phase = .quiesce t0 → x.judged = true →
    x.graced = false → t0 + 1000 * s.swgrace.toNat ≤ s.time →
    ∃ t, exec .graceStop s = .next t ∧ t.node? x.n = some { x with graced := true } ∧
      ∀ c ∈ nodeCoreList x.n, c / 256 ∈ x.late → c / 256 ∉ x.quiet → (s.core c).task.isSome = true →
        (t.core c).task = none ∨ (t.core c).stopAt.isSome = true) ∧
  (∀ (s : State) (x : Node) (u t0 : Nat), s.node? s.sel = some x → apart s.nodes → x.phase = .quiesce t0 → x.resident = some u →
    (∀ d ∈ nodeDies x.n, d ∈ x.quiet ∧ quietDie s x.n d) →
    ((∃ c ∈ nodeCoreList x.n, ∃ l ∈ (s.core c).rs, s.rsMayWrite c l.2 = false) → exec .tenantSave s = .next s) ∧
    ((∀ c ∈ nodeCoreList x.n, ∀ l ∈ (s.core c).rs, s.rsMayWrite c l.2 = true) →
      ∃ t v, exec .tenantSave s = .next t ∧ t.saved = s.saved ++ [v] ∧ v.tenant = u ∧ v.node = x.n ∧
        t.node? x.n = some { x with phase := .saved, resident := none, gone := some u } ∧
        (∀ j < nodeCores x.n, ∃ w, v.cores[j]? = some w ∧ keptFrom (s.core (8 * nodeRow0 x.n + j)) w ∧
          (∀ a, 0x37fc0 ≤ a → a < 0x3c000 → w.spad.get a = (s.core (8 * nodeRow0 x.n + j)).spad.get a) ∧
          ∀ l ∈ s.launches, l.part = x.n → l.tenant = u → l.st = .running → l.rootK.isSome = true →
            ∀ r ∈ l.regions, r.space = 0 → ∀ a, r.off ≤ a → a < r.off + r.size →
              w.spad.get a = (s.core (8 * nodeRow0 x.n + j)).spad.get a) ∧
        ∀ c ∈ nodeCoreList x.n, emptied (t.core c))) ∧
  (∀ (s : State) (x : Node) (u : Nat) (rest : List Nat), s.node? s.sel = some x → apart s.nodes → x.phase = .saved →
    x.partReq = none → x.requests = u :: rest →
    ((tget none s.tenants u = none ∨ u ∉ x.tset) → ∃ t, exec .tenantRestore s = .next t ∧ t.mbstat = 2 ∧
      t.mbcmd.getLsbD 31 = false ∧ t.node? x.n = some { x with requests := rest }) ∧
    (∀ d, tget none s.tenants u = some d → u ∈ x.tset →
      (∃ l ∈ s.launches, l.tenant = u ∧ (l.st = .placing ∨ l.st = .running) ∧ ¬ gateOpens s l True) →
      ∃ t, exec .tenantRestore s = .next t ∧ t.nodes = s.nodes ∧ t.cores = s.cores ∧
        ∀ l ∈ s.launches, s.launch? l.no = some l → l.tenant = u → (l.st = .placing ∨ l.st = .running) → askedFor t l) ∧
    (∀ d, tget none s.tenants u = some d → u ∈ x.tset →
      (∀ l ∈ s.launches, l.tenant = u → (l.st = .placing ∨ l.st = .running) → gateOpens s l True) →
      ∃ t, exec .tenantRestore s = .next t ∧ t.mbstat = 0 ∧ t.mbcmd.getLsbD 31 = false ∧
      t.node? x.n = some { x with resident := some u, used := true, phase := .steady, requests := rest } ∧
      (∀ c ∈ nodeCoreList x.n, (t.core c).quiescing = false ∧ (t.core c).halted = false) ∧
      (∀ r, nodeHasRow x.n r = true → tget 0xffff t.ways r = BitVec.ofNat 64 d.ways) ∧
      (∀ v, s.savedOf u = some v → v.cores.length = nodeCores x.n →
        t.savedOf u = none ∧
        ∀ j < nodeCores x.n, ∃ w, v.cores[j]? = some w ∧ givenBack w (t.core (8 * nodeRow0 x.n + j))) ∧
      (s.savedOf u = none → ∀ j < nodeCores x.n, ∀ k, k = t.core (8 * nodeRow0 x.n + j) →
        k.rbb = (d.rsbase + BitVec.ofNat 64 j * d.rsstride) &&& 0x01fffffffffff000#64 ∧ k.rbl = BitVec.ofNat 64 d.rswords ∧
        k.dwb = BitVec.ofNat 64 d.dwb ∧ k.twb = BitVec.ofNat 64 d.twb ∧ k.twl = BitVec.ofNat 64 d.twl ∧
        k.tvec = d.tvec ∧ k.tasklim = d.tasklim ∧ k.demandlim = d.demandlim))) ∧
  (∀ (s : State) (x : Node), s.node? s.sel = some x → apart s.nodes → x.phase = .saved → (x.partReq ≠ none ∨ x.requests = []) →
    ∃ t, exec .tenantRestore s = .next t ∧ t.node? x.n = some { x with phase := .steady } ∧
      ∀ c ∈ nodeCoreList x.n, (t.core c).quiescing = false)

/-- 04 R90; 18 R412; 21 R400, R401, R404 to R407: a device reset; a boot of the selected valid copy or of the other,
with its measurements and certificates, and the third failure in a row; the limits of the sensors, and the clock that
they throttle; the chain of the event log; the board link; fabric time never goes back. Readings of the model: log 19.
-/
def Obligations.Management : Prop :=
  (∀ (s : State), s.mem.wf = true → ∃ m, exec .deviceReset s = .next { State.reset with
      mem := m, poison := s.poison, agenda := s.agenda, freeCtr := s.freeCtr + 1,
      mgmt := { s.mgmt with
        layer := 0, mlog := [], m1 := [], m2 := [], causes := [], cap := 2800, reply := [], clocks := [], alive := true } } ∧
    (s.stale = [] → m = s.mem) ∧
    ∀ a, m.get a = s.mem.get a ∨ ∃ x ∈ s.stale, x.1 = a ∧ m.get a = x.2.old) ∧
  (∀ (s : State), (s.mgmt.layer ≠ 0 ∨ s.mgmt.alive = false) → exec .boot s = .next s) ∧
  (∀ (s : State) (b : Bool), s.mgmt.layer = 0 → s.mgmt.alive = true →
    b = (if s.mgmt.valid s.mgmt.selB then s.mgmt.selB else !s.mgmt.selB) →
    ∃ t, exec .boot s = .next t ∧
      (s.mgmt.valid b = false → t.mgmt.alive = false ∧ t.mgmt.layer = 0 ∧ bootMissed s.mgmt t.mgmt) ∧
      (s.mgmt.valid b = true → s.sel ≠ 0 → t.mgmt.layer = 1 ∧ t.mgmt.runB = b ∧ bootMissed s.mgmt t.mgmt) ∧
      (s.mgmt.valid b = true → s.sel = 0 →
        t.mgmt.layer = 2 ∧ t.mgmt.runB = b ∧ t.mgmt.bootCount = s.mgmt.bootCount + 1 ∧
        t.mgmt.certs = threeCertificates t.mgmt ∧
        (∃ x y rest, imagesOf (s.mgmt.copy b) = x :: y :: rest ∧ t.mgmt.m1 = x.digest ∧ t.mgmt.m2 = y.digest ∧
          t.mgmt.mlog.map (fun e => (e.version, e.imgid, e.digest)) =
            (x :: y :: rest).map (fun z => (z.version, z.imgid, z.digest)) ∧
          (t.mgmt.mlog.take 2).map (fun e => (e.layer, e.kind)) = [(0, 1), (1, 1)] ∧
          ∀ e ∈ t.mgmt.mlog.drop 2, e.layer = 2 ∧ 2 ≤ e.kind ∧ e.kind ≤ 4) ∧
        (b = s.mgmt.selB → t.mgmt.armed = false ∧ t.mgmt.fails = 0 ∧ t.mgmt.selB = b) ∧
        (b ≠ s.mgmt.selB → bootMissed s.mgmt t.mgmt))) ∧
  (∀ (r : Sensors) (s : State),
    ((∃ d < 8, 1150 ≤ r.compute.getD d 0) ∨ (∃ d < 4, 1100 ≤ r.base.getD d 0) ∨ (∃ d < 12, 1050 ≤ r.hbm.getD d 0) →
      ∃ t, exec (.sensorPoll r) s = .next t ∧ t.mgmt.shut = true ∧
        ∀ q, s.queues = [q] → t = { (s.postEvent q.q 6 0 0 0 0).logEvent 1 with mgmt := t.mgmt }) ∧
    ((∀ d < 8, r.compute.getD d 0 < 1150) → (∀ d < 4, r.base.getD d 0 < 1100) → (∀ d < 12, r.hbm.getD d 0 < 1050) →
      twf 2250 none s.mgmt.clocks = true → twf [] none s.mgmt.causes = true →
      ∃ t, exec (.sensorPoll r) s = .next t ∧ t.mgmt.shut = s.mgmt.shut ∧ t.cores = s.cores ∧ t.mem = s.mem ∧
        t.mgmt.sensors = r ∧
        ∀ d < 8, (∀ i < 6, i ∈ tget [] t.mgmt.causes d ↔ sensorHot r s.mgmt.cap d i ∨
            (i ∈ tget [] s.mgmt.causes d ∧ ¬ sensorCool r s.mgmt.cap d i)) ∧
          ((∃ i < 6, sensorHot r s.mgmt.cap d i) →
            tget 2250 t.mgmt.clocks d = max 1200 (tget 2250 s.mgmt.clocks d - 75)) ∧
          ((∀ i < 6, ¬ sensorHot r s.mgmt.cap d i) → tget 2250 t.mgmt.clocks d =
            if tget [] t.mgmt.causes d = [] then 2250 else tget 2250 s.mgmt.clocks d))) ∧
  (∀ (s : State) (kind : Nat) (data : List Byte), ∃ e, (s.logPut kind data).mgmt.evlog =
      (if Config.logEntries ≤ s.mgmt.evlog.length then s.mgmt.evlog.drop 256 else s.mgmt.evlog) ++ [e] ∧
    (s.logPut kind data).mgmt.evseq = s.mgmt.evseq + 1 ∧ e.seq = s.mgmt.evseq ∧ e.time = s.time ∧ e.data = data ∧
    e.chain = Config.sha384 ((match s.mgmt.evlog.getLast? with | some x => x.chain | none => List.replicate 48 0) ++
      leBytes e.seq 8 ++ leBytes e.time 8 ++ leBytes e.kind 2 ++ leBytes e.sev 2 ++ (data ++ List.replicate 44 0).take 44)) ∧
  (∀ (w u : Nat) (s : State),
    (1200 ≤ w → w ≤ 2800 → exec (.mctpMessage (.setCap w)) s = .next { s with mgmt := { s.mgmt with cap := w } }) ∧
    ((w < 1200 ∨ 2800 < w) → exec (.mctpMessage (.setCap w)) s = .next s) ∧
    exec (.mctpMessage .getCap) s = .next { s with mgmt := { s.mgmt with reply := leBytes s.mgmt.cap 4 } } ∧
    exec (.mctpMessage (.getSensor 0 u)) s =
      .next { s with mgmt := { s.mgmt with reply := leBytes (s.mgmt.sensors.compute.getD u 0) 4 } } ∧
    exec (.mctpMessage (.getSensor 1 u)) s =
      .next { s with mgmt := { s.mgmt with reply := leBytes (s.mgmt.sensors.base.getD u 0) 4 } } ∧
    exec (.mctpMessage (.getSensor 2 u)) s =
      .next { s with mgmt := { s.mgmt with reply := leBytes (s.mgmt.sensors.hbm.getD u 0) 4 } } ∧
    (3 ≤ w → exec (.mctpMessage (.getSensor w u)) s =
      .next { s with mgmt := { s.mgmt with reply := leBytes s.mgmt.sensors.watts 4 } }) ∧
    exec (.mctpMessage .spdm) s = .next { s with mgmt := { s.mgmt with reply := Config.spdmReply s.mgmt.certs } }) ∧
  (∀ (n : Nat) (s : State),
    (s.feat 3 = true → s.time ≤ n → exec (.timeAlign n) s = .next { s with time := n, hold := 0 }) ∧
    (s.feat 3 = true → n < s.time → exec (.timeAlign n) s = .next { s with hold := s.time - n }) ∧
    (s.feat 3 = false → exec (.timeAlign n) s = .next s))

/-- 04 R100; 06 R134, R145, R147; 10 R248; 19 R375: a feature that is not accepted, a row above the task's privilege,
a field that names nothing its kind admits, a word beyond the window limit, and a misaligned access raise their faults
at the slot, with the field's position or the address, before any effect. Readings of the model: log 31 and 32. -/
def Obligations.FieldFaults : Prop :=
  (∀ (i : Instr) (s : State) (c n : Nat), featureRow i = some n → s.feat n = false → s.atSlot c = true →
    exec i s = .next (s.deliver c (s.core c).pc (isData i) { code := 0x01, addr := ((s.core c).pc >>> 6) <<< 6 }
      (s.core c).seq)) ∧
  (∀ (i : Instr) (s : State) (c : Nat), s.atSlot c = true →
    ((supervisorRow i = true ∧ (s.core c).sup = false) ∨ (firmwareRow i = true ∧ (s.core c).isFw = false)) →
    exec i s = .next (s.deliver c (s.core c).pc false { code := 0x09 } (s.core c).seq)) ∧
  (∀ (i : Instr) (s : State) (c : Nat) (d a b : Reg) (f : W64 → W64 → W64), twoSource i = some (d, a, b, f) →
    s.atSlot c = true → aPort d = false → aPort a = false → aPort b = false →
    (noDestWord d || noSourceWord a || noSourceWord b) = true →
    exec i s = .next (s.deliver c (s.core c).pc false { code := 0x02, addr := firstPos (noDestWord d) (noSourceWord a) }
      (s.core c).seq)) ∧
  (∀ (i : Instr) (s : State) (c : Nat) (d a b : Reg) (f : W64 → W64 → W64), twoSource i = some (d, a, b, f) →
    s.atSlot c = true → aPort d = false → aPort a = false → aPort b = false →
    (noDestWord d || noSourceWord a || noSourceWord b) = false →
    (beyond (s.core c) d || beyond (s.core c) a || beyond (s.core c) b) = true →
    exec i s = .next (s.deliver c (s.core c).pc false
      { code := 0x04, addr := firstPos (beyond (s.core c) d) (beyond (s.core c) a) } (s.core c).seq)) ∧
  (∀ (i : Instr) (s s1 : State) (c : Nat) (d a : Reg) (ofs : W64) (sp : Space) (n : Nat) (sg dcr : Bool) (x : W64),
    loadOf i = some (d, a, ofs, sp, n, sg, dcr) → s.atSlot c = true → d.toNat < 0xf80 → d.toNat < (s.core c).wlim.toNat →
    s.take c false a = some (x, s1) → (x + ofs).toNat % n ≠ 0 →
    exec i s = .next (s.deliver c (s.core c).pc false { code := 0x07, addr := x + ofs } (s.core c).seq)) ∧
  (∀ (i : Instr) (s s0 s1 : State) (c : Nat) (d a : Reg) (ofs : W64) (sp : Space) (n : Nat) (dcr : Bool) (v x : W64),
    storeOf i = some (d, a, ofs, sp, n, dcr) → s.atSlot c = true → s.take c false d = some (v, s0) →
    s0.take c false a = some (x, s1) → (x + ofs).toNat % n ≠ 0 →
    exec i s = .next (s.deliver c (s.core c).pc false { code := 0x07, addr := x + ofs } (s.core c).seq))

/-- 04 R89, R93; 09 R210 to R212, R221, R224, R226, R241 to R245, R409; 10 R248; 18 R366, R369; 19 R376: where an
address leads. An on-chip address lies inside the partition's size of its space; in ordinary memory the walk of five
levels ends at a leaf that permits the access, and sets A and D, or faults; the physical map says what stands there.
An unreachable page unit raises its residency fault once
(03 R84). Readings of the model: log 9, 20 and 74. -/
def Obligations.AccessPlaces : Prop :=
  (∀ (s : State) (c x n d m P first : Nat), s.nodeOf c = 2 ^ d + m → m < 2 ^ d → d ≤ 8 → P = 2048 / 2 ^ d → first = P * m →
    s.onchip c .spad x n = (if x < 2 ^ 43 ∧ x / 2 ^ 18 % 2 ^ 14 = 0 ∧ x / 2 ^ 32 < P ∧ x % 2 ^ 18 + n ≤ 2 ^ 18 then
      some (.spad (first + x / 2 ^ 32) (x % 2 ^ 18)) else none) ∧
    s.onchip c .clu x n = (if x + n ≤ 2 ^ 18 * min P 32 then
      some (.clu (max first (32 * (c / 32)) + x / 2 ^ 18) (x % 2 ^ 18)) else none) ∧
    s.onchip c .die x n = (if x + n ≤ 2 ^ 20 * min (P / 8) 32 then
      some (.die (c / 256) (2 ^ 20 * (max (first / 8) (32 * (c / 256)) % 32) + x)) else none)) ∧
  (∀ (s : State) (sp : Space) (asid n : Nat) (x : W64) (acc : Acc2) (dcr : Bool),
    (x.toNat % n ≠ 0 → faultsAt (accessLoc sp asid x n acc dcr) s 0x07 x) ∧
    (x.toNat % n = 0 → sp ≠ .mem →
      (s.onchip s.actor sp x.toNat n = none → faultsAt (accessLoc sp asid x n acc dcr) s 0x09 x) ∧
      ∀ l, s.onchip s.actor sp x.toNat n = some l → (accessLoc sp asid x n acc dcr).run s = .ok l s) ∧
    (x.toNat % n = 0 →
      (∀ e s1, (coreXlate asid x.toNat acc.xl (!(s.core s.actor).sup)).run s = .error e s1 →
        (accessLoc .mem asid x n acc dcr).run s = .error e s1) ∧
      ∀ pa t s1 out, (coreXlate asid x.toNat acc.xl (!(s.core s.actor).sup)).run s = .ok (pa, t) s1 →
        out = (accessLoc .mem asid x n acc dcr).run s →
        (acc = .atomic → t.r = false → out = .error (.trap { code := 0x09, addr := x }) s1) ∧
        ((acc = .atomic → t.r = true) →
          (pa < 0xc000000000 → out = .ok (.phys pa (t.ok == 1)) s1) ∧
          (0xc000000000 ≤ pa → pa < 0x8000000000000 → out = .error (.trap { code := 0x09, addr := x }) s1) ∧
          (0x8000000000000 ≤ pa → pa < 0xf000000000000 → out = .ok (.phys pa (t.ok == 1 || !s1.feat 2)) s1) ∧
          (0xf000000000000 ≤ pa → pa < 0xfff0000000000 →
            (s1.aliasWin pa = none → out = .error (.trap { code := 0x09, addr := x }) s1) ∧
            ∀ w, s1.aliasWin pa = some w →
              out = if acc = .load then .ok (.ali w pa) s1 else .error (.trap { code := 0x0a, addr := x }) s1) ∧
          (0xfff0000000000 ≤ pa →
            out = if dcr = true then .ok (.dcr (pa - 0xfff0000000000)) s1
              else .error (.trap { code := 0x07, addr := x }) s1)))) ∧
  (∀ (s : State) (c asid va : Nat) (acc : Acc) (user : Bool), s.cur = .core c → (s.core c).isFw = true → acc ≠ .fill →
    (va < 2 ^ 52 → physKind va ≠ .unassigned → ∃ t, (coreXlate asid va acc user).run s = .ok (va, t) s) ∧
    ((2 ^ 52 ≤ va ∨ physKind va = .unassigned) → faultsAt (coreXlate asid va acc user) s 0x09 (BitVec.ofNat 64 va))) ∧
  (∀ (s : State) (c asid va : Nat) (acc : Acc) (user : Bool), s.cur = .core c → (s.core c).isFw = false → va < 2 ^ 64 →
    ((va / 2 ^ 56 ≠ 0 ∧ va / 2 ^ 56 ≠ 255) ∨ (tget 0 s.roots asid).getLsbD 0 = false) →
    faultsAt (coreXlate asid va acc user) s 0x09 (BitVec.ofNat 64 va)) ∧
  (∀ (s : State) (c asid va : Nat) (acc : Acc) (user : Bool) (t : TlbEnt) (l : List TlbEnt), s.cur = .core c →
    (s.core c).isFw = false → va < 2 ^ 64 → (va / 2 ^ 56 = 0 ∨ va / 2 ^ 56 = 255) →
    (tget 0 s.roots asid).getLsbD 0 = true → (s.core c).l1tlb = t :: l → t.asid = asid → t.va ≤ va → va < t.va + t.size →
    acc ∈ [Acc.load, .store, .fetch] → (user = true → t.u = true) → (acc = .load → t.r = true) →
    (acc = .store → t.w = true ∧ t.d = true) → (acc = .fetch → t.x = true) → (s.core c).demand = none →
    (coreXlate asid va acc user).run s = .ok (t.pa + (va - t.va), t) s) ∧
  (∀ (s : State) (c asid va root lv e : Nat) (acc : Acc) (user : Bool), walksAfresh s c asid va root →
    acc ∈ [Acc.load, .store, .fetch] → walkComes s.mem va root lv → e = entryAt s.mem va root lv →
    (((∃ j < 5, lv ≤ j ∧ s.poisoned (entryOf s.mem va root j) = true) ∨
        (lv = 0 ∧ e.testBit 0 = true ∧ e.testBit 59 = true ∧ ¬ entryBad 0 e ∧ groupPoisoned s (entryOf s.mem va root 0))) →
      ∃ q, (coreXlate asid va acc user).run s = .error (.machine q) s) ∧
    ((∀ j < 5, lv ≤ j → s.poisoned (entryOf s.mem va root j) = false) →
      (lv = 0 → e.testBit 59 = true → ¬ groupPoisoned s (entryOf s.mem va root 0)) →
      (e.testBit 0 = false →
        (s.feat 1 = false → faultsAt (coreXlate asid va acc user) s 0x08 (BitVec.ofNat 64 va)) ∧
        (s.feat 1 = true → (asid, va / 0x200000) ∈ s.unreach → (asid, va / 0x200000) ∉ s.raised →
          faultsAt (coreXlate asid va acc user) s 0x0e (BitVec.ofNat 64 va) (some (asid, va / 0x200000))) ∧
        (s.feat 1 = true → ((asid, va / 0x200000) ∉ s.unreach ∨ (asid, va / 0x200000) ∈ s.raised) →
          s.heldBelow asid va = false → faultsAt (coreXlate asid va acc user) s 0x08 (BitVec.ofNat 64 va)) ∧
        (s.feat 1 = true → ((asid, va / 0x200000) ∉ s.unreach ∨ (asid, va / 0x200000) ∈ s.raised) →
          s.heldBelow asid va = true →
          (coreXlate asid va acc user).run s =
            .error (.wait (some ⟨asid, va, 0, (s.core c).demandlimL, false⟩)) s)) ∧
      (e.testBit 0 = true →
        (entryBad lv e ∨ (entryLeaf lv e ∧ (¬ leafSound lv e ∨ ¬ leafPermits e acc user)) →
          faultsAt (coreXlate asid va acc user) s 0x09 (BitVec.ofNat 64 va)) ∧
        (¬ entryBad lv e → entryLeaf lv e → leafSound lv e → leafPermits e acc user →
          (∀ l ∈ s.launches, (s.core c).launch = some l.no → l.record = true →
            s.poison = [] ∧ ∀ x, s.mayWrite 2048 x = true) →
          ∃ t s1, (coreXlate asid va acc user).run s = .ok (leafFrame e + va % (4096 * 512 ^ lv), t) s1 ∧
            t.ok = e / 2 ^ 62 ∧ t.u = e.testBit 4 ∧ t.x = e.testBit 3 ∧ t.w = e.testBit 2 ∧ t.r = e.testBit 1 ∧
            (t.size = 65536 ↔ lv = 0 ∧ e.testBit 59 = true ∧ grouped s.mem (entryOf s.mem va root lv) e) ∧
            t ∈ (s1.core c).l1tlb ∧
            ((s.core c).launch = none → s.mem.wf = true → ∀ a, s1.mem.get a = (s.mem.get a |||
              (if (List.range 5).any (fun j => lv ≤ j && a == entryOf s.mem va root j) then 0x20#8 else 0) |||
              (if acc = .store ∧ a = entryOf s.mem va root lv then 0x40#8 else 0)))))))

/-! ## Encoding, steps and reset -/

/-- 06 R126 to R146: words of several families, written out from their fields, decode to their instructions. -/
def Obligations.DecodeWords : Prop :=
  decode 0x01a0000800c0100000001803#96 = .ok (.adda 3 2 3 4) ∧
  decode 0x0020001401801c0000001800#96 = .ok (.add .i64 5 6 7) ∧
  decode 0x0290001001000000deadbeef#96 = .ok (.lih 4 4 0xdeadbeef) ∧
  decode 0x0320800000c021fffffffffd#96 = .ok (.blt 2 3 8 0x1fffffffffd) ∧
  decode 0x041000000000000000004007#96 = .ok (.wini 4 7) ∧
  decode 0x0430001c0000000000000010#96 = .ok (.mfs 7 0x010) ∧
  decode 0x0501801401bffffffffffff8#96 = .ok (.ld .n32 5 6 0x3ffffffffffff8) ∧
  decode 0x0700000802802c0300000004#96 = .ok (.send 2 10 11 12 .mem .spad) ∧
  decode 0x0a00000800c010017ffcd800#96 = .ok (.vfma .f64 .rtz 2 3 4 5 0xfff) ∧
  decode 0x0c100000010014003ffc5800#96 = .ok (.xfma false 4 5 0xfff) ∧
  decode 0x0d40000c00801c9200806001#96 = .ok (.amov .e4m3 true 3 2 7 { cid := 9, p1 := 8, p2 := 0, v1 := true, v2 := false }) ∧
  decode 0x0e40001401801c0200001837#96 = .ok (.cas .i64 .dev .spad 3 5 6 7 8) ∧
  decode 0x1ec0000005090002c0000000#96 = .ok (.hand 1 2 2 0x014 0x000b) ∧
  decode 0x0f30000c0100140000000000#96 = .ok (.asidctl 3 4 5)

/-- 06 R126 to R147, log 30: decoding and encoding agree, both ways. An encoded well-formed instruction decodes to
itself; a word that decodes gives a well-formed instruction, whose encoding is the word with ROLE zero outside H form
(05 R118: ROLE says whose slot it is and is no part of the instruction). -/
def Obligations.DecodeEncode : Prop :=
  (∀ (i : Instr) (w : Word96), WellFormed i = true → encode i = some w → decode w = .ok i) ∧
  (∀ (w : Word96) (i : Instr), decode w = .ok i →
    WellFormed i = true ∧ encode i = some (if fOpc w == 0xec then w else w &&& 0x0fffffffffffffffffffffff#96))

/-- 05 R106 to R120, 04 R96 R97, 06 R147, 18 R370, log 1 and 23: what a step runs. Every instruction answers a next
state. A step takes a tick that has fallen, else the schedule's next choice. At a core's slot it fetches the line and
runs the instruction that its decoder reads, where the slot is of every role or of the core's own, or hands over to
it; a word that is none, and any slot of a line whose reserved field is not zero, runs as an illegal instruction; a
slot of another role is passed, and a line of other roles alone is passed whole; an undecodable line faults at the
slot. The data stream runs its oldest instruction. Another agent's step runs with its selectors. An instruction placed
where the next step fetches is the one it runs. -/
def Obligations.StepRuns : Prop :=
  (∀ (i : Instr) (s : State), ∃ t, exec i s = .next t) ∧
  (∀ s : State, s.mgmt.shut = false → ∃ t, step s = .next t) ∧
  (∀ s : State, s.mgmt.shut = true → step s = .fault .shutDown) ∧
  (∀ s : State, s.mgmt.shut = false → s.lastTick / s.swtick.toNat < s.time / s.swtick.toNat →
    step s = exec .switchTick s) ∧
  (∀ (s s1 u : State) (c : Nat) (lag : Bool), undisturbed s = true → s.pick = (.slot c lag, s1) → c < 2048 →
    u = { s1 with cur := .core c, lag := lag } → (u.core c).task.isSome = true → (u.core c).stopAt = none →
    (u.core c).ending = none → (u.core c).wd < (u.core c).tasklimL → wellFormedPc (u.core c).pc = true →
    (∀ u1, (fetchLine (lineAddr (u.core c).pc)).run u = .ok .undecodable u1 → (u.core c).dq = [] →
      step s = .next (s1.advance (u.deliver c (u.core c).pc false { code := 0x01, addr := lineAddr (u.core c).pc }
        (u.core c).seq) none (some c))) ∧
    ∀ u1 l w cls, (fetchLine (lineAddr (u.core c).pc)).run u = .ok (.line l) u1 → l.mask = rolesOf l.bits →
      w = slotOf l.bits ((u.core c).pc.toNat % 8) → cls = clsOf l.bits ((u.core c).pc.toNat % 8) →
      (∀ i t, takesSlot (u.core c).role w = true →
        ((lineRsv l.bits = 0 ∧ decodeSlot cls w = .ok i) ∨
          ((lineRsv l.bits ≠ 0 ∨ ∃ e, decodeSlot cls w = .error e) ∧
            i = .unassignedOpcode 0x01 (lineAddr (u.core c).pc) (cls == .d || cls == .e))) →
        exec i { u1 with slotCls := cls } = .next t → step s = .next (s1.advance t (some i) (some c))) ∧
      (takesSlot (u.core c).role w = false → isHand w = false →
        ((u.core c).inst = none ∨ (u.core c).pc.toNat % 8 ≠ 0 ∨ l.mask.testBit 0 = true ∨
          l.mask.testBit (u.core c).role = true) →
        step s = .next (s1.advance (u1.setCore c { u1.core c with
          pc := if (u.core c).pc.toNat % 8 < 4 then (u.core c).pc + 1 else (((u.core c).pc >>> 6) + 1) <<< 6,
          resume := none }) none (some c))) ∧
      ((u.core c).inst ≠ none → (u.core c).pc.toNat % 8 = 0 → l.mask.testBit 0 = false →
        l.mask.testBit (u.core c).role = false → (∀ k < 5, isHand (slotOf l.bits k) = false) →
        step s = .next (s1.advance ((u1.note 0xa c 1).setCore c { u1.core c with
          pc := (((u.core c).pc >>> 6) + 1) <<< 6, resume := none }) none (some c)))) ∧
  (∀ (s s1 t : State) (c : Nat) (h : Deferred) (r : List Deferred), undisturbed s = true → s.pick = (.data c, s1) →
    c < 2048 → (s1.core c).dq = h :: r → exec h.instr { s1 with cur := .data c, slotCls := .d } = .next t →
    step s = .next (s1.advance t (some h.instr) (some c))) ∧
  (∀ (s s1 t : State) (i : Instr) (a b : Nat), undisturbed s = true → s.pick = (.act i a b, s1) → isEvent i = true →
    exec i { s1 with sel := a, sel2 := b } = .next t → step s = .next (s1.advance t (some i) none)) ∧
  (∀ (s : State) (w : Word96) (i : Instr), s.mem.wf = true → decode w = .ok i →
    ∃ s1 u t : State, u.cur = .core 0 ∧ (u.core 0).pc = 0 ∧ (u.core 0).dq = [] ∧ exec i u = .next t ∧
      step (s.withFetchWord 96 w.toNat) = .next (s1.advance t (some i) (some 0)))

/-- Log 3: the one canonical form of memories, which every step keeps. -/
def Obligations.StepKeepsMemOk : Prop :=
  ∀ s t : State, s.memOk = true → step s = .next t → t.memOk = true

/-- 01 R10, 02 R50 R54, 03 R60 R61 R73 R75, 04 R93 R101, 05 R112 R121, 07 R175, 09 R209 R216 R219 R236, 11 R270 R271,
14 R327, 18 R358 R364 R370, 19 R380, 21 R397 R406: what reset leaves, in the values that the spec gives. -/
def Obligations.ResetValues : Prop :=
  State.reset.memOk = true ∧
  (∀ c < 2048,
    let k := State.reset.core c
    k.task = none ∧ k.wbase = 0 ∧ k.wlim = 1 ∧ k.wfb = 0 ∧ k.wfl = 1 ∧ k.dwb = 0 ∧ k.twb = 0 ∧ k.twl = 1 ∧
    k.rbb = 0 ∧ k.rbl = 0 ∧ k.tvec = 0 ∧ k.fpc = 0 ∧ k.fcause = 0 ∧ k.faddr = 0 ∧ k.fstep = 0 ∧ k.lstart = 0 ∧
    k.fwb = 0 ∧ k.fwl = 1 ∧ k.fcsr = 0 ∧ k.tasklim = 0x400000 ∧ k.demandlim = 0x200000 ∧ k.cycle = 0 ∧
    k.halted = false ∧ k.qd = [] ∧ k.qc = [] ∧ k.ready = [] ∧ k.inbox = [] ∧ k.sysring = [] ∧
    (∀ n < 8, tget 0xbf80 k.tcfg n = 0xbf80) ∧
    (∀ n < 8, tget 0 k.cwb n = 0 ∧ tget 0 k.cwp n = 0 ∧ (tget {} k.codeimg n).raw = 0) ∧
    (∀ b < 1024, tget {} k.bars b = {}) ∧ (∀ x < 16, tget {} k.xa x = {}) ∧
    (∀ a < 4096, k.spad.bytes a 1 = [0]) ∧ (∀ n < 8, ∀ j < 64, tget {} k.chans n = {})) ∧
  (∀ n < 256, tget 0 State.reset.heaptab n = 0) ∧ (∀ n < 1024, tget 0 State.reset.roots n = 0) ∧
  (∀ n < 256, tget 0xffff State.reset.ways n = 0xffff) ∧
  (∀ n < 16, tget {} State.reset.fw n = {}) ∧ (∀ n < 4, tget 0 State.reset.featacc n = 0) ∧
  State.reset.swtick = 1000000 ∧ State.reset.swdead = 50 ∧ State.reset.swgrace = 200 ∧ State.reset.mons = [] ∧
  State.reset.tenants = [] ∧ State.reset.queues = [] ∧ State.reset.launches = [] ∧ State.reset.time = 0 ∧
  State.reset.mgmt.cap = 2800 ∧ State.reset.mgmt.shut = false ∧
  State.reset.nodes.map (fun x => (x.n, x.tset, x.resident)) = [(1, [], none)]
end

