-- ==== Sys2Proof/Laws/Memory.lean ====
section
/-!
SUPPORT. What every table and memory operation does: a read after a write, and the canonical form.
-/
namespace Sys2Proof.Machine

section Tables
variable {α : Type}

theorem tget_nil (d : α) (i : Nat) : tget d [] i = d := rfl

/-- A read of the key just put. -/
@[simp] theorem tget_tput_same (d : α) (t : Tbl α) (i : Nat) (x : α) : tget d (tput t i x) i = x := by
  induction t with
  | nil => simp [tput, tget]
  | cons h t ih =>
    obtain ⟨k, v⟩ := h
    unfold tput
    split
    · simp [tget]
    · split
      · simp [tget]
      · simp only [tget]; rw [if_neg (by omega)]; exact ih

/-- A read of another key. -/
theorem tget_tput_ne (d : α) (t : Tbl α) {i j : Nat} (x : α) (h : j ≠ i) : tget d (tput t i x) j = tget d t j := by
  induction t with
  | nil => simp [tput, tget]; omega
  | cons hd t ih =>
    obtain ⟨k, v⟩ := hd
    unfold tput
    split
    · simp only [tget]; rw [if_neg (by omega)]
    · split
      · subst_vars; simp only [tget]; rw [if_neg (by omega), if_neg (by omega)]
      · simp only [tget, ih]

theorem tget_tput (d : α) (t : Tbl α) (i j : Nat) (x : α) :
    tget d (tput t i x) j = if j = i then x else tget d t j := by
  split
  · subst_vars; exact tget_tput_same ..
  · exact tget_tput_ne _ _ _ ‹_›

/-- A later put of one key hides an earlier one. -/
theorem tput_tput (t : Tbl α) (i : Nat) (x y : α) : tput (tput t i x) i y = tput t i y := by
  induction t with
  | nil => simp [tput]
  | cons h t ih =>
    obtain ⟨k, v⟩ := h
    by_cases h1 : i < k
    · simp [tput, h1]
    · by_cases h2 : i = k
      · subst h2; simp [tput]
      · simp [tput, h1, h2, ih]

variable [DecidableEq α]

/-- Every key of a canonical table lies above its bound. -/
theorem twf_above {d : α} {t : Tbl α} {lo : Nat} (h : twf d (some lo) t = true) (j : Nat) (hj : j ≤ lo) : tget d t j = d := by
  induction t generalizing lo with
  | nil => rfl
  | cons hd t ih =>
    obtain ⟨k, v⟩ := hd
    simp only [twf, Bool.and_eq_true, decide_eq_true_eq] at h
    simp only [tget]; rw [if_neg (by omega)]
    exact ih h.2 (by omega)

theorem twf_weaken {d : α} {t : Tbl α} {lo : Option Nat} {lo' : Nat} (h : twf d (some lo') t = true)
    (hl : ∀ l, lo = some l → l ≤ lo') : twf d lo t = true := by
  cases t with
  | nil => cases lo <;> rfl
  | cons hd t =>
    obtain ⟨k, v⟩ := hd
    simp only [twf, Bool.and_eq_true, decide_eq_true_eq] at h ⊢
    refine ⟨⟨?_, h.1.2⟩, h.2⟩
    cases lo with
    | none => rfl
    | some l => have := hl l rfl; simp only [decide_eq_true_eq]; omega

theorem twf_none {d : α} {t : Tbl α} {lo : Option Nat} (h : twf d lo t = true) : twf d none t = true := by
  cases lo with
  | none => exact h
  | some l => exact twf_weaken h (by simp)

theorem twf_tput {d : α} {t : Tbl α} {lo : Option Nat} {i : Nat} {x : α} (h : twf d lo t = true) (hx : x ≠ d)
    (hl : ∀ l, lo = some l → l < i) : twf d lo (tput t i x) = true := by
  induction t generalizing lo with
  | nil =>
    simp only [tput, twf, Bool.and_true, Bool.and_eq_true, decide_eq_true_eq]
    refine ⟨?_, hx⟩
    cases lo with
    | none => rfl
    | some l => simpa using hl l rfl
  | cons hd t ih =>
    obtain ⟨k, v⟩ := hd
    simp only [twf, Bool.and_eq_true, decide_eq_true_eq] at h
    unfold tput
    split
    · simp only [twf, Bool.and_eq_true, decide_eq_true_eq]
      refine ⟨⟨?_, hx⟩, ⟨‹_›, h.1.2⟩, h.2⟩
      cases lo with
      | none => rfl
      | some l => simpa using hl l rfl
    · split
      · subst_vars
        simp only [twf, Bool.and_eq_true, decide_eq_true_eq]
        exact ⟨⟨h.1.1, hx⟩, h.2⟩
      · simp only [twf, Bool.and_eq_true, decide_eq_true_eq]
        exact ⟨h.1, ih h.2 (by simp; omega)⟩

theorem twf_tdel {d : α} {t : Tbl α} {lo : Option Nat} {i : Nat} (h : twf d lo t = true) : twf d lo (tdel t i) = true := by
  induction t generalizing lo with
  | nil => exact h
  | cons hd t ih =>
    obtain ⟨k, v⟩ := hd
    simp only [twf, Bool.and_eq_true, decide_eq_true_eq] at h
    unfold tdel
    split
    · refine twf_weaken h.2 ?_
      intro l hl; subst hl; have := h.1.1; simp at this; omega
    · simp only [twf, Bool.and_eq_true, decide_eq_true_eq]
      exact ⟨h.1, ih h.2⟩

/-- Setting a key keeps the canonical form. -/
theorem twf_tset {d : α} {t : Tbl α} {i : Nat} {x : α} (h : twf d none t = true) : twf d none (tset d t i x) = true := by
  unfold tset
  split
  · exact twf_tdel h
  · exact twf_tput h ‹_› (by simp)

theorem twf_filter {d : α} {t : Tbl α} {lo : Option Nat} (p : Nat × α → Bool) (h : twf d lo t = true) :
    twf d lo (t.filter p) = true := by
  induction t generalizing lo with
  | nil => exact h
  | cons hd t ih =>
    obtain ⟨k, v⟩ := hd
    simp only [twf, Bool.and_eq_true, decide_eq_true_eq] at h
    by_cases hp : p (k, v)
    · rw [List.filter_cons_of_pos hp]
      simp only [twf, Bool.and_eq_true, decide_eq_true_eq]
      exact ⟨h.1, ih h.2⟩
    · rw [List.filter_cons_of_neg hp]
      refine ih (twf_weaken h.2 ?_)
      intro l hl; subst hl; have := h.1.1; simp at this; omega

/-- Moving every key by a strictly increasing map keeps the form. -/
theorem twf_map {d : α} {t : Tbl α} {lo : Option Nat} (f : Nat → Nat) (h : twf d lo t = true)
    (hf : ∀ a ∈ t.map Prod.fst, ∀ b ∈ t.map Prod.fst, a < b → f a < f b) :
    twf d none (t.map fun c => (f c.1, c.2)) = true := by
  induction t generalizing lo with
  | nil => rfl
  | cons hd t ih =>
    obtain ⟨k, v⟩ := hd
    simp only [twf, Bool.and_eq_true, decide_eq_true_eq] at h
    have ih' := ih h.2 (fun a ha b hb => hf a (by simp at ha ⊢; exact .inr ha) b (by simp at hb ⊢; exact .inr hb))
    simp only [List.map_cons, twf, Bool.and_eq_true, decide_eq_true_eq]
    refine ⟨⟨trivial, h.1.2⟩, ?_⟩
    cases t with
    | nil => rfl
    | cons hd2 t2 =>
      obtain ⟨k2, v2⟩ := hd2
      simp only [List.map_cons, twf, Bool.and_eq_true, decide_eq_true_eq] at ih' h ⊢
      exact ⟨⟨hf k (by simp) k2 (by simp) h.2.1.1, ih'.1.2⟩, ih'.2⟩

theorem tget_tdel {d : α} {t : Tbl α} {lo : Option Nat} (i j : Nat) (h : twf d lo t = true) :
    tget d (tdel t i) j = if j = i then d else tget d t j := by
  induction t generalizing lo with
  | nil => simp [tdel, tget]
  | cons hd t ih =>
    obtain ⟨k, v⟩ := hd
    simp only [twf, Bool.and_eq_true, decide_eq_true_eq] at h
    unfold tdel
    by_cases hik : i = k
    · subst hik
      rw [if_pos rfl]
      by_cases hj : j = i
      · subst hj; rw [if_pos rfl]; exact twf_above h.2 j (le_refl _)
      · simp only [if_neg hj, tget]
    · rw [if_neg hik]
      simp only [tget]
      by_cases hj : j = k
      · subst hj; rw [if_pos rfl, if_pos rfl, if_neg (by omega)]
      · rw [if_neg hj, if_neg hj]; exact ih h.2

/-- A read after setting a key. -/
theorem tget_tset {d : α} {t : Tbl α} (i j : Nat) (x : α) (h : twf d none t = true) :
    tget d (tset d t i x) j = if j = i then x else tget d t j := by
  unfold tset
  split
  · rw [tget_tdel i j h]; split
    · simp_all
    · rfl
  · exact tget_tput ..

/-- Two canonical tables that read alike are equal. -/
theorem twf_ext {d : α} {t u : Tbl α} {lo lo' : Option Nat} (ht : twf d lo t = true) (hu : twf d lo' u = true)
    (h : ∀ i, tget d t i = tget d u i) : t = u := by
  induction t generalizing u lo lo' with
  | nil =>
    cases u with
    | nil => rfl
    | cons hd u =>
      obtain ⟨k, v⟩ := hd
      simp only [twf, Bool.and_eq_true, decide_eq_true_eq] at hu
      exact absurd (by simpa [tget] using (h k).symm) hu.1.2
  | cons hd t ih =>
    obtain ⟨k, v⟩ := hd
    simp only [twf, Bool.and_eq_true, decide_eq_true_eq] at ht
    cases u with
    | nil => exact absurd (by simpa [tget] using h k) ht.1.2
    | cons hd2 u =>
      obtain ⟨k2, v2⟩ := hd2
      simp only [twf, Bool.and_eq_true, decide_eq_true_eq] at hu
      have hk : k = k2 := by
        rcases Nat.lt_trichotomy k k2 with hlt | he | hgt
        · have e := h k
          simp only [tget, if_true] at e
          rw [if_neg (by omega), twf_above hu.2 k (by omega)] at e
          exact absurd e ht.1.2
        · exact he
        · have e := h k2
          simp only [tget, if_true] at e
          rw [if_neg (by omega), twf_above ht.2 k2 (by omega)] at e
          exact absurd e.symm hu.1.2
      subst hk
      have hv : v = v2 := by simpa [tget] using h k
      subst hv
      have : t = u := ih ht.2 hu.2 (fun i => by
        by_cases hi : i ≤ k
        · rw [twf_above ht.2 i hi, twf_above hu.2 i hi]
        · have e := h i; simp only [tget] at e; rwa [if_neg (by omega), if_neg (by omega)] at e)
      rw [this]

end Tables

/-! ## Memory -/

theorem Memory.wf_nil : Memory.wf [] = true := rfl
theorem Memory.wf_set {m : Memory} (a : Nat) (b : Byte) (h : m.wf = true) : (m.set a b).wf = true := twf_tset h
/-- A byte read after a byte written. -/
theorem Memory.get_set {m : Memory} (a x : Nat) (b : Byte) (h : m.wf = true) :
    (m.set a b).get x = if x = a then b else m.get x := tget_tset a x b h
theorem Memory.wf_setBytes {m : Memory} (a : Nat) (bs : List Byte) (h : m.wf = true) : (m.setBytes a bs).wf = true := by
  induction bs generalizing m a with
  | nil => exact h
  | cons b bs ih => exact ih (a + 1) (Memory.wf_set a b h)
/-- A byte outside the stored bytes reads as before. -/
theorem Memory.get_setBytes_out {m : Memory} (a x : Nat) (bs : List Byte) (h : m.wf = true)
    (hx : x < a ∨ a + bs.length ≤ x) : (m.setBytes a bs).get x = m.get x := by
  induction bs generalizing m a with
  | nil => rfl
  | cons b bs ih =>
    simp only [List.length_cons] at hx
    unfold Memory.setBytes
    rw [ih (a + 1) (Memory.wf_set a b h) (by omega), Memory.get_set a x b h, if_neg (by omega)]
/-- A byte inside the stored bytes reads as stored. -/
theorem Memory.get_setBytes_in {m : Memory} (a i : Nat) (bs : List Byte) (h : m.wf = true) (hi : i < bs.length) :
    (m.setBytes a bs).get (a + i) = bs[i] := by
  induction bs generalizing m a i with
  | nil => simp at hi
  | cons b bs ih =>
    unfold Memory.setBytes
    cases i with
    | zero =>
      rw [Memory.get_setBytes_out (a + 1) (a + 0) bs (Memory.wf_set a b h) (by omega), Memory.get_set a _ b h]
      simp
    | succ i =>
      simp only [List.length_cons] at hi
      have := ih (a + 1) i (Memory.wf_set a b h) (by omega)
      rw [show a + (i + 1) = a + 1 + i by omega, this]; simp
/-- Reading back what was stored. -/
theorem Memory.bytes_setBytes {m : Memory} (a : Nat) (bs : List Byte) (h : m.wf = true) :
    (m.setBytes a bs).bytes a bs.length = bs := by
  have key : ∀ n k, k + n = bs.length → (m.setBytes a bs).bytes (a + k) n = bs.drop k := by
    intro n
    induction n with
    | zero => intro k hk; simp [Memory.bytes]; omega
    | succ n ih =>
      intro k hk
      have hk' : k < bs.length := by omega
      rw [List.drop_eq_getElem_cons hk', ← ih (k + 1) (by omega), ← Memory.get_setBytes_in a k bs h hk']
      rfl
  simpa using key bs.length 0 (by simp)

@[simp] theorem length_leBytes (x n : Nat) : (leBytes x n).length = n := by
  induction n generalizing x with
  | zero => rfl
  | succ n ih => simp [leBytes, ih]
theorem leNat_leBytes (x n : Nat) : leNat (leBytes x n) = x % 256 ^ n := by
  induction n generalizing x with
  | zero => simp [leBytes, leNat, Nat.mod_one]
  | succ n ih =>
    have e : x % 2 ^ 8 = x % 256 := rfl
    simp only [leBytes, leNat, ih, BitVec.toNat_ofNat]
    rw [e, Nat.pow_succ, Nat.mul_comm (256 ^ n) 256, Nat.mod_mul]
/-- A number read where it was stored. -/
theorem Memory.le_setLe {m : Memory} (a n x : Nat) (h : m.wf = true) : (m.setLe a n x).le a n = x % 256 ^ n := by
  have e := Memory.bytes_setBytes (m := m) a (leBytes x n) h
  rw [length_leBytes] at e
  rw [Memory.setLe, Memory.le, e, leNat_leBytes]
theorem Memory.wf_setLe {m : Memory} (a n x : Nat) (h : m.wf = true) : (m.setLe a n x).wf = true :=
  Memory.wf_setBytes a _ h
theorem Memory.get_setLe_out {m : Memory} (a n x y : Nat) (h : m.wf = true) (hy : y < a ∨ a + n ≤ y) :
    (m.setLe a n x).get y = m.get y :=
  Memory.get_setBytes_out a y _ h (by simpa using hy)
theorem Memory.wf_clear {m : Memory} (a n : Nat) (h : m.wf = true) : (m.clear a n).wf = true := twf_filter _ h
theorem Memory.wf_slice {m : Memory} (a n b : Nat) (h : m.wf = true) : (m.slice a n b).wf = true := by
  have hf := twf_filter (d := (0 : Byte)) (fun c => decide (a ≤ c.1) && decide (c.1 < a + n)) h
  refine twf_map (d := (0 : Byte)) (fun k => k - a + b) hf ?_
  intro x hx y hy hxy
  simp only [List.mem_map, List.mem_filter, Bool.and_eq_true, decide_eq_true_eq] at hx hy
  obtain ⟨p, ⟨-, hp⟩, rfl⟩ := hx
  obtain ⟨q, ⟨-, hq⟩, rfl⟩ := hy
  show p.1 - a + b < q.1 - a + b
  omega
theorem Memory.wf_overlay {m l : Memory} (h : m.wf = true) : (m.overlay l).wf = true := by
  unfold Memory.overlay
  induction l generalizing m with
  | nil => exact h
  | cons c l ih => exact ih (Memory.wf_set c.1 c.2 h)
/-- Canonical memories that read alike are one memory. -/
theorem Memory.ext {m n : Memory} (hm : m.wf = true) (hn : n.wf = true) (h : ∀ a, m.get a = n.get a) : m = n :=
  twf_ext hm hn h
theorem Memory.get_clear_out {m : Memory} (a n x : Nat) (hx : ¬(a ≤ x ∧ x < a + n)) : (m.clear a n).get x = m.get x := by
  unfold Memory.clear Memory.get
  induction m with
  | nil => rfl
  | cons c m ih =>
    obtain ⟨k, v⟩ := c
    by_cases hk : a ≤ k ∧ k < a + n
    · rw [List.filter_cons_of_neg (by simp; omega), ih]
      simp only [tget]; rw [if_neg (by rintro rfl; exact hx hk)]
    · rw [List.filter_cons_of_pos (by simp; omega)]
      simp only [tget, ih]
theorem Memory.get_clear_in {m : Memory} (a n x : Nat) (hx : a ≤ x ∧ x < a + n) : (m.clear a n).get x = 0 := by
  unfold Memory.clear Memory.get
  induction m with
  | nil => rfl
  | cons c m ih =>
    obtain ⟨k, v⟩ := c
    by_cases hk : a ≤ k ∧ k < a + n
    · rw [List.filter_cons_of_neg (by simp; omega)]; exact ih
    · rw [List.filter_cons_of_pos (by simp; omega)]
      simp only [tget]; rw [if_neg (by rintro rfl; exact hk hx)]; exact ih

end Sys2Proof.Machine
end

