-- ==== Sys2Proof/Laws/State.lean ====
section
/-!
SUPPORT. What the updates of the state change and what they leave: one lemma per field per update.
-/
namespace Sys2Proof.Machine

section Updates
variable (s : State)

@[simp] theorem setCore_cur (c : Nat) (k : Core) : (s.setCore c k).cur = s.cur := rfl
@[simp] theorem setCore_lag (c : Nat) (k : Core) : (s.setCore c k).lag = s.lag := rfl
@[simp] theorem setCore_sel (c : Nat) (k : Core) : (s.setCore c k).sel = s.sel := rfl
@[simp] theorem setCore_sel2 (c : Nat) (k : Core) : (s.setCore c k).sel2 = s.sel2 := rfl
@[simp] theorem setCore_agenda (c : Nat) (k : Core) : (s.setCore c k).agenda = s.agenda := rfl
@[simp] theorem setCore_freeCtr (c : Nat) (k : Core) : (s.setCore c k).freeCtr = s.freeCtr := rfl
@[simp] theorem setCore_seqs (c : Nat) (k : Core) : (s.setCore c k).seqs = s.seqs := rfl
@[simp] theorem setCore_engs (c : Nat) (k : Core) : (s.setCore c k).engs = s.engs := rfl
@[simp] theorem setCore_ctlb (c : Nat) (k : Core) : (s.setCore c k).ctlb = s.ctlb := rfl
@[simp] theorem setCore_ways (c : Nat) (k : Core) : (s.setCore c k).ways = s.ways := rfl
@[simp] theorem setCore_dspad (c : Nat) (k : Core) : (s.setCore c k).dspad = s.dspad := rfl
@[simp] theorem setCore_heaps (c : Nat) (k : Core) : (s.setCore c k).heaps = s.heaps := rfl
@[simp] theorem setCore_mem (c : Nat) (k : Core) : (s.setCore c k).mem = s.mem := rfl
@[simp] theorem setCore_stale (c : Nat) (k : Core) : (s.setCore c k).stale = s.stale := rfl
@[simp] theorem setCore_dir (c : Nat) (k : Core) : (s.setCore c k).dir = s.dir := rfl
@[simp] theorem setCore_ovtab (c : Nat) (k : Core) : (s.setCore c k).ovtab = s.ovtab := rfl
@[simp] theorem setCore_poison (c : Nat) (k : Core) : (s.setCore c k).poison = s.poison := rfl
@[simp] theorem setCore_fw (c : Nat) (k : Core) : (s.setCore c k).fw = s.fw := rfl
@[simp] theorem setCore_heaptab (c : Nat) (k : Core) : (s.setCore c k).heaptab = s.heaptab := rfl
@[simp] theorem setCore_swtick (c : Nat) (k : Core) : (s.setCore c k).swtick = s.swtick := rfl
@[simp] theorem setCore_swdead (c : Nat) (k : Core) : (s.setCore c k).swdead = s.swdead := rfl
@[simp] theorem setCore_swgrace (c : Nat) (k : Core) : (s.setCore c k).swgrace = s.swgrace := rfl
@[simp] theorem setCore_mons (c : Nat) (k : Core) : (s.setCore c k).mons = s.mons := rfl
@[simp] theorem setCore_monq (c : Nat) (k : Core) : (s.setCore c k).monq = s.monq := rfl
@[simp] theorem setCore_roots (c : Nat) (k : Core) : (s.setCore c k).roots = s.roots := rfl
@[simp] theorem setCore_asidOwner (c : Nat) (k : Core) : (s.setCore c k).asidOwner = s.asidOwner := rfl
@[simp] theorem setCore_tenants (c : Nat) (k : Core) : (s.setCore c k).tenants = s.tenants := rfl
@[simp] theorem setCore_nodes (c : Nat) (k : Core) : (s.setCore c k).nodes = s.nodes := rfl
@[simp] theorem setCore_saved (c : Nat) (k : Core) : (s.setCore c k).saved = s.saved := rfl
@[simp] theorem setCore_parts (c : Nat) (k : Core) : (s.setCore c k).parts = s.parts := rfl
@[simp] theorem setCore_featacc (c : Nat) (k : Core) : (s.setCore c k).featacc = s.featacc := rfl
@[simp] theorem setCore_featlock (c : Nat) (k : Core) : (s.setCore c k).featlock = s.featlock := rfl
@[simp] theorem setCore_featerr (c : Nat) (k : Core) : (s.setCore c k).featerr = s.featerr := rfl
@[simp] theorem setCore_mbcmd (c : Nat) (k : Core) : (s.setCore c k).mbcmd = s.mbcmd := rfl
@[simp] theorem setCore_mbstat (c : Nat) (k : Core) : (s.setCore c k).mbstat = s.mbstat := rfl
@[simp] theorem setCore_mbarg (c : Nat) (k : Core) : (s.setCore c k).mbarg = s.mbarg := rfl
@[simp] theorem setCore_mbRefuse (c : Nat) (k : Core) : (s.setCore c k).mbRefuse = s.mbRefuse := rfl
@[simp] theorem setCore_mbBusy (c : Nat) (k : Core) : (s.setCore c k).mbBusy = s.mbBusy := rfl
@[simp] theorem setCore_queues (c : Nat) (k : Core) : (s.setCore c k).queues = s.queues := rfl
@[simp] theorem setCore_helperAt (c : Nat) (k : Core) : (s.setCore c k).helperAt = s.helperAt := rfl
@[simp] theorem setCore_servedNo (c : Nat) (k : Core) : (s.setCore c k).servedNo = s.servedNo := rfl
@[simp] theorem setCore_launches (c : Nat) (k : Core) : (s.setCore c k).launches = s.launches := rfl
@[simp] theorem setCore_acceptNo (c : Nat) (k : Core) : (s.setCore c k).acceptNo = s.acceptNo := rfl
@[simp] theorem setCore_signals (c : Nat) (k : Core) : (s.setCore c k).signals = s.signals := rfl
@[simp] theorem setCore_insts (c : Nat) (k : Core) : (s.setCore c k).insts = s.insts := rfl
@[simp] theorem setCore_instNo (c : Nat) (k : Core) : (s.setCore c k).instNo = s.instNo := rfl
@[simp] theorem setCore_bindNo (c : Nat) (k : Core) : (s.setCore c k).bindNo = s.bindNo := rfl
@[simp] theorem setCore_net (c : Nat) (k : Core) : (s.setCore c k).net = s.net := rfl
@[simp] theorem setCore_pages (c : Nat) (k : Core) : (s.setCore c k).pages = s.pages := rfl
@[simp] theorem setCore_frames (c : Nat) (k : Core) : (s.setCore c k).frames = s.frames := rfl
@[simp] theorem setCore_unreach (c : Nat) (k : Core) : (s.setCore c k).unreach = s.unreach := rfl
@[simp] theorem setCore_hostData (c : Nat) (k : Core) : (s.setCore c k).hostData = s.hostData := rfl
@[simp] theorem setCore_time (c : Nat) (k : Core) : (s.setCore c k).time = s.time := rfl
@[simp] theorem setCore_hold (c : Nat) (k : Core) : (s.setCore c k).hold = s.hold := rfl
@[simp] theorem setCore_lastTick (c : Nat) (k : Core) : (s.setCore c k).lastTick = s.lastTick := rfl
@[simp] theorem setCore_mgmt (c : Nat) (k : Core) : (s.setCore c k).mgmt = s.mgmt := rfl
@[simp] theorem setCore_slotCls (c : Nat) (k : Core) : (s.setCore c k).slotCls = s.slotCls := rfl
@[simp] theorem setCore_l1d (c : Nat) (k : Core) : (s.setCore c k).l1d = s.l1d := rfl
@[simp] theorem setCore_l2 (c : Nat) (k : Core) : (s.setCore c k).l2 = s.l2 := rfl
@[simp] theorem setCore_l3 (c : Nat) (k : Core) : (s.setCore c k).l3 = s.l3 := rfl
@[simp] theorem setCore_loads (c : Nat) (k : Core) : (s.setCore c k).loads = s.loads := rfl
@[simp] theorem setCore_was (c : Nat) (k : Core) : (s.setCore c k).was = s.was := rfl
@[simp] theorem setCore_posts (c : Nat) (k : Core) : (s.setCore c k).posts = s.posts := rfl
@[simp] theorem setCore_feq (c : Nat) (k : Core) : (s.setCore c k).feq = s.feq := rfl
@[simp] theorem setCore_asked (c : Nat) (k : Core) : (s.setCore c k).asked = s.asked := rfl
@[simp] theorem setCore_passing (c : Nat) (k : Core) : (s.setCore c k).passing = s.passing := rfl
@[simp] theorem setCore_raised (c : Nat) (k : Core) : (s.setCore c k).raised = s.raised := rfl

@[simp] theorem setSeq_cur (r : Nat) (u : SeqUnit) : (s.setSeq r u).cur = s.cur := rfl
@[simp] theorem setSeq_lag (r : Nat) (u : SeqUnit) : (s.setSeq r u).lag = s.lag := rfl
@[simp] theorem setSeq_sel (r : Nat) (u : SeqUnit) : (s.setSeq r u).sel = s.sel := rfl
@[simp] theorem setSeq_sel2 (r : Nat) (u : SeqUnit) : (s.setSeq r u).sel2 = s.sel2 := rfl
@[simp] theorem setSeq_agenda (r : Nat) (u : SeqUnit) : (s.setSeq r u).agenda = s.agenda := rfl
@[simp] theorem setSeq_freeCtr (r : Nat) (u : SeqUnit) : (s.setSeq r u).freeCtr = s.freeCtr := rfl
@[simp] theorem setSeq_cores (r : Nat) (u : SeqUnit) : (s.setSeq r u).cores = s.cores := rfl
@[simp] theorem setSeq_engs (r : Nat) (u : SeqUnit) : (s.setSeq r u).engs = s.engs := rfl
@[simp] theorem setSeq_ctlb (r : Nat) (u : SeqUnit) : (s.setSeq r u).ctlb = s.ctlb := rfl
@[simp] theorem setSeq_ways (r : Nat) (u : SeqUnit) : (s.setSeq r u).ways = s.ways := rfl
@[simp] theorem setSeq_dspad (r : Nat) (u : SeqUnit) : (s.setSeq r u).dspad = s.dspad := rfl
@[simp] theorem setSeq_heaps (r : Nat) (u : SeqUnit) : (s.setSeq r u).heaps = s.heaps := rfl
@[simp] theorem setSeq_mem (r : Nat) (u : SeqUnit) : (s.setSeq r u).mem = s.mem := rfl
@[simp] theorem setSeq_stale (r : Nat) (u : SeqUnit) : (s.setSeq r u).stale = s.stale := rfl
@[simp] theorem setSeq_dir (r : Nat) (u : SeqUnit) : (s.setSeq r u).dir = s.dir := rfl
@[simp] theorem setSeq_ovtab (r : Nat) (u : SeqUnit) : (s.setSeq r u).ovtab = s.ovtab := rfl
@[simp] theorem setSeq_poison (r : Nat) (u : SeqUnit) : (s.setSeq r u).poison = s.poison := rfl
@[simp] theorem setSeq_fw (r : Nat) (u : SeqUnit) : (s.setSeq r u).fw = s.fw := rfl
@[simp] theorem setSeq_heaptab (r : Nat) (u : SeqUnit) : (s.setSeq r u).heaptab = s.heaptab := rfl
@[simp] theorem setSeq_swtick (r : Nat) (u : SeqUnit) : (s.setSeq r u).swtick = s.swtick := rfl
@[simp] theorem setSeq_swdead (r : Nat) (u : SeqUnit) : (s.setSeq r u).swdead = s.swdead := rfl
@[simp] theorem setSeq_swgrace (r : Nat) (u : SeqUnit) : (s.setSeq r u).swgrace = s.swgrace := rfl
@[simp] theorem setSeq_mons (r : Nat) (u : SeqUnit) : (s.setSeq r u).mons = s.mons := rfl
@[simp] theorem setSeq_monq (r : Nat) (u : SeqUnit) : (s.setSeq r u).monq = s.monq := rfl
@[simp] theorem setSeq_roots (r : Nat) (u : SeqUnit) : (s.setSeq r u).roots = s.roots := rfl
@[simp] theorem setSeq_asidOwner (r : Nat) (u : SeqUnit) : (s.setSeq r u).asidOwner = s.asidOwner := rfl
@[simp] theorem setSeq_tenants (r : Nat) (u : SeqUnit) : (s.setSeq r u).tenants = s.tenants := rfl
@[simp] theorem setSeq_nodes (r : Nat) (u : SeqUnit) : (s.setSeq r u).nodes = s.nodes := rfl
@[simp] theorem setSeq_saved (r : Nat) (u : SeqUnit) : (s.setSeq r u).saved = s.saved := rfl
@[simp] theorem setSeq_parts (r : Nat) (u : SeqUnit) : (s.setSeq r u).parts = s.parts := rfl
@[simp] theorem setSeq_featacc (r : Nat) (u : SeqUnit) : (s.setSeq r u).featacc = s.featacc := rfl
@[simp] theorem setSeq_featlock (r : Nat) (u : SeqUnit) : (s.setSeq r u).featlock = s.featlock := rfl
@[simp] theorem setSeq_featerr (r : Nat) (u : SeqUnit) : (s.setSeq r u).featerr = s.featerr := rfl
@[simp] theorem setSeq_mbcmd (r : Nat) (u : SeqUnit) : (s.setSeq r u).mbcmd = s.mbcmd := rfl
@[simp] theorem setSeq_mbstat (r : Nat) (u : SeqUnit) : (s.setSeq r u).mbstat = s.mbstat := rfl
@[simp] theorem setSeq_mbarg (r : Nat) (u : SeqUnit) : (s.setSeq r u).mbarg = s.mbarg := rfl
@[simp] theorem setSeq_mbRefuse (r : Nat) (u : SeqUnit) : (s.setSeq r u).mbRefuse = s.mbRefuse := rfl
@[simp] theorem setSeq_mbBusy (r : Nat) (u : SeqUnit) : (s.setSeq r u).mbBusy = s.mbBusy := rfl
@[simp] theorem setSeq_queues (r : Nat) (u : SeqUnit) : (s.setSeq r u).queues = s.queues := rfl
@[simp] theorem setSeq_helperAt (r : Nat) (u : SeqUnit) : (s.setSeq r u).helperAt = s.helperAt := rfl
@[simp] theorem setSeq_servedNo (r : Nat) (u : SeqUnit) : (s.setSeq r u).servedNo = s.servedNo := rfl
@[simp] theorem setSeq_launches (r : Nat) (u : SeqUnit) : (s.setSeq r u).launches = s.launches := rfl
@[simp] theorem setSeq_acceptNo (r : Nat) (u : SeqUnit) : (s.setSeq r u).acceptNo = s.acceptNo := rfl
@[simp] theorem setSeq_signals (r : Nat) (u : SeqUnit) : (s.setSeq r u).signals = s.signals := rfl
@[simp] theorem setSeq_insts (r : Nat) (u : SeqUnit) : (s.setSeq r u).insts = s.insts := rfl
@[simp] theorem setSeq_instNo (r : Nat) (u : SeqUnit) : (s.setSeq r u).instNo = s.instNo := rfl
@[simp] theorem setSeq_bindNo (r : Nat) (u : SeqUnit) : (s.setSeq r u).bindNo = s.bindNo := rfl
@[simp] theorem setSeq_net (r : Nat) (u : SeqUnit) : (s.setSeq r u).net = s.net := rfl
@[simp] theorem setSeq_pages (r : Nat) (u : SeqUnit) : (s.setSeq r u).pages = s.pages := rfl
@[simp] theorem setSeq_frames (r : Nat) (u : SeqUnit) : (s.setSeq r u).frames = s.frames := rfl
@[simp] theorem setSeq_unreach (r : Nat) (u : SeqUnit) : (s.setSeq r u).unreach = s.unreach := rfl
@[simp] theorem setSeq_hostData (r : Nat) (u : SeqUnit) : (s.setSeq r u).hostData = s.hostData := rfl
@[simp] theorem setSeq_time (r : Nat) (u : SeqUnit) : (s.setSeq r u).time = s.time := rfl
@[simp] theorem setSeq_hold (r : Nat) (u : SeqUnit) : (s.setSeq r u).hold = s.hold := rfl
@[simp] theorem setSeq_lastTick (r : Nat) (u : SeqUnit) : (s.setSeq r u).lastTick = s.lastTick := rfl
@[simp] theorem setSeq_mgmt (r : Nat) (u : SeqUnit) : (s.setSeq r u).mgmt = s.mgmt := rfl
@[simp] theorem setSeq_slotCls (r : Nat) (u : SeqUnit) : (s.setSeq r u).slotCls = s.slotCls := rfl
@[simp] theorem setSeq_l1d (r : Nat) (u : SeqUnit) : (s.setSeq r u).l1d = s.l1d := rfl
@[simp] theorem setSeq_l2 (r : Nat) (u : SeqUnit) : (s.setSeq r u).l2 = s.l2 := rfl
@[simp] theorem setSeq_l3 (r : Nat) (u : SeqUnit) : (s.setSeq r u).l3 = s.l3 := rfl
@[simp] theorem setSeq_loads (r : Nat) (u : SeqUnit) : (s.setSeq r u).loads = s.loads := rfl
@[simp] theorem setSeq_was (r : Nat) (u : SeqUnit) : (s.setSeq r u).was = s.was := rfl
@[simp] theorem setSeq_posts (r : Nat) (u : SeqUnit) : (s.setSeq r u).posts = s.posts := rfl
@[simp] theorem setSeq_feq (r : Nat) (u : SeqUnit) : (s.setSeq r u).feq = s.feq := rfl
@[simp] theorem setSeq_asked (r : Nat) (u : SeqUnit) : (s.setSeq r u).asked = s.asked := rfl
@[simp] theorem setSeq_passing (r : Nat) (u : SeqUnit) : (s.setSeq r u).passing = s.passing := rfl
@[simp] theorem setSeq_raised (r : Nat) (u : SeqUnit) : (s.setSeq r u).raised = s.raised := rfl

@[simp] theorem setEng_cur (g : Nat) (u : EngUnit) : (s.setEng g u).cur = s.cur := rfl
@[simp] theorem setEng_lag (g : Nat) (u : EngUnit) : (s.setEng g u).lag = s.lag := rfl
@[simp] theorem setEng_sel (g : Nat) (u : EngUnit) : (s.setEng g u).sel = s.sel := rfl
@[simp] theorem setEng_sel2 (g : Nat) (u : EngUnit) : (s.setEng g u).sel2 = s.sel2 := rfl
@[simp] theorem setEng_agenda (g : Nat) (u : EngUnit) : (s.setEng g u).agenda = s.agenda := rfl
@[simp] theorem setEng_freeCtr (g : Nat) (u : EngUnit) : (s.setEng g u).freeCtr = s.freeCtr := rfl
@[simp] theorem setEng_cores (g : Nat) (u : EngUnit) : (s.setEng g u).cores = s.cores := rfl
@[simp] theorem setEng_seqs (g : Nat) (u : EngUnit) : (s.setEng g u).seqs = s.seqs := rfl
@[simp] theorem setEng_ctlb (g : Nat) (u : EngUnit) : (s.setEng g u).ctlb = s.ctlb := rfl
@[simp] theorem setEng_ways (g : Nat) (u : EngUnit) : (s.setEng g u).ways = s.ways := rfl
@[simp] theorem setEng_dspad (g : Nat) (u : EngUnit) : (s.setEng g u).dspad = s.dspad := rfl
@[simp] theorem setEng_heaps (g : Nat) (u : EngUnit) : (s.setEng g u).heaps = s.heaps := rfl
@[simp] theorem setEng_mem (g : Nat) (u : EngUnit) : (s.setEng g u).mem = s.mem := rfl
@[simp] theorem setEng_stale (g : Nat) (u : EngUnit) : (s.setEng g u).stale = s.stale := rfl
@[simp] theorem setEng_dir (g : Nat) (u : EngUnit) : (s.setEng g u).dir = s.dir := rfl
@[simp] theorem setEng_ovtab (g : Nat) (u : EngUnit) : (s.setEng g u).ovtab = s.ovtab := rfl
@[simp] theorem setEng_poison (g : Nat) (u : EngUnit) : (s.setEng g u).poison = s.poison := rfl
@[simp] theorem setEng_fw (g : Nat) (u : EngUnit) : (s.setEng g u).fw = s.fw := rfl
@[simp] theorem setEng_heaptab (g : Nat) (u : EngUnit) : (s.setEng g u).heaptab = s.heaptab := rfl
@[simp] theorem setEng_swtick (g : Nat) (u : EngUnit) : (s.setEng g u).swtick = s.swtick := rfl
@[simp] theorem setEng_swdead (g : Nat) (u : EngUnit) : (s.setEng g u).swdead = s.swdead := rfl
@[simp] theorem setEng_swgrace (g : Nat) (u : EngUnit) : (s.setEng g u).swgrace = s.swgrace := rfl
@[simp] theorem setEng_mons (g : Nat) (u : EngUnit) : (s.setEng g u).mons = s.mons := rfl
@[simp] theorem setEng_monq (g : Nat) (u : EngUnit) : (s.setEng g u).monq = s.monq := rfl
@[simp] theorem setEng_roots (g : Nat) (u : EngUnit) : (s.setEng g u).roots = s.roots := rfl
@[simp] theorem setEng_asidOwner (g : Nat) (u : EngUnit) : (s.setEng g u).asidOwner = s.asidOwner := rfl
@[simp] theorem setEng_tenants (g : Nat) (u : EngUnit) : (s.setEng g u).tenants = s.tenants := rfl
@[simp] theorem setEng_nodes (g : Nat) (u : EngUnit) : (s.setEng g u).nodes = s.nodes := rfl
@[simp] theorem setEng_saved (g : Nat) (u : EngUnit) : (s.setEng g u).saved = s.saved := rfl
@[simp] theorem setEng_parts (g : Nat) (u : EngUnit) : (s.setEng g u).parts = s.parts := rfl
@[simp] theorem setEng_featacc (g : Nat) (u : EngUnit) : (s.setEng g u).featacc = s.featacc := rfl
@[simp] theorem setEng_featlock (g : Nat) (u : EngUnit) : (s.setEng g u).featlock = s.featlock := rfl
@[simp] theorem setEng_featerr (g : Nat) (u : EngUnit) : (s.setEng g u).featerr = s.featerr := rfl
@[simp] theorem setEng_mbcmd (g : Nat) (u : EngUnit) : (s.setEng g u).mbcmd = s.mbcmd := rfl
@[simp] theorem setEng_mbstat (g : Nat) (u : EngUnit) : (s.setEng g u).mbstat = s.mbstat := rfl
@[simp] theorem setEng_mbarg (g : Nat) (u : EngUnit) : (s.setEng g u).mbarg = s.mbarg := rfl
@[simp] theorem setEng_mbRefuse (g : Nat) (u : EngUnit) : (s.setEng g u).mbRefuse = s.mbRefuse := rfl
@[simp] theorem setEng_mbBusy (g : Nat) (u : EngUnit) : (s.setEng g u).mbBusy = s.mbBusy := rfl
@[simp] theorem setEng_queues (g : Nat) (u : EngUnit) : (s.setEng g u).queues = s.queues := rfl
@[simp] theorem setEng_helperAt (g : Nat) (u : EngUnit) : (s.setEng g u).helperAt = s.helperAt := rfl
@[simp] theorem setEng_servedNo (g : Nat) (u : EngUnit) : (s.setEng g u).servedNo = s.servedNo := rfl
@[simp] theorem setEng_launches (g : Nat) (u : EngUnit) : (s.setEng g u).launches = s.launches := rfl
@[simp] theorem setEng_acceptNo (g : Nat) (u : EngUnit) : (s.setEng g u).acceptNo = s.acceptNo := rfl
@[simp] theorem setEng_signals (g : Nat) (u : EngUnit) : (s.setEng g u).signals = s.signals := rfl
@[simp] theorem setEng_insts (g : Nat) (u : EngUnit) : (s.setEng g u).insts = s.insts := rfl
@[simp] theorem setEng_instNo (g : Nat) (u : EngUnit) : (s.setEng g u).instNo = s.instNo := rfl
@[simp] theorem setEng_bindNo (g : Nat) (u : EngUnit) : (s.setEng g u).bindNo = s.bindNo := rfl
@[simp] theorem setEng_net (g : Nat) (u : EngUnit) : (s.setEng g u).net = s.net := rfl
@[simp] theorem setEng_pages (g : Nat) (u : EngUnit) : (s.setEng g u).pages = s.pages := rfl
@[simp] theorem setEng_frames (g : Nat) (u : EngUnit) : (s.setEng g u).frames = s.frames := rfl
@[simp] theorem setEng_unreach (g : Nat) (u : EngUnit) : (s.setEng g u).unreach = s.unreach := rfl
@[simp] theorem setEng_hostData (g : Nat) (u : EngUnit) : (s.setEng g u).hostData = s.hostData := rfl
@[simp] theorem setEng_time (g : Nat) (u : EngUnit) : (s.setEng g u).time = s.time := rfl
@[simp] theorem setEng_hold (g : Nat) (u : EngUnit) : (s.setEng g u).hold = s.hold := rfl
@[simp] theorem setEng_lastTick (g : Nat) (u : EngUnit) : (s.setEng g u).lastTick = s.lastTick := rfl
@[simp] theorem setEng_mgmt (g : Nat) (u : EngUnit) : (s.setEng g u).mgmt = s.mgmt := rfl
@[simp] theorem setEng_slotCls (g : Nat) (u : EngUnit) : (s.setEng g u).slotCls = s.slotCls := rfl
@[simp] theorem setEng_l1d (g : Nat) (u : EngUnit) : (s.setEng g u).l1d = s.l1d := rfl
@[simp] theorem setEng_l2 (g : Nat) (u : EngUnit) : (s.setEng g u).l2 = s.l2 := rfl
@[simp] theorem setEng_l3 (g : Nat) (u : EngUnit) : (s.setEng g u).l3 = s.l3 := rfl
@[simp] theorem setEng_loads (g : Nat) (u : EngUnit) : (s.setEng g u).loads = s.loads := rfl
@[simp] theorem setEng_was (g : Nat) (u : EngUnit) : (s.setEng g u).was = s.was := rfl
@[simp] theorem setEng_posts (g : Nat) (u : EngUnit) : (s.setEng g u).posts = s.posts := rfl
@[simp] theorem setEng_feq (g : Nat) (u : EngUnit) : (s.setEng g u).feq = s.feq := rfl
@[simp] theorem setEng_asked (g : Nat) (u : EngUnit) : (s.setEng g u).asked = s.asked := rfl
@[simp] theorem setEng_passing (g : Nat) (u : EngUnit) : (s.setEng g u).passing = s.passing := rfl
@[simp] theorem setEng_raised (g : Nat) (u : EngUnit) : (s.setEng g u).raised = s.raised := rfl

@[simp] theorem setNode_cur (n : Nat) (f : Node → Node) : (s.setNode n f).cur = s.cur := rfl
@[simp] theorem setNode_lag (n : Nat) (f : Node → Node) : (s.setNode n f).lag = s.lag := rfl
@[simp] theorem setNode_sel (n : Nat) (f : Node → Node) : (s.setNode n f).sel = s.sel := rfl
@[simp] theorem setNode_sel2 (n : Nat) (f : Node → Node) : (s.setNode n f).sel2 = s.sel2 := rfl
@[simp] theorem setNode_agenda (n : Nat) (f : Node → Node) : (s.setNode n f).agenda = s.agenda := rfl
@[simp] theorem setNode_freeCtr (n : Nat) (f : Node → Node) : (s.setNode n f).freeCtr = s.freeCtr := rfl
@[simp] theorem setNode_cores (n : Nat) (f : Node → Node) : (s.setNode n f).cores = s.cores := rfl
@[simp] theorem setNode_seqs (n : Nat) (f : Node → Node) : (s.setNode n f).seqs = s.seqs := rfl
@[simp] theorem setNode_engs (n : Nat) (f : Node → Node) : (s.setNode n f).engs = s.engs := rfl
@[simp] theorem setNode_ctlb (n : Nat) (f : Node → Node) : (s.setNode n f).ctlb = s.ctlb := rfl
@[simp] theorem setNode_ways (n : Nat) (f : Node → Node) : (s.setNode n f).ways = s.ways := rfl
@[simp] theorem setNode_dspad (n : Nat) (f : Node → Node) : (s.setNode n f).dspad = s.dspad := rfl
@[simp] theorem setNode_heaps (n : Nat) (f : Node → Node) : (s.setNode n f).heaps = s.heaps := rfl
@[simp] theorem setNode_mem (n : Nat) (f : Node → Node) : (s.setNode n f).mem = s.mem := rfl
@[simp] theorem setNode_stale (n : Nat) (f : Node → Node) : (s.setNode n f).stale = s.stale := rfl
@[simp] theorem setNode_dir (n : Nat) (f : Node → Node) : (s.setNode n f).dir = s.dir := rfl
@[simp] theorem setNode_ovtab (n : Nat) (f : Node → Node) : (s.setNode n f).ovtab = s.ovtab := rfl
@[simp] theorem setNode_poison (n : Nat) (f : Node → Node) : (s.setNode n f).poison = s.poison := rfl
@[simp] theorem setNode_fw (n : Nat) (f : Node → Node) : (s.setNode n f).fw = s.fw := rfl
@[simp] theorem setNode_heaptab (n : Nat) (f : Node → Node) : (s.setNode n f).heaptab = s.heaptab := rfl
@[simp] theorem setNode_swtick (n : Nat) (f : Node → Node) : (s.setNode n f).swtick = s.swtick := rfl
@[simp] theorem setNode_swdead (n : Nat) (f : Node → Node) : (s.setNode n f).swdead = s.swdead := rfl
@[simp] theorem setNode_swgrace (n : Nat) (f : Node → Node) : (s.setNode n f).swgrace = s.swgrace := rfl
@[simp] theorem setNode_mons (n : Nat) (f : Node → Node) : (s.setNode n f).mons = s.mons := rfl
@[simp] theorem setNode_monq (n : Nat) (f : Node → Node) : (s.setNode n f).monq = s.monq := rfl
@[simp] theorem setNode_roots (n : Nat) (f : Node → Node) : (s.setNode n f).roots = s.roots := rfl
@[simp] theorem setNode_asidOwner (n : Nat) (f : Node → Node) : (s.setNode n f).asidOwner = s.asidOwner := rfl
@[simp] theorem setNode_tenants (n : Nat) (f : Node → Node) : (s.setNode n f).tenants = s.tenants := rfl
@[simp] theorem setNode_saved (n : Nat) (f : Node → Node) : (s.setNode n f).saved = s.saved := rfl
@[simp] theorem setNode_parts (n : Nat) (f : Node → Node) : (s.setNode n f).parts = s.parts := rfl
@[simp] theorem setNode_featacc (n : Nat) (f : Node → Node) : (s.setNode n f).featacc = s.featacc := rfl
@[simp] theorem setNode_featlock (n : Nat) (f : Node → Node) : (s.setNode n f).featlock = s.featlock := rfl
@[simp] theorem setNode_featerr (n : Nat) (f : Node → Node) : (s.setNode n f).featerr = s.featerr := rfl
@[simp] theorem setNode_mbcmd (n : Nat) (f : Node → Node) : (s.setNode n f).mbcmd = s.mbcmd := rfl
@[simp] theorem setNode_mbstat (n : Nat) (f : Node → Node) : (s.setNode n f).mbstat = s.mbstat := rfl
@[simp] theorem setNode_mbarg (n : Nat) (f : Node → Node) : (s.setNode n f).mbarg = s.mbarg := rfl
@[simp] theorem setNode_mbRefuse (n : Nat) (f : Node → Node) : (s.setNode n f).mbRefuse = s.mbRefuse := rfl
@[simp] theorem setNode_mbBusy (n : Nat) (f : Node → Node) : (s.setNode n f).mbBusy = s.mbBusy := rfl
@[simp] theorem setNode_queues (n : Nat) (f : Node → Node) : (s.setNode n f).queues = s.queues := rfl
@[simp] theorem setNode_helperAt (n : Nat) (f : Node → Node) : (s.setNode n f).helperAt = s.helperAt := rfl
@[simp] theorem setNode_servedNo (n : Nat) (f : Node → Node) : (s.setNode n f).servedNo = s.servedNo := rfl
@[simp] theorem setNode_launches (n : Nat) (f : Node → Node) : (s.setNode n f).launches = s.launches := rfl
@[simp] theorem setNode_acceptNo (n : Nat) (f : Node → Node) : (s.setNode n f).acceptNo = s.acceptNo := rfl
@[simp] theorem setNode_signals (n : Nat) (f : Node → Node) : (s.setNode n f).signals = s.signals := rfl
@[simp] theorem setNode_insts (n : Nat) (f : Node → Node) : (s.setNode n f).insts = s.insts := rfl
@[simp] theorem setNode_instNo (n : Nat) (f : Node → Node) : (s.setNode n f).instNo = s.instNo := rfl
@[simp] theorem setNode_bindNo (n : Nat) (f : Node → Node) : (s.setNode n f).bindNo = s.bindNo := rfl
@[simp] theorem setNode_net (n : Nat) (f : Node → Node) : (s.setNode n f).net = s.net := rfl
@[simp] theorem setNode_pages (n : Nat) (f : Node → Node) : (s.setNode n f).pages = s.pages := rfl
@[simp] theorem setNode_frames (n : Nat) (f : Node → Node) : (s.setNode n f).frames = s.frames := rfl
@[simp] theorem setNode_unreach (n : Nat) (f : Node → Node) : (s.setNode n f).unreach = s.unreach := rfl
@[simp] theorem setNode_hostData (n : Nat) (f : Node → Node) : (s.setNode n f).hostData = s.hostData := rfl
@[simp] theorem setNode_time (n : Nat) (f : Node → Node) : (s.setNode n f).time = s.time := rfl
@[simp] theorem setNode_hold (n : Nat) (f : Node → Node) : (s.setNode n f).hold = s.hold := rfl
@[simp] theorem setNode_lastTick (n : Nat) (f : Node → Node) : (s.setNode n f).lastTick = s.lastTick := rfl
@[simp] theorem setNode_mgmt (n : Nat) (f : Node → Node) : (s.setNode n f).mgmt = s.mgmt := rfl
@[simp] theorem setNode_slotCls (n : Nat) (f : Node → Node) : (s.setNode n f).slotCls = s.slotCls := rfl
@[simp] theorem setNode_l1d (n : Nat) (f : Node → Node) : (s.setNode n f).l1d = s.l1d := rfl
@[simp] theorem setNode_l2 (n : Nat) (f : Node → Node) : (s.setNode n f).l2 = s.l2 := rfl
@[simp] theorem setNode_l3 (n : Nat) (f : Node → Node) : (s.setNode n f).l3 = s.l3 := rfl
@[simp] theorem setNode_loads (n : Nat) (f : Node → Node) : (s.setNode n f).loads = s.loads := rfl
@[simp] theorem setNode_was (n : Nat) (f : Node → Node) : (s.setNode n f).was = s.was := rfl
@[simp] theorem setNode_posts (n : Nat) (f : Node → Node) : (s.setNode n f).posts = s.posts := rfl
@[simp] theorem setNode_feq (n : Nat) (f : Node → Node) : (s.setNode n f).feq = s.feq := rfl
@[simp] theorem setNode_asked (n : Nat) (f : Node → Node) : (s.setNode n f).asked = s.asked := rfl
@[simp] theorem setNode_passing (n : Nat) (f : Node → Node) : (s.setNode n f).passing = s.passing := rfl
@[simp] theorem setNode_raised (n : Nat) (f : Node → Node) : (s.setNode n f).raised = s.raised := rfl

@[simp] theorem modLaunch_cur (a : Nat) (f : Launch → Launch) : (s.modLaunch a f).cur = s.cur := rfl
@[simp] theorem modLaunch_lag (a : Nat) (f : Launch → Launch) : (s.modLaunch a f).lag = s.lag := rfl
@[simp] theorem modLaunch_sel (a : Nat) (f : Launch → Launch) : (s.modLaunch a f).sel = s.sel := rfl
@[simp] theorem modLaunch_sel2 (a : Nat) (f : Launch → Launch) : (s.modLaunch a f).sel2 = s.sel2 := rfl
@[simp] theorem modLaunch_agenda (a : Nat) (f : Launch → Launch) : (s.modLaunch a f).agenda = s.agenda := rfl
@[simp] theorem modLaunch_freeCtr (a : Nat) (f : Launch → Launch) : (s.modLaunch a f).freeCtr = s.freeCtr := rfl
@[simp] theorem modLaunch_cores (a : Nat) (f : Launch → Launch) : (s.modLaunch a f).cores = s.cores := rfl
@[simp] theorem modLaunch_seqs (a : Nat) (f : Launch → Launch) : (s.modLaunch a f).seqs = s.seqs := rfl
@[simp] theorem modLaunch_engs (a : Nat) (f : Launch → Launch) : (s.modLaunch a f).engs = s.engs := rfl
@[simp] theorem modLaunch_ctlb (a : Nat) (f : Launch → Launch) : (s.modLaunch a f).ctlb = s.ctlb := rfl
@[simp] theorem modLaunch_ways (a : Nat) (f : Launch → Launch) : (s.modLaunch a f).ways = s.ways := rfl
@[simp] theorem modLaunch_dspad (a : Nat) (f : Launch → Launch) : (s.modLaunch a f).dspad = s.dspad := rfl
@[simp] theorem modLaunch_heaps (a : Nat) (f : Launch → Launch) : (s.modLaunch a f).heaps = s.heaps := rfl
@[simp] theorem modLaunch_mem (a : Nat) (f : Launch → Launch) : (s.modLaunch a f).mem = s.mem := rfl
@[simp] theorem modLaunch_stale (a : Nat) (f : Launch → Launch) : (s.modLaunch a f).stale = s.stale := rfl
@[simp] theorem modLaunch_dir (a : Nat) (f : Launch → Launch) : (s.modLaunch a f).dir = s.dir := rfl
@[simp] theorem modLaunch_ovtab (a : Nat) (f : Launch → Launch) : (s.modLaunch a f).ovtab = s.ovtab := rfl
@[simp] theorem modLaunch_poison (a : Nat) (f : Launch → Launch) : (s.modLaunch a f).poison = s.poison := rfl
@[simp] theorem modLaunch_fw (a : Nat) (f : Launch → Launch) : (s.modLaunch a f).fw = s.fw := rfl
@[simp] theorem modLaunch_heaptab (a : Nat) (f : Launch → Launch) : (s.modLaunch a f).heaptab = s.heaptab := rfl
@[simp] theorem modLaunch_swtick (a : Nat) (f : Launch → Launch) : (s.modLaunch a f).swtick = s.swtick := rfl
@[simp] theorem modLaunch_swdead (a : Nat) (f : Launch → Launch) : (s.modLaunch a f).swdead = s.swdead := rfl
@[simp] theorem modLaunch_swgrace (a : Nat) (f : Launch → Launch) : (s.modLaunch a f).swgrace = s.swgrace := rfl
@[simp] theorem modLaunch_mons (a : Nat) (f : Launch → Launch) : (s.modLaunch a f).mons = s.mons := rfl
@[simp] theorem modLaunch_monq (a : Nat) (f : Launch → Launch) : (s.modLaunch a f).monq = s.monq := rfl
@[simp] theorem modLaunch_roots (a : Nat) (f : Launch → Launch) : (s.modLaunch a f).roots = s.roots := rfl
@[simp] theorem modLaunch_asidOwner (a : Nat) (f : Launch → Launch) : (s.modLaunch a f).asidOwner = s.asidOwner := rfl
@[simp] theorem modLaunch_tenants (a : Nat) (f : Launch → Launch) : (s.modLaunch a f).tenants = s.tenants := rfl
@[simp] theorem modLaunch_nodes (a : Nat) (f : Launch → Launch) : (s.modLaunch a f).nodes = s.nodes := rfl
@[simp] theorem modLaunch_saved (a : Nat) (f : Launch → Launch) : (s.modLaunch a f).saved = s.saved := rfl
@[simp] theorem modLaunch_parts (a : Nat) (f : Launch → Launch) : (s.modLaunch a f).parts = s.parts := rfl
@[simp] theorem modLaunch_featacc (a : Nat) (f : Launch → Launch) : (s.modLaunch a f).featacc = s.featacc := rfl
@[simp] theorem modLaunch_featlock (a : Nat) (f : Launch → Launch) : (s.modLaunch a f).featlock = s.featlock := rfl
@[simp] theorem modLaunch_featerr (a : Nat) (f : Launch → Launch) : (s.modLaunch a f).featerr = s.featerr := rfl
@[simp] theorem modLaunch_mbcmd (a : Nat) (f : Launch → Launch) : (s.modLaunch a f).mbcmd = s.mbcmd := rfl
@[simp] theorem modLaunch_mbstat (a : Nat) (f : Launch → Launch) : (s.modLaunch a f).mbstat = s.mbstat := rfl
@[simp] theorem modLaunch_mbarg (a : Nat) (f : Launch → Launch) : (s.modLaunch a f).mbarg = s.mbarg := rfl
@[simp] theorem modLaunch_mbRefuse (a : Nat) (f : Launch → Launch) : (s.modLaunch a f).mbRefuse = s.mbRefuse := rfl
@[simp] theorem modLaunch_mbBusy (a : Nat) (f : Launch → Launch) : (s.modLaunch a f).mbBusy = s.mbBusy := rfl
@[simp] theorem modLaunch_queues (a : Nat) (f : Launch → Launch) : (s.modLaunch a f).queues = s.queues := rfl
@[simp] theorem modLaunch_helperAt (a : Nat) (f : Launch → Launch) : (s.modLaunch a f).helperAt = s.helperAt := rfl
@[simp] theorem modLaunch_servedNo (a : Nat) (f : Launch → Launch) : (s.modLaunch a f).servedNo = s.servedNo := rfl
@[simp] theorem modLaunch_acceptNo (a : Nat) (f : Launch → Launch) : (s.modLaunch a f).acceptNo = s.acceptNo := rfl
@[simp] theorem modLaunch_signals (a : Nat) (f : Launch → Launch) : (s.modLaunch a f).signals = s.signals := rfl
@[simp] theorem modLaunch_insts (a : Nat) (f : Launch → Launch) : (s.modLaunch a f).insts = s.insts := rfl
@[simp] theorem modLaunch_instNo (a : Nat) (f : Launch → Launch) : (s.modLaunch a f).instNo = s.instNo := rfl
@[simp] theorem modLaunch_bindNo (a : Nat) (f : Launch → Launch) : (s.modLaunch a f).bindNo = s.bindNo := rfl
@[simp] theorem modLaunch_net (a : Nat) (f : Launch → Launch) : (s.modLaunch a f).net = s.net := rfl
@[simp] theorem modLaunch_pages (a : Nat) (f : Launch → Launch) : (s.modLaunch a f).pages = s.pages := rfl
@[simp] theorem modLaunch_frames (a : Nat) (f : Launch → Launch) : (s.modLaunch a f).frames = s.frames := rfl
@[simp] theorem modLaunch_unreach (a : Nat) (f : Launch → Launch) : (s.modLaunch a f).unreach = s.unreach := rfl
@[simp] theorem modLaunch_hostData (a : Nat) (f : Launch → Launch) : (s.modLaunch a f).hostData = s.hostData := rfl
@[simp] theorem modLaunch_time (a : Nat) (f : Launch → Launch) : (s.modLaunch a f).time = s.time := rfl
@[simp] theorem modLaunch_hold (a : Nat) (f : Launch → Launch) : (s.modLaunch a f).hold = s.hold := rfl
@[simp] theorem modLaunch_lastTick (a : Nat) (f : Launch → Launch) : (s.modLaunch a f).lastTick = s.lastTick := rfl
@[simp] theorem modLaunch_mgmt (a : Nat) (f : Launch → Launch) : (s.modLaunch a f).mgmt = s.mgmt := rfl
@[simp] theorem modLaunch_slotCls (a : Nat) (f : Launch → Launch) : (s.modLaunch a f).slotCls = s.slotCls := rfl
@[simp] theorem modLaunch_l1d (a : Nat) (f : Launch → Launch) : (s.modLaunch a f).l1d = s.l1d := rfl
@[simp] theorem modLaunch_l2 (a : Nat) (f : Launch → Launch) : (s.modLaunch a f).l2 = s.l2 := rfl
@[simp] theorem modLaunch_l3 (a : Nat) (f : Launch → Launch) : (s.modLaunch a f).l3 = s.l3 := rfl
@[simp] theorem modLaunch_loads (a : Nat) (f : Launch → Launch) : (s.modLaunch a f).loads = s.loads := rfl
@[simp] theorem modLaunch_was (a : Nat) (f : Launch → Launch) : (s.modLaunch a f).was = s.was := rfl
@[simp] theorem modLaunch_posts (a : Nat) (f : Launch → Launch) : (s.modLaunch a f).posts = s.posts := rfl
@[simp] theorem modLaunch_feq (a : Nat) (f : Launch → Launch) : (s.modLaunch a f).feq = s.feq := rfl
@[simp] theorem modLaunch_asked (a : Nat) (f : Launch → Launch) : (s.modLaunch a f).asked = s.asked := rfl
@[simp] theorem modLaunch_passing (a : Nat) (f : Launch → Launch) : (s.modLaunch a f).passing = s.passing := rfl
@[simp] theorem modLaunch_raised (a : Nat) (f : Launch → Launch) : (s.modLaunch a f).raised = s.raised := rfl

@[simp] theorem modQueue_cur (q : Nat) (f : Queue → Queue) : (s.modQueue q f).cur = s.cur := rfl
@[simp] theorem modQueue_lag (q : Nat) (f : Queue → Queue) : (s.modQueue q f).lag = s.lag := rfl
@[simp] theorem modQueue_sel (q : Nat) (f : Queue → Queue) : (s.modQueue q f).sel = s.sel := rfl
@[simp] theorem modQueue_sel2 (q : Nat) (f : Queue → Queue) : (s.modQueue q f).sel2 = s.sel2 := rfl
@[simp] theorem modQueue_agenda (q : Nat) (f : Queue → Queue) : (s.modQueue q f).agenda = s.agenda := rfl
@[simp] theorem modQueue_freeCtr (q : Nat) (f : Queue → Queue) : (s.modQueue q f).freeCtr = s.freeCtr := rfl
@[simp] theorem modQueue_cores (q : Nat) (f : Queue → Queue) : (s.modQueue q f).cores = s.cores := rfl
@[simp] theorem modQueue_seqs (q : Nat) (f : Queue → Queue) : (s.modQueue q f).seqs = s.seqs := rfl
@[simp] theorem modQueue_engs (q : Nat) (f : Queue → Queue) : (s.modQueue q f).engs = s.engs := rfl
@[simp] theorem modQueue_ctlb (q : Nat) (f : Queue → Queue) : (s.modQueue q f).ctlb = s.ctlb := rfl
@[simp] theorem modQueue_ways (q : Nat) (f : Queue → Queue) : (s.modQueue q f).ways = s.ways := rfl
@[simp] theorem modQueue_dspad (q : Nat) (f : Queue → Queue) : (s.modQueue q f).dspad = s.dspad := rfl
@[simp] theorem modQueue_heaps (q : Nat) (f : Queue → Queue) : (s.modQueue q f).heaps = s.heaps := rfl
@[simp] theorem modQueue_mem (q : Nat) (f : Queue → Queue) : (s.modQueue q f).mem = s.mem := rfl
@[simp] theorem modQueue_stale (q : Nat) (f : Queue → Queue) : (s.modQueue q f).stale = s.stale := rfl
@[simp] theorem modQueue_dir (q : Nat) (f : Queue → Queue) : (s.modQueue q f).dir = s.dir := rfl
@[simp] theorem modQueue_ovtab (q : Nat) (f : Queue → Queue) : (s.modQueue q f).ovtab = s.ovtab := rfl
@[simp] theorem modQueue_poison (q : Nat) (f : Queue → Queue) : (s.modQueue q f).poison = s.poison := rfl
@[simp] theorem modQueue_fw (q : Nat) (f : Queue → Queue) : (s.modQueue q f).fw = s.fw := rfl
@[simp] theorem modQueue_heaptab (q : Nat) (f : Queue → Queue) : (s.modQueue q f).heaptab = s.heaptab := rfl
@[simp] theorem modQueue_swtick (q : Nat) (f : Queue → Queue) : (s.modQueue q f).swtick = s.swtick := rfl
@[simp] theorem modQueue_swdead (q : Nat) (f : Queue → Queue) : (s.modQueue q f).swdead = s.swdead := rfl
@[simp] theorem modQueue_swgrace (q : Nat) (f : Queue → Queue) : (s.modQueue q f).swgrace = s.swgrace := rfl
@[simp] theorem modQueue_mons (q : Nat) (f : Queue → Queue) : (s.modQueue q f).mons = s.mons := rfl
@[simp] theorem modQueue_monq (q : Nat) (f : Queue → Queue) : (s.modQueue q f).monq = s.monq := rfl
@[simp] theorem modQueue_roots (q : Nat) (f : Queue → Queue) : (s.modQueue q f).roots = s.roots := rfl
@[simp] theorem modQueue_asidOwner (q : Nat) (f : Queue → Queue) : (s.modQueue q f).asidOwner = s.asidOwner := rfl
@[simp] theorem modQueue_tenants (q : Nat) (f : Queue → Queue) : (s.modQueue q f).tenants = s.tenants := rfl
@[simp] theorem modQueue_nodes (q : Nat) (f : Queue → Queue) : (s.modQueue q f).nodes = s.nodes := rfl
@[simp] theorem modQueue_saved (q : Nat) (f : Queue → Queue) : (s.modQueue q f).saved = s.saved := rfl
@[simp] theorem modQueue_parts (q : Nat) (f : Queue → Queue) : (s.modQueue q f).parts = s.parts := rfl
@[simp] theorem modQueue_featacc (q : Nat) (f : Queue → Queue) : (s.modQueue q f).featacc = s.featacc := rfl
@[simp] theorem modQueue_featlock (q : Nat) (f : Queue → Queue) : (s.modQueue q f).featlock = s.featlock := rfl
@[simp] theorem modQueue_featerr (q : Nat) (f : Queue → Queue) : (s.modQueue q f).featerr = s.featerr := rfl
@[simp] theorem modQueue_mbcmd (q : Nat) (f : Queue → Queue) : (s.modQueue q f).mbcmd = s.mbcmd := rfl
@[simp] theorem modQueue_mbstat (q : Nat) (f : Queue → Queue) : (s.modQueue q f).mbstat = s.mbstat := rfl
@[simp] theorem modQueue_mbarg (q : Nat) (f : Queue → Queue) : (s.modQueue q f).mbarg = s.mbarg := rfl
@[simp] theorem modQueue_mbRefuse (q : Nat) (f : Queue → Queue) : (s.modQueue q f).mbRefuse = s.mbRefuse := rfl
@[simp] theorem modQueue_mbBusy (q : Nat) (f : Queue → Queue) : (s.modQueue q f).mbBusy = s.mbBusy := rfl
@[simp] theorem modQueue_helperAt (q : Nat) (f : Queue → Queue) : (s.modQueue q f).helperAt = s.helperAt := rfl
@[simp] theorem modQueue_servedNo (q : Nat) (f : Queue → Queue) : (s.modQueue q f).servedNo = s.servedNo := rfl
@[simp] theorem modQueue_launches (q : Nat) (f : Queue → Queue) : (s.modQueue q f).launches = s.launches := rfl
@[simp] theorem modQueue_acceptNo (q : Nat) (f : Queue → Queue) : (s.modQueue q f).acceptNo = s.acceptNo := rfl
@[simp] theorem modQueue_signals (q : Nat) (f : Queue → Queue) : (s.modQueue q f).signals = s.signals := rfl
@[simp] theorem modQueue_insts (q : Nat) (f : Queue → Queue) : (s.modQueue q f).insts = s.insts := rfl
@[simp] theorem modQueue_instNo (q : Nat) (f : Queue → Queue) : (s.modQueue q f).instNo = s.instNo := rfl
@[simp] theorem modQueue_bindNo (q : Nat) (f : Queue → Queue) : (s.modQueue q f).bindNo = s.bindNo := rfl
@[simp] theorem modQueue_net (q : Nat) (f : Queue → Queue) : (s.modQueue q f).net = s.net := rfl
@[simp] theorem modQueue_pages (q : Nat) (f : Queue → Queue) : (s.modQueue q f).pages = s.pages := rfl
@[simp] theorem modQueue_frames (q : Nat) (f : Queue → Queue) : (s.modQueue q f).frames = s.frames := rfl
@[simp] theorem modQueue_unreach (q : Nat) (f : Queue → Queue) : (s.modQueue q f).unreach = s.unreach := rfl
@[simp] theorem modQueue_hostData (q : Nat) (f : Queue → Queue) : (s.modQueue q f).hostData = s.hostData := rfl
@[simp] theorem modQueue_time (q : Nat) (f : Queue → Queue) : (s.modQueue q f).time = s.time := rfl
@[simp] theorem modQueue_hold (q : Nat) (f : Queue → Queue) : (s.modQueue q f).hold = s.hold := rfl
@[simp] theorem modQueue_lastTick (q : Nat) (f : Queue → Queue) : (s.modQueue q f).lastTick = s.lastTick := rfl
@[simp] theorem modQueue_mgmt (q : Nat) (f : Queue → Queue) : (s.modQueue q f).mgmt = s.mgmt := rfl
@[simp] theorem modQueue_slotCls (q : Nat) (f : Queue → Queue) : (s.modQueue q f).slotCls = s.slotCls := rfl
@[simp] theorem modQueue_l1d (q : Nat) (f : Queue → Queue) : (s.modQueue q f).l1d = s.l1d := rfl
@[simp] theorem modQueue_l2 (q : Nat) (f : Queue → Queue) : (s.modQueue q f).l2 = s.l2 := rfl
@[simp] theorem modQueue_l3 (q : Nat) (f : Queue → Queue) : (s.modQueue q f).l3 = s.l3 := rfl
@[simp] theorem modQueue_loads (q : Nat) (f : Queue → Queue) : (s.modQueue q f).loads = s.loads := rfl
@[simp] theorem modQueue_was (q : Nat) (f : Queue → Queue) : (s.modQueue q f).was = s.was := rfl
@[simp] theorem modQueue_posts (q : Nat) (f : Queue → Queue) : (s.modQueue q f).posts = s.posts := rfl
@[simp] theorem modQueue_feq (q : Nat) (f : Queue → Queue) : (s.modQueue q f).feq = s.feq := rfl
@[simp] theorem modQueue_asked (q : Nat) (f : Queue → Queue) : (s.modQueue q f).asked = s.asked := rfl
@[simp] theorem modQueue_passing (q : Nat) (f : Queue → Queue) : (s.modQueue q f).passing = s.passing := rfl
@[simp] theorem modQueue_raised (q : Nat) (f : Queue → Queue) : (s.modQueue q f).raised = s.raised := rfl

@[simp] theorem setLoads_cores (f : List Loaded → List Loaded) : (s.setLoads f).cores = s.cores := rfl
@[simp] theorem setLoads_cur (f : List Loaded → List Loaded) : (s.setLoads f).cur = s.cur := rfl
@[simp] theorem setLoads_lag (f : List Loaded → List Loaded) : (s.setLoads f).lag = s.lag := rfl
@[simp] theorem setLoads_sel (f : List Loaded → List Loaded) : (s.setLoads f).sel = s.sel := rfl
@[simp] theorem setLoads_sel2 (f : List Loaded → List Loaded) : (s.setLoads f).sel2 = s.sel2 := rfl
@[simp] theorem setLoads_agenda (f : List Loaded → List Loaded) : (s.setLoads f).agenda = s.agenda := rfl
@[simp] theorem setLoads_freeCtr (f : List Loaded → List Loaded) : (s.setLoads f).freeCtr = s.freeCtr := rfl
@[simp] theorem setLoads_seqs (f : List Loaded → List Loaded) : (s.setLoads f).seqs = s.seqs := rfl
@[simp] theorem setLoads_engs (f : List Loaded → List Loaded) : (s.setLoads f).engs = s.engs := rfl
@[simp] theorem setLoads_ctlb (f : List Loaded → List Loaded) : (s.setLoads f).ctlb = s.ctlb := rfl
@[simp] theorem setLoads_ways (f : List Loaded → List Loaded) : (s.setLoads f).ways = s.ways := rfl
@[simp] theorem setLoads_dspad (f : List Loaded → List Loaded) : (s.setLoads f).dspad = s.dspad := rfl
@[simp] theorem setLoads_heaps (f : List Loaded → List Loaded) : (s.setLoads f).heaps = s.heaps := rfl
@[simp] theorem setLoads_mem (f : List Loaded → List Loaded) : (s.setLoads f).mem = s.mem := rfl
@[simp] theorem setLoads_stale (f : List Loaded → List Loaded) : (s.setLoads f).stale = s.stale := rfl
@[simp] theorem setLoads_dir (f : List Loaded → List Loaded) : (s.setLoads f).dir = s.dir := rfl
@[simp] theorem setLoads_ovtab (f : List Loaded → List Loaded) : (s.setLoads f).ovtab = s.ovtab := rfl
@[simp] theorem setLoads_poison (f : List Loaded → List Loaded) : (s.setLoads f).poison = s.poison := rfl
@[simp] theorem setLoads_fw (f : List Loaded → List Loaded) : (s.setLoads f).fw = s.fw := rfl
@[simp] theorem setLoads_heaptab (f : List Loaded → List Loaded) : (s.setLoads f).heaptab = s.heaptab := rfl
@[simp] theorem setLoads_swtick (f : List Loaded → List Loaded) : (s.setLoads f).swtick = s.swtick := rfl
@[simp] theorem setLoads_swdead (f : List Loaded → List Loaded) : (s.setLoads f).swdead = s.swdead := rfl
@[simp] theorem setLoads_swgrace (f : List Loaded → List Loaded) : (s.setLoads f).swgrace = s.swgrace := rfl
@[simp] theorem setLoads_mons (f : List Loaded → List Loaded) : (s.setLoads f).mons = s.mons := rfl
@[simp] theorem setLoads_monq (f : List Loaded → List Loaded) : (s.setLoads f).monq = s.monq := rfl
@[simp] theorem setLoads_roots (f : List Loaded → List Loaded) : (s.setLoads f).roots = s.roots := rfl
@[simp] theorem setLoads_asidOwner (f : List Loaded → List Loaded) : (s.setLoads f).asidOwner = s.asidOwner := rfl
@[simp] theorem setLoads_tenants (f : List Loaded → List Loaded) : (s.setLoads f).tenants = s.tenants := rfl
@[simp] theorem setLoads_nodes (f : List Loaded → List Loaded) : (s.setLoads f).nodes = s.nodes := rfl
@[simp] theorem setLoads_saved (f : List Loaded → List Loaded) : (s.setLoads f).saved = s.saved := rfl
@[simp] theorem setLoads_parts (f : List Loaded → List Loaded) : (s.setLoads f).parts = s.parts := rfl
@[simp] theorem setLoads_featacc (f : List Loaded → List Loaded) : (s.setLoads f).featacc = s.featacc := rfl
@[simp] theorem setLoads_featlock (f : List Loaded → List Loaded) : (s.setLoads f).featlock = s.featlock := rfl
@[simp] theorem setLoads_featerr (f : List Loaded → List Loaded) : (s.setLoads f).featerr = s.featerr := rfl
@[simp] theorem setLoads_mbcmd (f : List Loaded → List Loaded) : (s.setLoads f).mbcmd = s.mbcmd := rfl
@[simp] theorem setLoads_mbstat (f : List Loaded → List Loaded) : (s.setLoads f).mbstat = s.mbstat := rfl
@[simp] theorem setLoads_mbarg (f : List Loaded → List Loaded) : (s.setLoads f).mbarg = s.mbarg := rfl
@[simp] theorem setLoads_mbRefuse (f : List Loaded → List Loaded) : (s.setLoads f).mbRefuse = s.mbRefuse := rfl
@[simp] theorem setLoads_mbBusy (f : List Loaded → List Loaded) : (s.setLoads f).mbBusy = s.mbBusy := rfl
@[simp] theorem setLoads_queues (f : List Loaded → List Loaded) : (s.setLoads f).queues = s.queues := rfl
@[simp] theorem setLoads_helperAt (f : List Loaded → List Loaded) : (s.setLoads f).helperAt = s.helperAt := rfl
@[simp] theorem setLoads_servedNo (f : List Loaded → List Loaded) : (s.setLoads f).servedNo = s.servedNo := rfl
@[simp] theorem setLoads_launches (f : List Loaded → List Loaded) : (s.setLoads f).launches = s.launches := rfl
@[simp] theorem setLoads_acceptNo (f : List Loaded → List Loaded) : (s.setLoads f).acceptNo = s.acceptNo := rfl
@[simp] theorem setLoads_signals (f : List Loaded → List Loaded) : (s.setLoads f).signals = s.signals := rfl
@[simp] theorem setLoads_insts (f : List Loaded → List Loaded) : (s.setLoads f).insts = s.insts := rfl
@[simp] theorem setLoads_instNo (f : List Loaded → List Loaded) : (s.setLoads f).instNo = s.instNo := rfl
@[simp] theorem setLoads_bindNo (f : List Loaded → List Loaded) : (s.setLoads f).bindNo = s.bindNo := rfl
@[simp] theorem setLoads_net (f : List Loaded → List Loaded) : (s.setLoads f).net = s.net := rfl
@[simp] theorem setLoads_pages (f : List Loaded → List Loaded) : (s.setLoads f).pages = s.pages := rfl
@[simp] theorem setLoads_frames (f : List Loaded → List Loaded) : (s.setLoads f).frames = s.frames := rfl
@[simp] theorem setLoads_unreach (f : List Loaded → List Loaded) : (s.setLoads f).unreach = s.unreach := rfl
@[simp] theorem setLoads_hostData (f : List Loaded → List Loaded) : (s.setLoads f).hostData = s.hostData := rfl
@[simp] theorem setLoads_time (f : List Loaded → List Loaded) : (s.setLoads f).time = s.time := rfl
@[simp] theorem setLoads_hold (f : List Loaded → List Loaded) : (s.setLoads f).hold = s.hold := rfl
@[simp] theorem setLoads_lastTick (f : List Loaded → List Loaded) : (s.setLoads f).lastTick = s.lastTick := rfl
@[simp] theorem setLoads_mgmt (f : List Loaded → List Loaded) : (s.setLoads f).mgmt = s.mgmt := rfl
@[simp] theorem setLoads_slotCls (f : List Loaded → List Loaded) : (s.setLoads f).slotCls = s.slotCls := rfl
@[simp] theorem setLoads_l1d (f : List Loaded → List Loaded) : (s.setLoads f).l1d = s.l1d := rfl
@[simp] theorem setLoads_l2 (f : List Loaded → List Loaded) : (s.setLoads f).l2 = s.l2 := rfl
@[simp] theorem setLoads_l3 (f : List Loaded → List Loaded) : (s.setLoads f).l3 = s.l3 := rfl
@[simp] theorem setLoads_was (f : List Loaded → List Loaded) : (s.setLoads f).was = s.was := rfl
@[simp] theorem setLoads_posts (f : List Loaded → List Loaded) : (s.setLoads f).posts = s.posts := rfl
@[simp] theorem setLoads_feq (f : List Loaded → List Loaded) : (s.setLoads f).feq = s.feq := rfl
@[simp] theorem setLoads_asked (f : List Loaded → List Loaded) : (s.setLoads f).asked = s.asked := rfl
@[simp] theorem setLoads_passing (f : List Loaded → List Loaded) : (s.setLoads f).passing = s.passing := rfl
@[simp] theorem setLoads_raised (f : List Loaded → List Loaded) : (s.setLoads f).raised = s.raised := rfl
@[simp] theorem setLoads_loads (f : List Loaded → List Loaded) : (s.setLoads f).loads = f s.loads := rfl

/-! ### Reading what was set -/

@[simp] theorem core_setCore_same (c : Nat) (k : Core) : (s.setCore c k).core c = k := tget_tput_same ..
theorem core_setCore_ne {c d : Nat} (k : Core) (h : d ≠ c) : (s.setCore c k).core d = s.core d := tget_tput_ne _ _ _ h
theorem core_setCore (c d : Nat) (k : Core) : (s.setCore c k).core d = if d = c then k else s.core d := tget_tput ..
@[simp] theorem seqU_setSeq_same (r : Nat) (u : SeqUnit) : (s.setSeq r u).seqU r = u := tget_tput_same ..
theorem seqU_setSeq_ne {r q : Nat} (u : SeqUnit) (h : q ≠ r) : (s.setSeq r u).seqU q = s.seqU q := tget_tput_ne _ _ _ h
@[simp] theorem engU_setEng_same (g : Nat) (u : EngUnit) : (s.setEng g u).engU g = u := tget_tput_same ..
theorem engU_setEng_ne {g h : Nat} (u : EngUnit) (e : h ≠ g) : (s.setEng g u).engU h = s.engU h := tget_tput_ne _ _ _ e
@[simp] theorem seqU_setCore (c r : Nat) (k : Core) : (s.setCore c k).seqU r = s.seqU r := rfl
@[simp] theorem engU_setCore (c g : Nat) (k : Core) : (s.setCore c k).engU g = s.engU g := rfl
@[simp] theorem core_setSeq (r c : Nat) (u : SeqUnit) : (s.setSeq r u).core c = s.core c := rfl
@[simp] theorem core_setEng (g c : Nat) (u : EngUnit) : (s.setEng g u).core c = s.core c := rfl
@[simp] theorem core_setLoads (c : Nat) (f : List Loaded → List Loaded) : (s.setLoads f).core c = s.core c := rfl
@[simp] theorem seqU_setLoads (r : Nat) (f : List Loaded → List Loaded) : (s.setLoads f).seqU r = s.seqU r := rfl
@[simp] theorem engU_setLoads (g : Nat) (f : List Loaded → List Loaded) : (s.setLoads f).engU g = s.engU g := rfl
theorem setLoads_setCore (c : Nat) (k : Core) (f : List Loaded → List Loaded) :
    (s.setCore c k).setLoads f = (s.setLoads f).setCore c k := rfl
@[simp] theorem core_readAt (c d i : Nat) : (s.readAt c i).core d = s.core d := rfl
@[simp] theorem core_wrote (c d i : Nat) : (s.wrote c i).core d = s.core d := rfl
@[simp] theorem core_settleRace (c d : Nat) : (s.settleRace c).core d = s.core d := rfl
@[simp] theorem readAt_cur (c i : Nat) : (s.readAt c i).cur = s.cur := rfl
@[simp] theorem wrote_cur (c i : Nat) : (s.wrote c i).cur = s.cur := rfl
@[simp] theorem settleRace_cur (c : Nat) : (s.settleRace c).cur = s.cur := rfl
@[simp] theorem putAt_cur (c i : Nat) (v : W64) : (s.putAt c i v).cur = s.cur := rfl
@[simp] theorem putAt_nodes (c i : Nat) (v : W64) : (s.putAt c i v).nodes = s.nodes := rfl
@[simp] theorem core_putAt_same (c i : Nat) (v : W64) : (s.putAt c i v).core c = (s.core c).putWord i v := tget_tput_same ..
theorem core_putAt_ne {c d : Nat} (i : Nat) (v : W64) (h : d ≠ c) : (s.putAt c i v).core d = s.core d := tget_tput_ne _ _ _ h
@[simp] theorem core_setNode (n c : Nat) (f : Node → Node) : (s.setNode n f).core c = s.core c := rfl
@[simp] theorem core_modLaunch (a c : Nat) (f : Launch → Launch) : (s.modLaunch a f).core c = s.core c := rfl
@[simp] theorem core_modQueue (q c : Nat) (f : Queue → Queue) : (s.modQueue q f).core c = s.core c := rfl

/-! ### What depends on the nodes, the current agent and the tenants alone -/

@[simp] theorem actor_setCore (c : Nat) (k : Core) : (s.setCore c k).actor = s.actor := rfl
@[simp] theorem nodeOf_setCore (c d : Nat) (k : Core) : (s.setCore c k).nodeOf d = s.nodeOf d := rfl
@[simp] theorem base_setCore (c d : Nat) (k : Core) : (s.setCore c k).base d = s.base d := rfl
@[simp] theorem nP_setCore (c d : Nat) (k : Core) : (s.setCore c k).nP d = s.nP d := rfl
@[simp] theorem pidx_setCore (c d : Nat) (k : Core) : (s.setCore c k).pidx d = s.pidx d := rfl
@[simp] theorem neighbour_setCore (c d i : Nat) (k : Core) : (s.setCore c k).neighbour d i = s.neighbour d i := rfl
@[simp] theorem resident_setCore (c d : Nat) (k : Core) : (s.setCore c k).resident d = s.resident d := rfl
@[simp] theorem hasid_setCore (c d : Nat) (k : Core) : (s.setCore c k).hasid d = s.hasid d := rfl
@[simp] theorem feat_setCore (c b : Nat) (k : Core) : (s.setCore c k).feat b = s.feat b := rfl
@[simp] theorem launch?_setCore (c a : Nat) (k : Core) : (s.setCore c k).launch? a = s.launch? a := rfl
theorem actor_core {s : State} {c : Nat} (h : s.cur = .core c) : s.actor = c := by simp [State.actor, h]

/-- Setting a core to what it holds already writes it out once more, so a read is as before. -/
theorem core_setCore_self (c d : Nat) : (s.setCore c (s.core c)).core d = s.core d := by
  rw [core_setCore]; split
  · subst_vars; rfl
  · rfl
/-- A later set of one core hides an earlier one. -/
@[simp] theorem setCore_setCore (c : Nat) (k l : Core) : (s.setCore c k).setCore c l = s.setCore c l := by
  simp only [State.setCore, tput_tput]
end Updates

end Sys2Proof.Machine
end

