-- ==== Sys2Proof/Laws/Operands.lean ====
section
/-!
SUPPORT. What the shared operations over operands do: the monad's steps, the checks, and reading and writing words,
vectors and masks whose register-space words can be used at once.
-/
namespace Sys2Proof.Machine

/-! ## The monad -/

section Monad
variable {α β : Type} (s : State)

@[simp] theorem M_pure (a : α) : (pure a : M α) s = .ok a s := rfl
theorem M_bind (x : M α) (f : α → M β) : (x >>= f) s = match x s with | .ok a t => f a t | .error e t => .error e t := by
  show EStateM.bind x f s = _
  unfold EStateM.bind
  cases x s <;> rfl
/-- Running on from a step that ends. -/
theorem M_bind_ok {x : M α} {f : α → M β} {s t : State} {a : α} (h : x s = .ok a t) : (x >>= f) s = f a t := by
  rw [M_bind, h]
theorem M_bind_error {x : M α} {f : α → M β} {s t : State} {e : Stop} (h : x s = .error e t) :
    (x >>= f) s = .error e t := by rw [M_bind, h]
@[simp] theorem M_get : (get : M State) s = .ok s s := rfl
@[simp] theorem M_set (t : State) : (set t : M PUnit) s = .ok ⟨⟩ t := rfl
@[simp] theorem M_modify (f : State → State) : (modify f : M PUnit) s = .ok ⟨⟩ (f s) := rfl
@[simp] theorem M_throw (e : Stop) : (throw e : M α) s = .error e s := rfl
@[simp] theorem M_run (x : M α) : x.run s = x s := rfl
@[simp] theorem M_map (f : α → β) (x : M α) : (f <$> x) s = match x s with | .ok a t => .ok (f a) t | .error e t => .error e t := by
  show EStateM.map f x s = _
  unfold EStateM.map
  cases x s <;> rfl
theorem M_ite (c : Prop) [Decidable c] (x y : M α) : (if c then x else y) s = if c then x s else y s := by split <;> rfl
theorem M_get_bind (f : State → M β) : ((get : M State) >>= f) s = f s s := rfl
theorem M_myCore : myCore s = .ok (s.core s.actor) s := rfl
theorem M_me : me s = .ok s.actor s := rfl
theorem M_modMe (f : Core → Core) : modMe f s = .ok ⟨⟩ (s.setCore s.actor (f (s.core s.actor))) := rfl
theorem M_modCore (c : Nat) (f : Core → Core) : modCore c f s = .ok ⟨⟩ (s.setCore c (f (s.core c))) := rfl
theorem M_check (c : Bool) (code : Nat) (a : W64) :
    check c code a s = if c then .ok ⟨⟩ s else .error (.trap { code := code, addr := a }) s := by
  cases c <;> rfl
theorem M_check_ok {c : Bool} (h : c = true) (code : Nat) (a : W64) : check c code a s = .ok ⟨⟩ s := by subst h; rfl
theorem M_readyWhen (c : Bool) : readyWhen c s = if c then .ok ⟨⟩ s else .error (.wait none) s := by cases c <;> rfl
theorem M_readyWhen_ok {c : Bool} (h : c = true) : readyWhen c s = .ok ⟨⟩ s := by subst h; rfl
end Monad

/-! ## A core at its next slot -/

theorem atSlot_cur {s : State} {c : Nat} (h : s.atSlot c = true) : s.cur = .core c := by
  simp only [State.atSlot, Bool.and_eq_true, beq_iff_eq] at h; exact h.1.1.1.1.1
theorem atSlot_task {s : State} {c : Nat} (h : s.atSlot c = true) : (s.core c).task.isNone = false := by
  simp only [State.atSlot, Bool.and_eq_true] at h; have := h.1.1.1.1.2
  cases hk : (s.core c).task <;> simp_all
theorem atSlot_stopAt {s : State} {c : Nat} (h : s.atSlot c = true) : (s.core c).stopAt = none := by
  simp only [State.atSlot, Bool.and_eq_true] at h; simpa using h.1.1.1.2
theorem atSlot_ending {s : State} {c : Nat} (h : s.atSlot c = true) : (s.core c).ending = none := by
  simp only [State.atSlot, Bool.and_eq_true] at h; simpa using h.1.1.2
theorem atSlot_dq {s : State} {c : Nat} (h : s.atSlot c = true) : (s.core c).dq = [] := by
  simp only [State.atSlot, Bool.and_eq_true] at h; simpa using h.1.2
theorem atSlot_lag {s : State} {c : Nat} (h : s.atSlot c = true) : s.lag = false := by
  simp only [State.atSlot, Bool.and_eq_true] at h; simpa using h.2
theorem atSlot_actor {s : State} {c : Nat} (h : s.atSlot c = true) : s.actor = c := actor_core (atSlot_cur h)

/-- What an instruction's own operand accesses leave of the conditions under which it runs. -/
structure Like (c : Nat) (s t : State) : Prop where
  cur : t.cur = s.cur
  dq : (t.core c).dq = (s.core c).dq
  pc : (t.core c).pc = (s.core c).pc
  wbase : (t.core c).wbase = (s.core c).wbase
  wlim : (t.core c).wlim = (s.core c).wlim
  nodes : t.nodes = s.nodes

/-! ## Words -/

theorem speculative_nil {k : Core} (h : k.dq = []) : k.speculative = false := by simp [Core.speculative, h]
theorem dqWrites_nil {k : Core} (h : k.dq = []) (i : Nat) : k.dqWrites i = false := by simp [Core.dqWrites, h]

theorem holdOutside_ok {s : State} {c : Nat} (hc : s.cur = .core c) (hd : (s.core c).dq = []) :
    holdOutside s = .ok ⟨⟩ s := by
  unfold holdOutside
  rw [M_get_bind]; simp only [hc]
  rw [M_get_bind, M_readyWhen_ok]
  simp [speculative_nil hd]
theorem logUndo_ok {s : State} {c : Nat} (hc : s.cur = .core c) (hd : (s.core c).dq = []) (u : Nat → Core → Undo) :
    logUndo u s = .ok ⟨⟩ s := by
  unfold logUndo
  rw [M_get_bind]; simp only [hc]
  rw [M_get_bind]
  simp [speculative_nil hd]
/-- A word whose line is there needs no fill. -/
theorem rsEnsure_ok {s : State} {i : Nat} (h : ((s.core s.actor).isFw || ((s.core s.actor).rsLine? i).isSome) = true) :
    rsEnsure i s = .ok ⟨⟩ s := by
  unfold rsEnsure
  rw [M_bind_ok (M_myCore s)]
  by_cases hf : (s.core s.actor).isFw = true
  · simp [hf]
  · simp only [hf, Bool.false_or] at h
    obtain ⟨l, hl⟩ := Option.isSome_iff_exists.mp h
    simp [hf, hl]
theorem readAbs_holds {s : State} {c i : Nat} (ha : s.actor = c) (h : (s.core c).holds i = true) :
    readAbs i s = .ok ((s.core c).word i) (s.readAt c i) := by
  simp only [Core.holds, Bool.and_eq_true] at h
  unfold readAbs
  rw [M_bind_ok (M_myCore s), ha, M_bind_ok (M_readyWhen_ok s h.1), M_bind_ok (rsEnsure_ok (by rw [ha]; exact h.2)),
    M_get_bind, ha]
  have hr : ({ s with loads := afterRead c i s.loads } : State).actor = c := ha
  rw [M_bind_ok (M_set s _), M_bind_ok (M_myCore _), hr]
  rfl
theorem modify_wrote {s : State} {c : Nat} (ha : s.actor = c) (i : Nat) :
    (modify fun s : State => { s with loads := s.loads.filter fun x => !(x.core == s.actor && x.word == i) } : M PUnit) s =
      .ok ⟨⟩ (s.wrote c i) := by
  rw [M_modify, ha]; rfl
theorem writeAbs_holds {s : State} {c i : Nat} (hc : s.cur = .core c) (hd : (s.core c).dq = [])
    (h : (s.core c).holds i = true) (v : W64) : writeAbs i v s = .ok ⟨⟩ (s.putAt c i v) := by
  have ha := actor_core hc
  simp only [Core.holds, Bool.and_eq_true] at h
  unfold writeAbs
  rw [M_bind_ok (M_myCore s), ha, M_bind_ok (M_readyWhen_ok s h.1), M_get_bind]
  simp only [hc]
  rw [M_bind_ok (M_readyWhen_ok s (by simp [dqWrites_nil hd, speculative_nil hd])),
    M_bind_ok (rsEnsure_ok (by rw [ha]; exact h.2)),
    M_bind_ok (logUndo_ok hc hd _), M_bind_ok (modify_wrote ha i), M_modMe, actor_core (s := s.wrote c i) hc]
  rfl

/-- Reading a word operand that can be taken. -/
theorem readW_take {s t : State} {c : Nat} {data : Bool} {r : Reg} {x : W64} (hc : s.cur = .core c)
    (hd : (s.core c).dq = []) (h : s.take c data r = some (x, t)) : readW r s = .ok x t := by
  have ha := actor_core hc
  unfold State.take Core.winWord at h
  dsimp only at h
  unfold readW
  rw [M_get_bind]
  simp only [hc, ha]
  split at h
  · rename_i hr
    rw [if_pos hr]
    split at h
    · rename_i hw
      simp only [Bool.and_eq_true, decide_eq_true_eq] at hw
      simp only [Option.map_some, Option.some.injEq, Prod.mk.injEq] at h
      obtain ⟨rfl, rfl⟩ := h
      exact readAbs_holds ha hw.2
    · simp at h
  · rename_i hr
    rw [if_neg hr]
    split at h
    · rename_i hz
      simp only [Option.some.injEq, Prod.mk.injEq] at h
      obtain ⟨rfl, rfl⟩ := h
      have : r = 0xfff := by simpa using hz
      subst this
      rfl
    · split at h
      · rename_i hz
        simp only [Option.some.injEq, Prod.mk.injEq] at h
        obtain ⟨rfl, rfl⟩ := h
        have : r = 0xff8 := by simpa using hz
        subst this
        rfl
      · split at h
        · rename_i _ _ hz
          have : r = 0xffe := by simpa using hz
          subst this
          split at h
          · rename_i a b hq
            simp only [Option.some.injEq, Prod.mk.injEq] at h
            obtain ⟨rfl, rfl⟩ := h
            simp only [beq_self_eq_true, if_true]
            unfold popQd
            rw [M_bind_ok (M_myCore s), ha]
            simp only [hq]
            rw [M_bind_ok (M_modMe s _), ha]; rfl
          · simp at h
        · split at h
          · rename_i _ _ hz
            have : r = 0xffd := by simpa using hz
            subst this
            split at h
            · rename_i a b hq
              simp only [Option.some.injEq, Prod.mk.injEq] at h
              obtain ⟨rfl, rfl⟩ := h
              show popQc s = _
              unfold popQc
              rw [M_bind_ok (M_myCore s), ha]
              simp only [hq]
              rw [M_bind_ok (logUndo_ok hc hd _), M_bind_ok (M_modMe s _), ha]; rfl
            · simp at h
          · split at h
            · rename_i h1 h2 h3 _ d hp
              split at h
              · rename_i a b hn hq
                simp only [Option.some.injEq, Prod.mk.injEq] at h
                obtain ⟨rfl, rfl⟩ := h
                rw [if_neg h2, if_neg h3, if_neg h1]
                try rw [hp]
                show popPort d s = _
                unfold popPort
                rw [M_bind_ok (M_myCore s), ha]
                simp only [hq]
                rw [M_bind_ok (logUndo_ok hc hd _), M_bind_ok (M_modMe s _), ha]; rfl
              · simp at h
            · simp at h

theorem portReg_dir {r : Reg} {d : Nat} (h : portDir r = some d) : portReg d = r := by
  unfold portDir at h
  repeat' split at h
  all_goals first | (cases h; done) | skip
  all_goals simp only [Option.some.injEq] at h; subst h; simp_all [portReg]
/-- Writing a word operand that can be given. -/
theorem writeW_give {s t : State} {c : Nat} {data : Bool} {r : Reg} {v : W64} (hc : s.cur = .core c)
    (hd : (s.core c).dq = []) (h : s.give c data r v = some t) : writeW r v s = .ok ⟨⟩ t := by
  have ha := actor_core hc
  unfold State.give Core.winWord at h
  dsimp only at h
  unfold writeW
  rw [M_get_bind]
  simp only [hc, ha]
  split at h
  · rename_i hr
    rw [if_pos hr]
    split at h
    · rename_i hw
      simp only [Bool.and_eq_true, decide_eq_true_eq] at hw
      simp only [Option.map_some, Option.some.injEq] at h
      subst h
      exact writeAbs_holds hc hd hw.2 v
    · simp at h
  · rename_i hr
    rw [if_neg hr]
    split at h
    · rename_i hz
      have : r = 0xfff := by simpa using hz
      subst this
      simp only [Option.some.injEq] at h
      subst h; rfl
    · split at h
      · rename_i _ hz
        have : r = 0xffe := by simpa using hz
        subst this
        split at h
        · rename_i hq
          simp only [Option.some.injEq] at h
          subst h
          simp only [Bool.and_eq_true, decide_eq_true_eq] at hq
          show pushQd v s = _
          unfold pushQd
          rw [M_bind_ok (M_myCore s), ha, M_get_bind, M_bind_ok (M_me s), ha,
            M_bind_ok (M_readyWhen_ok s (by simpa [Config.qdDepth, hq.1.2] using hq.2)),
            M_bind_ok (logUndo_ok hc hd _), M_modMe, ha]
        · simp at h
      · split at h
        · rename_i _ _ hz
          have : r = 0xffd := by simpa using hz
          subst this
          split at h
          · rename_i hq
            simp only [Option.some.injEq] at h
            subst h
            simp only [Bool.and_eq_true, decide_eq_true_eq] at hq
            show pushQc v s = _
            unfold pushQc
            rw [M_bind_ok (M_myCore s), ha, M_bind_ok (M_readyWhen_ok s (by simp [Config.qcDepth, hq.2])), M_modMe, ha]
          · simp at h
        · split at h
          · rename_i h1 h2 h3 _ d hp
            split at h
            · rename_i n hn
              split at h
              · rename_i hq
                simp only [Option.some.injEq] at h
                subst h
                simp only [Bool.and_eq_true, decide_eq_true_eq] at hq
                rw [if_neg h2, if_neg h3]
                have hpr := portReg_dir hp
                try rw [hp]
                show pushPort d v s = _
                unfold pushPort
                rw [M_bind_ok (holdOutside_ok hc hd), M_get_bind, ha, hpr, M_bind_ok (M_readyWhen_ok s hq.1)]
                simp only [hn]
                rw [M_bind_ok (M_readyWhen_ok s (by simp [Config.portDepth, hq.2])), M_modCore]
              · simp at h
            · simp at h
          · simp at h

/-! ### What operands leave as it is -/

@[simp] theorem setPort_dq (k : Core) (d : Nat) (l : List W64) : (k.setPort d l).dq = k.dq := by
  unfold Core.setPort; split <;> rfl
@[simp] theorem setPort_pc (k : Core) (d : Nat) (l : List W64) : (k.setPort d l).pc = k.pc := by
  unfold Core.setPort; split <;> rfl
@[simp] theorem setPort_wbase (k : Core) (d : Nat) (l : List W64) : (k.setPort d l).wbase = k.wbase := by
  unfold Core.setPort; split <;> rfl
@[simp] theorem setPort_wlim (k : Core) (d : Nat) (l : List W64) : (k.setPort d l).wlim = k.wlim := by
  unfold Core.setPort; split <;> rfl
@[simp] theorem putWord_dq (k : Core) (i : Nat) (v : W64) : (k.putWord i v).dq = k.dq := by
  unfold Core.putWord; split
  · rfl
  · split <;> rfl
@[simp] theorem putWord_pc (k : Core) (i : Nat) (v : W64) : (k.putWord i v).pc = k.pc := by
  unfold Core.putWord; split
  · rfl
  · split <;> rfl
@[simp] theorem putWord_wbase (k : Core) (i : Nat) (v : W64) : (k.putWord i v).wbase = k.wbase := by
  unfold Core.putWord; split
  · rfl
  · split <;> rfl
@[simp] theorem putWord_wlim (k : Core) (i : Nat) (v : W64) : (k.putWord i v).wlim = k.wlim := by
  unfold Core.putWord; split
  · rfl
  · split <;> rfl

theorem Like.refl (c : Nat) (s : State) : Like c s s := ⟨rfl, rfl, rfl, rfl, rfl, rfl⟩
theorem Like.trans {c : Nat} {s t u : State} (h : Like c s t) (g : Like c t u) : Like c s u :=
  ⟨g.cur.trans h.cur, g.dq.trans h.dq, g.pc.trans h.pc, g.wbase.trans h.wbase, g.wlim.trans h.wlim, g.nodes.trans h.nodes⟩
theorem Like.set {c d : Nat} {s : State} {k : Core} (h1 : k.dq = (s.core d).dq) (h2 : k.pc = (s.core d).pc)
    (h3 : k.wbase = (s.core d).wbase) (h4 : k.wlim = (s.core d).wlim) : Like c s (s.setCore d k) := by
  constructor <;> simp only [setCore_cur, setCore_nodes, core_setCore] <;> split <;> simp_all
theorem Like.loads (c : Nat) (s : State) (f : List Loaded → List Loaded) : Like c s (s.setLoads f) := ⟨rfl, rfl, rfl, rfl, rfl, rfl⟩
theorem Like.putAt (d : Nat) (s : State) (c i : Nat) (v : W64) : Like d s (s.putAt c i v) :=
  (Like.loads d s _).trans (.set (by simp) (by simp) (by simp) (by simp))
/-- A word source leaves the streams and the window as they are. -/
theorem take_like {s t : State} {c d : Nat} {data : Bool} {r : Reg} {x : W64} (h : s.take c data r = some (x, t)) :
    Like d s t := by
  unfold State.take at h
  dsimp only at h
  split at h
  · simp only [Option.map_eq_some_iff, Prod.mk.injEq] at h
    obtain ⟨_, _, _, rfl⟩ := h; exact .loads ..
  · split at h
    · simp only [Option.some.injEq, Prod.mk.injEq] at h; obtain ⟨_, rfl⟩ := h; exact .refl ..
    · split at h
      · simp only [Option.some.injEq, Prod.mk.injEq] at h; obtain ⟨_, rfl⟩ := h; exact .refl ..
      · split at h
        · split at h
          · simp only [Option.some.injEq, Prod.mk.injEq] at h; obtain ⟨_, rfl⟩ := h; exact .set rfl rfl rfl rfl
          · simp at h
        · split at h
          · split at h
            · simp only [Option.some.injEq, Prod.mk.injEq] at h; obtain ⟨_, rfl⟩ := h; exact .set rfl rfl rfl rfl
            · simp at h
          · split at h
            · split at h
              · simp only [Option.some.injEq, Prod.mk.injEq] at h; obtain ⟨_, rfl⟩ := h
                exact .set (by simp) (by simp) (by simp) (by simp)
              · simp at h
            · simp at h
/-- A word destination leaves the streams and the window as they are. -/
theorem give_like {s t : State} {c d : Nat} {data : Bool} {r : Reg} {v : W64} (h : s.give c data r v = some t) :
    Like d s t := by
  unfold State.give at h
  dsimp only at h
  split at h
  · simp only [Option.map_eq_some_iff] at h
    obtain ⟨_, _, rfl⟩ := h; exact .putAt ..
  · split at h
    · simp only [Option.some.injEq] at h; subst h; exact .refl ..
    · split at h
      · split at h
        · simp only [Option.some.injEq] at h; subst h; exact .set rfl rfl rfl rfl
        · simp at h
      · split at h
        · split at h
          · simp only [Option.some.injEq] at h; subst h; exact .set rfl rfl rfl rfl
          · simp at h
        · split at h
          · split at h
            · split at h
              · simp only [Option.some.injEq] at h; subst h; exact .set (by simp) (by simp) (by simp) (by simp)
              · simp at h
            · simp at h
          · simp at h

/-! ## The checks (06 R147) -/

/-- A field that names an operand of its kind inside the window. -/
def Fld.good (s : State) (data : Bool) (wlim : Nat) (f : Fld) : Bool := f.kindOk s data && f.inWindow wlim
theorem failFirst_ok {code : Nat} {p : Fld → Bool} {fs : List Fld} (h : fs.all p = true) (s : State) :
    failFirst code p fs s = .ok ⟨⟩ s := by
  induction fs with
  | nil => rfl
  | cons f fs ih =>
    simp only [List.all_cons, Bool.and_eq_true] at h
    unfold failFirst; rw [if_pos h.1]; exact ih h.2
/-- The checks pass. -/
theorem checks_ok {i : Instr} {fs : List Fld} {s : State} {c : Nat} (hc : s.cur = .core c)
    (hf : ∀ b, needFeat i = some b → s.feat b = true) (hp : isPriv i = true → (s.core c).sup = true)
    (hw : isFwOnly i = true → (s.core c).isFw = true)
    (hg : fs.all (Fld.good s (isData i) (s.core c).wlim.toNat) = true) : checks i fs s = .ok ⟨⟩ s := by
  have ha := actor_core hc
  have hk : fs.all (Fld.kindOk s (isData i)) = true := by
    rw [List.all_eq_true] at hg ⊢; intro f hfm; have := hg f hfm; simp [Fld.good] at this; exact this.1
  have hi : fs.all (Fld.inWindow (s.core c).wlim.toNat) = true := by
    rw [List.all_eq_true] at hg ⊢; intro f hfm; have := hg f hfm; simp [Fld.good] at this; exact this.2
  have h1 : (!isPriv i || (s.core c).sup) = true := by
    cases h : isPriv i
    · rfl
    · simpa using hp h
  have h2 : (!isFwOnly i || (s.core c).isFw) = true := by
    cases h : isFwOnly i
    · rfl
    · simpa using hw h
  have tail : (failFirst 2 (Fld.kindOk s (isData i)) fs >>= fun _ =>
      failFirst 4 (Fld.inWindow (s.core c).wlim.toNat) fs) s = .ok ⟨⟩ s := by
    rw [M_bind_ok (failFirst_ok hk s), failFirst_ok hi s]
  unfold checks
  rw [M_get_bind]
  cases h : needFeat i with
  | none =>
    simp only [hc, ha]
    rw [M_bind_ok (M_check_ok s h1 _ _), M_bind_ok (M_check_ok s h2 _ _)]
    exact tail
  | some b =>
    simp only [hc, ha]
    rw [M_bind_ok (M_check_ok s (hf b h) _ _), M_bind_ok (M_check_ok s h1 _ _), M_bind_ok (M_check_ok s h2 _ _)]
    exact tail
/-- A word source that can be taken passes its checks. -/
theorem take_good {s t : State} {c p : Nat} {data : Bool} {r : Reg} {x : W64} (hc : s.cur = .core c)
    (h : s.take c data r = some (x, t)) : Fld.good s data (s.core c).wlim.toNat (.ws p r) = true := by
  unfold State.take Core.winWord at h
  dsimp only at h
  simp only [Fld.good, Fld.kindOk, Fld.inWindow, hc, srcOk, hasPort, actor_core hc]
  split at h
  · rename_i hr
    split at h
    · rename_i hw
      simp only [Bool.and_eq_true, decide_eq_true_eq] at hw
      simp [hr, hw.1.2]
    · simp at h
  · rename_i hr
    have hr' : 0xf80 ≤ r.toNat := by omega
    split at h
    · rename_i hz; simp only [beq_iff_eq] at hz; subst hz; simp
    · split at h
      · rename_i hz; simp only [beq_iff_eq] at hz; subst hz; simp
      · split at h
        · rename_i hz
          simp only [beq_iff_eq] at hz; subst hz
          split at h
          · simp
          · simp at h
        · split at h
          · rename_i hz
            simp only [beq_iff_eq] at hz; subst hz
            split at h
            · simp
            · simp at h
          · split at h
            · rename_i d hp
              split at h
              · rename_i a b hn hq; simp [hn, hp, hr']
              · simp at h
            · simp at h
/-- A word destination that can be given passes its checks. -/
theorem give_good {s t : State} {c : Nat} {data : Bool} {r : Reg} {v : W64} (hc : s.cur = .core c)
    (h : s.give c data r v = some t) : Fld.good s data (s.core c).wlim.toNat (.wd r) = true := by
  unfold State.give Core.winWord at h
  dsimp only at h
  simp only [Fld.good, Fld.kindOk, Fld.inWindow, hc, dstOk, hasPort, actor_core hc]
  split at h
  · rename_i hr
    split at h
    · rename_i hw
      simp only [Bool.and_eq_true, decide_eq_true_eq] at hw
      simp [hr, hw.1.2]
    · simp at h
  · rename_i hr
    have hr' : 0xf80 ≤ r.toNat := by omega
    split at h
    · rename_i hz; simp only [beq_iff_eq] at hz; subst hz; simp
    · split at h
      · rename_i hz
        split at h
        · rename_i hq; simp at hq hz; subst hz; simp [hq.1.1]
        · simp at h
      · split at h
        · rename_i hz
          split at h
          · rename_i hq; simp at hq hz; subst hz; simp [hq.1]
          · simp at h
        · split at h
          · rename_i d hp
            split at h
            · rename_i n hn; simp [hn, hp, hr']
            · simp at h
          · simp at h
/-- Whether a field passes its checks does not change while operands are read. -/
theorem good_like {s t : State} {c : Nat} (hc : s.cur = .core c) (h : Like c s t) (data : Bool) (f : Fld) :
    Fld.good t data (t.core c).wlim.toNat f = Fld.good s data (s.core c).wlim.toNat f := by
  have hn : ∀ d i, t.neighbour d i = s.neighbour d i := by
    intro d i; simp only [State.neighbour, State.nodeOf, State.nodeOfRow, h.nodes]
  have hc' : t.cur = .core c := h.cur.trans hc
  simp only [Fld.good, h.wlim]
  congr 1
  simp only [Fld.kindOk, hc, hc', srcOk, dstOk, hasPort, actor_core hc, actor_core hc', hn]

/-! ## Running one instruction of a core -/

/-- An instruction that leaves the streams' accesses unordered. -/
theorem ordered_plain {i : Instr} (h : isPlain i = true) (hn : i ≠ .nop) (s : State) (c : Nat) : s.ordered c i = s := by
  have hb : isBoth i = false := by simpa [isPlain] using h
  have : (i == Instr.nop) = false := by simpa using hn
  simp [State.ordered, State.runsBoth, h, hb, this]
/-- One that orders them. -/
theorem ordered_settles {i : Instr} (h : isPlain i = false) (s : State) (c : Nat) : s.ordered c i = s.settleRace c := by
  simp [State.ordered, h]
/-- An instruction whose checks pass and whose body ends, at a core's next slot. -/
theorem perform_ok {i : Instr} {fs : List Fld} {body : M Flow} {s t : State} {c : Nat} {fl : Flow}
    (hs : s.atSlot c = true) (hk : checks i fs s = .ok ⟨⟩ s) (hb : body s = .ok fl t) (ht : (t.core c).dq = []) :
    perform i fs body s = .next ((match fl with
      | .fall => t.goes c (nextPc (s.core c).pc)
      | .goto p => t.goes c p
      | .set => t).ordered c i) := by
  have hd := atSlot_dq hs
  unfold perform
  simp only [atSlot_cur hs]
  congr 1
  unfold coreRun
  have hr : ((do checks i fs; body : M Flow).run s) = .ok fl t := by
    show (checks i fs >>= fun _ => body) s = _
    rw [M_bind_ok hk]; exact hb
  simp only [atSlot_task hs, atSlot_stopAt hs, atSlot_ending hs, hd, atSlot_lag hs, List.isEmpty_nil, Bool.not_true,
    Bool.or_self, Bool.and_false, Option.isSome_none, if_false, hr, Bool.false_eq_true]
  have hsp : Core.speculative { t.core c with seq := (t.core c).seq + 1, resume := none } = false := by
    simp [Core.speculative, ht]
  cases fl <;> simp only [Core.settle, hsp] <;> rfl

end Sys2Proof.Machine
end

