-- ==== Sys2Proof/Laws/Accesses.lean ====
section
/-!
SUPPORT. What the directory and the caches do for an access (`Marks`: the home cores' rings, the tables of coherence), and
what a translation and a fetch may change beside that (`Quiet`).
-/
namespace Sys2Proof.Machine

/-- `t` differs from `s` only in what coherence keeps of an access. -/
structure Marks (s t : State) : Prop where
  rest : t.rest = s.rest
  core : ∀ c, (t.core c).rest = (s.core c).rest

theorem Marks.refl (s : State) : Marks s s := ⟨rfl, fun _ => rfl⟩
theorem Marks.trans {s t u : State} (h : Marks s t) (g : Marks t u) : Marks s u :=
  ⟨g.rest.trans h.rest, fun c => (g.core c).trans (h.core c)⟩
theorem Marks.setCore {s : State} {c : Nat} {k : Core} (h : k.rest = (s.core c).rest) : Marks s (s.setCore c k) := by
  refine ⟨rfl, fun d => ?_⟩
  rw [core_setCore]; split
  · rename_i hd; rw [hd, h]
  · rfl
theorem Marks.of {s t : State} (h : t.rest = s.rest) (g : t.cores = s.cores) : Marks s t :=
  ⟨h, fun c => by simp only [State.core, g]⟩
theorem Marks.ite {s t u : State} {c : Prop} [Decidable c] (h : c → Marks s t) (g : ¬c → Marks s u) :
    Marks s (if c then t else u) := by
  split
  · exact h ‹_›
  · exact g ‹_›
theorem Marks.foldl {α : Type} (f : State → α → State) (h : ∀ s x, Marks s (f s x)) (l : List α) (s : State) :
    Marks s (l.foldl f s) := by
  induction l generalizing s with
  | nil => exact .refl s
  | cons x l ih => exact (h s x).trans (ih _)

theorem postSys_marks (s : State) (c : Nat) (e : SysEntry) : Marks s (s.postSys c e) := by
  unfold State.postSys
  dsimp only
  split
  · exact .setCore rfl
  · split
    · exact .setCore rfl
    · exact .of rfl rfl
theorem noteFor_marks (s : State) (e c n : Nat) (w : Option Nat) : Marks s (s.noteFor e c n w) := by
  unfold State.noteFor; split
  · exact .refl s
  · exact .of rfl rfl
theorem note_marks (s : State) (e c n : Nat) : Marks s (s.note e c n) := noteFor_marks ..
theorem dropUnheld_marks (s : State) (l : Nat) : Marks s (s.dropUnheld l) := by
  unfold State.dropUnheld; split
  · exact .refl s
  · exact .of rfl rfl
theorem Marks.dropped {s t : State} {l : Nat} (h : Marks s t) : Marks s (t.dropUnheld l) := h.trans (dropUnheld_marks ..)
theorem l1dFill_marks (s : State) (c l : Nat) : Marks s (s.l1dFill c l) := by
  unfold State.l1dFill
  dsimp only
  split
  · exact .of rfl rfl
  · exact .dropped (.of rfl rfl)
theorem l3Fill_marks (s : State) (l : Nat) : Marks s (s.l3Fill l) := by
  unfold State.l3Fill
  dsimp only
  split
  · exact .refl s
  · split <;> exact .of rfl rfl
theorem l2Fill_marks (s : State) (r l : Nat) : Marks s (s.l2Fill r l) := by
  unfold State.l2Fill
  dsimp only
  refine .ite (fun _ => .refl s) fun _ => ?_
  have h := (l3Fill_marks s l).trans (note_marks (s.l3Fill l) 0x10 (8 * r) 1)
  refine .ite (fun _ => h) fun _ => h.trans ?_
  split
  · exact .of rfl rfl
  · exact .dropped (.of rfl rfl)
theorem fill_marks (s : State) (w l : Nat) : Marks s (s.fill w l) := by
  unfold State.fill
  refine .ite (fun _ => .refl s) fun _ => .ite (fun _ => l2Fill_marks ..) fun _ => .ite (fun _ => .refl s) fun _ => ?_
  exact ((note_marks ..).trans (l2Fill_marks ..)).trans (l1dFill_marks ..)
theorem share_marks (s : State) (w l : Nat) : Marks s (s.share w l) := by
  unfold State.share
  dsimp only
  refine .ite (fun _ => .refl s) fun _ => ?_
  split
  · exact .of rfl rfl
  · refine .ite (fun _ => .of rfl rfl) fun _ => .ite (fun _ => .refl s) fun _ => ?_
    refine Marks.trans ?_ (postSys_marks ..)
    split
    · exact .of rfl rfl
    · exact (noteFor_marks ..).trans (.of rfl rfl)
/-- All that a read may do to the directory and the caches. -/
theorem dirRead_marks (s : State) (w l : Nat) : Marks s (s.dirRead w l) := by
  unfold State.dirRead
  exact .ite (fun _ => (share_marks ..).trans (fill_marks ..)) fun _ => .refl s
theorem retag_marks (s : State) (w l : Nat) : Marks s (s.retag w l) := by
  unfold State.retag
  exact .ite (fun _ => .refl s) fun _ => .ite (fun _ => .of rfl rfl) fun _ => .of rfl rfl
theorem Marks.filled {s t : State} {w l : Nat} (h : Marks s t) : Marks s ((t.retag w l).fill w l) :=
  h.trans ((retag_marks ..).trans (fill_marks ..))
theorem dirWrite_marks (s : State) (w l : Nat) : Marks s (s.dirWrite w l) := by
  unfold State.dirWrite
  dsimp only
  refine .ite (fun _ => .refl s) fun _ => .ite (fun _ => fill_marks ..) fun _ => ?_
  exact .filled (.of rfl rfl)
theorem keepStale_marks (s : State) (w pa n : Nat) : Marks s (s.keepStale w pa n) := by
  induction n with
  | zero => exact .refl s
  | succ n ih =>
    unfold State.keepStale
    dsimp only
    split <;> exact ih.trans (.of rfl rfl)
/-- All that a write may do to them before memory changes. -/
theorem storeMarks_marks (s : State) (w pa n : Nat) (t : Bool) : Marks s (s.storeMarks w pa n t) := by
  unfold State.storeMarks
  dsimp only
  have h := dirWrite_marks s w (lineOf pa)
  exact .ite (fun _ => h.trans (.of rfl rfl)) fun _ => h.trans ((keepStale_marks ..).trans (dropUnheld_marks ..))
theorem Marks.swept {s t : State} (h : Marks s t) (l : List Nat) : Marks s (l.foldl State.dropUnheld t) :=
  h.trans (Marks.foldl State.dropUnheld (fun s x => dropUnheld_marks s x) l t)
theorem clobber_marks (s : State) (w sp u o n : Nat) : Marks s (s.clobber w sp u o n) := by
  unfold State.clobber
  exact .ite (fun _ => .refl s) fun _ => .of rfl rfl
theorem uncache_marks (s : State) (p : Nat → Bool) : Marks s (s.uncache p) := .of rfl rfl
theorem aliasInval_marks (s : State) (pa n : Nat) : Marks s (s.aliasInval pa n) := by
  unfold State.aliasInval
  dsimp only
  refine .ite (fun _ => .refl s) fun _ => ?_
  exact (uncache_marks ..).swept _

/-- `t` differs from `s` only in what a fetch may change. -/
structure Quiet (s t : State) : Prop where
  rest : t.fetchRest = s.fetchRest
  core : ∀ c, (t.core c).fetchRest = (s.core c).fetchRest

theorem Marks.quiet {s t : State} (h : Marks s t) : Quiet s t :=
  ⟨congrArg (fun x : State => { x with mem := [], ctlb := [], seqs := [], engs := [] }) h.rest,
   fun c => congrArg (fun k : Core => { k with l1tlb := [], l1i := [], kcache := [], lattc := [], dictc := [], rs := [],
                                               demand := none, demandD := none, part := none }) (h.core c)⟩
theorem Quiet.refl (s : State) : Quiet s s := ⟨rfl, fun _ => rfl⟩
theorem Quiet.trans {s t u : State} (h : Quiet s t) (g : Quiet t u) : Quiet s u :=
  ⟨g.rest.trans h.rest, fun c => (g.core c).trans (h.core c)⟩
theorem Quiet.like {s t : State} (h : Quiet s t) (c : Nat) : Like c s t := by
  have h1 := congrArg (fun x : State => x.cur) h.rest
  have h2 := congrArg (fun x : State => x.nodes) h.rest
  have h3 := congrArg (fun k : Core => k.dq) (h.core c)
  have h4 := congrArg (fun k : Core => k.pc) (h.core c)
  have h5 := congrArg (fun k : Core => k.wbase) (h.core c)
  have h6 := congrArg (fun k : Core => k.wlim) (h.core c)
  exact ⟨h1, h3, h4, h5, h6, h2⟩
theorem Quiet.setCore {s : State} {c : Nat} {k : Core} (h : k.fetchRest = (s.core c).fetchRest) : Quiet s (s.setCore c k) := by
  refine ⟨rfl, fun d => ?_⟩
  rw [core_setCore]; split
  · rename_i hd; rw [hd, h]
  · rfl
/-- A change of the state's own fields alone. -/
theorem Quiet.of {s t : State} (h : t.fetchRest = s.fetchRest) (g : t.cores = s.cores) : Quiet s t :=
  ⟨h, fun c => by simp only [State.core, g]⟩


theorem spent_quiet (s : State) : Quiet s s.spent := .of rfl rfl
/-- A store of less than a line: memory and what coherence keeps change, no poison. -/
theorem storePhys_quiet (s : State) (w pa : Nat) (bs : List Byte) (thru : Bool) (hn : bs.length < 64) :
    Quiet s (s.storePhys w pa bs thru) := by
  have hp : ∀ l : List Nat, (l.filter fun l => !(pa ≤ 64 * l && 64 * l + 64 ≤ pa + bs.length)) = l := fun l =>
    List.filter_eq_self.mpr fun x _ => by
      simp only [Bool.not_eq_true', Bool.and_eq_false_iff, decide_eq_false_iff_not]; omega
  unfold State.storePhys
  dsimp only
  rw [hp]
  refine (storeMarks_marks s w pa bs.length thru).quiet.trans ?_
  generalize s.storeMarks w pa bs.length thru = t
  refine (show Quiet t { t with mem := t.mem.setBytes pa bs } from .of rfl rfl).trans (Marks.quiet ?_)
  exact .trans (aliasInval_marks ..) (clobber_marks ..)
theorem atomicWord_quiet {s t : State} {pa n : Nat} {f : Nat → Nat} (hn : n < 64) (h : s.atomicWord pa n f = .ok t) :
    Quiet s t := by
  unfold State.atomicWord at h
  split at h
  · cases h
  · split at h
    · cases h
    · cases h; exact storePhys_quiet s _ _ _ _ (by simpa using hn)
theorem foldlM_quiet {α : Type} {f : State → α → Except XFail State} (hf : ∀ s x t, f s x = .ok t → Quiet s t)
    (l : List α) {s t : State} (h : l.foldlM f s = .ok t) : Quiet s t := by
  induction l generalizing s with
  | nil => cases h; exact .refl _
  | cons x l ih =>
    rw [List.foldlM_cons] at h
    cases hx : f s x with
    | error e => rw [hx] at h; cases h
    | ok u => rw [hx] at h; exact (hf s x u hx).trans (ih h)
/-- All that recording an installation may change. -/
theorem recordPage_quiet {s u : State} {l : Option Nat} {a : Nat} {t : TlbEnt} (h : s.recordPage l a t = .ok u) :
    Quiet s u := by
  unfold State.recordPage at h
  split at h
  · cases h; exact .refl s
  · dsimp only at h
    generalize (if t.size ≤ 0x200000 then 1 else t.size / 0x200000) = n at h
    split at h
    · split at h
      · split at h
        · cases h
        · refine foldlM_quiet (fun s x t h => ?_) _ h
          split at h
          · split at h
            · exact atomicWord_quiet (by omega) h
            · cases h; exact .refl s
          · cases h; exact .refl s
      · cases h; exact .refl s
    · split at h
      · exact atomicWord_quiet (by omega) h
      · cases h; exact .refl s
theorem Quiet.spent {s t : State} (h : Quiet s t) : Quiet s t.spent := h.trans (spent_quiet t)
theorem l1tlbAdd_quiet (s : State) (c : Nat) (t : TlbEnt) : Quiet s (s.l1tlbAdd c t) := by
  unfold State.l1tlbAdd
  dsimp only
  split
  · exact .setCore rfl
  · exact .spent (.setCore rfl)
theorem ctlbAdd_quiet (s : State) (g : Nat) (t : TlbEnt) : Quiet s (s.ctlbAdd g t) := by
  unfold State.ctlbAdd
  dsimp only
  split
  · exact .of rfl rfl
  · exact .of rfl rfl
theorem xlate_quiet {s t : State} {w : TlbAt} {l : Option Nat} {a va : Nat} {acc : Acc} {u : Bool} {pa : Nat} {e : TlbEnt}
    (h : s.xlate w l a va acc u = .ok (pa, e, t)) : Quiet s t := by
  unfold State.xlate at h
  dsimp only at h
  split at h
  · cases h
  · split at h
    · cases h
    · split at h
      · cases h; exact .refl s
      · split at h
        · cases h
          split
          · exact l1tlbAdd_quiet ..
          · exact .refl s
        · split at h
          · cases h
          · split at h
            · cases h
            · have hm : ∀ m : Memory, Quiet s { s with mem := m } := fun m => .of rfl rfl
              cases w with
              | core c =>
                dsimp only at h
                split at h
                · rename_i hr
                  cases h
                  exact (hm _).trans ((l1tlbAdd_quiet ..).trans ((ctlbAdd_quiet ..).trans (recordPage_quiet hr)))
                · cases h
              | clu g =>
                dsimp only at h
                split at h
                · rename_i hr
                  cases h
                  exact (hm _).trans ((ctlbAdd_quiet ..).trans (recordPage_quiet hr))
                · cases h
              | none => cases h; exact hm _

/-! ## Actions -/

/-- An action that changes only what an access may change. -/
structure QuietM {α : Type} (x : M α) : Prop where
  run : ∀ s a t, x s = .ok a t → Quiet s t
section Actions
variable {α β : Type}
theorem QuietM.pure (a : α) : QuietM (pure a : M α) := ⟨by intro s b t h; cases h; exact .refl s⟩
theorem QuietM.throw (e : Stop) : QuietM (throw e : M α) := ⟨by intro s b t h; cases h⟩
theorem QuietM.trapAt (c : Nat) (a : W64) : QuietM (trapAt c a : M α) := .throw _
theorem QuietM.wait : QuietM (waitNow : M α) := .throw _
theorem QuietM.get : QuietM (get : M State) := ⟨by intro s b t h; cases h; exact .refl s⟩
theorem QuietM.me : QuietM me := ⟨by intro s b t h; cases h; exact .refl s⟩
theorem QuietM.myCore : QuietM myCore := ⟨by intro s b t h; cases h; exact .refl s⟩
theorem QuietM.bind {x : M α} {f : α → M β} (h : QuietM x) (g : ∀ a, QuietM (f a)) : QuietM (x >>= f) := by
  constructor
  intro s b t e
  rw [M_bind] at e
  cases hx : x s with
  | ok a u => rw [hx] at e; exact (h.run s a u hx).trans ((g a).run u b t e)
  | error a u => rw [hx] at e; cases e
/-- Reading the state first: what is set may depend on it. -/
theorem QuietM.get_bind {f : State → M β} (h : ∀ s b t, f s s = .ok b t → Quiet s t) :
    QuietM ((MonadState.get : M State) >>= f) := ⟨fun s b t e => h s b t e⟩
theorem QuietM.check (c : Bool) (n : Nat) (a : W64) : QuietM (check c n a) := by
  unfold Sys2Proof.Machine.check; split
  · exact .pure _
  · exact .trapAt ..
theorem QuietM.ready (c : Bool) : QuietM (readyWhen c) := by
  unfold readyWhen; split
  · exact .pure _
  · exact .wait
theorem QuietM.modify {f : State → State} (h : ∀ s, Quiet s (f s)) : QuietM (modify f : M PUnit) :=
  ⟨by intro s b t e; cases e; exact h s⟩
theorem QuietM.note (e c n : Nat) : QuietM (note e c n) := .modify fun _ => (note_marks ..).quiet
theorem QuietM.draw : QuietM draw := ⟨by intro s b t h; cases h; exact .of rfl rfl⟩
theorem QuietM.ite {c : Prop} [Decidable c] {x y : M α} (h : QuietM x) (g : QuietM y) : QuietM (if c then x else y) := by
  split
  · exact h
  · exact g
end Actions

theorem putDemand_quiet (s : State) (c : Nat) (d : Option Demand) : Quiet s (s.putDemand c d) := by
  unfold State.putDemand; split <;> exact .setCore rfl
theorem served_quiet (s : State) (c a va : Nat) : Quiet s (s.served c a va) := by
  unfold State.served; split
  · split
    · exact putDemand_quiet ..
    · exact .refl s
  · exact .refl s
theorem coreXlate_quiet (a va : Nat) (acc : Acc) (u : Bool) : QuietM (coreXlate a va acc u) := by
  unfold coreXlate
  refine .get_bind fun s b t h => ?_
  dsimp only at h
  split at h
  · split at h
    · cases h
    · cases h; exact .refl s
  · cases hx : s.xlate (.core s.actor) (s.core s.actor).launch a va acc u with
    | ok r =>
      obtain ⟨pa, e, s'⟩ := r
      rw [hx] at h
      cases h
      exact (xlate_quiet hx).trans (served_quiet ..)
    | error e =>
      rw [hx] at h
      cases e with
      | protection => cases h
      | machine p => cases h
      | busy => cases h
      | notPresent =>
        dsimp only at h
        cases hm : s.missKind a va (s.demandOn s.actor) with
        | fault c => rw [hm] at h; cases h
        | demand => rw [hm] at h; cases h
theorem physLoc_quiet (va pa : Nat) (so w d : Bool) : QuietM (physLoc va pa so w d) := by
  unfold physLoc
  refine .bind .get fun s => ?_
  split
  · exact .pure _
  · exact .pure _
  · split
    · exact .trapAt ..
    · split
      · exact .trapAt ..
      · exact .pure _
  · split
    · exact .pure _
    · exact .trapAt ..
  · exact .trapAt ..
theorem accessLoc_quiet (sp : Space) (a : Nat) (x : W64) (n : Nat) (acc : Acc2) (d : Bool) :
    QuietM (accessLoc sp a x n acc d) := by
  unfold accessLoc
  refine .bind (.check ..) fun _ => ?_
  cases sp with
  | mem =>
    refine .bind .myCore fun k => .bind (coreXlate_quiet ..) fun p => ?_
    dsimp only
    exact QuietM.ite (.bind (.trapAt ..) fun _ => physLoc_quiet ..) (physLoc_quiet ..)
  | _ =>
    refine .bind .get fun s => .bind .me fun c => ?_
    split
    · exact .trapAt ..
    · exact .pure _
theorem loadLoc_quiet (l : Loc) (n : Nat) : QuietM (loadLoc l n) := by
  unfold loadLoc readLoc
  refine .bind .me fun c => .get_bind fun s b t h => ?_
  cases l with
  | phys pa so =>
    dsimp only at h
    split at h
    · cases h
    · cases h; exact (dirRead_marks ..).quiet
  | ali w p =>
    dsimp only at h
    cases hx : s.aliasBadN w p n with
    | some q => rw [hx] at h; cases h
    | none => rw [hx] at h; cases h; exact (fill_marks ..).quiet
  | _ => cases h; exact .refl s

/-! ## Fetch -/

theorem engXlate_quiet (g a : Nat) (i : Option Nat) (n : Nat) (d : Option Demand) (f : State → State)
    (hf : ∀ s, Quiet s (f s)) (va : Nat) (acc : Acc) : QuietM (engXlate g a i n d f va acc) := by
  unfold engXlate
  refine .get_bind fun s b t h => ?_
  cases hx : s.xlate (.clu g) (i.bind s.instLaunch) a va acc true with
  | ok r =>
    obtain ⟨pa, e, s'⟩ := r
    rw [hx] at h
    cases h
    cases d with
    | none => exact xlate_quiet hx
    | some x =>
      dsimp only
      split
      · exact (xlate_quiet hx).trans (hf _)
      · exact xlate_quiet hx
  | error e =>
    rw [hx] at h
    cases e with
    | protection => cases h
    | machine p => cases h
    | busy => cases h
    | notPresent =>
      dsimp only at h
      cases hm : s.missKind a va d with
      | fault c => rw [hm] at h; cases h
      | demand => rw [hm] at h; cases h
theorem agentXlate_quiet (va : Nat) (acc : Acc) : QuietM (agentXlate va acc) := by
  unfold agentXlate
  refine .bind .get fun s => ?_
  split
  · apply engXlate_quiet
    exact fun _ => .of rfl rfl
  · apply engXlate_quiet
    exact fun _ => .of rfl rfl
  · exact .bind .myCore fun k => coreXlate_quiet ..
theorem locBytes_quiet (l : Loc) (n : Nat) : QuietM (locBytes l n) := by
  unfold locBytes
  refine .get_bind fun s b t h => ?_
  cases l with
  | phys pa so =>
    dsimp only at h
    split at h
    · cases h
    · cases h; exact (dirRead_marks ..).quiet
  | ali w p =>
    dsimp only at h
    cases hx : s.aliasBadN w p n with
    | some q => rw [hx] at h; cases h
    | none => rw [hx] at h; cases h; exact (fill_marks ..).quiet
  | _ => cases h; exact .refl s
theorem loadFour_quiet (va : Nat) : QuietM (loadFour va) := by
  unfold loadFour
  refine .bind (agentXlate_quiet ..) fun p => ?_
  exact .bind (physLoc_quiet ..) fun l => locBytes_quiet ..
theorem loadFours_quiet (n : Nat) : ∀ va, QuietM (loadFours va n) := by
  induction n with
  | zero => intro va; exact .pure _
  | succ n ih =>
    intro va
    unfold loadFours
    exact .bind (loadFour_quiet va) fun b => .bind (ih _) fun c => .pure _
theorem modCore_quiet (c : Nat) (f : Core → Core) (h : ∀ k, (f k).fetchRest = k.fetchRest) : QuietM (modCore c f) :=
  .modify fun _ => .setCore (h _)
theorem readLatt_quiet (f : Bool) (va : Nat) : QuietM (readLatt f va) := by
  unfold readLatt
  refine .bind .get fun s => ?_
  dsimp only
  split
  · exact .pure _
  · exact .bind (loadFours_quiet ..) fun b => .bind (modCore_quiet _ _ fun k => rfl) fun _ => .pure _
theorem readDict_quiet (f : Bool) (va : Nat) : QuietM (readDict f va) := by
  unfold readDict
  refine .bind .get fun s => ?_
  dsimp only
  split
  · exact .pure _
  · exact .bind (loadFours_quiet ..) fun b => .bind (modCore_quiet _ _ fun k => rfl) fun _ => .pure _
theorem expandSlots_quiet (f : Bool) (g : CodeImg) (m n : Nat) : ∀ k r, QuietM (expandSlots f g m n k r) := by
  induction n with
  | zero => intro k r; exact .pure _
  | succ n ih =>
    intro k r
    unfold expandSlots
    split
    · dsimp only
      split
      · exact .bind (.pure _) fun x => .pure _
      · refine .bind (readDict_quiet ..) fun e => ?_
        split
        · exact .pure _
        · refine .bind (ih _ _) fun x => ?_
          split <;> exact .pure _
    · split
      · exact .pure _
      · refine .bind (ih _ _) fun x => ?_
        split <;> exact .pure _
theorem expandBody_quiet (f : Bool) (g : CodeImg) (bs : List Byte) : QuietM (expandBody f g bs) := by
  unfold expandBody
  dsimp only
  split
  · exact .pure _
  · refine .bind (expandSlots_quiet ..) fun x => ?_
    split
    · split <;> exact .pure _
    · exact .pure _
theorem lineSrc_quiet (f : Bool) (l : W64) : QuietM (lineSrc f l) := by
  unfold lineSrc
  refine .bind .get fun s => .bind .get fun u => ?_
  dsimp only
  split
  · exact .pure _
  · refine .bind (readLatt_quiet ..) fun e => ?_
    split
    · exact .pure _
    · split
      · exact .pure _
      · split <;> exact .pure _
theorem srcRead_quiet (l : W64) (x : LineSrc) : QuietM (srcRead l x) := by
  cases x with
  | plain => exact .bind (agentXlate_quiet ..) fun p => .bind (physLoc_quiet ..) fun l => locBytes_quiet ..
  | raw va => exact loadFours_quiet ..
  | body g va n => exact loadFours_quiet ..
  | bad => exact .pure _
theorem fetchOnce_quiet (f : Bool) (p : Option PartFill) (l : W64) : QuietM (fetchOnce f p l) := by
  unfold fetchOnce
  refine .bind (lineSrc_quiet ..) fun x => .bind (srcRead_quiet ..) fun b => ?_
  cases x with
  | bad => exact .pure _
  | body g va n => exact expandBody_quiet ..
  | _ => exact .pure _
theorem setAgentPart_quiet (s : State) (p : Option PartFill) : Quiet s (s.setAgentPart p) := by
  unfold State.setAgentPart
  split
  · exact .of rfl rfl
  · exact .of rfl rfl
  · exact .setCore rfl
theorem addLine_quiet (s : State) (l : L1Line) : Quiet s (s.addLine l) := by
  unfold State.addLine
  split
  · dsimp only
    split
    · exact .of rfl rfl
    · exact .spent (.of rfl rfl)
  · dsimp only
    split
    · exact .of rfl rfl
    · exact .spent (.of rfl rfl)
  · dsimp only
    split
    · exact .setCore rfl
    · exact .spent (.setCore rfl)
/-- All that fetching a line may change. -/
theorem fetchLine_quiet (l : W64) : QuietM (fetchLine l) := by
  have fin : ∀ (a : Nat) (x : Line), QuietM (do
      let l : L1Line := { asid := a, line := l, bits := x, mask := rolesOf x }
      modify fun s => s.addLine l
      return FetchRes.line l : M FetchRes) := fun a x => .bind (.modify fun s => addLine_quiet ..) fun _ => .pure _
  have rest : ∀ (a : Nat) (p : Option PartFill), QuietM (do
      match ← fetchOnce false p l with
      | none => return .undecodable
      | some x =>
        if !parityBad x then
          let l : L1Line := { asid := a, line := l, bits := x, mask := rolesOf x }
          modify fun s => s.addLine l
          return FetchRes.line l
        else match ← fetchOnce true none l with
        | none => return .undecodable
        | some y =>
          if parityBad y then return .badParity
          else
            let l : L1Line := { asid := a, line := l, bits := y, mask := rolesOf y }
            modify fun s => s.addLine l
            return FetchRes.line l : M FetchRes) := fun a p => by
    refine .bind (fetchOnce_quiet ..) fun x => ?_
    cases x with
    | none => exact .pure _
    | some x =>
      refine .ite (fin ..) (.bind (fetchOnce_quiet ..) fun y => ?_)
      cases y with
      | none => exact .pure _
      | some y => exact .ite (.pure _) (fin ..)
  unfold fetchLine
  refine .bind .get fun s => ?_
  dsimp only
  split
  · exact .pure _
  · split
    · exact .bind (.modify fun s => setAgentPart_quiet ..) fun _ => rest ..
    · exact rest ..
/-- All that the check of a branch target may change. -/
theorem checkTarget_quiet (t : W64) : QuietM (checkTarget t) := by
  unfold checkTarget
  refine .bind (.check ..) fun _ => .bind (fetchLine_quiet _) fun r => ?_
  split
  · exact .check ..
  · exact .trapAt ..
  · exact .throw _

end Sys2Proof.Machine
end

