-- ==== Sys2Proof/Laws/PerInstr.lean ====
section
/-!
SUPPORT. Which stream an instruction belongs to (05 R106, 06 R144): an instruction whose encoding has an opcode of class D
or E is one that the data stream executes, and no other is. One lemma for each constructor; a step of another agent has
no encoding.
-/
namespace Sys2Proof.Laws.Stream
open Sys2Proof.Machine

/-- The opcode's class and the stream agree. -/
def Statement (i : Instr) : Prop :=
  ∀ w cls, encode i = some w → opcClass (fOpc w).toNat = some cls → (isData i = true ↔ cls = .d ∨ cls = .e)

theorem fOpc_pkH (role : BitVec 4) (opc : BitVec 8) (fn : BitVec 6) (d a : Reg) (low : BitVec 54) :
    fOpc (pkH role opc fn d a low) = opc := by
  apply BitVec.eq_of_getLsbD_eq
  intro j hj
  simp only [fOpc, pkH, BitVec.getLsbD_extractLsb', BitVec.getLsbD_append]
  have h1 : ¬ 84 + j < 54 := by omega
  have h2 : ¬ 84 + j - 54 < 12 := by omega
  have h3 : ¬ 84 + j - 54 - 12 < 12 := by omega
  have h4 : ¬ 84 + j - 54 - 12 - 12 < 6 := by omega
  have h5 : 84 + j - 54 - 12 - 12 - 6 = j := by omega
  simp [hj, h1, h2, h3, h4, h5]
/-- An instruction of a known opcode. -/
theorem of_opcode {i : Instr} (opc : BitVec 8) (h : ∀ w, encode i = some w → fOpc w = opc)
    (hk : (match opcClass opc.toNat with | none => true | some c => isData i == (c == .d || c == .e)) = true) :
    Statement i := by
  intro w cls he hc
  rw [h w he] at hc
  rw [hc] at hk
  have hb : isData i = (cls == .d || cls == .e) := by simpa using hk
  rw [hb]; cases cls <;> decide
/-- A step of another agent. -/
theorem of_none {i : Instr} (h : encode i = none) : Statement i := by
  intro w cls he; rw [h] at he; cases he

theorem doorbell (q : Nat) (v : BitVec 32) : Statement (.doorbell q v) := of_none rfl
theorem externalSignal (q : Nat) (v : W64) : Statement (.externalSignal q v) := of_none rfl
theorem peerSignal (tenant : Nat) (dev : Nat) (lid : Nat) (status : Nat) : Statement (.peerSignal tenant dev lid status) := of_none rfl
theorem featAccWrite (k : Nat) (v : W64) : Statement (.featAccWrite k v) := of_none rfl
theorem registerWrite (bar0 : Bool) (off : RegAt) (v : W64) : Statement (.registerWrite bar0 off v) := of_none rfl
theorem mailboxUnknown (cmd : BitVec 8) : Statement (.mailboxUnknown cmd) := of_none rfl
theorem formatWindowWrite (n : Nat) (k : Nat) (v : W64) : Statement (.formatWindowWrite n k v) := of_none rfl
theorem switchRegisterWrite (k : Nat) (v : W64) : Statement (.switchRegisterWrite k v) := of_none rfl
theorem monselWrite (off : Nat) (v : W64) : Statement (.monselWrite off v) := of_none rfl
theorem sluiceUnitReport (asid : Nat) (vpage : Nat) (reached : Bool) : Statement (.sluiceUnitReport asid vpage reached) := of_none rfl
theorem teamFault (i : Nat) (code : Nat) : Statement (.teamFault i code) := of_none rfl
theorem lineFetch (c : Nat) (line : W64) : Statement (.lineFetch c line) := of_none rfl
theorem demandFetchServed (w : Waiter) (frame : Nat) : Statement (.demandFetchServed w frame) := of_none rfl
theorem demandTimeout (w : Waiter) : Statement (.demandTimeout w) := of_none rfl
theorem machineCheck (c : Nat) (pa : Nat) : Statement (.machineCheck c pa) := of_none rfl
theorem hostWrite (pa : Nat) (bytes : List Byte) : Statement (.hostWrite pa bytes) := of_none rfl
theorem hostRead (pa : HostPlace) (n : Nat) : Statement (.hostRead pa n) := of_none rfl
theorem copyStart (ch : ChanRef) : Statement (.copyStart ch) := of_none rfl
theorem copyChunk (ch : ChanRef) : Statement (.copyChunk ch) := of_none rfl
theorem copyComplete (ch : ChanRef) : Statement (.copyComplete ch) := of_none rfl
theorem commandStart (k : CmdRef) : Statement (.commandStart k) := of_none rfl
theorem commandRetire (k : CmdRef) : Statement (.commandRetire k) := of_none rfl
theorem sluiceMove (asid : Nat) (va : W64) (dest : Option Nat) : Statement (.sluiceMove asid va dest) := of_none rfl
theorem sensorPoll (r : Sensors) : Statement (.sensorPoll r) := of_none rfl
theorem timeAlign (t : Nat) : Statement (.timeAlign t) := of_none rfl
theorem add (ty : IntTy) (d : Reg) (a : Reg) (b : Reg) : Statement (.add ty d a b) := of_opcode 0x02 (by rintro _ ⟨⟩; exact fOpc_pkH ..) (by rfl)
theorem sub (ty : IntTy) (d : Reg) (a : Reg) (b : Reg) : Statement (.sub ty d a b) := of_opcode 0x03 (by rintro _ ⟨⟩; exact fOpc_pkH ..) (by rfl)
theorem mul (ty : IntTy) (d : Reg) (a : Reg) (b : Reg) : Statement (.mul ty d a b) := of_opcode 0x04 (by rintro _ ⟨⟩; exact fOpc_pkH ..) (by rfl)
theorem mulh (ty : IntTy) (d : Reg) (a : Reg) (b : Reg) : Statement (.mulh ty d a b) := of_opcode 0x05 (by rintro _ ⟨⟩; exact fOpc_pkH ..) (by rfl)
theorem div (ty : IntTy) (d : Reg) (a : Reg) (b : Reg) : Statement (.div ty d a b) := of_opcode 0x06 (by rintro _ ⟨⟩; exact fOpc_pkH ..) (by rfl)
theorem rem (ty : IntTy) (d : Reg) (a : Reg) (b : Reg) : Statement (.rem ty d a b) := of_opcode 0x07 (by rintro _ ⟨⟩; exact fOpc_pkH ..) (by rfl)
theorem and (ty : IntTy) (d : Reg) (a : Reg) (b : Reg) : Statement (.and ty d a b) := of_opcode 0x08 (by rintro _ ⟨⟩; exact fOpc_pkH ..) (by rfl)
theorem or (ty : IntTy) (d : Reg) (a : Reg) (b : Reg) : Statement (.or ty d a b) := of_opcode 0x09 (by rintro _ ⟨⟩; exact fOpc_pkH ..) (by rfl)
theorem xor (ty : IntTy) (d : Reg) (a : Reg) (b : Reg) : Statement (.xor ty d a b) := of_opcode 0x0a (by rintro _ ⟨⟩; exact fOpc_pkH ..) (by rfl)
theorem shl (ty : IntTy) (d : Reg) (a : Reg) (b : Reg) : Statement (.shl ty d a b) := of_opcode 0x0b (by rintro _ ⟨⟩; exact fOpc_pkH ..) (by rfl)
theorem shr (ty : IntTy) (d : Reg) (a : Reg) (b : Reg) : Statement (.shr ty d a b) := of_opcode 0x0c (by rintro _ ⟨⟩; exact fOpc_pkH ..) (by rfl)
theorem rotr (ty : IntTy) (d : Reg) (a : Reg) (b : Reg) : Statement (.rotr ty d a b) := of_opcode 0x0d (by rintro _ ⟨⟩; exact fOpc_pkH ..) (by rfl)
theorem min (ty : IntTy) (d : Reg) (a : Reg) (b : Reg) : Statement (.min ty d a b) := of_opcode 0x0e (by rintro _ ⟨⟩; exact fOpc_pkH ..) (by rfl)
theorem max (ty : IntTy) (d : Reg) (a : Reg) (b : Reg) : Statement (.max ty d a b) := of_opcode 0x0f (by rintro _ ⟨⟩; exact fOpc_pkH ..) (by rfl)
theorem cmp (cc : Cc) (ty : IntTy) (d : Reg) (a : Reg) (b : Reg) : Statement (.cmp cc ty d a b) := of_opcode 0x10 (by rintro _ ⟨⟩; exact fOpc_pkH ..) (by rfl)
theorem sel (n : Bool) (d : Reg) (a : Reg) (b : Reg) (c : Reg) : Statement (.sel n d a b c) := of_opcode 0x11 (by rintro _ ⟨⟩; exact fOpc_pkH ..) (by rfl)
theorem mov (n : Bool) (d : Reg) (a : Reg) : Statement (.mov n d a) := of_opcode 0x12 (by rintro _ ⟨⟩; exact fOpc_pkH ..) (by rfl)
theorem bext (n : Bool) (d : Reg) (a : Reg) (b : Reg) (c : Reg) : Statement (.bext n d a b c) := of_opcode 0x13 (by rintro _ ⟨⟩; exact fOpc_pkH ..) (by rfl)
theorem bins (d : Reg) (a : Reg) (b : Reg) (c : Reg) : Statement (.bins d a b c) := of_opcode 0x14 (by rintro _ ⟨⟩; exact fOpc_pkH ..) (by rfl)
theorem clz (ty : IntTy) (d : Reg) (a : Reg) : Statement (.clz ty d a) := of_opcode 0x15 (by rintro _ ⟨⟩; exact fOpc_pkH ..) (by rfl)
theorem ctz (ty : IntTy) (d : Reg) (a : Reg) : Statement (.ctz ty d a) := of_opcode 0x16 (by rintro _ ⟨⟩; exact fOpc_pkH ..) (by rfl)
theorem popc (ty : IntTy) (d : Reg) (a : Reg) : Statement (.popc ty d a) := of_opcode 0x17 (by rintro _ ⟨⟩; exact fOpc_pkH ..) (by rfl)
theorem brev (ty : IntTy) (d : Reg) (a : Reg) : Statement (.brev ty d a) := of_opcode 0x18 (by rintro _ ⟨⟩; exact fOpc_pkH ..) (by rfl)
theorem bswap (ty : IntTy) (d : Reg) (a : Reg) : Statement (.bswap ty d a) := of_opcode 0x19 (by rintro _ ⟨⟩; exact fOpc_pkH ..) (by rfl)
theorem adda (k : BitVec 2) (d : Reg) (a : Reg) (b : Reg) : Statement (.adda k d a b) := of_opcode 0x1a (by rintro _ ⟨⟩; exact fOpc_pkH ..) (by rfl)
theorem madd (ty : IntTy) (d : Reg) (a : Reg) (b : Reg) (c : Reg) : Statement (.madd ty d a b c) := of_opcode 0x1b (by rintro _ ⟨⟩; exact fOpc_pkH ..) (by rfl)
theorem sext (ty : IntTy) (d : Reg) (a : Reg) : Statement (.sext ty d a) := of_opcode 0x1c (by rintro _ ⟨⟩; exact fOpc_pkH ..) (by rfl)
theorem zext (ty : IntTy) (d : Reg) (a : Reg) : Statement (.zext ty d a) := of_opcode 0x1d (by rintro _ ⟨⟩; exact fOpc_pkH ..) (by rfl)
theorem addk (n : Bool) (d : Reg) (a : Reg) (kw : BitVec 3) (ko : BitVec 17) : Statement (.addk n d a kw ko) := of_opcode 0x1e (by rintro _ ⟨⟩; exact fOpc_pkH ..) (by rfl)
theorem movk (n : Bool) (d : Reg) (kw : BitVec 3) (ko : BitVec 17) : Statement (.movk n d kw ko) := of_opcode 0x1f (by rintro _ ⟨⟩; exact fOpc_pkH ..) (by rfl)
theorem li (d : Reg) (imm : BitVec 54) : Statement (.li d imm) := of_opcode 0x20 (by rintro _ ⟨⟩; exact fOpc_pkH ..) (by rfl)
theorem addi (d : Reg) (a : Reg) (imm : BitVec 54) : Statement (.addi d a imm) := of_opcode 0x21 (by rintro _ ⟨⟩; exact fOpc_pkH ..) (by rfl)
theorem andi (d : Reg) (a : Reg) (imm : BitVec 54) : Statement (.andi d a imm) := of_opcode 0x22 (by rintro _ ⟨⟩; exact fOpc_pkH ..) (by rfl)
theorem ori (d : Reg) (a : Reg) (imm : BitVec 54) : Statement (.ori d a imm) := of_opcode 0x23 (by rintro _ ⟨⟩; exact fOpc_pkH ..) (by rfl)
theorem xori (d : Reg) (a : Reg) (imm : BitVec 54) : Statement (.xori d a imm) := of_opcode 0x24 (by rintro _ ⟨⟩; exact fOpc_pkH ..) (by rfl)
theorem shli (d : Reg) (a : Reg) (sh : BitVec 6) : Statement (.shli d a sh) := of_opcode 0x25 (by rintro _ ⟨⟩; exact fOpc_pkH ..) (by rfl)
theorem shri (d : Reg) (a : Reg) (sh : BitVec 6) : Statement (.shri d a sh) := of_opcode 0x26 (by rintro _ ⟨⟩; exact fOpc_pkH ..) (by rfl)
theorem srai (d : Reg) (a : Reg) (sh : BitVec 6) : Statement (.srai d a sh) := of_opcode 0x27 (by rintro _ ⟨⟩; exact fOpc_pkH ..) (by rfl)
theorem cmpi (cc : CcI) (d : Reg) (a : Reg) (imm : BitVec 54) : Statement (.cmpi cc d a imm) := of_opcode 0x28 (by rintro _ ⟨⟩; exact fOpc_pkH ..) (by rfl)
theorem lih (d : Reg) (a : Reg) (imm : BitVec 32) : Statement (.lih d a imm) := of_opcode 0x29 (by rintro _ ⟨⟩; exact fOpc_pkH ..) (by rfl)
theorem muli (d : Reg) (a : Reg) (imm : BitVec 54) : Statement (.muli d a imm) := of_opcode 0x2a (by rintro _ ⟨⟩; exact fOpc_pkH ..) (by rfl)
theorem maxi (d : Reg) (a : Reg) (imm : BitVec 54) : Statement (.maxi d a imm) := of_opcode 0x2b (by rintro _ ⟨⟩; exact fOpc_pkH ..) (by rfl)
theorem lpc (d : Reg) (imm : BitVec 54) : Statement (.lpc d imm) := of_opcode 0x2c (by rintro _ ⟨⟩; exact fOpc_pkH ..) (by rfl)
theorem mini (d : Reg) (a : Reg) (imm : BitVec 54) : Statement (.mini d a imm) := of_opcode 0x2d (by rintro _ ⟨⟩; exact fOpc_pkH ..) (by rfl)
theorem beq (slot : BitVec 3) (a : Reg) (b : Reg) (off : BitVec 41) : Statement (.beq slot a b off) := of_opcode 0x30 (by rintro _ ⟨⟩; exact fOpc_pkH ..) (by rfl)
theorem bne (slot : BitVec 3) (a : Reg) (b : Reg) (off : BitVec 41) : Statement (.bne slot a b off) := of_opcode 0x31 (by rintro _ ⟨⟩; exact fOpc_pkH ..) (by rfl)
theorem blt (slot : BitVec 3) (a : Reg) (b : Reg) (off : BitVec 41) : Statement (.blt slot a b off) := of_opcode 0x32 (by rintro _ ⟨⟩; exact fOpc_pkH ..) (by rfl)
theorem bge (slot : BitVec 3) (a : Reg) (b : Reg) (off : BitVec 41) : Statement (.bge slot a b off) := of_opcode 0x33 (by rintro _ ⟨⟩; exact fOpc_pkH ..) (by rfl)
theorem bltn (slot : BitVec 3) (a : Reg) (b : Reg) (off : BitVec 41) : Statement (.bltn slot a b off) := of_opcode 0x34 (by rintro _ ⟨⟩; exact fOpc_pkH ..) (by rfl)
theorem bgen (slot : BitVec 3) (a : Reg) (b : Reg) (off : BitVec 41) : Statement (.bgen slot a b off) := of_opcode 0x35 (by rintro _ ⟨⟩; exact fOpc_pkH ..) (by rfl)
theorem j (slot : BitVec 3) (off : BitVec 41) : Statement (.j slot off) := of_opcode 0x36 (by rintro _ ⟨⟩; exact fOpc_pkH ..) (by rfl)
theorem call (slot : BitVec 3) (d : Reg) (off : BitVec 41) : Statement (.call slot d off) := of_opcode 0x37 (by rintro _ ⟨⟩; exact fOpc_pkH ..) (by rfl)
theorem jr (a : Reg) : Statement (.jr a) := of_opcode 0x38 (by rintro _ ⟨⟩; exact fOpc_pkH ..) (by rfl)
theorem callr (d : Reg) (a : Reg) : Statement (.callr d a) := of_opcode 0x39 (by rintro _ ⟨⟩; exact fOpc_pkH ..) (by rfl)
theorem ret (a : Reg) : Statement (.ret a) := of_opcode 0x3a (by rintro _ ⟨⟩; exact fOpc_pkH ..) (by rfl)
theorem win (a : Reg) (b : Reg) : Statement (.win a b) := of_opcode 0x40 (by rintro _ ⟨⟩; exact fOpc_pkH ..) (by rfl)
theorem wini (delta : BitVec 22) (size : BitVec 12) : Statement (.wini delta size) := of_opcode 0x41 (by rintro _ ⟨⟩; exact fOpc_pkH ..) (by rfl)
theorem winqBase (d : Reg) : Statement (.winqBase d) := of_opcode 0x42 (by rintro _ ⟨⟩; exact fOpc_pkH ..) (by rfl)
theorem winqSize (d : Reg) : Statement (.winqSize d) := of_opcode 0x42 (by rintro _ ⟨⟩; exact fOpc_pkH ..) (by rfl)
theorem mfs (d : Reg) (num : BitVec 12) : Statement (.mfs d num) := of_opcode 0x43 (by rintro _ ⟨⟩; exact fOpc_pkH ..) (by rfl)
theorem mts (a : Reg) (num : BitVec 12) : Statement (.mts a num) := of_opcode 0x44 (by rintro _ ⟨⟩; exact fOpc_pkH ..) (by rfl)
theorem mtsCodeimg (a : Reg) (n : BitVec 3) : Statement (.mtsCodeimg a n) := of_opcode 0x44 (by rintro _ ⟨⟩; exact fOpc_pkH ..) (by rfl)
theorem mtsFcsr (a : Reg) : Statement (.mtsFcsr a) := of_opcode 0x44 (by rintro _ ⟨⟩; exact fOpc_pkH ..) (by rfl)
theorem mtsRbb (a : Reg) : Statement (.mtsRbb a) := of_opcode 0x44 (by rintro _ ⟨⟩; exact fOpc_pkH ..) (by rfl)
theorem wlt (d : Reg) (a : Reg) (b : Reg) : Statement (.wlt d a b) := of_opcode 0x45 (by rintro _ ⟨⟩; exact fOpc_pkH ..) (by rfl)
theorem qstat (d : Reg) (q : QSel) : Statement (.qstat d q) := of_opcode 0x46 (by rintro _ ⟨⟩; exact fOpc_pkH ..) (by rfl)
theorem ld (w : LdW) (d : Reg) (a : Reg) (imm : BitVec 54) : Statement (.ld w d a imm) := of_opcode 0x50 (by rintro _ ⟨⟩; exact fOpc_pkH ..) (by rfl)
theorem st (w : StW) (d : Reg) (a : Reg) (imm : BitVec 54) : Statement (.st w d a imm) := of_opcode 0x51 (by rintro _ ⟨⟩; exact fOpc_pkH ..) (by rfl)
theorem ldx (ty : IntTy) (d : Reg) (a : Reg) (b : Reg) : Statement (.ldx ty d a b) := of_opcode 0x52 (by rintro _ ⟨⟩; exact fOpc_pkH ..) (by rfl)
theorem stx (ty : IntTy) (d : Reg) (a : Reg) (b : Reg) : Statement (.stx ty d a b) := of_opcode 0x53 (by rintro _ ⟨⟩; exact fOpc_pkH ..) (by rfl)
theorem pref (lv : Level) (a : Reg) (imm : BitVec 54) : Statement (.pref lv a imm) := of_opcode 0x54 (by rintro _ ⟨⟩; exact fOpc_pkH ..) (by rfl)
theorem cmoClean (lv : Level) (a : Reg) : Statement (.cmoClean lv a) := of_opcode 0x55 (by rintro _ ⟨⟩; exact fOpc_pkH ..) (by rfl)
theorem cmoInval (lv : Level) (a : Reg) : Statement (.cmoInval lv a) := of_opcode 0x55 (by rintro _ ⟨⟩; exact fOpc_pkH ..) (by rfl)
theorem cmoFlush (lv : Level) (a : Reg) : Statement (.cmoFlush lv a) := of_opcode 0x55 (by rintro _ ⟨⟩; exact fOpc_pkH ..) (by rfl)
theorem lds (w : LdW) (d : Reg) (a : Reg) (imm : BitVec 54) : Statement (.lds w d a imm) := of_opcode 0x56 (by rintro _ ⟨⟩; exact fOpc_pkH ..) (by rfl)
theorem sts (w : StW) (d : Reg) (a : Reg) (imm : BitVec 54) : Statement (.sts w d a imm) := of_opcode 0x57 (by rintro _ ⟨⟩; exact fOpc_pkH ..) (by rfl)
theorem ldc (w : LdW) (d : Reg) (a : Reg) (imm : BitVec 54) : Statement (.ldc w d a imm) := of_opcode 0x58 (by rintro _ ⟨⟩; exact fOpc_pkH ..) (by rfl)
theorem stc (w : StW) (d : Reg) (a : Reg) (imm : BitVec 54) : Statement (.stc w d a imm) := of_opcode 0x59 (by rintro _ ⟨⟩; exact fOpc_pkH ..) (by rfl)
theorem ldd (w : LdW) (d : Reg) (a : Reg) (imm : BitVec 54) : Statement (.ldd w d a imm) := of_opcode 0x5a (by rintro _ ⟨⟩; exact fOpc_pkH ..) (by rfl)
theorem std (w : StW) (d : Reg) (a : Reg) (imm : BitVec 54) : Statement (.std w d a imm) := of_opcode 0x5b (by rintro _ ⟨⟩; exact fOpc_pkH ..) (by rfl)
theorem vld (d : Reg) (a : Reg) (m : Reg) (ofs : BitVec 42) : Statement (.vld d a m ofs) := of_opcode 0x60 (by rintro _ ⟨⟩; exact fOpc_pkH ..) (by rfl)
theorem vst (d : Reg) (a : Reg) (m : Reg) (ofs : BitVec 42) : Statement (.vst d a m ofs) := of_opcode 0x61 (by rintro _ ⟨⟩; exact fOpc_pkH ..) (by rfl)
theorem vlds (d : Reg) (a : Reg) (b : Reg) (m : Reg) : Statement (.vlds d a b m) := of_opcode 0x62 (by rintro _ ⟨⟩; exact fOpc_pkH ..) (by rfl)
theorem vsts (d : Reg) (a : Reg) (b : Reg) (m : Reg) : Statement (.vsts d a b m) := of_opcode 0x63 (by rintro _ ⟨⟩; exact fOpc_pkH ..) (by rfl)
theorem vgat (d : Reg) (a : Reg) (b : Reg) (m : Reg) : Statement (.vgat d a b m) := of_opcode 0x64 (by rintro _ ⟨⟩; exact fOpc_pkH ..) (by rfl)
theorem vsct (d : Reg) (a : Reg) (b : Reg) (m : Reg) : Statement (.vsct d a b m) := of_opcode 0x65 (by rintro _ ⟨⟩; exact fOpc_pkH ..) (by rfl)
theorem ldl (d : Reg) (a : Reg) (b : Reg) (m : Reg) : Statement (.ldl d a b m) := of_opcode 0x66 (by rintro _ ⟨⟩; exact fOpc_pkH ..) (by rfl)
theorem stl (d : Reg) (a : Reg) (b : Reg) (m : Reg) : Statement (.stl d a b m) := of_opcode 0x67 (by rintro _ ⟨⟩; exact fOpc_pkH ..) (by rfl)
theorem vlsp (d : Reg) (a : Reg) (m : Reg) (ofs : BitVec 42) : Statement (.vlsp d a m ofs) := of_opcode 0x68 (by rintro _ ⟨⟩; exact fOpc_pkH ..) (by rfl)
theorem vssp (d : Reg) (a : Reg) (m : Reg) (ofs : BitVec 42) : Statement (.vssp d a m ofs) := of_opcode 0x69 (by rintro _ ⟨⟩; exact fOpc_pkH ..) (by rfl)
theorem vlcl (d : Reg) (a : Reg) (m : Reg) (ofs : BitVec 42) : Statement (.vlcl d a m ofs) := of_opcode 0x6a (by rintro _ ⟨⟩; exact fOpc_pkH ..) (by rfl)
theorem vscl (d : Reg) (a : Reg) (m : Reg) (ofs : BitVec 42) : Statement (.vscl d a m ofs) := of_opcode 0x6b (by rintro _ ⟨⟩; exact fOpc_pkH ..) (by rfl)
theorem vldd (d : Reg) (a : Reg) (m : Reg) (ofs : BitVec 42) : Statement (.vldd d a m ofs) := of_opcode 0x6c (by rintro _ ⟨⟩; exact fOpc_pkH ..) (by rfl)
theorem vstd (d : Reg) (a : Reg) (m : Reg) (ofs : BitVec 42) : Statement (.vstd d a m ofs) := of_opcode 0x6d (by rintro _ ⟨⟩; exact fOpc_pkH ..) (by rfl)
theorem send (d : Reg) (a : Reg) (b : Reg) (c : Reg) (src : Space) (dst : Space) : Statement (.send d a b c src dst) := of_opcode 0x70 (by rintro _ ⟨⟩; exact fOpc_pkH ..) (by rfl)
theorem sendb (d : Reg) (a : Reg) (b : Reg) (c : Reg) (src : Space) (dst : Space) : Statement (.sendb d a b c src dst) := of_opcode 0x71 (by rintro _ ⟨⟩; exact fOpc_pkH ..) (by rfl)
theorem chctlOpen (d : Reg) (a : Reg) (b : Reg) : Statement (.chctlOpen d a b) := of_opcode 0x72 (by rintro _ ⟨⟩; exact fOpc_pkH ..) (by rfl)
theorem chctlClose (d : Reg) : Statement (.chctlClose d) := of_opcode 0x72 (by rintro _ ⟨⟩; exact fOpc_pkH ..) (by rfl)
theorem chctlReset (d : Reg) : Statement (.chctlReset d) := of_opcode 0x72 (by rintro _ ⟨⟩; exact fOpc_pkH ..) (by rfl)
theorem cwait (d : Reg) (a : Reg) (b : Reg) : Statement (.cwait d a b) := of_opcode 0x73 (by rintro _ ⟨⟩; exact fOpc_pkH ..) (by rfl)
theorem crpop (d : Reg) (a : Reg) (try_ : Bool) : Statement (.crpop d a try_) := of_opcode 0x74 (by rintro _ ⟨⟩; exact fOpc_pkH ..) (by rfl)
theorem alloc (d : Reg) (a : Reg) (nf : Bool) : Statement (.alloc d a nf) := of_opcode 0x76 (by rintro _ ⟨⟩; exact fOpc_pkH ..) (by rfl)
theorem free (a : Reg) : Statement (.free a) := of_opcode 0x77 (by rintro _ ⟨⟩; exact fOpc_pkH ..) (by rfl)
theorem chq (d : Reg) (a : Reg) : Statement (.chq d a) := of_opcode 0x78 (by rintro _ ⟨⟩; exact fOpc_pkH ..) (by rfl)
theorem vadd (sat : Bool) (ty : IntTy) (d : Reg) (a : Reg) (b : Reg) (m : Reg) : Statement (.vadd sat ty d a b m) := of_opcode 0x80 (by rintro _ ⟨⟩; exact fOpc_pkH ..) (by rfl)
theorem vsub (sat : Bool) (ty : IntTy) (d : Reg) (a : Reg) (b : Reg) (m : Reg) : Statement (.vsub sat ty d a b m) := of_opcode 0x81 (by rintro _ ⟨⟩; exact fOpc_pkH ..) (by rfl)
theorem vmul (ty : IntTy) (d : Reg) (a : Reg) (b : Reg) (m : Reg) : Statement (.vmul ty d a b m) := of_opcode 0x82 (by rintro _ ⟨⟩; exact fOpc_pkH ..) (by rfl)
theorem vmulh (ty : IntTy) (d : Reg) (a : Reg) (b : Reg) (m : Reg) : Statement (.vmulh ty d a b m) := of_opcode 0x83 (by rintro _ ⟨⟩; exact fOpc_pkH ..) (by rfl)
theorem vdiv (ty : IntTy) (d : Reg) (a : Reg) (b : Reg) (m : Reg) : Statement (.vdiv ty d a b m) := of_opcode 0x84 (by rintro _ ⟨⟩; exact fOpc_pkH ..) (by rfl)
theorem vrem (ty : IntTy) (d : Reg) (a : Reg) (b : Reg) (m : Reg) : Statement (.vrem ty d a b m) := of_opcode 0x85 (by rintro _ ⟨⟩; exact fOpc_pkH ..) (by rfl)
theorem vand (ty : IntTy) (d : Reg) (a : Reg) (b : Reg) (m : Reg) : Statement (.vand ty d a b m) := of_opcode 0x86 (by rintro _ ⟨⟩; exact fOpc_pkH ..) (by rfl)
theorem vor (ty : IntTy) (d : Reg) (a : Reg) (b : Reg) (m : Reg) : Statement (.vor ty d a b m) := of_opcode 0x87 (by rintro _ ⟨⟩; exact fOpc_pkH ..) (by rfl)
theorem vxor (ty : IntTy) (d : Reg) (a : Reg) (b : Reg) (m : Reg) : Statement (.vxor ty d a b m) := of_opcode 0x88 (by rintro _ ⟨⟩; exact fOpc_pkH ..) (by rfl)
theorem vshl (ty : IntTy) (d : Reg) (a : Reg) (b : Reg) (m : Reg) : Statement (.vshl ty d a b m) := of_opcode 0x89 (by rintro _ ⟨⟩; exact fOpc_pkH ..) (by rfl)
theorem vshr (ty : IntTy) (d : Reg) (a : Reg) (b : Reg) (m : Reg) : Statement (.vshr ty d a b m) := of_opcode 0x8a (by rintro _ ⟨⟩; exact fOpc_pkH ..) (by rfl)
theorem vmin (ty : IntTy) (d : Reg) (a : Reg) (b : Reg) (m : Reg) : Statement (.vmin ty d a b m) := of_opcode 0x8b (by rintro _ ⟨⟩; exact fOpc_pkH ..) (by rfl)
theorem vmax (ty : IntTy) (d : Reg) (a : Reg) (b : Reg) (m : Reg) : Statement (.vmax ty d a b m) := of_opcode 0x8c (by rintro _ ⟨⟩; exact fOpc_pkH ..) (by rfl)
theorem vcmp (cc : Cc) (ty : IntTy) (d : Reg) (a : Reg) (b : Reg) (m : Reg) : Statement (.vcmp cc ty d a b m) := of_opcode 0x8d (by rintro _ ⟨⟩; exact fOpc_pkH ..) (by rfl)
theorem vsel (d : Reg) (a : Reg) (b : Reg) (c : Reg) (m : Reg) : Statement (.vsel d a b c m) := of_opcode 0x8e (by rintro _ ⟨⟩; exact fOpc_pkH ..) (by rfl)
theorem vabs (w : StW) (d : Reg) (a : Reg) (m : Reg) : Statement (.vabs w d a m) := of_opcode 0x8f (by rintro _ ⟨⟩; exact fOpc_pkH ..) (by rfl)
theorem vfadd (ty : FpTy) (rm : RmF) (d : Reg) (a : Reg) (b : Reg) (m : Reg) : Statement (.vfadd ty rm d a b m) := of_opcode 0x90 (by rintro _ ⟨⟩; exact fOpc_pkH ..) (by rfl)
theorem vfsub (ty : FpTy) (rm : RmF) (d : Reg) (a : Reg) (b : Reg) (m : Reg) : Statement (.vfsub ty rm d a b m) := of_opcode 0x91 (by rintro _ ⟨⟩; exact fOpc_pkH ..) (by rfl)
theorem vfmul (ty : FpTy) (rm : RmF) (d : Reg) (a : Reg) (b : Reg) (m : Reg) : Statement (.vfmul ty rm d a b m) := of_opcode 0x92 (by rintro _ ⟨⟩; exact fOpc_pkH ..) (by rfl)
theorem vfdiv (ty : FpTy) (rm : RmF) (d : Reg) (a : Reg) (b : Reg) (m : Reg) : Statement (.vfdiv ty rm d a b m) := of_opcode 0x93 (by rintro _ ⟨⟩; exact fOpc_pkH ..) (by rfl)
theorem vfsqrt (ty : FpTy) (rm : RmF) (d : Reg) (a : Reg) (m : Reg) : Statement (.vfsqrt ty rm d a m) := of_opcode 0x94 (by rintro _ ⟨⟩; exact fOpc_pkH ..) (by rfl)
theorem vfmin (ty : FpTy) (d : Reg) (a : Reg) (b : Reg) (m : Reg) : Statement (.vfmin ty d a b m) := of_opcode 0x95 (by rintro _ ⟨⟩; exact fOpc_pkH ..) (by rfl)
theorem vfmax (ty : FpTy) (d : Reg) (a : Reg) (b : Reg) (m : Reg) : Statement (.vfmax ty d a b m) := of_opcode 0x96 (by rintro _ ⟨⟩; exact fOpc_pkH ..) (by rfl)
theorem vfabs (ty : FpTy) (d : Reg) (a : Reg) (m : Reg) : Statement (.vfabs ty d a m) := of_opcode 0x97 (by rintro _ ⟨⟩; exact fOpc_pkH ..) (by rfl)
theorem vfneg (ty : FpTy) (d : Reg) (a : Reg) (m : Reg) : Statement (.vfneg ty d a m) := of_opcode 0x98 (by rintro _ ⟨⟩; exact fOpc_pkH ..) (by rfl)
theorem vfsgn (op : SgnOp) (ty : FpTy) (d : Reg) (a : Reg) (b : Reg) (m : Reg) : Statement (.vfsgn op ty d a b m) := of_opcode 0x99 (by rintro _ ⟨⟩; exact fOpc_pkH ..) (by rfl)
theorem vfcls (ty : FpTy) (d : Reg) (a : Reg) (m : Reg) : Statement (.vfcls ty d a m) := of_opcode 0x9a (by rintro _ ⟨⟩; exact fOpc_pkH ..) (by rfl)
theorem vfcmp (cc : CcF) (ty : FpTy) (d : Reg) (a : Reg) (b : Reg) (m : Reg) : Statement (.vfcmp cc ty d a b m) := of_opcode 0x9b (by rintro _ ⟨⟩; exact fOpc_pkH ..) (by rfl)
theorem vcvt (td : Ty) (ts : Ty) (rm : RmF) (sat : Bool) (part : BitVec 3) (d : Reg) (a : Reg) (m : Reg) : Statement (.vcvt td ts rm sat part d a m) := of_opcode 0x9c (by rintro _ ⟨⟩; exact fOpc_pkH ..) (by rfl)
theorem vfrint (ty : FpTy) (rm : RmF) (d : Reg) (a : Reg) (m : Reg) : Statement (.vfrint ty rm d a m) := of_opcode 0x9d (by rintro _ ⟨⟩; exact fOpc_pkH ..) (by rfl)
theorem vfscl (ty : FpTy) (rm : RmF) (d : Reg) (a : Reg) (b : Reg) (m : Reg) : Statement (.vfscl ty rm d a b m) := of_opcode 0x9e (by rintro _ ⟨⟩; exact fOpc_pkH ..) (by rfl)
theorem vfma (ty : FpTy) (rm : RmF) (d : Reg) (a : Reg) (b : Reg) (c : Reg) (m : Reg) : Statement (.vfma ty rm d a b c m) := of_opcode 0xa0 (by rintro _ ⟨⟩; exact fOpc_pkH ..) (by rfl)
theorem vfms (ty : FpTy) (rm : RmF) (d : Reg) (a : Reg) (b : Reg) (c : Reg) (m : Reg) : Statement (.vfms ty rm d a b c m) := of_opcode 0xa1 (by rintro _ ⟨⟩; exact fOpc_pkH ..) (by rfl)
theorem vfnma (ty : FpTy) (rm : RmF) (d : Reg) (a : Reg) (b : Reg) (c : Reg) (m : Reg) : Statement (.vfnma ty rm d a b c m) := of_opcode 0xa2 (by rintro _ ⟨⟩; exact fOpc_pkH ..) (by rfl)
theorem vfnms (ty : FpTy) (rm : RmF) (d : Reg) (a : Reg) (b : Reg) (c : Reg) (m : Reg) : Statement (.vfnms ty rm d a b c m) := of_opcode 0xa3 (by rintro _ ⟨⟩; exact fOpc_pkH ..) (by rfl)
theorem vfaddk (ty : FpTy) (rm : RmF) (d : Reg) (a : Reg) (m : Reg) (kw : BitVec 3) (ko : BitVec 17) : Statement (.vfaddk ty rm d a m kw ko) := of_opcode 0xa4 (by rintro _ ⟨⟩; exact fOpc_pkH ..) (by rfl)
theorem vfmulk (ty : FpTy) (rm : RmF) (d : Reg) (a : Reg) (m : Reg) (kw : BitVec 3) (ko : BitVec 17) : Statement (.vfmulk ty rm d a m kw ko) := of_opcode 0xa5 (by rintro _ ⟨⟩; exact fOpc_pkH ..) (by rfl)
theorem vaddk (ty : IntTy) (d : Reg) (a : Reg) (m : Reg) (kw : BitVec 3) (ko : BitVec 17) : Statement (.vaddk ty d a m kw ko) := of_opcode 0xa6 (by rintro _ ⟨⟩; exact fOpc_pkH ..) (by rfl)
theorem vmulk (ty : IntTy) (d : Reg) (a : Reg) (m : Reg) (kw : BitVec 3) (ko : BitVec 17) : Statement (.vmulk ty d a m kw ko) := of_opcode 0xa7 (by rintro _ ⟨⟩; exact fOpc_pkH ..) (by rfl)
theorem vbcast (d : Reg) (a : Reg) (m : Reg) : Statement (.vbcast d a m) := of_opcode 0xa8 (by rintro _ ⟨⟩; exact fOpc_pkH ..) (by rfl)
theorem vbcastk (d : Reg) (m : Reg) (kw : BitVec 3) (ko : BitVec 17) : Statement (.vbcastk d m kw ko) := of_opcode 0xa9 (by rintro _ ⟨⟩; exact fOpc_pkH ..) (by rfl)
theorem vins (d : Reg) (a : Reg) (b : Reg) : Statement (.vins d a b) := of_opcode 0xaa (by rintro _ ⟨⟩; exact fOpc_pkH ..) (by rfl)
theorem vext (d : Reg) (a : Reg) (b : Reg) : Statement (.vext d a b) := of_opcode 0xab (by rintro _ ⟨⟩; exact fOpc_pkH ..) (by rfl)
theorem vmask (d : Reg) (a : Reg) (m : Reg) : Statement (.vmask d a m) := of_opcode 0xac (by rintro _ ⟨⟩; exact fOpc_pkH ..) (by rfl)
theorem vperm (d : Reg) (a : Reg) (b : Reg) (m : Reg) : Statement (.vperm d a b m) := of_opcode 0xb0 (by rintro _ ⟨⟩; exact fOpc_pkH ..) (by rfl)
theorem vrot (d : Reg) (a : Reg) (b : Reg) (m : Reg) : Statement (.vrot d a b m) := of_opcode 0xb1 (by rintro _ ⟨⟩; exact fOpc_pkH ..) (by rfl)
theorem vzip (hi : Bool) (d : Reg) (a : Reg) (b : Reg) (m : Reg) : Statement (.vzip hi d a b m) := of_opcode 0xb2 (by rintro _ ⟨⟩; exact fOpc_pkH ..) (by rfl)
theorem vunzip (hi : Bool) (d : Reg) (a : Reg) (b : Reg) (m : Reg) : Statement (.vunzip hi d a b m) := of_opcode 0xb3 (by rintro _ ⟨⟩; exact fOpc_pkH ..) (by rfl)
theorem vcompress (d : Reg) (a : Reg) (b : Reg) : Statement (.vcompress d a b) := of_opcode 0xb4 (by rintro _ ⟨⟩; exact fOpc_pkH ..) (by rfl)
theorem vexpand (d : Reg) (a : Reg) (b : Reg) : Statement (.vexpand d a b) := of_opcode 0xb5 (by rintro _ ⟨⟩; exact fOpc_pkH ..) (by rfl)
theorem vredadd (ty : IntTy) (d : Reg) (a : Reg) (m : Reg) : Statement (.vredadd ty d a m) := of_opcode 0xb6 (by rintro _ ⟨⟩; exact fOpc_pkH ..) (by rfl)
theorem vredmin (ty : IntTy) (d : Reg) (a : Reg) (m : Reg) : Statement (.vredmin ty d a m) := of_opcode 0xb7 (by rintro _ ⟨⟩; exact fOpc_pkH ..) (by rfl)
theorem vredmax (ty : IntTy) (d : Reg) (a : Reg) (m : Reg) : Statement (.vredmax ty d a m) := of_opcode 0xb8 (by rintro _ ⟨⟩; exact fOpc_pkH ..) (by rfl)
theorem vfredadd (ty : FpTy) (rm : RmF) (d : Reg) (a : Reg) (m : Reg) : Statement (.vfredadd ty rm d a m) := of_opcode 0xb9 (by rintro _ ⟨⟩; exact fOpc_pkH ..) (by rfl)
theorem vfredmin (ty : FpTy) (d : Reg) (a : Reg) (m : Reg) : Statement (.vfredmin ty d a m) := of_opcode 0xba (by rintro _ ⟨⟩; exact fOpc_pkH ..) (by rfl)
theorem vfredmax (ty : FpTy) (d : Reg) (a : Reg) (m : Reg) : Statement (.vfredmax ty d a m) := of_opcode 0xbb (by rintro _ ⟨⟩; exact fOpc_pkH ..) (by rfl)
theorem vredand (ty : IntTy) (d : Reg) (a : Reg) (m : Reg) : Statement (.vredand ty d a m) := of_opcode 0xbc (by rintro _ ⟨⟩; exact fOpc_pkH ..) (by rfl)
theorem vredor (ty : IntTy) (d : Reg) (a : Reg) (m : Reg) : Statement (.vredor ty d a m) := of_opcode 0xbd (by rintro _ ⟨⟩; exact fOpc_pkH ..) (by rfl)
theorem vmcnt (d : Reg) (a : Reg) (m : Reg) : Statement (.vmcnt d a m) := of_opcode 0xbe (by rintro _ ⟨⟩; exact fOpc_pkH ..) (by rfl)
theorem vredxor (ty : IntTy) (d : Reg) (a : Reg) (m : Reg) : Statement (.vredxor ty d a m) := of_opcode 0xbf (by rintro _ ⟨⟩; exact fOpc_pkH ..) (by rfl)
theorem xclr (m : Reg) : Statement (.xclr m) := of_opcode 0xc0 (by rintro _ ⟨⟩; exact fOpc_pkH ..) (by rfl)
theorem xfma (neg : Bool) (a : Reg) (b : Reg) (m : Reg) : Statement (.xfma neg a b m) := of_opcode 0xc1 (by rintro _ ⟨⟩; exact fOpc_pkH ..) (by rfl)
theorem xadd (neg : Bool) (a : Reg) (m : Reg) : Statement (.xadd neg a m) := of_opcode 0xc2 (by rintro _ ⟨⟩; exact fOpc_pkH ..) (by rfl)
theorem xsum (m : Reg) : Statement (.xsum m) := of_opcode 0xc3 (by rintro _ ⟨⟩; exact fOpc_pkH ..) (by rfl)
theorem xsgn (d : Reg) (m : Reg) : Statement (.xsgn d m) := of_opcode 0xc4 (by rintro _ ⟨⟩; exact fOpc_pkH ..) (by rfl)
theorem xrnd (rm : RmF) (d : Reg) (m : Reg) : Statement (.xrnd rm d m) := of_opcode 0xc5 (by rintro _ ⟨⟩; exact fOpc_pkH ..) (by rfl)
theorem xst (a : Reg) (m : Reg) : Statement (.xst a m) := of_opcode 0xc6 (by rintro _ ⟨⟩; exact fOpc_pkH ..) (by rfl)
theorem xld (a : Reg) (m : Reg) : Statement (.xld a m) := of_opcode 0xc7 (by rintro _ ⟨⟩; exact fOpc_pkH ..) (by rfl)
theorem tld (ty : Ty) (sp : Space) (d : Reg) (a : Reg) (ids : EIds) : Statement (.tld ty sp d a ids) := of_opcode 0xd0 (by rintro _ ⟨⟩; exact fOpc_pkH ..) (by rfl)
theorem tst (ty : Ty) (sp : Space) (d : Reg) (a : Reg) (ids : EIds) : Statement (.tst ty sp d a ids) := of_opcode 0xd1 (by rintro _ ⟨⟩; exact fOpc_pkH ..) (by rfl)
theorem tzero (d : Reg) (ids : EIds) : Statement (.tzero d ids) := of_opcode 0xd2 (by rintro _ ⟨⟩; exact fOpc_pkH ..) (by rfl)
theorem mma (ty : Ty) (g : Bool) (ad : Bool) (nb : Bool) (na : Bool) (d : Reg) (a : Reg) (b : Reg) (ids : EIds) : Statement (.mma ty g ad nb na d a b ids) := of_opcode 0xd3 (by rintro _ ⟨⟩; exact fOpc_pkH ..) (by rfl)
theorem amov (ty : Ty) (sat : Bool) (d : Reg) (a : Reg) (b : Reg) (ids : EIds) : Statement (.amov ty sat d a b ids) := of_opcode 0xd4 (by rintro _ ⟨⟩; exact fOpc_pkH ..) (by rfl)
theorem ast (sp : Space) (d : Reg) (a : Reg) (ids : EIds) : Statement (.ast sp d a ids) := of_opcode 0xd5 (by rintro _ ⟨⟩; exact fOpc_pkH ..) (by rfl)
theorem ald (sp : Space) (d : Reg) (a : Reg) (ids : EIds) : Statement (.ald sp d a ids) := of_opcode 0xd6 (by rintro _ ⟨⟩; exact fOpc_pkH ..) (by rfl)
theorem azero (d : Reg) (ids : EIds) : Statement (.azero d ids) := of_opcode 0xd7 (by rintro _ ⟨⟩; exact fOpc_pkH ..) (by rfl)
theorem mwait (seq : Bool) (d : Reg) (cid : BitVec 6) : Statement (.mwait seq d cid) := of_opcode 0xd8 (by rintro _ ⟨⟩; exact fOpc_pkH ..) (by rfl)
theorem ldacq (w : LdW) (sc : Scope) (sp : Space) (d : Reg) (a : Reg) (ofs : BitVec 52) : Statement (.ldacq w sc sp d a ofs) := of_opcode 0xe0 (by rintro _ ⟨⟩; exact fOpc_pkH ..) (by rfl)
theorem strel (w : StW) (sc : Scope) (sp : Space) (d : Reg) (a : Reg) (ofs : BitVec 52) : Statement (.strel w sc sp d a ofs) := of_opcode 0xe1 (by rintro _ ⟨⟩; exact fOpc_pkH ..) (by rfl)
theorem fence (k : FenceKind) (sc : Scope) : Statement (.fence k sc) := of_opcode 0xe2 (by rintro _ ⟨⟩; exact fOpc_pkH ..) (by rfl)
theorem amo (op : AmoOp) (ty : AmoTy) (sc : Scope) (sp : Space) (ord : BitVec 2) (d : Reg) (a : Reg) (b : Reg) : Statement (.amo op ty sc sp ord d a b) := of_opcode 0xe3 (by rintro _ ⟨⟩; exact fOpc_pkH ..) (by rfl)
theorem cas (ty : AmoTy) (sc : Scope) (sp : Space) (ord : BitVec 2) (d : Reg) (a : Reg) (b : Reg) (c : Reg) : Statement (.cas ty sc sp ord d a b c) := of_opcode 0xe4 (by rintro _ ⟨⟩; exact fOpc_pkH ..) (by rfl)
theorem famo (ty : FpTy) (rm : RmF) (sc : Scope) (sp : Space) (ord : BitVec 2) (d : Reg) (a : Reg) (b : Reg) : Statement (.famo ty rm sc sp ord d a b) := of_opcode 0xe5 (by rintro _ ⟨⟩; exact fOpc_pkH ..) (by rfl)
theorem barArrive (d : Reg) (a : Reg) : Statement (.barArrive d a) := of_opcode 0xe6 (by rintro _ ⟨⟩; exact fOpc_pkH ..) (by rfl)
theorem barWait (d : Reg) (a : Reg) (b : Reg) : Statement (.barWait d a b) := of_opcode 0xe6 (by rintro _ ⟨⟩; exact fOpc_pkH ..) (by rfl)
theorem barSync (d : Reg) (a : Reg) : Statement (.barSync d a) := of_opcode 0xe6 (by rintro _ ⟨⟩; exact fOpc_pkH ..) (by rfl)
theorem barInit (sc : Scope) (a : Reg) (b : Reg) : Statement (.barInit sc a b) := of_opcode 0xe6 (by rintro _ ⟨⟩; exact fOpc_pkH ..) (by rfl)
theorem fork (a : Reg) : Statement (.fork a) := of_opcode 0xe7 (by rintro _ ⟨⟩; exact fOpc_pkH ..) (by rfl)
theorem jdec (sc : Scope) (a : Reg) : Statement (.jdec sc a) := of_opcode 0xe8 (by rintro _ ⟨⟩; exact fOpc_pkH ..) (by rfl)
theorem msg (a : Reg) (b : Reg) : Statement (.msg a b) := of_opcode 0xea (by rintro _ ⟨⟩; exact fOpc_pkH ..) (by rfl)
theorem dqopPop (d : Reg) : Statement (.dqopPop d) := of_opcode 0xeb (by rintro _ ⟨⟩; exact fOpc_pkH ..) (by rfl)
theorem dqopSteal (d : Reg) (a : Reg) : Statement (.dqopSteal d a) := of_opcode 0xeb (by rintro _ ⟨⟩; exact fOpc_pkH ..) (by rfl)
theorem dqopCount (d : Reg) : Statement (.dqopCount d) := of_opcode 0xeb (by rintro _ ⟨⟩; exact fOpc_pkH ..) (by rfl)
theorem hand (role : BitVec 4) (rcv : BitVec 4) (pipe : BitVec 3) (a : Reg) (lmap : BitVec 16) : Statement (.hand role rcv pipe a lmap) := of_opcode 0xec (by rintro _ ⟨⟩; exact fOpc_pkH ..) (by rfl)
theorem tbindMyrole (d : Reg) : Statement (.tbindMyrole d) := of_opcode 0xed (by rintro _ ⟨⟩; exact fOpc_pkH ..) (by rfl)
theorem tbindMembers (d : Reg) (a : Reg) : Statement (.tbindMembers d a) := of_opcode 0xed (by rintro _ ⟨⟩; exact fOpc_pkH ..) (by rfl)
theorem trap (a : Reg) : Statement (.trap a) := of_opcode 0xf0 (by rintro _ ⟨⟩; exact fOpc_pkH ..) (by rfl)
theorem tlbiAsid (a : Reg) : Statement (.tlbiAsid a) := of_opcode 0xf2 (by rintro _ ⟨⟩; exact fOpc_pkH ..) (by rfl)
theorem tlbiPage (a : Reg) (b : Reg) : Statement (.tlbiPage a b) := of_opcode 0xf2 (by rintro _ ⟨⟩; exact fOpc_pkH ..) (by rfl)
theorem asidctl (d : Reg) (a : Reg) (b : Reg) : Statement (.asidctl d a b) := of_opcode 0xf3 (by rintro _ ⟨⟩; exact fOpc_pkH ..) (by rfl)
theorem wdctlGet (d : Reg) : Statement (.wdctlGet d) := of_opcode 0xf5 (by rintro _ ⟨⟩; exact fOpc_pkH ..) (by rfl)
theorem wdctlSet (a : Reg) : Statement (.wdctlSet a) := of_opcode 0xf5 (by rintro _ ⟨⟩; exact fOpc_pkH ..) (by rfl)
theorem partctlSplit (d : Reg) (a : Reg) : Statement (.partctlSplit d a) := of_opcode 0xf6 (by rintro _ ⟨⟩; exact fOpc_pkH ..) (by rfl)
theorem partctlMerge (d : Reg) (a : Reg) : Statement (.partctlMerge d a) := of_opcode 0xf6 (by rintro _ ⟨⟩; exact fOpc_pkH ..) (by rfl)
theorem evpost (a : Reg) (b : Reg) : Statement (.evpost a b) := of_opcode 0xf7 (by rintro _ ⟨⟩; exact fOpc_pkH ..) (by rfl)
theorem loopc (slot : BitVec 3) (d : Reg) (a : Reg) (off : BitVec 41) : Statement (.loopc slot d a off) := of_opcode 0xfc (by rintro _ ⟨⟩; exact fOpc_pkH ..) (by rfl)
theorem vdotx (n : Bool) (d : Reg) (a : Reg) (b : Reg) (c : Reg) (m : Reg) : Statement (.vdotx n d a b c m) := of_opcode 0xfd (by rintro _ ⟨⟩; exact fOpc_pkH ..) (by rfl)
theorem tldq (ty : Ty) (d : Reg) (a : Reg) (b : Reg) (ids : EIds) : Statement (.tldq ty d a b ids) := of_opcode 0xfe (by rintro _ ⟨⟩; exact fOpc_pkH ..) (by rfl)
theorem swapw (d : Reg) (a : Reg) : Statement (.swapw d a) := of_opcode 0xff (by rintro _ ⟨⟩; exact fOpc_pkH ..) (by rfl)
theorem mctpMessage (m : Mctp) : Statement (.mctpMessage m) := of_none rfl
theorem unassignedOpcode (code : BitVec 8) (faddr : W64) (data : Bool) : Statement (.unassignedOpcode code faddr data) := of_none rfl
theorem regq : Statement (.regq) := of_none rfl
theorem unregq : Statement (.unregq) := of_none rfl
theorem unregqDrained : Statement (.unregqDrained) := of_none rfl
theorem qresume : Statement (.qresume) := of_none rfl
theorem lcancel : Statement (.lcancel) := of_none rfl
theorem tendef : Statement (.tendef) := of_none rfl
theorem asidset : Statement (.asidset) := of_none rfl
theorem tenset : Statement (.tenset) := of_none rfl
theorem tenres : Statement (.tenres) := of_none rfl
theorem nodectl : Statement (.nodectl) := of_none rfl
theorem pflush : Statement (.pflush) := of_none rfl
theorem getlog : Statement (.getlog) := of_none rfl
theorem updwrite : Statement (.updwrite) := of_none rfl
theorem updarm : Statement (.updarm) := of_none rfl
theorem updsvn : Statement (.updsvn) := of_none rfl
theorem ident : Statement (.ident) := of_none rfl
theorem queueHelperVisit : Statement (.queueHelperVisit) := of_none rfl
theorem launchAccept : Statement (.launchAccept) := of_none rfl
theorem launchPlace : Statement (.launchPlace) := of_none rfl
theorem teamBind : Statement (.teamBind) := of_none rfl
theorem launchEnd : Statement (.launchEnd) := of_none rfl
theorem releaseFlush : Statement (.releaseFlush) := of_none rfl
theorem completionEvent : Statement (.completionEvent) := of_none rfl
theorem dispatch : Statement (.dispatch) := of_none rfl
theorem stealAttempt : Statement (.stealAttempt) := of_none rfl
theorem loadLevel : Statement (.loadLevel) := of_none rfl
theorem joinDecrementApply : Statement (.joinDecrementApply) := of_none rfl
theorem arrivalApply : Statement (.arrivalApply) := of_none rfl
theorem messageArrival : Statement (.messageArrival) := of_none rfl
theorem watchdogStop : Statement (.watchdogStop) := of_none rfl
theorem gangJoin : Statement (.gangJoin) := of_none rfl
theorem allocReply : Statement (.allocReply) := of_none rfl
theorem partctlReply : Statement (.partctlReply) := of_none rfl
theorem switchTick : Statement (.switchTick) := of_none rfl
theorem dieQuiet : Statement (.dieQuiet) := of_none rfl
theorem tenantSave : Statement (.tenantSave) := of_none rfl
theorem tenantRestore : Statement (.tenantRestore) := of_none rfl
theorem lateSwitch : Statement (.lateSwitch) := of_none rfl
theorem graceStop : Statement (.graceStop) := of_none rfl
theorem deviceReset : Statement (.deviceReset) := of_none rfl
theorem boot : Statement (.boot) := of_none rfl
theorem nop : Statement (.nop) := of_opcode 0x01 (by rintro _ ⟨⟩; exact fOpc_pkH ..) (by rfl)
theorem done : Statement (.done) := of_opcode 0xe9 (by rintro _ ⟨⟩; exact fOpc_pkH ..) (by rfl)
theorem tret : Statement (.tret) := of_opcode 0xf1 (by rintro _ ⟨⟩; exact fOpc_pkH ..) (by rfl)
theorem tlbiAll : Statement (.tlbiAll) := of_opcode 0xf2 (by rintro _ ⟨⟩; exact fOpc_pkH ..) (by rfl)
theorem isync : Statement (.isync) := of_opcode 0xf4 (by rintro _ ⟨⟩; exact fOpc_pkH ..) (by rfl)
theorem halt : Statement (.halt) := of_opcode 0xf8 (by rintro _ ⟨⟩; exact fOpc_pkH ..) (by rfl)
theorem pendingRegisterWriteLands : Statement (.pendingRegisterWriteLands) := of_none rfl
theorem watchdogDrainAbandoned : Statement (.watchdogDrainAbandoned) := of_none rfl

end Sys2Proof.Laws.Stream

theorem Sys2Proof.Laws.Stream.seal (a : Sys2Proof.Reg) (sp : Sys2Proof.Space) : Sys2Proof.Laws.Stream.Statement (.seal a sp) :=
  of_opcode 0x75 (by rintro _ ⟨⟩; exact fOpc_pkH ..) (by rfl)
end

