-- ==== Sys2Proof/Laws/Vectors.lean ====
section
/-!
SUPPORT. What the shared shapes of the scalar and vector instructions do: reading and writing vectors and masks whose
words can be used at once, and one lemma for each shape of instruction.
-/
namespace Sys2Proof.Machine

/-! ## Lane by lane -/

theorem forM_cons_run {α : Type} (f : α → M Unit) (x : α) (l : List α) (s : State) :
    (x :: l).forM f s = (f x >>= fun _ => l.forM f) s := rfl
/-- An action that does `g` in each of some lanes, in a state that satisfies an invariant of it. -/
theorem forM_lanes {m : Nat} {f : Nat → M Unit} {g : State → Nat → State} {P : State → Prop}
    (h : ∀ s l, P s → l < 16 → laneOn m l = true → f l s = .ok ⟨⟩ (g s l) ∧ P (g s l)) (l : List Nat) (hl : ∀ x ∈ l, x < 16)
    (s : State) (hp : P s) :
    (l.forM fun l => if laneOn m l then f l else pure ()) s =
      .ok ⟨⟩ (l.foldl (fun s l => if laneOn m l then g s l else s) s) := by
  induction l generalizing s with
  | nil => rfl
  | cons x l ih =>
    rw [forM_cons_run]
    by_cases hx : laneOn m x = true
    · have := h s x hp (hl x (by simp)) hx
      simp only [hx, if_true, List.foldl_cons]
      rw [M_bind_ok this.1]
      exact ih (fun y hy => hl y (by simp [hy])) _ this.2
    · simp only [hx, Bool.false_eq_true, if_false, List.foldl_cons]
      rw [M_bind_ok (M_pure s _)]
      exact ih (fun y hy => hl y (by simp [hy])) s hp
/-- Reading some lanes, each of which leaves what the values come from. -/
theorem mapM_lanes {m : Nat} {f : Nat → M W64} {v : Nat → W64} {g : State → Nat → State} {P : State → Prop}
    (h : ∀ s l, P s → l < 16 → laneOn m l = true → f l s = .ok (v l) (g s l) ∧ P (g s l)) (l : List Nat) (hl : ∀ x ∈ l, x < 16)
    (s : State) (hp : P s) :
    (l.mapM fun l => if laneOn m l then f l else pure 0) s =
      .ok (l.map fun l => if laneOn m l then v l else 0) (l.foldl (fun s l => if laneOn m l then g s l else s) s) := by
  induction l generalizing s with
  | nil => rfl
  | cons x l ih =>
    rw [List.mapM_cons]
    by_cases hx : laneOn m x = true
    · have := h s x hp (hl x (by simp)) hx
      simp only [hx, if_true, List.foldl_cons, List.map_cons]
      rw [M_bind_ok this.1, M_bind_ok (ih (fun y hy => hl y (by simp [hy])) _ this.2)]; rfl
    · simp only [hx, Bool.false_eq_true, if_false, List.foldl_cons, List.map_cons]
      rw [M_bind_ok (M_pure s _), M_bind_ok (ih (fun y hy => hl y (by simp [hy])) s hp)]; rfl
/-- What every lane's step keeps, all lanes keep. -/
theorem eachLane_keeps {m : Nat} {g : State → Nat → State} {P : State → Prop} (h : ∀ s l, P s → P (g s l)) {s : State}
    (hp : P s) : P (eachLane m g s) := by
  unfold eachLane
  generalize List.range 16 = l
  induction l generalizing s with
  | nil => exact hp
  | cons x l ih =>
    simp only [List.foldl_cons]
    split
    · exact ih (h s x hp)
    · exact ih hp

/-! ## Reading -/

/-- Words of a vector field that can be used at once. -/
theorem vecHeld_some {k : Core} {r : Reg} {m : Nat} (h : k.vecHeld r m = true) :
    r.toNat < 248 ∧ 16 * r.toNat + 15 < k.wlim.toNat ∧
    ∀ l < 16, laneOn m l = true → k.holds (k.wbase.toNat + 16 * r.toNat + l) = true := by
  simp only [Core.vecHeld, Bool.and_eq_true, decide_eq_true_eq, List.all_eq_true, List.mem_range, Bool.or_eq_true,
    Bool.not_eq_true'] at h
  refine ⟨h.1.1, h.1.2, fun l hl hm => ?_⟩
  rcases h.2 l hl with h' | h'
  · rw [hm] at h'; cases h'
  · exact h'
theorem readMask_ok {s t : State} {c m : Nat} {r : Reg} (ha : s.actor = c) (h : s.maskOf c r = some (m, t)) :
    readMask r s = .ok m t := by
  unfold State.maskOf at h
  unfold readMask
  by_cases hr : (r == 0xfff) = true
  · simp only [hr, if_true, Option.some.injEq, Prod.mk.injEq] at h ⊢; obtain ⟨rfl, rfl⟩ := h; rfl
  · simp only [hr, Bool.false_eq_true, if_false, Option.map_eq_some_iff, Prod.mk.injEq] at h ⊢
    obtain ⟨i, hi, rfl, rfl⟩ := h
    unfold Core.winWord at hi
    dsimp only at hi
    split at hi
    · rename_i hw
      simp only [Option.some.injEq] at hi; subst hi
      simp only [Bool.and_eq_true, decide_eq_true_eq] at hw
      rw [M_bind_ok (M_myCore s), ha, M_bind_ok (readAbs_holds ha hw.2)]; rfl
    · simp at hi
theorem mask_like {s t : State} {c d m : Nat} {r : Reg} (h : s.maskOf c r = some (m, t)) :
    Like d s t ∧ t.core d = s.core d := by
  unfold State.maskOf at h
  split at h
  · simp only [Option.some.injEq, Prod.mk.injEq] at h; obtain ⟨_, rfl⟩ := h; exact ⟨.refl .., rfl⟩
  · simp only [Option.map_eq_some_iff, Prod.mk.injEq] at h
    obtain ⟨_, _, _, rfl⟩ := h; exact ⟨.loads .., rfl⟩
theorem lanes_like {s t : State} {c d m : Nat} {r : Reg} {x : List W64} (h : s.lanes c r m = some (x, t)) :
    Like d s t ∧ t.core d = s.core d := by
  unfold State.lanes at h
  dsimp only at h
  split at h
  · simp only [Option.some.injEq, Prod.mk.injEq] at h; obtain ⟨_, rfl⟩ := h; exact ⟨.refl .., rfl⟩
  · split at h
    · simp only [Option.some.injEq, Prod.mk.injEq] at h; obtain ⟨_, rfl⟩ := h; exact ⟨.refl .., rfl⟩
    · split at h
      · simp only [Option.some.injEq, Prod.mk.injEq] at h; obtain ⟨_, rfl⟩ := h
        refine eachLane_keeps (P := fun u => Like d s u ∧ u.core d = s.core d) (fun u l hu => ?_) ⟨.refl .., rfl⟩
        exact ⟨hu.1.trans (.loads ..), hu.2⟩
      · cases h
theorem readLane_held {s : State} {c l m : Nat} {r : Reg} (ha : s.actor = c) (h : (s.core c).vecHeld r m = true)
    (hl : l < 16) (hm : laneOn m l = true) :
    readLane r l s = .ok ((s.core c).word ((s.core c).wbase.toNat + 16 * r.toNat + l))
      (s.readAt c ((s.core c).wbase.toNat + 16 * r.toNat + l)) := by
  obtain ⟨h1, h2, h3⟩ := vecHeld_some h
  unfold readLane
  have h8 : (r == 0xff8) = false := by
    cases he : r == 0xff8
    · rfl
    · simp only [beq_iff_eq] at he; subst he; simp at h1
  simp only [h8, Bool.false_eq_true, if_false]
  rw [if_neg (by omega), M_bind_ok (M_myCore s), ha, readAbs_holds ha (h3 l hl hm)]
theorem mapM_held {s : State} {c m : Nat} {r : Reg} (ha : s.actor = c) (h : (s.core c).vecHeld r m = true) :
    ((List.range 16).mapM fun l => if laneOn m l then readLane r l else pure 0) s =
      .ok ((List.range 16).map fun l => if laneOn m l then (s.core c).word ((s.core c).wbase.toNat + 16 * r.toNat + l) else 0)
        (eachLane m (fun u l => u.readAt c ((s.core c).wbase.toNat + 16 * r.toNat + l)) s) :=
  mapM_lanes (P := fun u => u.actor = c ∧ u.core c = s.core c) (v := fun l => (s.core c).word ((s.core c).wbase.toNat + 16 * r.toNat + l))
    (g := fun u l => u.readAt c ((s.core c).wbase.toNat + 16 * r.toNat + l))
    (fun u l hu hl hm => by
      have := readLane_held (s := u) hu.1 (by rw [hu.2]; exact h) hl hm
      rw [hu.2] at this
      exact ⟨this, hu.1, hu.2⟩) (List.range 16) (fun x hx => by simpa using hx) s ⟨ha, rfl⟩
/-- Reading the enabled lanes of a vector. -/
theorem readVM_ok {s t : State} {c m : Nat} {r : Reg} {x : List W64} (ha : s.actor = c) (h : s.lanes c r m = some (x, t)) :
    readVM r m s = .ok x t := by
  unfold State.lanes at h
  dsimp only at h
  unfold readVM
  have pureAll : ∀ (v : Nat → W64) (f : Nat → M W64), (∀ l < 16, ∀ s, f l s = .ok (v l) s) →
      ((List.range 16).mapM fun l => if laneOn m l then f l else pure 0) s =
        .ok ((List.range 16).map fun l => if laneOn m l then v l else 0) s := by
    intro v f hf
    have := mapM_lanes (m := m) (P := fun _ => True) (v := v) (g := fun u _ => u) (f := f)
      (fun u l _ hl _ => ⟨hf l hl u, trivial⟩) (List.range 16) (fun x hx => by simpa using hx) s trivial
    rw [this]; congr 1
    generalize List.range 16 = l
    induction l <;> simp_all
  by_cases h8 : (r == 0xff8) = true
  · simp only [h8, if_true, Option.some.injEq, Prod.mk.injEq] at h
    obtain ⟨rfl, rfl⟩ := h
    have : r = 0xff8 := by simpa using h8
    subst this
    exact pureAll w64 _ (fun l _ u => rfl)
  · simp only [h8, Bool.false_eq_true, if_false] at h
    by_cases hf : (r == 0xfff) = true
    · simp only [hf, if_true, Option.some.injEq, Prod.mk.injEq] at h
      obtain ⟨rfl, rfl⟩ := h
      have : r = 0xfff := by simpa using hf
      subst this
      rw [pureAll (fun _ => 0) (readLane 0xfff) (fun l _ u => rfl)]
      congr 1
      simp [List.map_const']
    · simp only [hf, Bool.false_eq_true, if_false] at h
      split at h
      · rename_i hv
        simp only [Option.some.injEq, Prod.mk.injEq] at h
        obtain ⟨rfl, rfl⟩ := h
        exact mapM_held ha hv
      · cases h
/-- Reading a vector whole. -/
theorem readV_ok {s t : State} {c : Nat} {r : Reg} {x : List W64} (ha : s.actor = c) (h : s.lanes c r 0xffff = some (x, t)) :
    readV r s = .ok x t := by
  have hall : ∀ l < 16, laneOn 0xffff l = true := by decide
  have hrm := readVM_ok ha h
  unfold State.lanes at h
  dsimp only at h
  unfold readV
  by_cases h8 : (r == 0xff8) = true
  · simp only [h8, if_true, Option.some.injEq, Prod.mk.injEq] at h ⊢; obtain ⟨rfl, rfl⟩ := h
    show EStateM.Result.ok _ s = _
    congr 1
  · simp only [h8, Bool.false_eq_true, if_false] at h ⊢
    by_cases hf : (r == 0xfff) = true
    · simp only [hf, if_true, Option.some.injEq, Prod.mk.injEq] at h; obtain ⟨rfl, rfl⟩ := h
      have : r = 0xfff := by simpa using hf
      subst this; rfl
    · simp only [hf, Bool.false_eq_true, if_false] at h
      split at h
      · rename_i hv
        simp only [Option.some.injEq, Prod.mk.injEq] at h
        obtain ⟨rfl, rfl⟩ := h
        obtain ⟨h1, h2, h3⟩ := vecHeld_some hv
        rw [if_neg (by omega), M_bind_ok (M_myCore s), ha]
        have := mapM_lanes (m := 0xffff) (P := fun u => u.actor = c ∧ u.core c = s.core c)
          (v := fun l => (s.core c).word ((s.core c).wbase.toNat + 16 * r.toNat + l))
          (g := fun u l => u.readAt c ((s.core c).wbase.toNat + 16 * r.toNat + l))
          (f := fun l => readAbs ((s.core c).wbase.toNat + 16 * r.toNat + l))
          (fun u l hu hl hm => by
            have := readAbs_holds (s := u) hu.1 (by rw [hu.2]; exact h3 l hl hm)
            rw [hu.2] at this
            exact ⟨this, hu.1, hu.2⟩) (List.range 16) (fun x hx => by simpa using hx) s ⟨ha, rfl⟩
        exact this
      · cases h

/-! ## Writing -/

@[simp] theorem putWord_task (k : Core) (i : Nat) (v : W64) : (k.putWord i v).task = k.task := by
  unfold Core.putWord; split
  · rfl
  · split <;> rfl
@[simp] theorem putWord_pend (k : Core) (i : Nat) (v : W64) : (k.putWord i v).pend = k.pend := by
  unfold Core.putWord; split
  · rfl
  · split <;> rfl
@[simp] theorem putWord_isFw (k : Core) (i : Nat) (v : W64) : (k.putWord i v).isFw = k.isFw := by
  simp only [Core.isFw, putWord_task]
theorem find?_tput {α : Type} (t : Tbl α) (i j : Nat) (x : α) :
    (tput t i x).find? (fun e => e.1 == j) = if i = j then some (i, x) else t.find? (fun e => e.1 == j) := by
  induction t with
  | nil => by_cases h : i = j <;> simp [tput, h]
  | cons e t ih =>
    obtain ⟨k, v⟩ := e
    unfold tput
    by_cases h1 : i < k
    · rw [if_pos h1]; by_cases h : i = j <;> simp [h]
    · by_cases h2 : i = k
      · subst h2
        by_cases h : i = j <;> simp [h]
      · simp only [h1, h2, if_false, List.find?_cons, ih]
        by_cases h : i = j
        · subst h
          have : (k == i) = false := by simpa using fun e => h2 e.symm
          simp [this]
        · simp [h]
theorem rsLine?_putWord (k : Core) (i j : Nat) (v : W64) :
    ((k.putWord i v).rsLine? j).isSome = (k.rsLine? j).isSome := by
  unfold Core.putWord
  split
  · rfl
  · split
    · rename_i l hl
      simp only [Core.rsLine?, find?_tput]
      by_cases h : i / 8 = j / 8
      · simp only [Core.rsLine?, h] at hl
        simp [h, hl]
      · simp [h]
    · rfl
@[simp] theorem holds_putWord (k : Core) (i j : Nat) (v : W64) : (k.putWord i v).holds j = k.holds j := by
  simp only [Core.holds, Core.pending, putWord_pend, putWord_isFw, rsLine?_putWord]

theorem vecHeld_putWord (k : Core) (i : Nat) (v : W64) (r : Reg) (m : Nat) : (k.putWord i v).vecHeld r m = k.vecHeld r m := by
  have : (k.putWord i v).holds = k.holds := funext fun j => holds_putWord ..
  simp only [Core.vecHeld, putWord_wbase, putWord_wlim, this]
theorem writeLane_ok {s : State} {c l m : Nat} {r : Reg} {v : W64} (hc : s.cur = .core c) (hd : (s.core c).dq = [])
    (h : (s.core c).vecHeld r m = true) (hl : l < 16) (hm : laneOn m l = true) :
    writeLane r l v s = .ok ⟨⟩ (s.putAt c ((s.core c).wbase.toNat + 16 * r.toNat + l) v) := by
  obtain ⟨h1, h2, h3⟩ := vecHeld_some h
  unfold writeLane
  rw [if_neg (by omega), M_bind_ok (M_myCore s), actor_core hc]
  exact writeAbs_holds hc hd (h3 l hl hm) v
/-- Writing the enabled lanes of a vector that can be given. -/
theorem writeV_ok {s t : State} {c m : Nat} {r : Reg} {f : Nat → W64} (hc : s.cur = .core c) (hd : (s.core c).dq = [])
    (h : s.giveLanes c r m f = some t) : writeV r m f s = .ok ⟨⟩ t := by
  unfold State.giveLanes at h
  dsimp only at h
  unfold writeV forLanes
  by_cases hf : (r == 0xfff) = true
  · simp only [hf, if_true, Option.some.injEq] at h; subst h
    have : r = 0xfff := by simpa using hf
    subst this
    have := forM_lanes (m := m) (P := fun _ => True) (g := fun u _ => u) (f := fun l => writeLane 0xfff l (f l))
      (fun u l _ hl _ => ⟨rfl, trivial⟩) (List.range 16) (fun x hx => by simpa using hx) s trivial
    rw [this]; congr 1
    generalize List.range 16 = l
    induction l <;> simp_all
  · simp only [hf, Bool.false_eq_true, if_false] at h
    split at h
    · rename_i hv
      simp only [Option.some.injEq] at h; subst h
      exact forM_lanes (m := m)
        (P := fun u => u.cur = .core c ∧ (u.core c).dq = [] ∧ (u.core c).wbase = (s.core c).wbase ∧ (u.core c).vecHeld r m = true)
        (g := fun u l => u.putAt c ((s.core c).wbase.toNat + 16 * r.toNat + l) (f l))
        (fun u l hu hl hm => by
          have := writeLane_ok (v := f l) hu.1 hu.2.1 hu.2.2.2 hl hm
          rw [hu.2.2.1] at this
          refine ⟨this, hu.1, by simpa using hu.2.1, by simpa using hu.2.2.1, ?_⟩
          rw [core_putAt_same, vecHeld_putWord]; exact hu.2.2.2)
        (List.range 16) (fun x hx => by simpa using hx) s ⟨hc, hd, rfl, hv⟩
    · cases h
theorem giveLanes_like {s t : State} {c d m : Nat} {r : Reg} {f : Nat → W64} (h : s.giveLanes c r m f = some t) :
    Like d s t := by
  unfold State.giveLanes at h
  dsimp only at h
  split at h
  · simp only [Option.some.injEq] at h; subst h; exact .refl ..
  · split at h
    · simp only [Option.some.injEq] at h; subst h
      exact eachLane_keeps (P := fun u => Like d s u) (fun u l hu => hu.trans (.putAt ..)) (.refl ..)
    · cases h

/-! ## Fields that pass their checks -/

theorem mask_good {s t : State} {c m p : Nat} {r : Reg} {d : Bool} (hc : s.cur = .core c) (h : s.maskOf c r = some (m, t)) :
    Fld.good s d (s.core c).wlim.toNat (.mask p r) = true := by
  unfold State.maskOf at h
  simp only [Fld.good, Fld.kindOk, Fld.inWindow, hc]
  by_cases hr : (r == 0xfff) = true
  · simp only [beq_iff_eq] at hr; subst hr; simp
  · simp only [hr, Bool.false_eq_true, if_false, Option.map_eq_some_iff] at h
    obtain ⟨i, hi, -⟩ := h
    unfold Core.winWord at hi
    dsimp only at hi
    split at hi
    · rename_i hw
      simp only [Bool.and_eq_true, decide_eq_true_eq] at hw
      simp [hw.1.1, hw.1.2]
    · simp at hi
theorem lanes_good {s t : State} {c p m : Nat} {r : Reg} {d : Bool} {x : List W64} (hc : s.cur = .core c)
    (h : s.lanes c r m = some (x, t)) : Fld.good s d (s.core c).wlim.toNat (.vs p r) = true := by
  unfold State.lanes at h
  dsimp only at h
  simp only [Fld.good, Fld.kindOk, Fld.inWindow, hc]
  by_cases h8 : (r == 0xff8) = true
  · simp only [beq_iff_eq] at h8; subst h8; simp
  · by_cases hr : (r == 0xfff) = true
    · simp only [beq_iff_eq] at hr; subst hr; simp
    · simp only [h8, hr, Bool.false_eq_true, if_false] at h
      split at h
      · rename_i hv
        obtain ⟨h1, h2, -⟩ := vecHeld_some hv
        simp [h1, h2]; omega
      · cases h
theorem giveLanes_good {s t : State} {c m : Nat} {r : Reg} {d : Bool} {f : Nat → W64} (hc : s.cur = .core c)
    (h : s.giveLanes c r m f = some t) : Fld.good s d (s.core c).wlim.toNat (.vd r) = true := by
  unfold State.giveLanes at h
  dsimp only at h
  simp only [Fld.good, Fld.kindOk, Fld.inWindow, hc]
  by_cases hr : (r == 0xfff) = true
  · simp only [beq_iff_eq] at hr; subst hr; simp
  · simp only [hr, Bool.false_eq_true, if_false] at h
    split at h
    · rename_i hv
      obtain ⟨h1, h2, -⟩ := vecHeld_some hv
      simp [h1, h2]; omega
    · cases h

end Sys2Proof.Machine
end

