-- ==== Sys2Proof/Laws/Shapes.lean ====
section
/-!
SUPPORT. One lemma for each shape of scalar and vector instruction: what it answers at a core's next slot when its
operands can be used at once.
-/
namespace Sys2Proof.Machine

/-- The instruction asks for nothing but its operands, and leaves the streams' accesses unordered. -/
def Instr.open_ (i : Instr) : Prop :=
  needFeat i = none ∧ isPriv i = false ∧ isFwOnly i = false ∧ isPlain i = true ∧ i ≠ .nop
theorem Instr.open_.ordered {i : Instr} (h : Instr.open_ i) (s : State) (c : Nat) : s.ordered c i = s :=
  ordered_plain h.2.2.2.1 h.2.2.2.2 s c

theorem checks_open {i : Instr} {fs : List Fld} {s : State} {c : Nat} (hc : s.cur = .core c) (ho : Instr.open_ i)
    (hg : fs.all (Fld.good s (isData i) (s.core c).wlim.toNat) = true) : checks i fs s = .ok ⟨⟩ s :=
  checks_ok hc (by intro b h; rw [ho.1] at h; cases h) (by intro h; rw [ho.2.1] at h; cases h)
    (by intro h; rw [ho.2.2.1] at h; cases h) hg

/-- An instruction that falls through, its operands good and its body ending in `t`. -/
theorem perform_fall {i : Instr} {fs : List Fld} {body : M Flow} {s t : State} {c : Nat} (hs : s.atSlot c = true)
    (ho : Instr.open_ i) (hg : fs.all (Fld.good s (isData i) (s.core c).wlim.toNat) = true)
    (hb : body s = .ok .fall t) (ht : (t.core c).dq = []) :
    perform i fs body s = .next (t.goes c (nextPc (s.core c).pc)) := by
  rw [perform_ok hs (checks_open (atSlot_cur hs) ho hg) hb ht, ho.ordered]
theorem perform_goto {i : Instr} {fs : List Fld} {body : M Flow} {s t : State} {c : Nat} {p : W64} (hs : s.atSlot c = true)
    (ho : Instr.open_ i) (hg : fs.all (Fld.good s (isData i) (s.core c).wlim.toNat) = true)
    (hb : body s = .ok (.goto p) t) (ht : (t.core c).dq = []) :
    perform i fs body s = .next (t.goes c p) := by
  rw [perform_ok hs (checks_open (atSlot_cur hs) ho hg) hb ht, ho.ordered]

theorem put_ok {s t : State} {c : Nat} {data : Bool} {r : Reg} {v : W64} (hc : s.cur = .core c)
    (hd : (s.core c).dq = []) (h : s.give c data r v = some t) : put r v s = .ok .fall t := by
  unfold put; rw [M_bind_ok (writeW_give hc hd h)]; rfl

@[simp] theorem markRaised_none (s : State) : s.markRaised none = s := rfl
/-- A scalar instruction that traps: none of its effects happens. -/
theorem perform_trap {i : Instr} {fs : List Fld} {body : M Flow} {s s1 : State} {c : Nat} {f : TrapInfo}
    (hs : s.atSlot c = true) (hdata : isData i = false) (ho : Instr.open_ i)
    (hg : fs.all (Fld.good s (isData i) (s.core c).wlim.toNat) = true)
    (hb : body s = .error (.trap f) s1) (hf : f.lane = none ∧ f.micro = false ∧ f.unit = none) :
    perform i fs body s = .next (s.deliver c (s.core c).pc false f (s.core c).seq) := by
  have hd := atSlot_dq hs
  unfold perform
  simp only [atSlot_cur hs]
  congr 1
  unfold coreRun
  have hr : ((do checks i fs; body : M Flow).run s) = .error (.trap f) s1 := by
    show (checks i fs >>= fun _ => body) s = _
    rw [M_bind_ok (checks_open (atSlot_cur hs) ho hg)]; exact hb
  simp only [atSlot_task hs, atSlot_stopAt hs, atSlot_ending hs, atSlot_lag hs, hd, List.isEmpty_nil, Bool.not_true,
    Bool.or_self, Bool.and_false, Option.isSome_none, if_false, hr, Bool.false_eq_true, hdata]
  simp [stopCore, hd, hf.1, hf.2.1, hf.2.2, Core.deferred]

section Words
variable {i : Instr} {s s1 s2 s3 s4 s5 : State} {c p p' p'' : Nat} {d a b e : Reg} {x y z w v : W64}

/-- Whether a read at a later point tells that the field passes its check at the start. -/
theorem take_good' {data : Bool} (hc : s.cur = .core c) (hl : Like c s s1) (h : s1.take c data a = some (x, s2)) :
    Fld.good s data (s.core c).wlim.toNat (.ws p a) = true := by
  rw [← good_like hc hl]; exact take_good (hl.cur.trans hc) h
theorem give_good' {data : Bool} (hc : s.cur = .core c) (hl : Like c s s1) (h : s1.give c data d v = some s2) :
    Fld.good s data (s.core c).wlim.toNat (.wd d) = true := by
  rw [← good_like hc hl]; exact give_good (hl.cur.trans hc) h

theorem binary_ok (f : W64 → W64 → W64) (hs : s.atSlot c = true) (ho : Instr.open_ i) (hdata : isData i = false)
    (ha : s.take c false a = some (x, s1)) (hb : s1.take c false b = some (y, s2))
    (hd : s2.give c false d (f x y) = some s3) :
    binary i d a b f s = .next (s3.goes c (nextPc (s.core c).pc)) := by
  have hc := atSlot_cur hs; have hq := atSlot_dq hs
  have l1 := take_like (d := c) ha
  have l2 := l1.trans (take_like hb)
  have l3 := l2.trans (give_like hd)
  unfold binary
  refine perform_fall hs ho ?_ ?_ (l3.dq.trans hq)
  · rw [hdata]
    simp only [List.all_cons, List.all_nil, Bool.and_true, Bool.and_eq_true]
    exact ⟨give_good' hc l2 hd, take_good hc ha, take_good' hc l1 hb⟩
  · rw [M_bind_ok (readW_take hc hq ha), M_bind_ok (readW_take (l1.cur.trans hc) (l1.dq.trans hq) hb),
      put_ok (l2.cur.trans hc) (l2.dq.trans hq) hd]
theorem unary_ok (f : W64 → W64) (hs : s.atSlot c = true) (ho : Instr.open_ i) (hdata : isData i = false)
    (ha : s.take c false a = some (x, s1)) (hd : s1.give c false d (f x) = some s2) :
    unary i d a f s = .next (s2.goes c (nextPc (s.core c).pc)) := by
  have hc := atSlot_cur hs; have hq := atSlot_dq hs
  have l1 := take_like (d := c) ha
  have l2 := l1.trans (give_like hd)
  unfold unary
  refine perform_fall hs ho ?_ ?_ (l2.dq.trans hq)
  · rw [hdata]
    simp only [List.all_cons, List.all_nil, Bool.and_true, Bool.and_eq_true]
    exact ⟨give_good' hc l1 hd, take_good hc ha⟩
  · rw [M_bind_ok (readW_take hc hq ha), put_ok (l1.cur.trans hc) (l1.dq.trans hq) hd]
/-- Three sources and a destination. -/
theorem ternary_ok (f : W64 → W64 → W64 → W64) (hs : s.atSlot c = true) (ho : Instr.open_ i) (hdata : isData i = false)
    (ha : s.take c false a = some (x, s1)) (hb : s1.take c false b = some (y, s2))
    (he : s2.take c false e = some (z, s3)) (hd : s3.give c false d (f x y z) = some s4) :
    perform i [.wd d, .ws p a, .ws p' b, .ws p'' e] (do
      let x ← readW a
      let y ← readW b
      let z ← readW e
      put d (f x y z)) s = .next (s4.goes c (nextPc (s.core c).pc)) := by
  have hc := atSlot_cur hs; have hq := atSlot_dq hs
  have l1 := take_like (d := c) ha
  have l2 := l1.trans (take_like hb)
  have l3 := l2.trans (take_like he)
  have l4 := l3.trans (give_like hd)
  refine perform_fall hs ho ?_ ?_ (l4.dq.trans hq)
  · rw [hdata]
    simp only [List.all_cons, List.all_nil, Bool.and_true, Bool.and_eq_true]
    exact ⟨give_good' hc l3 hd, take_good hc ha, take_good' hc l1 hb, take_good' hc l2 he⟩
  · rw [M_bind_ok (readW_take hc hq ha), M_bind_ok (readW_take (l1.cur.trans hc) (l1.dq.trans hq) hb),
      M_bind_ok (readW_take (l2.cur.trans hc) (l2.dq.trans hq) he),
      put_ok (l3.cur.trans hc) (l3.dq.trans hq) hd]
/-- A destination alone. -/
theorem nullary_ok (hs : s.atSlot c = true) (ho : Instr.open_ i) (hdata : isData i = false)
    (hd : s.give c false d v = some s1) :
    perform i [.wd d] (put d v) s = .next (s1.goes c (nextPc (s.core c).pc)) := by
  have hc := atSlot_cur hs; have hq := atSlot_dq hs
  refine perform_fall hs ho ?_ (put_ok hc hq hd) ((give_like hd).dq.trans hq)
  rw [hdata]
  simp only [List.all_cons, List.all_nil, Bool.and_true]
  exact give_good hc hd
end Words

/-- Sticky flags set (02 R50). -/
theorem raiseFlags_ok {s : State} {c : Nat} (ha : s.actor = c) (fl : Nat) :
    raiseFlags fl s = .ok ⟨⟩ (s.setCore c { s.core c with fcsr := (s.core c).fcsr ||| w64 (fl % 32) }) := by
  unfold raiseFlags; rw [M_modMe, ha]
/-- The flags of the enabled lanes. -/
def laneFlags (m : Nat) (f : Nat → W64 × Nat) : Nat :=
  (List.range 16).foldl (fun acc l => if laneOn m l then Nat.lor acc (f l).2 else acc) 0
theorem writeVF_ok {s t : State} {c m : Nat} {r : Reg} {f : Nat → W64 × Nat} (hc : s.cur = .core c)
    (hd : (s.core c).dq = []) (h : s.giveLanes c r m (fun l => (f l).1) = some t) :
    writeVF r m f s = .ok ⟨⟩ (t.setCore c { t.core c with fcsr := (t.core c).fcsr ||| w64 (laneFlags m f % 32) }) := by
  unfold writeVF
  rw [M_bind_ok (writeV_ok hc hd h), raiseFlags_ok (actor_core ((giveLanes_like (d := c) h).cur.trans hc))]; rfl

section Vectors
variable {i : Instr} {s s1 s2 s3 s4 s5 : State} {c m n : Nat} {d a b e mr : Reg} {x y z : List W64} {w v : W64}

theorem mask_good' {p : Nat} {dt : Bool} (hc : s.cur = .core c) (hl : Like c s s1) (h : s1.maskOf c mr = some (m, s2)) :
    Fld.good s dt (s.core c).wlim.toNat (.mask p mr) = true := by
  rw [← good_like hc hl]; exact mask_good (hl.cur.trans hc) h
theorem lanes_good' {p : Nat} {dt : Bool} (hc : s.cur = .core c) (hl : Like c s s1) (h : s1.lanes c a m = some (x, s2)) :
    Fld.good s dt (s.core c).wlim.toNat (.vs p a) = true := by
  rw [← good_like hc hl]; exact lanes_good (hl.cur.trans hc) h
/-- A vector field read whole passes its checks where a vector field does. -/
theorem good_vw (p : Nat) (dt : Bool) (w : Nat) (r : Reg) : Fld.good s dt w (.vw p r) = Fld.good s dt w (.vs p r) := rfl
theorem giveLanes_good' {dt : Bool} {f : Nat → W64} (hc : s.cur = .core c) (hl : Like c s s1)
    (h : s1.giveLanes c d m f = some s2) : Fld.good s dt (s.core c).wlim.toNat (.vd d) = true := by
  rw [← good_like hc hl]; exact giveLanes_good (hl.cur.trans hc) h
/-- The core that reads vectors stays as it is. -/
theorem like_actor (hc : s.cur = .core c) (hl : Like c s s1) : s1.actor = c := actor_core (hl.cur.trans hc)

/-- Two vectors under a mask. -/
theorem vec2_ok {f : List W64 → List W64 → Nat → W64} (hs : s.atSlot c = true) (ho : Instr.open_ i)
    (hm : s.maskOf c mr = some (m, s1)) (ha : s1.lanes c a m = some (x, s2)) (hb : s2.lanes c b m = some (y, s3))
    (hd : s3.giveLanes c d m (f x y) = some s4) :
    perform i [.vd d, .vs 54 a, .vs 42 b, .mask 18 mr] (do
      let mk ← readMask mr
      let x ← readVM a mk
      let y ← readVM b mk
      writeV d mk (f x y)
      return .fall) s = .next (s4.goes c (nextPc (s.core c).pc)) := by
  have hc := atSlot_cur hs; have hq := atSlot_dq hs
  have l1 := (mask_like (d := c) hm).1
  have l2 := l1.trans (lanes_like ha).1
  have l3 := l2.trans (lanes_like hb).1
  have l4 := l3.trans (giveLanes_like hd)
  refine perform_fall hs ho ?_ ?_ (l4.dq.trans hq)
  · simp only [List.all_cons, List.all_nil, Bool.and_true, Bool.and_eq_true]
    exact ⟨giveLanes_good' hc l3 hd, lanes_good' hc l1 ha, lanes_good' hc l2 hb, mask_good hc hm⟩
  · rw [M_bind_ok (readMask_ok (actor_core hc) hm), M_bind_ok (readVM_ok (like_actor hc l1) ha),
      M_bind_ok (readVM_ok (like_actor hc l2) hb), M_bind_ok (writeV_ok (l3.cur.trans hc) (l3.dq.trans hq) hd)]
    rfl
theorem vecInt2_ok {f : Nat → Nat → Nat} (hs : s.atSlot c = true) (ho : Instr.open_ i)
    (hm : s.maskOf c mr = some (m, s1)) (ha : s1.lanes c a m = some (x, s2)) (hb : s2.lanes c b m = some (y, s3))
    (hd : s3.giveLanes c d m (fun l => (mapElems n fun j =>
      (f (elemOf n j (laneAt x l)) (elemOf n j (laneAt y l)), 0)).1) = some s4) :
    vecInt2 i n d a b mr f s = .next (s4.goes c (nextPc (s.core c).pc)) :=
  vec2_ok (f := fun x y l => (mapElems n fun j => (f (elemOf n j (laneAt x l)) (elemOf n j (laneAt y l)), 0)).1) hs ho hm ha hb hd
/-- Two vectors read whole. -/
theorem vecPerm_ok {f : List W64 → List W64 → Nat → W64} (hs : s.atSlot c = true) (ho : Instr.open_ i)
    (ha : s.lanes c a 0xffff = some (x, s1)) (hb : s1.lanes c b 0xffff = some (y, s2)) (hm : s2.maskOf c mr = some (m, s3))
    (hd : s3.giveLanes c d m (f x y) = some s4) :
    vecPerm i d a b mr f s = .next (s4.goes c (nextPc (s.core c).pc)) := by
  have hc := atSlot_cur hs; have hq := atSlot_dq hs
  have l1 := (lanes_like (d := c) ha).1
  have l2 := l1.trans (lanes_like hb).1
  have l3 := l2.trans (mask_like hm).1
  have l4 := l3.trans (giveLanes_like hd)
  unfold vecPerm
  refine perform_fall hs ho ?_ ?_ (l4.dq.trans hq)
  · simp only [List.all_cons, List.all_nil, Bool.and_true, Bool.and_eq_true, good_vw]
    exact ⟨giveLanes_good' hc l3 hd, lanes_good hc ha, lanes_good' hc l1 hb, mask_good' hc l2 hm⟩
  · rw [M_bind_ok (readV_ok (actor_core hc) ha), M_bind_ok (readV_ok (like_actor hc l1) hb),
      M_bind_ok (readMask_ok (like_actor hc l2) hm), M_bind_ok (writeV_ok (l3.cur.trans hc) (l3.dq.trans hq) hd)]
    rfl
/-- Two vectors and flags. -/
theorem vecFp2_ok {ty : FpTy} {f : Core → Fmt → Nat → Nat → Nat × Nat} (hs : s.atSlot c = true) (ho : Instr.open_ i)
    (hm : s.maskOf c mr = some (m, s1)) (ha : s1.lanes c a m = some (x, s2)) (hb : s2.lanes c b m = some (y, s3))
    {g : Nat → W64 × Nat} (hgd : g = fun l => mapElems (fpFmt ty).width fun j => f (s.core c) (fpFmt ty)
      (elemOf (fpFmt ty).width j (laneAt x l)) (elemOf (fpFmt ty).width j (laneAt y l)))
    (hd : s3.giveLanes c d m (fun l => (g l).1) = some s4) :
    vecFp2 i ty d a b mr f s = .next ((s4.setCore c { s4.core c with
      fcsr := (s4.core c).fcsr ||| w64 (laneFlags m g % 32) }).goes c (nextPc (s.core c).pc)) := by
  have hc := atSlot_cur hs; have hq := atSlot_dq hs
  have l1 := (mask_like (d := c) hm).1
  have l2 := l1.trans (lanes_like ha).1
  have l3 := l2.trans (lanes_like hb).1
  have l4 := l3.trans (giveLanes_like hd)
  have hk : s3.core c = s.core c :=
    ((lanes_like (d := c) hb).2.trans (lanes_like (d := c) ha).2).trans (mask_like (d := c) hm).2
  unfold vecFp2
  refine perform_fall hs ho ?_ ?_ (by simpa using l4.dq.trans hq)
  · simp only [List.all_cons, List.all_nil, Bool.and_true, Bool.and_eq_true]
    exact ⟨giveLanes_good' hc l3 hd, lanes_good' hc l1 ha, lanes_good' hc l2 hb, mask_good hc hm⟩
  · rw [M_bind_ok (readMask_ok (actor_core hc) hm), M_bind_ok (readVM_ok (like_actor hc l1) ha),
      M_bind_ok (readVM_ok (like_actor hc l2) hb), M_bind_ok (M_myCore s3), like_actor hc l3, hk]
    subst hgd
    dsimp only
    rw [M_bind_ok (writeVF_ok (l3.cur.trans hc) (l3.dq.trans hq) hd)]; rfl
/-- One vector and flags. -/
theorem vecFp1_ok {ty : FpTy} {f : Core → Fmt → Nat → Nat × Nat} (hs : s.atSlot c = true) (ho : Instr.open_ i)
    (hm : s.maskOf c mr = some (m, s1)) (ha : s1.lanes c a m = some (x, s2))
    {g : Nat → W64 × Nat} (hgd : g = fun l => mapElems (fpFmt ty).width fun j => f (s.core c) (fpFmt ty)
      (elemOf (fpFmt ty).width j (laneAt x l)))
    (hd : s2.giveLanes c d m (fun l => (g l).1) = some s3) :
    vecFp1 i ty d a mr f s = .next ((s3.setCore c { s3.core c with
      fcsr := (s3.core c).fcsr ||| w64 (laneFlags m g % 32) }).goes c (nextPc (s.core c).pc)) := by
  have hc := atSlot_cur hs; have hq := atSlot_dq hs
  have l1 := (mask_like (d := c) hm).1
  have l2 := l1.trans (lanes_like ha).1
  have l3 := l2.trans (giveLanes_like hd)
  have hk : s2.core c = s.core c := (lanes_like (d := c) ha).2.trans (mask_like (d := c) hm).2
  unfold vecFp1
  refine perform_fall hs ho ?_ ?_ (by simpa using l3.dq.trans hq)
  · simp only [List.all_cons, List.all_nil, Bool.and_true, Bool.and_eq_true]
    exact ⟨giveLanes_good' hc l2 hd, lanes_good' hc l1 ha, mask_good hc hm⟩
  · rw [M_bind_ok (readMask_ok (actor_core hc) hm), M_bind_ok (readVM_ok (like_actor hc l1) ha),
      M_bind_ok (M_myCore s2), like_actor hc l2, hk]
    subst hgd
    dsimp only
    rw [M_bind_ok (writeVF_ok (l2.cur.trans hc) (l2.dq.trans hq) hd)]; rfl
/-- The fused forms. -/
theorem vecFma_ok {ty : FpTy} {rm : RmF} {p q : Bool} (hs : s.atSlot c = true) (ho : Instr.open_ i)
    (hm : s.maskOf c mr = some (m, s1)) (ha : s1.lanes c a m = some (x, s2)) (hb : s2.lanes c b m = some (y, s3))
    (he : s3.lanes c e m = some (z, s4))
    {g : Nat → W64 × Nat} (hgd : g = fun l => mapElems (fpFmt ty).width fun j => fFma (fpFmt ty) ((s.core c).rm rm) p q
      (elemOf (fpFmt ty).width j (laneAt x l)) (elemOf (fpFmt ty).width j (laneAt y l))
      (elemOf (fpFmt ty).width j (laneAt z l)))
    (hd : s4.giveLanes c d m (fun l => (g l).1) = some s5) :
    vecFma i ty rm p q d a b e mr s = .next ((s5.setCore c { s5.core c with
      fcsr := (s5.core c).fcsr ||| w64 (laneFlags m g % 32) }).goes c (nextPc (s.core c).pc)) := by
  have hc := atSlot_cur hs; have hq := atSlot_dq hs
  have l1 := (mask_like (d := c) hm).1
  have l2 := l1.trans (lanes_like ha).1
  have l3 := l2.trans (lanes_like hb).1
  have l4 := l3.trans (lanes_like he).1
  have l5 := l4.trans (giveLanes_like hd)
  have hk : s4.core c = s.core c := (lanes_like (d := c) he).2.trans
    (((lanes_like (d := c) hb).2.trans (lanes_like (d := c) ha).2).trans (mask_like (d := c) hm).2)
  unfold vecFma
  refine perform_fall hs ho ?_ ?_ (by simpa using l5.dq.trans hq)
  · simp only [List.all_cons, List.all_nil, Bool.and_true, Bool.and_eq_true]
    exact ⟨giveLanes_good' hc l4 hd, lanes_good' hc l1 ha, lanes_good' hc l2 hb, lanes_good' hc l3 he, mask_good hc hm⟩
  · rw [M_bind_ok (readMask_ok (actor_core hc) hm), M_bind_ok (readVM_ok (like_actor hc l1) ha),
      M_bind_ok (readVM_ok (like_actor hc l2) hb), M_bind_ok (readVM_ok (like_actor hc l3) he),
      M_bind_ok (M_myCore s4), like_actor hc l4, hk]
    subst hgd
    dsimp only
    rw [M_bind_ok (writeVF_ok (l4.cur.trans hc) (l4.dq.trans hq) hd)]; rfl
theorem readK_ok {kw : BitVec 3} {ko : BitVec 17} (ha : s.actor = c) (h : (s.core c).constOf kw ko = some w) :
    readK kw ko s = .ok w s := by
  unfold Core.constOf at h
  dsimp only at h
  simp only [Option.map_eq_some_iff] at h
  obtain ⟨e, he, rfl⟩ := h
  unfold readK
  rw [M_bind_ok (M_myCore s), ha]
  dsimp only
  rw [he]
  rfl
/-- A vector against a constant. -/
theorem vecK_ok {kw : BitVec 3} {ko : BitVec 17} {f : Core → Nat → Nat → Nat × Nat} (hs : s.atSlot c = true)
    (ho : Instr.open_ i) (hm : s.maskOf c mr = some (m, s1)) (ha : s1.lanes c a m = some (x, s2))
    (hk : (s.core c).constOf kw ko = some w)
    {g : Nat → W64 × Nat} (hgd : g = fun l => mapElems n fun j => f (s.core c) (elemOf n j (laneAt x l)) (elemOf n 0 w))
    (hd : s2.giveLanes c d m (fun l => (g l).1) = some s3) :
    vecK i n d a mr kw ko f s = .next ((s3.setCore c { s3.core c with
      fcsr := (s3.core c).fcsr ||| w64 (laneFlags m g % 32) }).goes c (nextPc (s.core c).pc)) := by
  have hc := atSlot_cur hs; have hq := atSlot_dq hs
  have l1 := (mask_like (d := c) hm).1
  have l2 := l1.trans (lanes_like ha).1
  have l3 := l2.trans (giveLanes_like hd)
  have hk' : s2.core c = s.core c := (lanes_like (d := c) ha).2.trans (mask_like (d := c) hm).2
  unfold vecK
  refine perform_fall hs ho ?_ ?_ (by simpa using l3.dq.trans hq)
  · simp only [List.all_cons, List.all_nil, Bool.and_true, Bool.and_eq_true]
    exact ⟨giveLanes_good' hc l2 hd, lanes_good' hc l1 ha, mask_good hc hm⟩
  · rw [M_bind_ok (readMask_ok (actor_core hc) hm), M_bind_ok (readVM_ok (like_actor hc l1) ha),
      M_bind_ok (readK_ok (like_actor hc l2) (by rw [hk']; exact hk)), M_bind_ok (M_myCore s2), like_actor hc l2, hk']
    subst hgd
    dsimp only
    rw [M_bind_ok (writeVF_ok (l2.cur.trans hc) (l2.dq.trans hq) hd)]; rfl
/-- A vector and a mask to a word. -/
theorem vecToWord_ok {f : List W64 → Nat → W64} (hs : s.atSlot c = true) (ho : Instr.open_ i) (hdata : isData i = true)
    (hm : s.maskOf c mr = some (m, s1)) (ha : s1.lanes c a m = some (x, s2)) (hd : s2.give c true d (f x m) = some s3) :
    perform i [.wd d, .vs 54 a, .mask 18 mr] (do
      let mk ← readMask mr
      let x ← readVM a mk
      put d (f x mk)) s = .next (s3.goes c (nextPc (s.core c).pc)) := by
  have hc := atSlot_cur hs; have hq := atSlot_dq hs
  have l1 := (mask_like (d := c) hm).1
  have l2 := l1.trans (lanes_like ha).1
  refine perform_fall hs ho ?_ ?_ ((l2.trans (give_like hd)).dq.trans hq)
  · rw [hdata]
    simp only [List.all_cons, List.all_nil, Bool.and_true, Bool.and_eq_true]
    exact ⟨give_good' hc l2 hd, lanes_good' hc l1 ha, mask_good hc hm⟩
  · rw [M_bind_ok (readMask_ok (actor_core hc) hm), M_bind_ok (readVM_ok (like_actor hc l1) ha),
      put_ok (l2.cur.trans hc) (l2.dq.trans hq) hd]
theorem vecRed_ok {ty : IntTy} {f : List Nat → Int} (hs : s.atSlot c = true) (ho : Instr.open_ i) (hdata : isData i = true)
    (hm : s.maskOf c mr = some (m, s1)) (ha : s1.lanes c a m = some (x, s2))
    (hd : s2.give c true d (result ty (f (enabledElems (IntTy.width ty) m x))) = some s3) :
    vecRed i ty d a mr f s = .next (s3.goes c (nextPc (s.core c).pc)) :=
  vecToWord_ok (f := fun x m => result ty (f (enabledElems (IntTy.width ty) m x))) hs ho hdata hm ha hd
end Vectors

/-! ## Late writes and register effects that leave the streams as they are -/

/-- A late write of a word destination that can be given. -/
theorem writeWLate_ok {s t : State} {c : Nat} {kind : PendKind} {r : Reg} {v : W64} (hc : s.cur = .core c)
    (hd : (s.core c).dq = []) (h : s.giveLate c kind r v = some t) : writeWLate kind r v s = .ok ⟨⟩ t := by
  have ha := actor_core hc
  unfold State.giveLate at h
  dsimp only at h
  unfold writeWLate
  rw [M_bind_ok (M_myCore s), ha]
  split at h
  · rename_i hr
    rw [if_pos hr]
    split at h
    · rename_i hw
      simp only [Bool.and_eq_true, decide_eq_true_eq] at hw
      simp only [Option.some.injEq] at h; subst h
      unfold writeLate
      rw [M_bind_ok (M_myCore s), ha, M_get_bind]
      simp only [hc]
      rw [M_bind_ok (M_readyWhen_ok s (by simp [dqWrites_nil hd])), if_neg (by simp [speculative_nil hd]),
        M_bind_ok (rsEnsure_ok (by rw [ha]; exact hw.2)), M_bind_ok (modify_wrote ha _), M_modMe,
        actor_core (s := s.wrote c _) hc]
      rfl
    · cases h
  · rename_i hr
    rw [if_neg hr]
    exact writeW_give hc hd h
theorem giveLate_like {s t : State} {c d : Nat} {kind : PendKind} {r : Reg} {v : W64}
    (h : s.giveLate c kind r v = some t) : Like d s t := by
  unfold State.giveLate at h
  dsimp only at h
  split at h
  · split at h
    · simp only [Option.some.injEq] at h; subst h; exact (Like.loads d s _).trans (.set rfl rfl rfl rfl)
    · cases h
  · exact give_like h
theorem giveLate_good {s t : State} {c : Nat} {kind : PendKind} {r : Reg} {v : W64} (hc : s.cur = .core c)
    (h : s.giveLate c kind r v = some t) : Fld.good s false (s.core c).wlim.toNat (.wd r) = true := by
  unfold State.giveLate at h
  dsimp only at h
  split at h
  · rename_i hr
    split at h
    · rename_i hw
      simp only [Bool.and_eq_true, decide_eq_true_eq] at hw
      simp [Fld.good, Fld.kindOk, Fld.inWindow, hc, dstOk, hr, hw.1]
    · cases h
  · exact give_good hc h
theorem giveLate_good' {s s1 s2 : State} {c : Nat} {kind : PendKind} {r : Reg} {v : W64} (hc : s.cur = .core c)
    (hl : Like c s s1) (h : s1.giveLate c kind r v = some s2) :
    Fld.good s false (s.core c).wlim.toNat (.wd r) = true := by
  rw [← good_like hc hl]; exact giveLate_good (hl.cur.trans hc) h

end Sys2Proof.Machine
end

