-- ==== Sys2Proof/Tests/Slice0.lean ====
section
/-!
SUPPORT. Tests. Words of every family, written out from the tables of spec/06, and what they decode to; ill-formed terms,
one for each check; what reset leaves; and for every statement with hypotheses, clause by clause, a state and operands
that meet them all: each test runs through the clause's hypotheses in their order, so that it answers `some` only where
every one of them holds.
-/
namespace Sys2Proof.Tests
open Sys2Proof.Machine Sys2Proof.Claims
set_option Elab.async false
set_option linter.unusedVariables false
set_option synthInstance.maxSize 1024
set_option synthInstance.maxHeartbeats 400000

/-! ## Encodings -/

theorem test_decode_adda : decode 0x01a0000800c0100000001803#96 = .ok (.adda 3 2 3 4) := rfl
theorem test_decode_add : decode 0x0020001401801c0000001800#96 = .ok (.add .i64 5 6 7) := rfl
theorem test_decode_li : decode 0x020000100000000012345678#96 = .ok (.li 4 0x12345678) := rfl
theorem test_decode_lih : decode 0x0290001001000000deadbeef#96 = .ok (.lih 4 4 0xdeadbeef) := rfl
theorem test_decode_blt : decode 0x0320800000c021fffffffffd#96 = .ok (.blt 2 3 8 0x1fffffffffd) := rfl
theorem test_decode_win : decode 0x0400000002802c0000000000#96 = .ok (.win 10 11) := rfl
theorem test_decode_wini : decode 0x041000000000000000004007#96 = .ok (.wini 4 7) := rfl
theorem test_decode_mfs : decode 0x0430001c0000000000000010#96 = .ok (.mfs 7 0x010) := rfl
theorem test_decode_ld : decode 0x0501801401bffffffffffff8#96 = .ok (.ld .n32 5 6 0x3ffffffffffff8) := rfl
theorem test_decode_vld : decode 0x0600000c0100240000000040#96 = .ok (.vld 3 4 9 0x40) := rfl
theorem test_decode_send : decode 0x0700000802802c0300000004#96 = .ok (.send 2 10 11 12 .mem .spad) := rfl
theorem test_decode_vcvt : decode 0x09c00004008000003ffcd580#96 = .ok (.vcvt .f32 .f64 .rtz false 0 1 2 0xfff) := rfl
theorem test_decode_vfma : decode 0x0a00000800c010017ffcd800#96 = .ok (.vfma .f64 .rtz 2 3 4 5 0xfff) := rfl
theorem test_decode_vfmulk : decode 0x0a50000c00d000403ffc5800#96 = .ok (.vfmulk .f64 .rne 3 3 0xfff 2 0x10) := rfl
theorem test_decode_vfredadd : decode 0x0b903ff4018000003ffc5800#96 = .ok (.vfredadd .f64 .rne 0xffd 6 0xfff) := rfl
theorem test_decode_xfma : decode 0x0c100000010014003ffc5800#96 = .ok (.xfma false 4 5 0xfff) := rfl
theorem test_decode_tld : decode 0x0d0000000100001000004800#96 = .ok (.tld .bf16 .mem 0 4 { cid := 1, p1 := 0, p2 := 0, v1 := false, v2 := false }) := rfl
theorem test_decode_amov : decode 0x0d40000c00801c9200806001#96 = .ok (.amov .e4m3 true 3 2 7 { cid := 9, p1 := 8, p2 := 0, v1 := true, v2 := false }) := rfl
theorem test_decode_mwait : decode 0x0d8000140000001000000000#96 = .ok (.mwait false 5 1) := rfl
theorem test_decode_ldacq : decode 0x0e06c0100080000000000000#96 = .ok (.ldacq .i64 .dev .mem 4 2 0) := rfl
theorem test_decode_cas : decode 0x0e40001401801c0200001837#96 = .ok (.cas .i64 .dev .spad 3 5 6 7 8) := rfl
theorem test_decode_hand : decode 0x1ec0000005090002c0000000#96 = .ok (.hand 1 2 2 0x014 0x000b) := rfl
theorem test_decode_asidctl : decode 0x0f30000c0100140000000000#96 = .ok (.asidctl 3 4 5) := rfl
theorem test_decode_loopc : decode 0x0fc04014010001fffffffffe#96 = .ok (.loopc 1 5 4 0x1fffffffffe) := rfl
theorem test_decode_swapw : decode 0x0ff0001801c0000000000000#96 = .ok (.swapw 6 7) := rfl
/-! Words that stand for nothing (R147): an unassigned opcode, a field the form does not use, a type that the opcode does
not admit, a slot of another class. -/
theorem test_reject_opcode : decode 0x000000000000000000000000#96 = .error .unassignedOpcode := rfl
theorem test_reject_function : decode 0x0021001401801c0000001800#96 = .error .badFunction := rfl
theorem test_reject_class : decodeSlot .d 0x0020001401801c0000001800#96 = .error .classNotAdmitted := rfl

/-! ## Ill-formed terms -/

theorem test_illformed_mfs : WellFormed (.mfs 3 0x00a) = false := rfl
theorem test_illformed_mts_unassigned : WellFormed (.mts 3 0x00a) = false := rfl
theorem test_illformed_mts_split : WellFormed (.mts 3 0x010) = false := rfl
theorem test_illformed_vcvt_sat : WellFormed (.vcvt .f32 .f64 .rtz true 0 1 2 0xfff) = false := rfl
theorem test_illformed_vcvt_part : WellFormed (.vcvt .f32 .f64 .rtz false 2 1 2 0xfff) = false := rfl
theorem test_illformed_vcvt_b4 : WellFormed (.vcvt .b4 .f64 .rtz false 0 1 2 0xfff) = false := rfl
theorem test_illformed_tld_type : WellFormed (.tld .f64 .mem 0 4 { cid := 1, p1 := 0, p2 := 0, v1 := false, v2 := false }) = false := rfl
theorem test_illformed_tld_ids : WellFormed (.tld .f16 .mem 0 4 { cid := 1, p1 := 3, p2 := 0, v1 := false, v2 := false }) = false := rfl
theorem test_illformed_tst_type : WellFormed (.tst .i64 .mem 0 4 { cid := 1, p1 := 0, p2 := 0, v1 := false, v2 := false }) = false := rfl
theorem test_illformed_tst_ids : WellFormed (.tst .f16 .mem 0 4 { cid := 1, p1 := 3, p2 := 4, v1 := true, v2 := false }) = false := rfl
theorem test_illformed_tldq_type : WellFormed (.tldq .n64 0 4 5 { cid := 1, p1 := 0, p2 := 0, v1 := false, v2 := false }) = false := rfl
theorem test_illformed_tldq_ids : WellFormed (.tldq .f16 0 4 5 { cid := 1, p1 := 0, p2 := 0, v1 := false, v2 := true }) = false := rfl
theorem test_illformed_tzero_ids : WellFormed (.tzero 3 { cid := 1, p1 := 0, p2 := 0, v1 := false, v2 := true }) = false := rfl
theorem test_illformed_azero_ids : WellFormed (.azero 3 { cid := 1, p1 := 0, p2 := 0, v1 := false, v2 := true }) = false := rfl
theorem test_illformed_ast_ids : WellFormed (.ast .mem 3 4 { cid := 1, p1 := 0, p2 := 0, v1 := false, v2 := true }) = false := rfl
theorem test_illformed_ald_ids : WellFormed (.ald .mem 3 4 { cid := 1, p1 := 0, p2 := 0, v1 := false, v2 := true }) = false := rfl
theorem test_illformed_hand_self : WellFormed (.hand 2 2 2 0x014 0x000b) = false := rfl
theorem test_illformed_hand_role : WellFormed (.hand 0 2 2 0x014 0x000b) = false := rfl
theorem test_illformed_hand_receiver : WellFormed (.hand 1 0 2 0x014 0x000b) = false := rfl
theorem test_illformed_hand_list : WellFormed (.hand 1 2 2 0x014 0) = false := rfl
theorem test_illformed_amov_type : WellFormed (.amov .b4 false 3 2 7 { cid := 1, p1 := 0, p2 := 0, v1 := false, v2 := false }) = false := rfl
theorem test_illformed_amov_sat : WellFormed (.amov .f16 true 3 2 7 { cid := 1, p1 := 0, p2 := 0, v1 := false, v2 := false }) = false := rfl
theorem test_illformed_amov_ids : WellFormed (.amov .f16 false 3 2 7 { cid := 1, p1 := 0, p2 := 0, v1 := false, v2 := true }) = false := rfl
theorem test_illformed_mma_type : WellFormed (.mma .i32 false false false false 1 2 3 { cid := 1, p1 := 0, p2 := 0, v1 := false, v2 := false }) = false := rfl
theorem test_illformed_mma_ids : WellFormed (.mma .f16 false false false false 1 2 3 { cid := 1, p1 := 0, p2 := 0, v1 := false, v2 := true }) = false := rfl

/-! ## Reset -/

theorem test_reset_memOk : State.reset.memOk = true := rfl

/-! ## Answers and small states -/

/-- The answer of a lookup that succeeds, and whether one finds nothing there. -/
def exOk {α : Type} (r : Except XFail α) : Option α :=
  match r with
  | .ok a => some a
  | .error _ => none
def absent_ {α : Type} (r : Except XFail α) : Bool :=
  match r with
  | .error .notPresent => true
  | _ => false
/-- The value and the state of an action that succeeds. -/
def okOf {ε α : Type} (r : EStateM.Result ε State α) : Option (α × State) :=
  match r with
  | .ok a s => some (a, s)
  | .error _ _ => none
/-- How an action ends that does not succeed, and the state it leaves. -/
def errOf {ε α : Type} (r : EStateM.Result ε State α) : Option (ε × State) :=
  match r with
  | .error e s => some (e, s)
  | .ok _ _ => none
/-- Register-store lines 0 to n - 1, word i holding f i. -/
def store (n : Nat) (f : Nat → W64) : Tbl RsLine :=
  (List.range n).map fun k => (k, { tag := k, pa := 64 * k, dirty := false, words := (List.range 8).map fun j => f (8 * k + j) })
/-- A task of address space 1, and a core that runs it at line 0x1000 with a window of 128 words. -/
def job : Task := { kind := .normal, tr := {}, src := 0, origin := 0, launch := none, restarts := 0, asid := 1, answers := 0 }
def runs (f : Nat → W64) : Core :=
  { task := some job, pc := 0x1000, wlim := 128, wfl := 128, rbl := 0x1000, rs := store 16 f }
/-- Core 0 at its next slot, alone; address space 1 has a root. -/
def on (k : Core) : State := { State.reset with cores := [(0, k)], roots := [(1, 1)] }
def nums (i : Nat) : W64 := BitVec.ofNat 64 (i * 0x0102030405060709 + 3)
/-- The same core with the constant line of words 16 to 23. -/
def kept : Core :=
  { runs nums with
    kcache := [{ asid := 1, addr := 2, bytes := (List.range 64).map fun i => BitVec.ofNat 8 (3 * i + 1) }], cwb := [(1, 0)] }
/-- Word i holds the address 0x2000 + 64 i, in a page of address space 1 that maps to itself. -/
def places (i : Nat) : W64 := BitVec.ofNat 64 (0x2000 + 64 * i)
def page : TlbEnt := { asid := 1, va := 0, size := 0x200000, pa := 0, ok := 0, d := true, u := true, x := true, w := true, r := true }
/-- A line whose slots are all branch targets, and a core that holds it and the page. -/
def marked : L1Line := { asid := 1, line := 0x1000, bits := (0x1f#512) <<< 480, mask := 1 }
def paged : Core := { runs places with l1tlb := [page], l1i := [marked] }
/-- Words that hold a window and its size, and an address of the marked line. -/
def wins (i : Nat) : W64 := [0x40, 128, 0, 3969, 0xfff, 0x1003, 0x1000, 2, 0x1bd0, 0x10040, 0xffffffffffffffff].getD i (places i)
/-- The core with bytes in memory, in its scratchpad, its cluster share and its die scratchpad. -/
def bytes_ : Memory := (List.range 16).map fun i => (0x2180 + i, BitVec.ofNat 8 (255 - 17 * i - 1 ||| 1))
def mapped : State :=
  { on { runs (fun i => if i = 1 then 1 else places i) with
         l1tlb := [page], spad := bytes_, cspad := bytes_ } with mem := bytes_, dspad := [(0, bytes_)] }
def mapped1 : State := mapped
/-- The states before each lane of an access, and whether every enabled lane goes through. -/
def laneStates (mk : Nat) (act : Nat → State → Option State) (s : State) (l : Nat) : State :=
  (List.range l).foldl (fun t j => if laneOn mk j then (act j t).getD t else t) s
def lanesGo (mk : Nat) (act : Nat → State → Option State) (s : State) : Bool :=
  (List.range 16).all fun l => !laneOn mk l || (act l (laneStates mk act s l)).isSome
/-- The states before each of several steps, and whether they all go through. -/
def rowStates (act : Nat → State → Option State) (s : State) (l : Nat) : State :=
  (List.range l).foldl (fun t j => (act j t).getD t) s
def rowsGo (n : Nat) (act : Nat → State → Option State) (st : Nat → State) : Bool :=
  (List.range n).all fun j => (act j (st j)).isSome
/-- A core with lane slices; and vectors of mixed numbers: 1 and 2 small floats, 5 to 7 corners. -/
def sliced : State :=
  on { runs (fun i => if i = 1 then 0x8003 else if i = 2 then 16 else BitVec.ofNat 64 (8 * (i - 48)))  with
       slices := (List.range 300).map fun i => (4096 * (i / 20) + 16 + i % 20, BitVec.ofNat 8 (i % 255 + 1)) }
def corners : List W64 :=
  [0x8000000000000000, 0xffffffffffffffff, 0, 0x3ff0000000000000, 0x7ff0000000000000, 0xfff0000000000000, 0x7ff8000000000000,
   0x7ff4000000000001, 0x0000000000000001, 0x3f800000bf800000, 0x7f8000007fc00001, 0x00000001807fffff, 0x3c00bc007c007e01,
   0x3f80bf807f807fc1, 0x8080808040407f7f, 0x0123456789abcdef]
def vecs : Core :=
  { runs (fun i => if i = 1 then 0x8003 else if i = 2 then 0 else if i = 9 then 0xa5 else if i = 10 then 0x2000 else if i = 11 then 0xf00f else if i = 12 then 7
      else if i < 64 then BitVec.ofNat 64 (0x4000000000000000 + i * 0x0010000100080000) else if i < 80 then nums (i * i) else if i < 96 then corners.getD (i - 80) 0
      else if i < 112 then corners.getD ((5 * i + 3) % 16) 0 else corners.getD ((7 * i) % 16) 0) with
    kcache := [{ asid := 1, addr := 0, bytes := (List.range 64).map fun i => BitVec.ofNat 8 (17 * i + 0x38) }] }
/-- Vectors, accumulators of every class, and the feature. -/
def exact : State :=
  { on { vecs with xa := [(0, { n := -5 }), (1, { n := 2 ^ 4284 }), (2, { pinf := true }), (3, { ninf := true }), (4, { xnan := true }), (5, { pinf := true, ninf := true }), (6, { n := 2 ^ 2200 + 1 }), (7, { n := -(2 ^ 1100) })] } with
    featacc := [(0, 0x7f)] }
/-- The core with commands under way, tiles of its own, and the deprecated rows accepted. -/
def cmd0 : Cmd :=
  { no := 4, cid := 3, op := .mma, ty := .f16, d := 1, a := 0, b := 1, wa := 0, wb := 0, sp := .mem, fl := 0, cfgD := 0xbf80,
    cfgA := 0xbf80, cfgB := 0xbf80, cfgBs := [], olds := [], rows := 0, so := false, deps := [], core := 0, asid := 1, sup := false, launch := none, dlim := 0x200000, gangNo := 0,
    joined := false, started := false, lay := none, outcome := none, demand := none }
def tiled : State :=
  { on { runs places with cmds := [cmd0, { cmd0 with no := 5, cid := 7, op := .tld }], cmdNo := 6, gang := 2, recs := [(9, 77)],
                          tcfg := [(2, 0x8780), (3, 0x7f80), (4, 0x0748), (5, 0x0730)] } with
    featacc := [(0, 0x7f)] }
/-- A ring at offset 0x2100 that holds two records of eight, a channel bound to it, and one bound to nothing. -/
def bind0 : Binding := { id := 0, cons := some (0, 3), consIdx := 0, ring := some (0, 0x2100), logn := 3 }
def ringed : State :=
  { on { runs (fun i => [0, 1, 2, 8, 11, 0x2040, 0x500000010, 0x1100, 0x40000, 0x2100, 0x2100, 0x4000].getD i (places i)) with
         spad := [(0x2100, 9), (0x2104, 7), (0x2108, 3), (0x2200, 5), (0x2208, 6), (0x4008, 2)],
         chans := [(2, { bind := some bind0, items := [.reset] }), (3, { bind := some { bind0 with id := 1, cons := none } , stop := some 1 })] } with
    bindNo := 2 }
/-- Die 0's heap of tenant 7: an arena of three spans at 0x10000, the map at 0x8000, a free block of class 1 and no other. -/
def heapBytes : List Byte :=
  leBytes 0x10000 8 ++ leBytes 3 4 ++ leBytes 1 2 ++ leBytes 0 2 ++ leBytes 0x8000 8 ++ leBytes 1 4 ++ leBytes 0 4 ++
  leBytes 0 8 ++ leBytes 0x10040 8 ++ List.replicate 144 0
def heaped : State :=
  { mapped with
    cores := [(0, { mapped.core 0 with rs := store 16 fun i => [0, 1, 17, 65536, 0x10020, 0, 0x2180, 0, 40].getD i 0 })],
    nodes := [{ n := 1, tset := [7], resident := some 7, requests := [], partReq := none, phase := .steady, quiet := [],
                late := [], judged := false, graced := false, used := true }],
    heaps := [(7, heapBytes)], ctlb := [(0, [page])], mem := [(0x8000, 2), (0x10040, 0x80), (0x10042, 1)] }
def atomic : State :=
  { mapped with cores := [(0, { mapped.core 0 with rs := store 16 fun i =>
      [0, 0xffffffff80000001, 0x4008000000000000, 0x8796a5b4c3d2e1f0, 7, 0, 0x2180, 0].getD i 0 })], mem := [(0x2180, 0xef), (0x2187, 0x80)] }
/-- A deque of two records at the bottom of its own array, and one whose array has filled into memory. -/
def dequed : State :=
  on { runs (fun i => BitVec.ofNat 64 ([0, 0, 0, 0, 0x1000, 2, 3, 0x400000000].getD i i)) with
       spad := [(0x37fc0, 1), (0x37fc8, 3), (0x38020, 77), (0x3803c, 8), (0x38040, 66), (0x3805c, 8)] }
/-- Core 0 with role 1 in a team of three cores in two groups. -/
def team : State :=
  { on { runs (fun i => BitVec.ofNat 64 i) with role := 1, inst := some 6, task := some { job with kind := .member, launch := some 3 } } with
    launches := [{ (default : Launch) with no := 3, st := .running, ninst := 1 }],
    insts := [(6, some { (default : Inst) with
      launch := 3, k := 4, st := .running, nroles := 2, roles := [(1, 0, 2, 1), (1, 1, 2, 2)], drift := 4, cores := [(0, 1), (1, 2), (2, 2)],
      live := [0, 1], pipes := [{ pipe := 1, srole := 2, rrole := 1, sender := 1, receiver := 0, entries := [[5, 6], [7, 8]] },
                                { pipe := 0, srole := 1, rrole := 2, sender := 0, receiver := 1, entries := [[3, 4]] }] })] }
/-- Core 0 with role 2 in a team whose one member of role 1 has sent to it. -/
def receiver : State :=
  { on { runs (fun i => BitVec.ofNat 64 i) with role := 2, inst := some 6, task := some { job with kind := .member, launch := some 3 } } with
    insts := [(6, some { (default : Inst) with
      launch := 3, k := 4, st := .running, nroles := 2, roles := [(1, 0, 2, 1), (1, 1, 2, 2)], drift := 4, cores := [(5, 1), (0, 2), (1, 2)],
      live := [0, 1, 5], pipes := [{ pipe := 1, srole := 1, rrole := 2, sender := 5, receiver := 0, entries := [[5, 6], [7, 8]] }] })] }
/-- Format window 3 with a size. -/
def fmt : State := { State.reset with fw := [(3, { size := 0x1000, ctl := 2, xb := 0xf000000000000 })], featacc := [(0, 0x7f)] }
/-- Tables at 0x9000 that map 1 GiB to itself, and a code line at 0x1000 whose slots are targets. -/
def walkTo : Memory := [(0x9000, 1), (0x9001, 0xa0), (0xa000, 1), (0xa001, 0xb0), (0xb000, 0x9f)]
def codeLine : Memory :=
  let l : Nat := 0x1f * 2 ^ 480
  Memory.setBytes walkTo 0x1000 (leBytes (l + 2 ^ 504 * parNeeded (BitVec.ofNat 512 l)) 64)
/-- Tables at 0x9000 whose one leaf, at 0xd010, maps 0x2000 to the frame 0x20000, which holds bytes. -/
def smallMap : Memory :=
  [(0x9000, 1), (0x9001, 0xa0), (0xa000, 1), (0xa001, 0xb0), (0xb000, 1), (0xb001, 0xc0), (0xc000, 1), (0xc001, 0xd0),
   (0xd010, 0x1f), (0xd012, 2), (0x20005, 7), (0x20040, 8), (0x20fff, 9)]

/-- Three tables that map 1 GiB from 0 at 0x40000000. -/
def giantMap : Memory :=
  [(0x9000, 1), (0x9001, 0xa0), (0xa000, 1), (0xa001, 0xb0), (0xb000, 0x9f), (0xb003, 0x40), (0x40000005, 7)]

/-- A core whose code image has no sound entry for the line at 0x1000. -/
def imaged : Core :=
  { runs wins with
    codeimg := [(0, { raw := 1, img := some { vbase := 0x1000, nlines := 4, ndict := 0, latt := 0x8000, dict := 0, body := 0x9000, bodylen := 100 } })],
    lattc := [{ asid := 1, addr := 0x8000, bytes := leBytes (3 * 2 ^ 62) 8 }] }

/-- The gate, a report and a place for a frame, as answers. -/
def gateB (s : State) (l : Launch) (home : Bool) : Bool :=
  let regs := (l.regions.map fun r => (r.size + 0x1fffff) / 0x200000).sum
  let up := ((pageUnits l).filter fun u => s.unitNear l.asid u || s.unreach.contains (l.asid, u)).length
  !s.feat 1 || (home && decide (l.rth * ((pageUnits l).length + regs) ≤ 256 * (up + regs))) ||
    (!home && decide (l.rth * ((pageUnits l).length + regs) ≤ 256 * up))
def homeB (s : State) (l : Launch) : Bool :=
  match s.node? l.part with
  | some x => x.resident == some l.tenant
  | none => false
def reportB (s : State) (u : Nat × Nat) : Bool :=
  !s.asked.contains u || (!s.unitNear u.1 u.2 && !s.unreach.contains u &&
    (s.asked.takeWhile (· != u)).all fun v => s.unitNear v.1 v.2 || s.unreach.contains v)
/-- A die of a node is quiet, as an answer. -/
def quietB (s : State) (n d : Nat) : Bool :=
  (nodeCoreList n).all (fun c => c / 256 != d || ((s.core c).task.isNone && (s.core c).taken.isNone && (s.core c).sysring.isEmpty &&
    (s.core c).heldSys.isEmpty && (s.core c).pend.all (fun p => p.kind == .partctl) && (s.core c).cmds.isEmpty &&
    (s.core c).chans.all (fun ch => ch.2.items.isEmpty) && (s.seqU (c / 8)).cmds.isEmpty &&
    (s.engU (c / 32)).chans.all (fun ch => ch.2.items.isEmpty) && s.net.all (fun x => x.1 != c && x.2.1 != c) &&
    s.posts.all (fun x => x.1 != c) && (match (s.core c).held with
      | [] => true
      | .ready _ :: _ => decide (256 ≤ (s.core c).ready.length)
      | .msg _ :: _ => decide (64 ≤ (s.core c).inbox.length)
      | _ => false))) && s.launches.all fun l => l.part != n || !s.placeable l


/-! ## Hypotheses that are met -/

theorem test_ScalarTwoSource_1 : (do
    let i : Instr := .add .i64 2 3 4
    let s : State := on (runs nums)
    let c : Nat := 0
    let (d, a, b, f) ← twoSource i
    guard (s.atSlot c = true)
    let (x, s1) ← s.take c false a
    let (y, s2) ← s1.take c false b
    let s3 ← s2.give c false d (f x y)
    some () : Option Unit) = some () := by decide +kernel
theorem test_ScalarOneSource_1 : (do
    let i : Instr := .addi 2 3 0x3fffffffffff
    let s : State := on (runs nums)
    let c : Nat := 0
    let (d, a, f) ← oneSource i
    guard (s.atSlot c = true)
    let (x, s1) ← s.take c false a
    let s2 ← s1.give c false d (f x)
    some () : Option Unit) = some () := by decide +kernel
theorem test_ScalarOneSource_2 : (do
    let i : Instr := .li 2 0x20000000000000
    let s : State := on kept
    let c : Nat := 0
    let (d, v) ← noSource s c i
    guard (s.atSlot c = true)
    let s1 ← s.give c false d v
    some () : Option Unit) = some () := by decide +kernel
theorem test_ScalarOneSource_3 : (do
    let s : State := on { runs nums with cwp := [(0, 77)] }
    let c : Nat := 0
    let d : Reg := 2
    let num : BitVec 12 := 0x050
    guard (0x050 ≤ num.toNat)
    guard (num.toNat < 0x058)
    guard (s.atSlot c = true)
    let s1 ← (s.settleRace c).give c false d (s.sysRead c num.toNat)
    some () : Option Unit) = some () := by decide +kernel
theorem test_ScalarThreeSource_1 : (do
    let i : Instr := .sel false 2 3 4 5
    let s : State := on (runs nums)
    let c : Nat := 0
    let (d, a, b, e, f) ← threeSource i
    guard (s.atSlot c = true)
    let (x, s1) ← s.take c false a
    let (y, s2) ← s1.take c false b
    let (z, s3) ← s2.take c false e
    let s4 ← s3.give c false d (f x y z)
    some () : Option Unit) = some () := by decide +kernel
theorem test_ScalarThreeSource_2 : (do
    let s : State := on (runs nums)
    let c : Nat := 0
    let d : Reg := 2
    let a : Reg := 3
    let b : Reg := 4
    let e : Reg := 5
    guard (s.atSlot c = true)
    let (w, s0) ← s.take c false d
    let (x, s1) ← s0.take c false a
    let (y, s2) ← s1.take c false b
    let (z, s3) ← s2.take c false e
    let s4 ← s3.give c false d (inserted w x y z)
    some () : Option Unit) = some () := by decide +kernel
theorem test_ScalarThreeSource_3 : (do
    let s : State := on kept
    let c : Nat := 0
    let d : Reg := 2
    let a : Reg := 3
    let kw : BitVec 3 := 1
    let ko : BitVec 17 := 17
    guard (s.atSlot c = true)
    let (x, s1) ← s.take c false a
    let y ← (s1.core c).constOf kw ko
    let s2 ← s1.give c false d (x + y)
    some () : Option Unit) = some () := by decide +kernel
theorem test_NopHasNoEffect_3 : (do
    let w : Word96 := 0x70100000_00000000_00000004#96
    guard (fOpc w = 0x01)
    some () : Option Unit) = some () := by decide +kernel
theorem test_NopHasNoEffect_4 : (do
    let w : Word96 := 0x70100000_00000000_00000004#96
    guard (fOpc w = 0x01)
    guard (w &&& 0x0fffffff_ffffffff_ffffffff#96 ≠ 0x00100000_00000000_00000000#96)
    some () : Option Unit) = some () := by decide +kernel
theorem test_NopHasNoEffect_5 : (do
    let s : State := on (runs nums)
    let c : Nat := 0
    guard (s.atSlot c = true)
    some () : Option Unit) = some () := by decide +kernel
theorem test_NopHasNoEffect_6 : (do
    let s : State := on { runs nums with qd := [1], dq := [{ pc := 1, instr := .xst 2 3, seq := 3, resume := none, vals := [], popped := [], lines := [] }], pend := [{ word := 5, kind := .data, val := 2, fw := false }], resume := some 2 }
    let c : Nat := 0
    guard (s.cur = .core c)
    guard ((s.core c).task.isSome = true)
    guard ((s.core c).stopAt = none)
    guard ((s.core c).ending = none)
    guard (s.slotCls = .s)
    some () : Option Unit) = some () := by decide +kernel
theorem test_NopHasNoEffect_7 : (do
    let s : State := { on (runs nums) with slotCls := .d }
    let c : Nat := 0
    guard (s.atSlot c = true)
    guard (s.slotCls ≠ .b)
    some () : Option Unit) = some () := by decide +kernel
theorem test_NopHasNoEffect_8 : (do
    let s : State := { on (runs nums) with slotCls := .b }
    let c : Nat := 0
    guard (s.atSlot c = true)
    guard (s.slotCls = .b)
    some () : Option Unit) = some () := by decide +kernel
theorem test_NopHasNoEffect_9 : (do
    let s : State := { on { runs nums with dq := [{ pc := 1, instr := .xst 2 3, seq := 3, resume := none, vals := [], popped := [], lines := [] }] } with slotCls := .b }
    let c : Nat := 0
    guard (s.cur = .core c)
    guard ((s.core c).task.isSome = true)
    guard ((s.core c).stopAt = none)
    guard ((s.core c).ending = none)
    guard ((s.core c).dq ≠ [])
    guard (s.slotCls = .b)
    some () : Option Unit) = some () := by decide +kernel
theorem test_NopHasNoEffect_10 : (do
    let s : State := { on { runs nums with resume := some 2, dq := [{ pc := 1, instr := .xst 2 3, seq := 3, resume := none, vals := [], popped := [], lines := [] }] } with slotCls := .e }
    let c : Nat := 0
    guard (s.cur = .core c)
    guard ((s.core c).task.isSome = true)
    guard ((s.core c).stopAt = none)
    guard ((s.core c).ending = none)
    guard ((s.core c).dq ≠ [])
    guard ((s.slotCls = .d ∨ s.slotCls = .e))
    some () : Option Unit) = some () := by decide +kernel
theorem test_NopHasNoEffect_11 : (do
    let s : State := { on { runs nums with dq := [{ pc := 1, instr := .nop, seq := 3, resume := none, vals := [], popped := [], lines := [] }] } with slotCls := .d, cur := .data 0 }
    let c : Nat := 0
    guard (s.cur = .data c)
    let h :: r := (s.core c).dq | none
    guard (h.instr = .nop)
    guard (s.slotCls ≠ .b)
    some () : Option Unit) = some () := by decide +kernel
theorem test_NopHasNoEffect_12 : (do
    let s : State := { on (runs nums) with cur := .seq 3, seqs := [(3, { ({} : SeqUnit) with inst := some 6, pc := 0x1004 })] }
    let r : Nat := 3
    guard (s.cur = .seq r)
    let x ← (s.seqU r).inst
    some () : Option Unit) = some () := by decide +kernel
theorem test_NopHasNoEffect_13 : (do
    let s : State := { on (runs nums) with cur := .eng 1, engs := [(1, { ({} : EngUnit) with inst := some 6, pc := 0x1004 })] }
    let g : Nat := 1
    guard (s.cur = .eng g)
    let x ← (s.engU g).inst
    some () : Option Unit) = some () := by decide +kernel
theorem test_ControlTransfers_1 : (do
    let i : Instr := .beq 2 3 4 0
    let s : State := on paged
    let c : Nat := 0
    let (slot, a, b, off, _) ← branchTaken 0 0 i
    guard (s.atSlot c = true)
    let (x, s1) ← s.take c false a
    let (y, s2) ← s1.take c false b
    let (_, _, _, _, taken) ← branchTaken x y i
    guard (taken = false)
    some () : Option Unit) = some () := by decide +kernel
theorem test_ControlTransfers_2 : (do
    let i : Instr := .bne 4 3 4 0
    let s : State := on paged
    let c : Nat := 0
    let (slot, a, b, off, _) ← branchTaken 0 0 i
    guard (s.atSlot c = true)
    let (x, s1) ← s.take c false a
    let (y, s2) ← s1.take c false b
    let (_, _, _, _, taken) ← branchTaken x y i
    guard (taken = true)
    let (_, s3) ← okOf ((checkTarget (target (s.core c).pc slot off)).run s2)
    some () : Option Unit) = some () := by decide +kernel
theorem test_ControlTransfers_3 : (do
    let slot : BitVec 3 := 3
    let off : BitVec 41 := 0
    let s : State := on { runs wins with l1i := [marked] }
    let c : Nat := 0
    guard (s.atSlot c = true)
    let (_, s1) ← okOf ((checkTarget (target (s.core c).pc slot off)).run s)
    some () : Option Unit) = some () := by decide +kernel
theorem test_ControlTransfers_4 : (do
    let slot : BitVec 3 := 4
    let d : Reg := 2
    let off : BitVec 41 := 0
    let s : State := on { runs wins with l1i := [marked] }
    let c : Nat := 0
    guard (s.atSlot c = true)
    let (_, s1) ← okOf ((checkTarget (target (s.core c).pc slot off)).run s)
    let s2 ← s1.give c false d (nextPc (s.core c).pc)
    some () : Option Unit) = some () := by decide +kernel
theorem test_ControlTransfers_5 : (do
    let a : Reg := 5
    let s : State := on { runs wins with l1i := [marked] }
    let c : Nat := 0
    guard (s.atSlot c = true)
    let (x, s1) ← s.take c false a
    let (_, s2) ← okOf ((checkTarget x).run s1)
    some () : Option Unit) = some () := by decide +kernel
theorem test_ControlTransfers_6 : (do
    let a : Reg := 6
    let s : State := on { runs wins with l1i := [marked] }
    let c : Nat := 0
    guard (s.atSlot c = true)
    let (x, s1) ← s.take c false a
    let (_, s2) ← okOf ((checkTarget x).run s1)
    some () : Option Unit) = some () := by decide +kernel
theorem test_ControlTransfers_7 : (do
    let d : Reg := 5
    let a : Reg := 5
    let s : State := on { runs wins with l1i := [marked] }
    let c : Nat := 0
    guard (s.atSlot c = true)
    let (x, s1) ← s.take c false a
    let (_, s2) ← okOf ((checkTarget x).run s1)
    let s3 ← s2.give c false d (nextPc (s.core c).pc)
    some () : Option Unit) = some () := by decide +kernel
theorem test_ControlTransfers_8 : (do
    let t : W64 := 0x1005
    guard (wellFormedPc t = false)
    some () : Option Unit) = some () := by decide +kernel
theorem test_ControlTransfers_9 : (do
    let t : W64 := 0x1001
    let s : State := on paged
    guard (wellFormedPc t = true)
    let ((.line l), s1) ← okOf ((fetchLine (t / 64 * 64)).run s) | none
    some () : Option Unit) = some () := by decide +kernel
theorem test_ControlTransfers_10 : (do
    let t : W64 := 0x1001
    let s : State := on imaged
    guard (wellFormedPc t = true)
    let (.undecodable, s1) ← okOf ((fetchLine (t / 64 * 64)).run s) | none
    some () : Option Unit) = some () := by decide +kernel
theorem test_ControlTransfers_11 : (do
    let a : Reg := 7
    let s : State := on { paged with rs := store 16 fun i => BitVec.ofNat 64 i }
    let c : Nat := 0
    guard (s.atSlot c = true)
    let (x, s1) ← s.take c false a
    let (e', s2) ← errOf ((checkTarget x).run s1)
    guard (e' = (.trap { code := 0x03, addr := x }))
    some () : Option Unit) = some () := by decide +kernel
theorem test_WindowMoves_1 : (do
    let a : Reg := 0
    let b : Reg := 7
    let s : State := on { runs wins with rbl := 0x20000 }
    let c : Nat := 0
    guard (s.atSlot c = true)
    let (x, s1) ← s.take c false a
    let (y, s2) ← s1.take c false b
    some () : Option Unit) = some () := by decide +kernel
theorem test_WindowMoves_2 : (do
    let s : State := on { runs wins with rbl := 0x20000 }
    let c : Nat := 0
    guard (s.atSlot c = true)
    some () : Option Unit) = some () := by decide +kernel
theorem test_SystemWrites_1 : (do
    let a : Reg := 3
    let num : BitVec 12 := 0x020
    let s : State := on (runs nums)
    let c : Nat := 0
    guard (s.atSlot c = true)
    guard (((s.core c).sup = true ∨ supervisorOnly num.toNat = false))
    let (x, s1) ← s.take c false a
    let k ← stored (s1.core c) num.toNat x
    some () : Option Unit) = some () := by decide +kernel
theorem test_SystemWrites_2 : (do
    let i : Instr := .mts 3 0x000
    let a : Reg := 3
    let num : BitVec 12 := 0x000
    let n : BitVec 3 := 0
    let s : State := on (runs nums)
    let c : Nat := 0
    guard (s.atSlot c = true)
    guard ((s.core c).sup = false)
    guard (((i = .mts a num ∧ supervisorOnly num.toNat = true) ∨ i = .mtsRbb a ∨ i = .mtsCodeimg a n))
    some () : Option Unit) = some () := by decide +kernel
theorem test_SystemWrites_3 : (do
    let a : Reg := 7
    let s : State := on { runs (fun i => [0, 1, 128, 0xfffffffffff, 0x1004, 3968, 0x40000, 0x8080, 0xffffffffffffffff, 0x4700].getD i (nums i)) with sup := true }
    let c : Nat := 0
    guard (s.atSlot c = true)
    let (x, s1) ← s.take c false a
    some () : Option Unit) = some () := by decide +kernel
theorem test_SystemWrites_5 : (do
    let a : Reg := 6
    let s : State := on { runs (fun i => [0, 1, 128, 0xfffffffffff, 0x1004, 3968, 0x40000, 0x8080, 0xffffffffffffffff, 0x4700].getD i (nums i)) with sup := true }
    let c : Nat := 0
    guard (s.atSlot c = true)
    let (x, s1) ← s.take c false a
    guard ((s.core c).sup = true)
    guard ((s1.core c).pend = [])
    guard ((∀ l ∈ (s1.core c).rs, s1.rsMayWrite c l.2 = true ∧ s1.rsError l.2 = false))
    guard (x.toNat % 2 ^ 21 ≤ 2 ^ 20)
    guard (x.toNat % 8 = 0)
    some () : Option Unit) = some () := by decide +kernel
theorem test_SystemWrites_6 : (do
    let a : Reg := 6
    let s : State := on { runs (fun i => [0, 1, 128, 0xfffffffffff, 0x1004, 3968, 0x40000, 0x8080, 0xffffffffffffffff, 0x4700].getD i (nums i)) with sup := true }
    let c : Nat := 0
    guard (s.atSlot c = true)
    let (x, s1) ← s.take c false a
    guard ((s.core c).sup = true)
    guard (x.getLsbD 0 = false)
    some () : Option Unit) = some () := by decide +kernel
theorem test_SystemWrites_7 : (do
    let a : Reg := 6
    let s : State := on { runs (fun i => [0, 1, 128, 0xfffffffffff, 0x1004, 3968, 0x40000, 0x8080, 0xffffffffffffffff, 0x4700].getD i (nums i)) with sup := true }
    let c : Nat := 0
    guard (s.atSlot c = true)
    let (x, s1) ← s.take c false a
    guard ((s.core c).inst = none)
    some () : Option Unit) = some () := by decide +kernel
theorem test_SystemWrites_8 : (do
    let a : Reg := 1
    let s : State := { team with cores := [(0, { (team.core 0) with rs := store 16 fun i => BitVec.ofNat 64 (i + 0) })] }
    let c : Nat := 0
    guard (s.atSlot c = true)
    let (x, s1) ← s.take c false a
    let i ← (s.core c).inst
    let y ← tget none s.insts i
    guard (1 ≤ x.toNat)
    guard (x.toNat ≤ 15)
    some () : Option Unit) = some () := by decide +kernel
theorem test_ScalarLoads_1 : (do
    let i : Instr := .ld .n32 5 6 8
    let s : State := mapped
    let c : Nat := 0
    let (d, a, ofs, sp, n, sg, dcr) ← loadOf i
    guard (s.atSlot c = true)
    let (x, s1) ← s.take c false a
    let (l, s2) ← okOf ((accessLoc sp (s1.core c).asid (x + ofs) n .load dcr).run s1)
    let (v, s3) ← okOf ((loadLoc l n).run s2)
    let s4 ← s3.giveLate c .data d (extended n sg v)
    some () : Option Unit) = some () := by decide +kernel
theorem test_ScalarLoads_2 : (do
    let ty : IntTy := .i16
    let s : State := mapped1
    let c : Nat := 0
    let d : Reg := 5
    let a : Reg := 6
    let b : Reg := 1
    guard (s.atSlot c = true)
    let (x, s1) ← s.take c false a
    let (y, s2) ← s1.take c false b
    let n : Nat := IntTy.width ty / 8
    let (l, s3) ← okOf ((accessLoc .mem (s2.core c).asid (x + y * BitVec.ofNat 64 n) n .load (n == 8)).run s2)
    let (v, s4) ← okOf ((loadLoc l n).run s3)
    let s5 ← s4.giveLate c .data d (extended n (IntTy.signed ty) v)
    some () : Option Unit) = some () := by decide +kernel
theorem test_ScalarStores_1 : (do
    let i : Instr := .st .b32 5 6 8
    let s : State := mapped
    let c : Nat := 0
    let (d, a, ofs, sp, n, dcr) ← storeOf i
    guard (s.atSlot c = true)
    let (v, s0) ← s.take c false d
    let (x, s1) ← s0.take c false a
    let (l, s2) ← okOf ((accessLoc sp (s1.core c).asid (x + ofs) n .store dcr).run s1)
    let (_, s3) ← okOf ((storeLoc l n (v.toNat % 256 ^ n)).run s2)
    some () : Option Unit) = some () := by decide +kernel
theorem test_ScalarStores_2 : (do
    let ty : IntTy := .i16
    let s : State := mapped1
    let c : Nat := 0
    let d : Reg := 5
    let a : Reg := 6
    let b : Reg := 1
    guard (s.atSlot c = true)
    let (v, s0) ← s.take c false d
    let (x, s1) ← s0.take c false a
    let (y, s2) ← s1.take c false b
    let n : Nat := IntTy.width ty / 8
    let (l, s3) ← okOf ((accessLoc .mem (s2.core c).asid (x + y * BitVec.ofNat 64 n) n .store (n == 8)).run s2)
    let (_, s4) ← okOf ((storeLoc l n (v.toNat % 256 ^ n)).run s3)
    some () : Option Unit) = some () := by decide +kernel
theorem test_AccessFrame_1 : (do
    let l : Loc := .phys 0x2188 false
    let n : Nat := 4
    let v : Nat := 0x12345678
    let s : State := mapped
    guard (s.memOk = true)
    let (_, t) ← okOf ((storeLoc l n v).run s)
    some () : Option Unit) = some () := by decide +kernel
theorem test_AccessFrame_2 : (do
    let l : Loc := .phys 0x2345 false
    let n : Nat := 1
    let v : Nat := 0x12345678
    let s : State := { on paged with loads := [{ core := 3, data := true, word := 3, place := { space := 0, unit := 0, off := 0x2345 }, n := 8, signed := false }, { core := 0, data := true, word := 3, place := { space := 0, unit := 0, off := 0x2345 }, n := 8, signed := false }], was := [{ core := 3, place := { space := 0, unit := 0, off := 0x2345 }, bytes := [1,2,3,4,5,6,7,8] }, { core := 4, place := { space := 0, unit := 0, off := 0x6000 }, bytes := [] }] }
    guard (s.memOk = true)
    let (_, t) ← okOf ((storeLoc l n v).run s)
    some () : Option Unit) = some () := by decide +kernel
theorem test_AccessFrame_5 : (do
    let l : Loc := .phys 0x2188 false
    let n : Nat := 4
    let s : State := mapped
    let (v, t) ← okOf ((loadLoc l n).run s)
    some () : Option Unit) = some () := by decide +kernel
theorem test_AccessFrame_8 : (do
    let c : Nat := 0
    let k := 3
    guard (k ≠ c)
    some () : Option Unit) = some () := by decide +kernel
theorem test_AccessFrame_10 : (do
    let l : Loc := .phys 0x2188 false
    let c : Nat := 0
    let data : Bool := true
    let t : State := { ({ mapped with loads := [{ core := 0, data := false, word := 5, place := { space := 0, unit := 0, off := 0x2188 }, n := 4, signed := true }, { core := 0, data := true, word := 6, place := { space := 0, unit := 0, off := 0x2188 }, n := 8, signed := false }] }) with mem := Memory.setBytes bytes_ 0x2188 [1, 2, 3, 4] }
    let i := 7
    guard ((∀ x ∈ t.loads, x.core = c → x.data ≠ data → x.word = i → some x.place.gran ≠ l.place.map Place.gran))
    some () : Option Unit) = some () := by decide +kernel
theorem test_AccessFrame_11 : (do
    let l : Loc := .dcr 0x48
    guard (l.place = none)
    some () : Option Unit) = some () := by decide +kernel
theorem test_Hints_1 : (do
    let s : State := on paged
    let c : Nat := 0
    guard (s.atSlot c = true)
    guard (s.slotCls ≠ .b)
    some () : Option Unit) = some () := by decide +kernel
theorem test_Hints_10 : (do
    let a : Reg := 6
    let s : State := on paged
    let c : Nat := 0
    guard (s.atSlot c = true)
    let (x, s1) ← s.take c false a
    some () : Option Unit) = some () := by decide +kernel
theorem test_Hints_11 : (do
    let lv : Level := .l1
    let a : Reg := 6
    let i : Instr := .cmoClean .l1 6
    let s : State := on { runs places with task := some { job with kind := .firmware }, fwregs := [(6, 0x2000)] }
    let c : Nat := 0
    guard (i ∈ [Instr.cmoClean lv a, Instr.cmoInval lv a, Instr.cmoFlush lv a])
    guard (s.atSlot c = true)
    let (x, s1) ← s.take c false a
    guard ((s1.core c).isFw = true)
    guard ((physKind x.toNat = .device ∨ physKind x.toNat = .host))
    some () : Option Unit) = some () := by decide +kernel
theorem test_Hints_12 : (do
    let lv : Level := .l1
    let a : Reg := 6
    let i : Instr := .cmoInval .l1 6
    let s : State := on { runs places with task := some { job with kind := .firmware }, fwregs := [(6, 0xfff0000000010)] }
    let c : Nat := 0
    guard (i ∈ [Instr.cmoClean lv a, Instr.cmoInval lv a, Instr.cmoFlush lv a])
    guard (s.atSlot c = true)
    let (x, s1) ← s.take c false a
    guard ((s1.core c).isFw = true)
    guard (Config.dcrBase ≤ x.toNat)
    guard (x.toNat < Config.physEnd)
    some () : Option Unit) = some () := by decide +kernel
theorem test_Hints_13 : (do
    let lv : Level := .l1
    let a : Reg := 6
    let i : Instr := .cmoFlush .l1 6
    let s : State := on { runs places with task := some { job with kind := .firmware }, fwregs := [(6, 0xf000000000010)] }
    let c : Nat := 0
    guard (i ∈ [Instr.cmoClean lv a, Instr.cmoInval lv a, Instr.cmoFlush lv a])
    guard (s.atSlot c = true)
    let (x, s1) ← s.take c false a
    guard ((s1.core c).isFw = true)
    guard (physKind x.toNat = .alias_)
    guard (s1.aliasWin x.toNat = none)
    some () : Option Unit) = some () := by decide +kernel
theorem test_Hints_14 : (do
    let lv : Level := .l1
    let a : Reg := 6
    let i : Instr := .cmoFlush .l1 6
    let s : State := on paged
    let c : Nat := 0
    guard (i ∈ [Instr.cmoClean lv a, Instr.cmoInval lv a, Instr.cmoFlush lv a])
    guard (s.atSlot c = true)
    let (x, s1) ← s.take c false a
    guard ((s1.core c).isFw = false)
    let (pa, e, s2) ← exOk (s1.xlate (.core c) (s1.core c).launch (s1.core c).asid x.toNat .maint (!(s1.core c).sup))
    guard ((physKind pa = .device ∨ physKind pa = .host))
    some () : Option Unit) = some () := by decide +kernel
theorem test_Hints_15 : (do
    let lv : Level := .l1
    let a : Reg := 6
    let i : Instr := .cmoClean .l1 6
    let s : State := { on { runs places with l1tlb := [{ page with pa := 0xf000000000000 }] } with fw := [(0, { size := 0x100000000, ctl := 1, xb := 0xf000000000000 })], featacc := [(0, 0x7f)], stale := [(0x2180, { old := 3, core := 0 })], mem := [(0x2180, 9)] }
    let c : Nat := 0
    guard (i ∈ [Instr.cmoClean lv a, Instr.cmoInval lv a, Instr.cmoFlush lv a])
    guard (s.atSlot c = true)
    let (x, s1) ← s.take c false a
    guard ((s1.core c).isFw = false)
    let (pa, e, s2) ← exOk (s1.xlate (.core c) (s1.core c).launch (s1.core c).asid x.toNat .maint (!(s1.core c).sup))
    guard (physKind pa = .alias_)
    guard ((s2.aliasWin pa).isSome = true)
    some () : Option Unit) = some () := by decide +kernel
theorem test_Hints_16 : (do
    let lv : Level := .l1
    let a : Reg := 6
    let i : Instr := .cmoClean .l1 6
    let s : State := { on { runs places with l1tlb := [{ page with pa := 0xfff0000000000 }] } with fw := [(0, { size := 0x100000000, ctl := 1, xb := 0xf000000000000 })], featacc := [(0, 0x7f)], stale := [(0x2180, { old := 3, core := 0 })], mem := [(0x2180, 9)] }
    let c : Nat := 0
    guard (i ∈ [Instr.cmoClean lv a, Instr.cmoInval lv a, Instr.cmoFlush lv a])
    guard (s.atSlot c = true)
    let (x, s1) ← s.take c false a
    guard ((s1.core c).isFw = false)
    let (pa, e, s2) ← exOk (s1.xlate (.core c) (s1.core c).launch (s1.core c).asid x.toNat .maint (!(s1.core c).sup))
    guard (physKind pa = .dcr)
    some () : Option Unit) = some () := by decide +kernel
theorem test_Hints_17 : (do
    let lv : Level := .l1
    let a : Reg := 6
    let i : Instr := .cmoInval .l1 6
    let s : State := on (runs places)
    let c : Nat := 0
    guard (i ∈ [Instr.cmoClean lv a, Instr.cmoInval lv a, Instr.cmoFlush lv a])
    guard (s.atSlot c = true)
    let (x, s1) ← s.take c false a
    guard ((s1.core c).isFw = false)
    guard (absent_ (s1.xlate (.core c) (s1.core c).launch (s1.core c).asid x.toNat .maint (!(s1.core c).sup)))
    some () : Option Unit) = some () := by decide +kernel
theorem test_VectorLoads_1 : (do
    let i : Instr := .vld 2 6 0 8
    let s : State := { mapped with cores := [(0, { mapped.core 0 with rs := store 16 fun i => [0x8005, 0x20, 8, 0xffff, 0x2100].getD i (if i < 16 then places i else BitVec.ofNat 64 (8 * i)) })] }
    let c : Nat := 0
    let (d, a, m, ofs, sp) ← vectorLoad i
    guard (s.atSlot c = true)
    guard ((s.core c).resume = none)
    let (x, s1) ← s.take c true a
    let (mk, s2) ← s1.maskOf c m
    let so := anySo s2 c sp .load mk (fun l => (x + ofs + BitVec.ofNat 64 (8 * l)))
    guard ((s2.giveLanes c d 0 fun _ => 0).isSome = true)
    guard (lanesGo mk (fun l => laneLoad c sp d so l (x + ofs + BitVec.ofNat 64 (8 * l))) s2)
    some () : Option Unit) = some () := by decide +kernel
theorem test_VectorLoads_2 : (do
    let s : State := { mapped with cores := [(0, { mapped.core 0 with rs := store 16 fun i => [0x8005, 0x20, 8, 0xffff, 0x2100].getD i (if i < 16 then places i else BitVec.ofNat 64 (8 * i)) })] }
    let c : Nat := 0
    let d : Reg := 2
    let a : Reg := 6
    let b : Reg := 1
    let m : Reg := 0
    guard (s.atSlot c = true)
    guard ((s.core c).resume = none)
    let (x, s1) ← s.take c true a
    let (y, s2) ← s1.take c true b
    let (mk, s3) ← s2.maskOf c m
    let so := anySo s3 c .mem .load mk (fun l => (x + BitVec.ofNat 64 l * y))
    guard ((s3.giveLanes c d 0 fun _ => 0).isSome = true)
    guard (lanesGo mk (fun l => laneLoad c .mem d so l (x + BitVec.ofNat 64 l * y)) s3)
    some () : Option Unit) = some () := by decide +kernel
theorem test_VectorLoads_3 : (do
    let s : State := { mapped with cores := [(0, { mapped.core 0 with rs := store 16 fun i => [0x8005, 0x20, 8, 0xffff, 0x2100].getD i (if i < 16 then places i else BitVec.ofNat 64 (8 * i)) })] }
    let c : Nat := 0
    let d : Reg := 2
    let a : Reg := 4
    let b : Reg := 1
    let m : Reg := 0
    guard (s.atSlot c = true)
    guard ((s.core c).resume = none)
    let (x, s1) ← s.take c true a
    let (mk, s2) ← s1.maskOf c m
    let (y, s3) ← s2.lanes c b mk
    let so := anySo s3 c .mem .load mk (fun l => (x + y.getD l 0))
    guard ((s3.giveLanes c d 0 fun _ => 0).isSome = true)
    guard (lanesGo mk (fun l => laneLoad c .mem d so l (x + y.getD l 0)) s3)
    some () : Option Unit) = some () := by decide +kernel
theorem test_VectorStores_1 : (do
    let i : Instr := .vst 2 6 0 8
    let s : State := { mapped with cores := [(0, { mapped.core 0 with rs := store 16 fun i => [0x8005, 0x20, 8, 0xffff, 0x2100].getD i (if i < 16 then places i else BitVec.ofNat 64 (8 * i)) })] }
    let c : Nat := 0
    let (d, a, m, ofs, sp) ← vectorStore i
    guard (s.atSlot c = true)
    guard ((s.core c).resume = none)
    let (x, s1) ← s.take c true a
    let (mk, s2) ← s1.maskOf c m
    let so := anySo s2 c sp .store mk (fun l => (x + ofs + BitVec.ofNat 64 (8 * l)))
    guard ((s2.lanes c d 0).isSome = true)
    guard (lanesGo mk (fun l => laneStore c sp d so l (x + ofs + BitVec.ofNat 64 (8 * l))) s2)
    some () : Option Unit) = some () := by decide +kernel
theorem test_VectorStores_2 : (do
    let s : State := { mapped with cores := [(0, { mapped.core 0 with rs := store 16 fun i => [0x8005, 0x20, 8, 0xffff, 0x2100].getD i (if i < 16 then places i else BitVec.ofNat 64 (8 * i)) })] }
    let c : Nat := 0
    let d : Reg := 2
    let a : Reg := 6
    let b : Reg := 1
    let m : Reg := 0
    guard (s.atSlot c = true)
    guard ((s.core c).resume = none)
    let (x, s1) ← s.take c true a
    let (y, s2) ← s1.take c true b
    let (mk, s3) ← s2.maskOf c m
    let so := anySo s3 c .mem .store mk (fun l => (x + BitVec.ofNat 64 l * y))
    guard ((s3.lanes c d 0).isSome = true)
    guard (lanesGo mk (fun l => laneStore c .mem d so l (x + BitVec.ofNat 64 l * y)) s3)
    some () : Option Unit) = some () := by decide +kernel
theorem test_VectorStores_3 : (do
    let s : State := { mapped with cores := [(0, { mapped.core 0 with rs := store 16 fun i => [0x8005, 0x20, 8, 0xffff, 0x2100].getD i (if i < 16 then places i else BitVec.ofNat 64 (8 * i)) })] }
    let c : Nat := 0
    let d : Reg := 2
    let a : Reg := 4
    let b : Reg := 1
    let m : Reg := 0
    guard (s.atSlot c = true)
    guard ((s.core c).resume = none)
    let (x, s1) ← s.take c true a
    let (mk, s2) ← s1.maskOf c m
    let (y, s3) ← s2.lanes c b mk
    let so := anySo s3 c .mem .store mk (fun l => (x + y.getD l 0))
    guard ((s3.lanes c d 0).isSome = true)
    guard (lanesGo mk (fun l => laneStore c .mem d so l (x + y.getD l 0)) s3)
    some () : Option Unit) = some () := by decide +kernel
theorem test_LaneSlices_1 : (do
    let s : State := sliced
    let c : Nat := 0
    let d : Reg := 2
    let a : Reg := 2
    let b : Reg := 3
    let m : Reg := 1
    guard (s.atSlot c = true)
    guard ((s.core c).resume = none)
    let (x, s1) ← s.take c true a
    let (mk, s2) ← s1.maskOf c m
    let (y, s3) ← s2.lanes c b mk
    guard ((List.range 16).all fun l => !laneOn mk l || ((x + y.getD l 0).toNat % 8 == 0 && decide ((x + y.getD l 0).toNat < 4096)))
    let s4 ← s3.giveLanes c d mk (fun l => BitVec.ofNat 64 ((s.core c).slices.le (4096 * l + (x + y.getD l 0).toNat) 8))
    some () : Option Unit) = some () := by decide +kernel
theorem test_LaneSlices_2 : (do
    let s : State := sliced
    let c : Nat := 0
    let d : Reg := 2
    let a : Reg := 2
    let b : Reg := 3
    let m : Reg := 1
    guard (s.atSlot c = true)
    guard ((s.core c).resume = none)
    let (x, s1) ← s.take c true a
    let (mk, s2) ← s1.maskOf c m
    let (y, s3) ← s2.lanes c b mk
    let (v, s4) ← s3.lanes c d mk
    guard ((List.range 16).all fun l => !laneOn mk l || ((x + y.getD l 0).toNat % 8 == 0 && decide ((x + y.getD l 0).toNat < 4096)))
    some () : Option Unit) = some () := by decide +kernel
theorem test_VectorIntegers_1 : (do
    let i : Instr := .vadd false .i16 4 1 2 1
    let s : State := on vecs
    let c : Nat := 0
    let (d, a, b, m, f) ← vectorTwo i
    guard (s.atSlot c = true)
    let (mk, s1) ← s.maskOf c m
    let (x, s2) ← s1.lanes c a mk
    let (y, s3) ← s2.lanes c b mk
    let s4 ← s3.giveLanes c d mk (fun l => f (x.getD l 0) (y.getD l 0))
    some () : Option Unit) = some () := by decide +kernel
theorem test_VectorIntegers_2 : (do
    let s : State := on vecs
    let c : Nat := 0
    let d : Reg := 4
    let a : Reg := 1
    let b : Reg := 2
    let e : Reg := 3
    let m : Reg := 1
    guard (s.atSlot c = true)
    let (mk, s1) ← s.maskOf c m
    let (x, s2) ← s1.lanes c a mk
    let (y, s3) ← s2.lanes c b mk
    let (z, s4) ← s3.lanes c e mk
    let s5 ← s4.giveLanes c d mk (fun l => ofBits 64 fun j => if (x.getD l 0).getLsbD j then (y.getD l 0).getLsbD j else (z.getD l 0).getLsbD j)
    some () : Option Unit) = some () := by decide +kernel
theorem test_VectorIntegers_3 : (do
    let w : StW := .b8
    let s : State := on vecs
    let c : Nat := 0
    let d : Reg := 4
    let a : Reg := 1
    let m : Reg := 1
    guard (s.atSlot c = true)
    let (mk, s1) ← s.maskOf c m
    let (x, s2) ← s1.lanes c a mk
    let s3 ← s2.giveLanes c d mk (fun l => lanes2 (8 * storeWidth w) (fun e _ => if e.toInt < 0 then -e else e) (x.getD l 0) 0)
    some () : Option Unit) = some () := by decide +kernel
theorem test_RoundingCore_1 : (do
    let f : Fmt := f32Fmt
    let nan : Nat := 0x7fc00000
    let big : Nat := 0x7f7fffff
    guard ((f, nan, big) ∈ numberFormats)
    let m : Nat := 0x1ffffff
    let j : Nat := 200
    let e : Int := -160
    guard (0 < m)
    guard (0 ≤ e + j)
    some () : Option Unit) = some () := by decide +kernel
theorem test_RoundingCore_2 : (do
    let f : Fmt := f32Fmt
    let nan : Nat := 0x7fc00000
    let big : Nat := 0x7f7fffff
    guard ((f, nan, big) ∈ numberFormats)
    let m : Nat := 0x2000001
    let j : Nat := 162
    let n : Nat := 0x8000006
    let e : Int := -160
    guard (2 ^ (f.fb + 1) ≤ m)
    guard (0 ≤ e + j)
    guard (m * 2 ^ (e + j).toNat < n)
    guard (n < (m + 1) * 2 ^ (e + j).toNat)
    some () : Option Unit) = some () := by decide +kernel
theorem test_RoundingCore_3 : (do
    let f : Fmt := f32Fmt
    let nan : Nat := 0x7fc00000
    let big : Nat := 0x7f7fffff
    guard ((f, nan, big) ∈ numberFormats)
    let a : Nat := 0x7f800001
    let b : Nat := 0
    guard ((codeNan f a || codeNan f b) = true)
    some () : Option Unit) = some () := by decide +kernel
theorem test_RoundingCore_6 : (do
    let f : Fmt := f32Fmt
    let nan : Nat := 0x7fc00000
    let big : Nat := 0x7f7fffff
    guard ((f, nan, big) ∈ numberFormats)
    let a : Nat := 0x7f800000
    let b : Nat := 0xff800000
    guard (codeInf f a = true)
    guard (codeInf f b = true)
    some () : Option Unit) = some () := by decide +kernel
theorem test_RoundingCore_9 : (do
    let f : Fmt := f32Fmt
    let nan : Nat := 0x7fc00000
    let big : Nat := 0x7f7fffff
    guard ((f, nan, big) ∈ numberFormats)
    let a : Nat := 0x7f800000
    let b : Nat := 0x80000000
    guard (codeInf f a = true)
    guard (codeFinite f b = true)
    some () : Option Unit) = some () := by decide +kernel
theorem test_RoundingCore_15 : (do
    let f : Fmt := f32Fmt
    let nan : Nat := 0x7fc00000
    let big : Nat := 0x7f7fffff
    guard ((f, nan, big) ∈ numberFormats)
    let a : Nat := 0x3f800000
    let b : Nat := 0xbf800000
    guard (codeFinite f a = true)
    guard (codeFinite f b = true)
    guard (codeVal f a + codeVal f b = 0)
    some () : Option Unit) = some () := by decide +kernel
theorem test_RoundingCore_16 : (do
    let f : Fmt := f32Fmt
    let nan : Nat := 0x7fc00000
    let big : Nat := 0x7f7fffff
    guard ((f, nan, big) ∈ numberFormats)
    let a : Nat := 0x7f7fffff
    let b : Nat := 0x7f7fffff
    guard (codeFinite f a = true)
    guard (codeFinite f b = true)
    guard (codeVal f a + codeVal f b ≠ 0)
    some () : Option Unit) = some () := by decide +kernel
theorem test_RoundingCore_17 : (do
    let f : Fmt := f32Fmt
    let nan : Nat := 0x7fc00000
    let big : Nat := 0x7f7fffff
    guard ((f, nan, big) ∈ numberFormats)
    let a : Nat := 0x80000000
    let b : Nat := 0x3f800000
    guard (codeFinite f a = true)
    guard (codeFinite f b = true)
    guard (codeMag f a = 0 ∨ codeMag f b = 0)
    some () : Option Unit) = some () := by decide +kernel
theorem test_RoundingCore_18 : (do
    let f : Fmt := f32Fmt
    let nan : Nat := 0x7fc00000
    let big : Nat := 0x7f7fffff
    guard ((f, nan, big) ∈ numberFormats)
    let a : Nat := 0x00000003
    let b : Nat := 0x3f000001
    guard (codeFinite f a = true)
    guard (codeFinite f b = true)
    guard (codeMag f a ≠ 0)
    guard (codeMag f b ≠ 0)
    some () : Option Unit) = some () := by decide +kernel
theorem test_RoundingCore_20 : (do
    let f : Fmt := f32Fmt
    let nan : Nat := 0x7fc00000
    let big : Nat := 0x7f7fffff
    guard ((f, nan, big) ∈ numberFormats)
    let a : Nat := 0x3f800000
    let b : Nat := 0x80000000
    guard (codeFinite f a = true)
    guard (codeFinite f b = true)
    guard (codeMag f b = 0)
    some () : Option Unit) = some () := by decide +kernel
theorem test_RoundingCore_21 : (do
    let f : Fmt := f32Fmt
    let nan : Nat := 0x7fc00000
    let big : Nat := 0x7f7fffff
    guard ((f, nan, big) ∈ numberFormats)
    let a : Nat := 0
    let b : Nat := 0xbf800000
    guard (codeFinite f a = true)
    guard (codeFinite f b = true)
    guard (codeMag f a = 0)
    guard (codeMag f b ≠ 0)
    some () : Option Unit) = some () := by decide +kernel
theorem test_RoundingCore_22 : (do
    let f : Fmt := f32Fmt
    let nan : Nat := 0x7fc00000
    let big : Nat := 0x7f7fffff
    guard ((f, nan, big) ∈ numberFormats)
    let a : Nat := 0x7f800000
    let b : Nat := 0
    guard ((codeInf f a && codeFinite f b && codeMag f b == 0 || codeInf f b && codeFinite f a && codeMag f a == 0) = true)
    some () : Option Unit) = some () := by decide +kernel
theorem test_RoundingCore_23 : (do
    let f : Fmt := f32Fmt
    let nan : Nat := 0x7fc00000
    let big : Nat := 0x7f7fffff
    guard ((f, nan, big) ∈ numberFormats)
    let a : Nat := 0x7f800001
    let b : Nat := 0
    let c : Nat := 0x3f800000
    guard (¬ (codeInf f a && codeFinite f b && codeMag f b == 0 || codeInf f b && codeFinite f a && codeMag f a == 0) = true)
    guard ((codeNan f a || codeNan f b || codeNan f c) = true)
    some () : Option Unit) = some () := by decide +kernel
theorem test_RoundingCore_24 : (do
    let f : Fmt := f32Fmt
    let nan : Nat := 0x7fc00000
    let big : Nat := 0x7f7fffff
    guard ((f, nan, big) ∈ numberFormats)
    let a : Nat := 0x7f800000
    let b : Nat := 0xbf800000
    let c : Nat := 0x7f800000
    guard (¬ (codeInf f a && codeFinite f b && codeMag f b == 0 || codeInf f b && codeFinite f a && codeMag f a == 0) = true)
    guard ((codeNan f a || codeNan f b || codeNan f c) = false)
    guard ((codeInf f a || codeInf f b) = true)
    some () : Option Unit) = some () := by decide +kernel
theorem test_RoundingCore_25 : (do
    let f : Fmt := f32Fmt
    let nan : Nat := 0x7fc00000
    let big : Nat := 0x7f7fffff
    guard ((f, nan, big) ∈ numberFormats)
    let a : Nat := 0
    let b : Nat := 0xbf800000
    let c : Nat := 0x7f800000
    guard (¬ (codeInf f a && codeFinite f b && codeMag f b == 0 || codeInf f b && codeFinite f a && codeMag f a == 0) = true)
    guard (codeFinite f a = true)
    guard (codeFinite f b = true)
    guard (codeInf f c = true)
    some () : Option Unit) = some () := by decide +kernel
theorem test_RoundingCore_26 : (do
    let f : Fmt := f32Fmt
    let nan : Nat := 0x7fc00000
    let big : Nat := 0x7f7fffff
    guard ((f, nan, big) ∈ numberFormats)
    let p : Bool := true
    let q : Bool := false
    let a : Nat := 0x40000000
    let b : Nat := 0x40000000
    let c : Nat := 0x40800000
    let ps : Bool := ((codeSign f a != codeSign f b) != p)
    let cs : Bool := (codeSign f c != q)
    guard (codeFinite f a = true)
    guard (codeFinite f b = true)
    guard (codeFinite f c = true)
    let t : Int := 0
    guard (t = (if ps then (-1 : Int) else 1) * (codeMag f a * codeMag f b : Nat) + (if cs then (-1 : Int) else 1) * (codeMag f c * 2 ^ unitExp f : Nat))
    guard (t = 0)
    some () : Option Unit) = some () := by decide +kernel
theorem test_RoundingCore_27 : (do
    let f : Fmt := f32Fmt
    let nan : Nat := 0x7fc00000
    let big : Nat := 0x7f7fffff
    guard ((f, nan, big) ∈ numberFormats)
    let p : Bool := true
    let q : Bool := false
    let a : Nat := 0x3f800001
    let b : Nat := 0x3f800001
    let c : Nat := 0x3f800000
    let ps : Bool := ((codeSign f a != codeSign f b) != p)
    let cs : Bool := (codeSign f c != q)
    guard (codeFinite f a = true)
    guard (codeFinite f b = true)
    guard (codeFinite f c = true)
    let t : Int := (if ps then (-1 : Int) else 1) * (codeMag f a * codeMag f b : Nat) + (if cs then (-1 : Int) else 1) * (codeMag f c * 2 ^ unitExp f : Nat)
    guard (t ≠ 0)
    some () : Option Unit) = some () := by decide +kernel
theorem test_RoundingCore_28 : (do
    let f : Fmt := f32Fmt
    let nan : Nat := 0x7fc00000
    let big : Nat := 0x7f7fffff
    guard ((f, nan, big) ∈ numberFormats)
    let a : Nat := 0xffc00001
    guard (codeNan f a = true)
    some () : Option Unit) = some () := by decide +kernel
theorem test_RoundingCore_29 : (do
    let f : Fmt := f32Fmt
    let nan : Nat := 0x7fc00000
    let big : Nat := 0x7f7fffff
    guard ((f, nan, big) ∈ numberFormats)
    let a : Nat := 0xff800000
    guard (codeNan f a = false)
    guard (codeMag f a ≠ 0)
    guard (codeSign f a = true)
    some () : Option Unit) = some () := by decide +kernel
theorem test_RoundingCore_30 : (do
    let f : Fmt := f32Fmt
    let nan : Nat := 0x7fc00000
    let big : Nat := 0x7f7fffff
    guard ((f, nan, big) ∈ numberFormats)
    let a : Nat := 0x7f800000
    guard (codeInf f a = true)
    guard (codeSign f a = false)
    some () : Option Unit) = some () := by decide +kernel
theorem test_RoundingCore_31 : (do
    let f : Fmt := f32Fmt
    let nan : Nat := 0x7fc00000
    let big : Nat := 0x7f7fffff
    guard ((f, nan, big) ∈ numberFormats)
    let a : Nat := 0x80000000
    guard (codeFinite f a = true)
    guard (codeMag f a = 0)
    some () : Option Unit) = some () := by decide +kernel
theorem test_RoundingCore_32 : (do
    let f : Fmt := f16Fmt
    let nan : Nat := 0x7e00
    let big : Nat := 0x7bff
    guard ((f, nan, big) ∈ numberFormats)
    let a : Nat := 0x3c00
    guard (codeFinite f a = true)
    guard (codeMag f a ≠ 0)
    guard (codeSign f a = false)
    let m : Nat := 0x1000
    let p : Nat := 12
    guard (2 ^ (f.fb + 1) ≤ m)
    guard (m * m * 2 ^ unitExp f = codeMag f a * 4 ^ p)
    some () : Option Unit) = some () := by decide +kernel
theorem test_RoundingCore_33 : (do
    let f : Fmt := f16Fmt
    let nan : Nat := 0x7e00
    let big : Nat := 0x7bff
    guard ((f, nan, big) ∈ numberFormats)
    let a : Nat := 0x4000
    guard (codeFinite f a = true)
    guard (codeMag f a ≠ 0)
    guard (codeSign f a = false)
    let m : Nat := 11585
    let p : Nat := 13
    guard (2 ^ (f.fb + 1) ≤ m)
    guard (m * m * 2 ^ unitExp f < codeMag f a * 4 ^ p)
    guard (codeMag f a * 4 ^ p < (m + 1) * (m + 1) * 2 ^ unitExp f)
    some () : Option Unit) = some () := by decide +kernel
theorem test_RoundingCore_34 : (do
    let td : Ty := .f16
    let ts : Ty := .f32
    let nan : Nat := 0x7e00
    let big : Nat := 0x7bff
    let x : Nat := 0x7f800001
    let fd ← Ty.fmt? td
    let fs ← Ty.fmt? ts
    guard ((fd, nan, big) ∈ numberFormats)
    guard (codeNan fs x = true)
    some () : Option Unit) = some () := by decide +kernel
theorem test_RoundingCore_35 : (do
    let td : Ty := .f16
    let ts : Ty := .f32
    let nan : Nat := 0x7e00
    let big : Nat := 0x7bff
    let x : Nat := 0xff800000
    let fd ← Ty.fmt? td
    let fs ← Ty.fmt? ts
    guard ((fd, nan, big) ∈ numberFormats)
    guard (codeInf fs x = true)
    some () : Option Unit) = some () := by decide +kernel
theorem test_RoundingCore_36 : (do
    let td : Ty := .f16
    let ts : Ty := .f32
    let nan : Nat := 0x7e00
    let big : Nat := 0x7bff
    let x : Nat := 0x80000000
    let fd ← Ty.fmt? td
    let fs ← Ty.fmt? ts
    guard ((fd, nan, big) ∈ numberFormats)
    guard (codeFinite fs x = true)
    guard (codeMag fs x = 0)
    some () : Option Unit) = some () := by decide +kernel
theorem test_RoundingCore_37 : (do
    let td : Ty := .f16
    let ts : Ty := .f32
    let nan : Nat := 0x7e00
    let big : Nat := 0x7bff
    let x : Nat := 0x477ff000
    let fd ← Ty.fmt? td
    let fs ← Ty.fmt? ts
    guard ((fd, nan, big) ∈ numberFormats)
    guard (codeFinite fs x = true)
    guard (codeMag fs x ≠ 0)
    some () : Option Unit) = some () := by decide +kernel
theorem test_RoundingCore_38 : (do
    let td : Ty := .i32
    let ts : Ty := .f32
    let x : Nat := 0x7f800001
    let ty ← Ty.int? td
    let fs ← Ty.fmt? ts
    guard (codeNan fs x = true)
    some () : Option Unit) = some () := by decide +kernel
theorem test_RoundingCore_39 : (do
    let td : Ty := .i32
    let ts : Ty := .f32
    let x : Nat := 0xff800000
    let ty ← Ty.int? td
    let fs ← Ty.fmt? ts
    guard (codeInf fs x = true)
    some () : Option Unit) = some () := by decide +kernel
theorem test_RoundingCore_40 : (do
    let td : Ty := .i32
    let ts : Ty := .f32
    let x : Nat := 0x4f800000
    let rm : Rm := .rne
    let ty ← Ty.int? td
    let fs ← Ty.fmt? ts
    let n : Nat := IntTy.width ty
    let hi : Int := (if IntTy.signed ty then (2 ^ (n - 1) : Nat) else (2 ^ n : Nat)) - 1
    let v : Int := (if codeSign fs x then (-1 : Int) else 1) * (nearby rm (codeSign fs x) (codeMag fs x) (2 ^ unitExp fs) : Nat)
    guard (codeFinite fs x = true)
    guard (hi < v)
    some () : Option Unit) = some () := by decide +kernel
theorem test_RoundingCore_41 : (do
    let td : Ty := .i32
    let ts : Ty := .f32
    let x : Nat := 0xcf800000
    let rm : Rm := .rne
    let ty ← Ty.int? td
    let fs ← Ty.fmt? ts
    let n : Nat := IntTy.width ty
    let lo : Int := (if IntTy.signed ty then -((2 ^ (n - 1) : Nat) : Int) else 0)
    let v : Int := (if codeSign fs x then (-1 : Int) else 1) * (nearby rm (codeSign fs x) (codeMag fs x) (2 ^ unitExp fs) : Nat)
    guard (codeFinite fs x = true)
    guard (v < lo)
    some () : Option Unit) = some () := by decide +kernel
theorem test_RoundingCore_42 : (do
    let td : Ty := .i32
    let ts : Ty := .f32
    let x : Nat := 0xc0490fdb
    let rm : Rm := .rne
    let ty ← Ty.int? td
    let fs ← Ty.fmt? ts
    let n : Nat := IntTy.width ty
    let lo : Int := (if IntTy.signed ty then -((2 ^ (n - 1) : Nat) : Int) else 0)
    let hi : Int := (if IntTy.signed ty then (2 ^ (n - 1) : Nat) else (2 ^ n : Nat)) - 1
    let v : Int := (if codeSign fs x then (-1 : Int) else 1) * (nearby rm (codeSign fs x) (codeMag fs x) (2 ^ unitExp fs) : Nat)
    guard (codeFinite fs x = true)
    guard (lo ≤ v)
    guard (v ≤ hi)
    some () : Option Unit) = some () := by decide +kernel
theorem test_RoundingCore_43 : (do
    let td : Ty := .f16
    let ts : Ty := .i8
    let nan : Nat := 0x7e00
    let big : Nat := 0x7bff
    let x : Nat := 0x100
    let fd ← Ty.fmt? td
    let ty ← Ty.int? ts
    guard ((fd, nan, big) ∈ numberFormats)
    guard (intOf ty x = 0)
    some () : Option Unit) = some () := by decide +kernel
theorem test_RoundingCore_44 : (do
    let td : Ty := .f16
    let ts : Ty := .i32
    let nan : Nat := 0x7e00
    let big : Nat := 0x7bff
    let x : Nat := 0xffffffff80000001
    let fd ← Ty.fmt? td
    let ty ← Ty.int? ts
    guard ((fd, nan, big) ∈ numberFormats)
    guard (intOf ty x ≠ 0)
    some () : Option Unit) = some () := by decide +kernel
theorem test_RoundingCore_45 : (do
    let td : Ty := .i8
    let ts : Ty := .i16
    let ty ← Ty.int? td
    let tz ← Ty.int? ts
    some () : Option Unit) = some () := by decide +kernel
theorem test_VectorFloats_1 : (do
    let i : Instr := .vfadd .f64 .rne 4 1 2 1
    let s : State := on vecs
    let c : Nat := 0
    let (d, a, b, m, ty, f) ← floatTwo i
    guard (s.atSlot c = true)
    let (mk, s1) ← s.maskOf c m
    let (x, s2) ← s1.lanes c a mk
    let (y, s3) ← s2.lanes c b mk
    let r : Nat → W64 × Nat := fun l => mapElems (fpFmt ty).width fun j => f (s.core c) (elemOf (fpFmt ty).width j (x.getD l 0)) (elemOf (fpFmt ty).width j (y.getD l 0))
    let s4 ← s3.giveLanes c d mk (fun l => (r l).1)
    some () : Option Unit) = some () := by decide +kernel
theorem test_VectorFloats_2 : (do
    let i : Instr := .vfsqrt .f32 .rne 4 5 1
    let s : State := on vecs
    let c : Nat := 0
    let (d, a, m, ty, f) ← floatOne i
    guard (s.atSlot c = true)
    let (mk, s1) ← s.maskOf c m
    let (x, s2) ← s1.lanes c a mk
    let r : Nat → W64 × Nat := fun l => mapElems (fpFmt ty).width fun j => f (s.core c) (elemOf (fpFmt ty).width j (x.getD l 0))
    let s3 ← s2.giveLanes c d mk (fun l => (r l).1)
    some () : Option Unit) = some () := by decide +kernel
theorem test_VectorFloats_3 : (do
    let i : Instr := .vfma .f64 .rtz 4 1 2 3 1
    let s : State := on vecs
    let c : Nat := 0
    let (d, a, b, e, m, ty, rm, p, q) ← fused i
    guard (s.atSlot c = true)
    let (mk, s1) ← s.maskOf c m
    let (x, s2) ← s1.lanes c a mk
    let (y, s3) ← s2.lanes c b mk
    let (z, s4) ← s3.lanes c e mk
    let r : Nat → W64 × Nat := fun l => mapElems (fpFmt ty).width fun j => fFma (fpFmt ty) ((s.core c).rm rm) p q (elemOf (fpFmt ty).width j (x.getD l 0)) (elemOf (fpFmt ty).width j (y.getD l 0)) (elemOf (fpFmt ty).width j (z.getD l 0))
    let s5 ← s4.giveLanes c d mk (fun l => (r l).1)
    some () : Option Unit) = some () := by decide +kernel
theorem test_VectorFloats_4 : (do
    let i : Instr := .vfmulk .f32 .rne 4 5 1 0 2
    let s : State := on vecs
    let c : Nat := 0
    let (d, a, m, kw, ko, n, f) ← constantForm i
    guard (s.atSlot c = true)
    let (mk, s1) ← s.maskOf c m
    let (x, s2) ← s1.lanes c a mk
    let w ← (s.core c).constOf kw ko
    let r : Nat → W64 × Nat := fun l => mapElems n fun j => f (s.core c) (elemOf n j (x.getD l 0)) (w.toNat % 2 ^ n)
    let s3 ← s2.giveLanes c d mk (fun l => (r l).1)
    some () : Option Unit) = some () := by decide +kernel
theorem test_VectorFloats_5 : (do
    let td : Ty := .f32
    let ts : Ty := .f64
    let rm : RmF := .rne
    let sat : Bool := false
    let part : BitVec 3 := 1
    let s : State := on vecs
    let c : Nat := 0
    let d : Reg := 4
    let a : Reg := 5
    let m : Reg := 1
    guard (s.atSlot c = true)
    let (mk, s1) ← s.maskOf c m
    let (x, s2) ← s1.lanes c a mk
    let (old, s3) ← if Ty.width td < Ty.width ts then s2.lanes c d mk else some ([], s2)
    let wd := Ty.width td
    let ws := Ty.width ts
    let e := 64 / max wd ws
    let r : Nat → W64 × Nat := fun l => mapElems wd fun j => if ws ≤ wd then convert td ts ((s.core c).rm rm) sat (elemOf ws ((if wd = ws then 0 else part.toNat * e) + j) (x.getD l 0)) else if part.toNat * e ≤ j ∧ j < part.toNat * e + e then convert td ts ((s.core c).rm rm) sat (elemOf ws (j - part.toNat * e) (x.getD l 0)) else (elemOf wd j (old.getD l 0), 0)
    let s4 ← s3.giveLanes c d mk (fun l => (r l).1)
    some () : Option Unit) = some () := by decide +kernel
theorem test_LaneMoves_1 : (do
    let s : State := on vecs
    let c : Nat := 0
    let d : Reg := 4
    let a : Reg := 1
    let m : Reg := 1
    guard (s.atSlot c = true)
    let (x, s1) ← s.take c true a
    let (mk, s2) ← s1.maskOf c m
    let s3 ← s2.giveLanes c d mk (fun _ => x)
    some () : Option Unit) = some () := by decide +kernel
theorem test_LaneMoves_2 : (do
    let s : State := on vecs
    let c : Nat := 0
    let d : Reg := 4
    let m : Reg := 1
    let kw : BitVec 3 := 0
    let ko : BitVec 17 := 2
    guard (s.atSlot c = true)
    let (mk, s1) ← s.maskOf c m
    let w ← (s.core c).constOf kw ko
    let s2 ← s1.giveLanes c d mk (fun _ => w)
    some () : Option Unit) = some () := by decide +kernel
theorem test_LaneMoves_3 : (do
    let s : State := on vecs
    let c : Nat := 0
    let d : Reg := 4
    let a : Reg := 1
    let b : Reg := 9
    guard (s.atSlot c = true)
    let (x, s1) ← s.take c true a
    let (i, s2) ← s1.take c true b
    let s3 ← s2.giveLanes c d (if i.toNat < 16 then 2 ^ i.toNat else 0) (fun _ => x)
    some () : Option Unit) = some () := by decide +kernel
theorem test_LaneMoves_4 : (do
    let s : State := on vecs
    let c : Nat := 0
    let d : Reg := 4
    let a : Reg := 1
    let b : Reg := 9
    guard (s.atSlot c = true)
    let (x, s1) ← s.lanes c a 0xffff
    let (i, s2) ← s1.take c true b
    let s3 ← s2.give c true d (if i.toNat < 16 then x.getD i.toNat 0 else 0)
    some () : Option Unit) = some () := by decide +kernel
theorem test_LaneMoves_5 : (do
    let s : State := on vecs
    let c : Nat := 0
    let d : Reg := 4
    let a : Reg := 1
    let m : Reg := 1
    guard (s.atSlot c = true)
    let (mk, s1) ← s.maskOf c m
    let (x, s2) ← s1.lanes c a mk
    let s3 ← s2.give c true d (ofBits 16 fun l => laneOn mk l && x.getD l 0 != 0)
    some () : Option Unit) = some () := by decide +kernel
theorem test_LaneMoves_6 : (do
    let w : Word96 := 0x0a80000008003000000c0000
    guard ((fOpc w = 0xa8 ∨ fOpc w = 0xac))
    guard ((rB (fLow w) ≠ 0 ∨ rC (fLow w) ≠ 0))
    some () : Option Unit) = some () := by decide +kernel
theorem test_LaneMoves_7 : (do
    let w : Word96 := 0x0a90000008400003c003ffc0
    guard (fOpc w = 0xa9)
    guard ((fA w ≠ 0 ∨ kZ (fLow w) ≠ 0))
    some () : Option Unit) = some () := by decide +kernel
theorem test_LaneMoves_8 : (do
    let w : Word96 := 0x0aa0000008400003c003ffb0
    guard ((fOpc w = 0xaa ∨ fOpc w = 0xab))
    guard (rM (fLow w) ≠ 0xfff)
    some () : Option Unit) = some () := by decide +kernel
theorem test_Permutes_1 : (do
    let i : Instr := .vperm 4 1 0xff8 1
    let s : State := on vecs
    let c : Nat := 0
    let (d, a, b, m, f) ← permuted i
    guard (s.atSlot c = true)
    let (x, s1) ← s.lanes c a 0xffff
    let (y, s2) ← s1.lanes c b 0xffff
    let (mk, s3) ← s2.maskOf c m
    let s4 ← s3.giveLanes c d mk (f x y)
    some () : Option Unit) = some () := by decide +kernel
theorem test_Permutes_2 : (do
    let s : State := on vecs
    let c : Nat := 0
    let d : Reg := 4
    let a : Reg := 5
    let b : Reg := 12
    let m : Reg := 1
    guard (s.atSlot c = true)
    let (x, s1) ← s.lanes c a 0xffff
    let (r, s2) ← s1.take c true b
    let (mk, s3) ← s2.maskOf c m
    let s4 ← s3.giveLanes c d mk (fun l => x.getD ((l + r.toNat) % 16) 0)
    some () : Option Unit) = some () := by decide +kernel
theorem test_Permutes_3 : (do
    let s : State := on vecs
    let c : Nat := 0
    let d : Reg := 4
    let a : Reg := 5
    let b : Reg := 10
    guard (s.atSlot c = true)
    let (x, s1) ← s.lanes c a 0xffff
    let (w, s2) ← s1.take c true b
    let s3 ← s2.giveLanes c d 0xffff (compressed x w)
    some () : Option Unit) = some () := by decide +kernel
theorem test_Permutes_4 : (do
    let s : State := on vecs
    let c : Nat := 0
    let d : Reg := 4
    let a : Reg := 5
    let b : Reg := 10
    guard (s.atSlot c = true)
    let (x, s1) ← s.lanes c a 0xffff
    let (w, s2) ← s1.take c true b
    let s3 ← s2.giveLanes c d 0xffff (expanded x w)
    some () : Option Unit) = some () := by decide +kernel
theorem test_Permutes_5 : (do
    let w : Word96 := 0x0b00000008400000400c0000
    guard ((fOpc w = 0xb0 ∨ fOpc w = 0xb1))
    guard (rC (fLow w) ≠ 0)
    some () : Option Unit) = some () := by decide +kernel
theorem test_Permutes_6 : (do
    let w : Word96 := 0x0b200040140018003ffc0001
    let .ok i := decode w | none
    guard (fOpc w = 0xb2)
    some () : Option Unit) = some () := by decide +kernel
theorem test_Permutes_7 : (do
    let w : Word96 := 0x0b300040140018003ffc0001
    let .ok i := decode w | none
    guard (fOpc w = 0xb3)
    some () : Option Unit) = some () := by decide +kernel
theorem test_Permutes_8 : (do
    let w : Word96 := 0x0b40000008400003c003ffb0
    guard ((fOpc w = 0xb4 ∨ fOpc w = 0xb5))
    guard (rM (fLow w) ≠ 0xfff)
    some () : Option Unit) = some () := by decide +kernel
theorem test_Reductions_1 : (do
    let i : Instr := .vredadd .i64 3 5 1
    let s : State := on vecs
    let c : Nat := 0
    let (d, a, m, ty, f) ← reduction i
    guard (s.atSlot c = true)
    let (mk, s1) ← s.maskOf c m
    let (x, s2) ← s1.lanes c a mk
    let s3 ← s2.give c true d (resOf ty (f (enabled (IntTy.width ty) mk x)))
    some () : Option Unit) = some () := by decide +kernel
theorem test_Reductions_2 : (do
    let s : State := on vecs
    let c : Nat := 0
    let d : Reg := 3
    let a : Reg := 9
    let m : Reg := 1
    guard (s.atSlot c = true)
    let (x, s1) ← s.take c true a
    let (mk, s2) ← s1.maskOf c m
    let s3 ← s2.give c true d (BitVec.ofNat 64 ((List.range 16).filter fun l => x.getLsbD l && laneOn mk l).length)
    some () : Option Unit) = some () := by decide +kernel
theorem test_Reductions_3 : (do
    let i : Instr := .vfredadd .f64 .rne 3 1 1
    let s : State := on vecs
    let c : Nat := 0
    let (d, a, m, f) ← floatReduction i
    guard (s.atSlot c = true)
    let (mk, s1) ← s.maskOf c m
    let (x, s2) ← s1.lanes c a mk
    let s3 ← (flagged s2 c (BitVec.ofNat 64 ((f (s.core c) x mk).2 % 32))).give c true d (BitVec.ofNat 64 (f (s.core c) x mk).1)
    some () : Option Unit) = some () := by decide +kernel
theorem test_ExactAccumulators_3 : (do
    let s : State := exact
    let c : Nat := 0
    let m : Reg := 1
    guard (s.atSlot c = true)
    guard (s.feat 5 = true)
    let (mk, s1) ← s.maskOf c m
    let d := 4
    let s2 ← s1.giveLanes c d mk (fun l => (signAcc (tget {} (s.core c).xa l)).1)
    some () : Option Unit) = some () := by decide +kernel
theorem test_ExactAccumulators_4 : (do
    let s : State := exact
    let c : Nat := 0
    let m : Reg := 1
    guard (s.atSlot c = true)
    guard (s.feat 5 = true)
    let (mk, s1) ← s.maskOf c m
    let d := 4
    let rm := .rne
    let s2 ← s1.giveLanes c d mk (fun l => (roundAcc ((s.core c).rm rm) (tget {} (s.core c).xa l)).1)
    some () : Option Unit) = some () := by decide +kernel
theorem test_ExactAccumulators_6 : (do
    let s : State := exact
    let c : Nat := 0
    let a : Reg := 5
    let m : Reg := 1
    guard (s.atSlot c = true)
    guard (s.feat 5 = true)
    let (mk, s1) ← s.maskOf c m
    let (x, s2) ← s1.lanes c a mk
    let b := 6
    let (y, s3) ← s2.lanes c b mk
    some () : Option Unit) = some () := by decide +kernel
theorem test_ExactImages_1 : (do
    let s : State := { exact with cores := [(0, { exact.core 0 with l1tlb := [page], rs := store 16 fun i => if i = 9 then 0 else 0x2000 })] }
    let c : Nat := 0
    let a : Reg := 10
    let m : Reg := 9
    guard (s.atSlot c = true)
    guard (s.feat 5 = true)
    guard ((s.core c).resume = none)
    let (x, s1) ← s.take c true a
    let (mk, s2) ← s1.maskOf c m
    guard (x.toNat % 8 = 0)
    let so := imagesMeetSo s2 c .store mk x
    guard (lanesGo mk (fun l => imageStored c so l (x + BitVec.ofNat 64 (536 * l))) s2)
    some () : Option Unit) = some () := by decide +kernel
theorem test_ExactImages_2 : (do
    let s : State := { exact with cores := [(0, { exact.core 0 with l1tlb := [page], rs := store 16 fun i => if i = 9 then 0x8000 else 0x2000 })] }
    let c : Nat := 0
    let a : Reg := 10
    let m : Reg := 9
    guard (s.atSlot c = true)
    guard (s.feat 5 = true)
    guard ((s.core c).resume = none)
    let (x, s1) ← s.take c true a
    let (mk, s2) ← s1.maskOf c m
    guard (x.toNat % 8 = 0)
    let so := imagesMeetSo s2 c .load mk x
    guard (lanesGo mk (fun l => imageLoaded c so l (x + BitVec.ofNat 64 (536 * l))) s2)
    some () : Option Unit) = some () := by decide +kernel
theorem test_MatrixIssue_1 : (do
    let i : Instr := .mma .f16 true true false true 1 2 2 { p1 := 3, p2 := 7, cid := 2, v1 := true, v2 := true }
    let s : State := tiled
    let c : Nat := 0
    let (p, ids, ra, rb) ← command i
    guard (s.atSlot c = true)
    guard ((p.op = .tldq → s.feat 0 = true))
    guard ((∀ y ∈ (s.core c).cmds, y.cid ≠ ids.cid.toNat))
    guard ((s.core c).cmds.length < 32)
    guard ((s.seqU (c / 8)).inst.all fun x => (s.core c).inst == some x)
    let (wa, s1) ← takeAny s c ra
    let (wb, s2) ← takeAny s1 c rb
    guard (shaped p (tget 0xbf80 (s.core c).tcfg p.d).toNat (tget 0xbf80 (s.core c).tcfg p.a).toNat (tget 0xbf80 (s.core c).tcfg p.b).toNat wb = true)
    guard (recordAligned p wa = true)
    guard ((s.seqU (c / 8)).gangRef.contains (s.core c).gang = false)
    some () : Option Unit) = some () := by decide +kernel
theorem test_Waits_1 : (do
    let d : Reg := 5
    let cid : BitVec 6 := 9
    let seq : Bool := false
    let s : State := tiled
    let c : Nat := 0
    guard (s.atSlot c = true)
    guard (d.toNat < 0xf80)
    let cmds : List Cmd := (if seq then (s.seqU (c / 8)).cmds else (s.core c).cmds)
    let recs : List (Nat × W64) := (if seq then (s.seqU (c / 8)).recs else (s.core c).recs)
    guard ((∀ y ∈ cmds, y.cid ≠ cid.toNat))
    let s1 ← (s.settleRace c).give c false d (match recs.find? fun x => x.1 == cid.toNat with | some x => x.2 | none => BitVec.ofNat 64 (1024 * cid.toNat + 4))
    some () : Option Unit) = some () := by decide +kernel
theorem test_Waits_2 : (do
    let d : Reg := 5
    let a : Reg := 2
    let s : State := ringed
    let c : Nat := 0
    guard (s.atSlot c = true)
    guard (a.toNat < 8)
    let s1 ← s.give c false d (match (channel s c a.toNat).bind with | none => 0 | some b => BitVec.ofNat 64 (2 ^ 31 + (if (channel s c a.toNat).stop = some b.id then 2 ^ 30 else 0) + (if b.cons.isNone then 2 ^ 29 else 0) + 2 ^ 24 * copiesOf (channel s c a.toNat) + 2 ^ 11 * (match b.cons with | some x => x.2 | none => 0) + b.consIdx))
    some () : Option Unit) = some () := by decide +kernel
theorem test_Waits_3 : (do
    let d : Reg := 5
    let a : Reg := 9
    let b : Reg := 2
    let s : State := ringed
    let c : Nat := 0
    guard (s.atSlot c = true)
    let (x, s1) ← s.take c false a
    let (n, s2) ← s1.take c false b
    let (k, o, logn) ← ringNamed s2 c x
    guard (n.toNat ≤ 2 ^ logn)
    guard (n.toNat ≤ ringHolds s2 k o)
    let s3 ← (s2.settleRace c).give c false d (BitVec.ofNat 64 (ringHolds s2 k o))
    some () : Option Unit) = some () := by decide +kernel
theorem test_Waits_4 : (do
    let d : Reg := 8
    let a : Reg := 11
    let try_ : Bool := true
    let s : State := ringed
    let c : Nat := 0
    guard (s.atSlot c = true)
    let (x, s1) ← s.take c false a
    let (k, o, logn) ← ringNamed s1 c x
    guard (blockHeld (s1.core c) d 4 = true)
    guard (try_ = true)
    guard ((s1.core k).spad.le o 4 = (s1.core k).spad.le (o + 4) 4)
    some () : Option Unit) = some () := by decide +kernel
theorem test_Waits_5 : (do
    let d : Reg := 8
    let a : Reg := 9
    let s : State := ringed
    let c : Nat := 0
    guard (s.atSlot c = true)
    let (x, s1) ← s.take c false a
    let (k, o, logn) ← ringNamed s1 c x
    guard (blockHeld (s1.core c) d 4 = true)
    guard ((s1.core k).spad.le o 4 ≠ (s1.core k).spad.le (o + 4) 4)
    let t := (s1.core k).spad.le (o + 4) 4
    let at_ := o + 32 + 32 * (t % 2 ^ logn)
    guard (at_ + 32 ≤ 0x40000)
    let s2 := blockWritten (s1.settleRace c) c d 4 (wordOf ((s1.core k).spad.rec at_))
    let (_, s3) ← okOf ((storeLoc (.spad k (o + 4)) 4 ((t + 1) % 2 ^ 32)).run s2)
    some () : Option Unit) = some () := by decide +kernel
theorem test_ChannelIssue_2 : (do
    let d : Reg := 2
    let a : Reg := 5
    let b : Reg := 7
    let e : Reg := 6
    let s : State := ringed
    let c : Nat := 0
    guard (s.atSlot c = true)
    guard (d.toNat < 8)
    let (x, s1) ← s.take c true a
    let (y, s2) ← s1.take c true b
    let (z, s3) ← s2.take c true e
    let bd ← (channel s3 c d.toNat).bind
    guard (copiesOf (channel s3 c d.toNat) < 16)
    guard ((s3.engU (c / 32)).inst.all fun g => (s3.core c).inst == some g)
    guard (x.toNat % 64 = 0)
    guard (y.toNat % 64 = 0)
    some () : Option Unit) = some () := by decide +kernel
theorem test_ChannelIssue_3 : (do
    let d : Reg := 0
    let a : Reg := 2
    let b : Reg := 9
    let s : State := ringed
    let c : Nat := 0
    guard (s.atSlot c = true)
    guard (d.toNat < 8)
    let (x, s1) ← s.take c true a
    let (y, s2) ← s1.take c true b
    guard ((channel s2 c d.toNat).bind = none)
    let ci : Nat := x.toNat / 2 ^ 32
    let n : Nat := x.toNat % 8
    guard (x.toNat % 2 ^ 32 < 16)
    let off : Nat := y.toNat % 2 ^ 32
    guard (off % 64 = 0)
    guard (off < 0x40000)
    let rc : Nat := s2.base c + y.toNat / 2 ^ 32
    guard (y.toNat / 2 ^ 32 < Nat.min 2048 (s2.nP c))
    let logn : Nat := ((s2.core rc).spad.get (off + 8)).toNat
    guard (1 ≤ logn)
    guard (logn ≤ 12)
    guard (off + 32 + 32 * 2 ^ logn ≤ 0x40000)
    guard (x.getLsbD 3 = false)
    guard (ci < Nat.min 2048 (s2.nP c))
    guard (s2.cwpBound (s2.base c + ci) n = false)
    some () : Option Unit) = some () := by decide +kernel
theorem test_ChannelIssue_4 : (do
    let d : Reg := 0
    let a : Reg := 3
    let b : Reg := 9
    let s : State := ringed
    let c : Nat := 0
    guard (s.atSlot c = true)
    guard (d.toNat < 8)
    let (x, s1) ← s.take c true a
    let (y, s2) ← s1.take c true b
    guard ((channel s2 c d.toNat).bind = none)
    let ci : Nat := x.toNat / 2 ^ 32
    let n : Nat := x.toNat % 8
    guard (x.toNat % 2 ^ 32 < 16)
    let off : Nat := y.toNat % 2 ^ 32
    guard (off % 64 = 0)
    guard (off < 0x40000)
    let rc : Nat := s2.base c + y.toNat / 2 ^ 32
    guard (y.toNat / 2 ^ 32 < Nat.min 2048 (s2.nP c))
    let logn : Nat := ((s2.core rc).spad.get (off + 8)).toNat
    guard (1 ≤ logn)
    guard (logn ≤ 12)
    guard (off + 32 + 32 * 2 ^ logn ≤ 0x40000)
    guard (x.getLsbD 3 = true)
    guard (ci = 0)
    guard (n = 0)
    some () : Option Unit) = some () := by decide +kernel
theorem test_Allocators_1 : (do
    let a : Reg := 6
    let sp : Space := .mem
    let s : State := heaped
    let c : Nat := 0
    guard (s.atSlot c = true)
    let (x, s1) ← s.take c false a
    guard (x.toNat % 64 = 0)
    let (l, s2) ← okOf ((accessLoc sp (s1.core c).asid x 64 .store false).run s1)
    guard (s2.badAt l = none)
    let byte : Nat → Byte := fun i => if i = 50 then s2.byteAt (l.shift 50) ||| 1#8 else s2.byteAt (l.shift i)
    let (_, s3) ← okOf ((storeLoc (l.shift 50) 1 (byte 50).toNat).run (recordOver s2 c l))
    let s4 : State := (recordOver s2 c l).storedTo s3 c false (l.shift 50)
    let (_, s5) ← okOf ((storeLoc (l.shift 60) 4 (crc32c ((List.range 60).map byte))).run s4)
    some () : Option Unit) = some () := by decide +kernel
theorem test_Allocators_2 : (do
    let d : Reg := 5
    let a : Reg := 1
    let nf : Bool := true
    let s : State := mapped
    let c : Nat := 0
    guard (s.atSlot c = true)
    let (n, s1) ← s.take c false a
    guard (1 ≤ n.toNat)
    guard (n.toNat ≤ 65536)
    guard (nf = true)
    guard ((s1.resident c).isNone)
    let s2 ← s1.giveLate c .alloc d 0
    some () : Option Unit) = some () := by decide +kernel
theorem test_Allocators_3 : (do
    let a : Reg := 0xfff
    let s : State := heaped
    let c : Nat := 0
    guard (s.atSlot c = true)
    let (x, s1) ← s.take c false a
    guard (x = 0)
    some () : Option Unit) = some () := by decide +kernel
theorem test_Allocators_4 : (do
    let a : Reg := 4
    let s : State := heaped
    let c : Nat := 0
    guard (s.atSlot c = true)
    let (x, s1) ← s.take c false a
    let die := 0
    guard (x ≠ 0)
    let t ← s1.resident c
    let h := s1.heap die t
    guard (die < 8)
    guard ((List.range 8).all fun k => decide (s1.heap k t ≠ [] ∧ heapAsid (s1.heap k t) = (s1.core c).asid ∧ heapArena (s1.heap k t) ≤ x.toNat ∧ x.toNat < heapArena (s1.heap k t) + 65536 * heapSpans (s1.heap k t)) == (k == die))
    let (cls0, s2) ← okOf ((blockClass h x.toNat).run s1)
    let cls ← cls0
    let (l, s3) ← okOf ((heapLoc (heapAsid h) x.toNat true).run s2)
    let (_, s4) ← okOf ((heapStore l 8 (heapHead h cls)).run s3)
    some () : Option Unit) = some () := by decide +kernel
theorem test_Allocators_5 : (do
    let h : List Byte := heapBytes
    let x : Nat := 0xfff0
    guard ((x < heapArena h ∨ heapArena h + 65536 * heapSpans h ≤ x))
    some () : Option Unit) = some () := by decide +kernel
theorem test_Allocators_6 : (do
    let h : List Byte := heapBytes
    let x : Nat := 0x10040
    let s : State := heaped
    guard (heapArena h ≤ x)
    guard (x < heapArena h + 65536 * heapSpans h)
    let (l, s1) ← okOf ((heapLoc (heapAsid h) (heapMap h + (x - heapArena h) / 65536) false).run s)
    let (m, s2) ← okOf ((loadLoc l 1).run s1)
    some () : Option Unit) = some () := by decide +kernel
theorem test_Allocators_7 : (do
    let h : List Byte := heapBytes
    let cls : Nat := 1
    let s : State := heaped
    guard (cls < 13)
    let x := heapHead h cls
    guard (x ≠ 0)
    let (r, s1) ← okOf ((blockClass h x).run s)
    guard (r = some cls)
    let (l, s2) ← okOf ((heapLoc (heapAsid h) x false).run s1)
    let (nx, s3) ← okOf ((loadLoc l 8).run s2)
    some () : Option Unit) = some () := by decide +kernel
theorem test_Allocators_8 : (do
    let h : List Byte := putField heapBytes 24 4 3
    let cls : Nat := 2
    guard (cls < 13)
    let x := heapHead h cls
    guard (h.length = 192)
    guard (x = 0)
    guard (heapSpans h ≤ heapNext h)
    some () : Option Unit) = some () := by decide +kernel
theorem test_Allocators_9 : (do
    let h : List Byte := heapBytes
    let cls : Nat := 12
    let s : State := heaped
    guard (cls < 13)
    let x := heapHead h cls
    guard (h.length = 192)
    let s1 := s
    guard (x = 0)
    guard (heapNext h < heapSpans h)
    let va := heapArena h + 65536 * heapNext h
    guard (0 < va)
    guard (va < 2 ^ 64)
    let size := 16 <<< cls
    let page := rowStates (fun j t => match (heapLoc (heapAsid h) (va + 4096 * j) true).run t with | .ok _ t => some t | .error _ _ => none) s1
    guard (rowsGo 16 (fun j t => match (heapLoc (heapAsid h) (va + 4096 * j) true).run t with | .ok _ t => some t | .error _ _ => none) page)
    guard (page 0 = s1)
    let m := heapMap h + heapNext h
    let (ml, b0) ← okOf ((heapLoc (heapAsid h) m true).run (page 16))
    let block := rowStates (fun j t => match (heapLoc (heapAsid h) (va + j * size) true).run t with | .error _ _ => none | .ok l t => match (heapStore l 8 (if (j + 1) * size < 65536 then va + (j + 1) * size else 0)).run t with | .ok _ t => some t | .error _ _ => none) b0
    guard (rowsGo (65536 / size) (fun j t => match (heapLoc (heapAsid h) (va + j * size) true).run t with | .error _ _ => none | .ok l t => match (heapStore l 8 (if (j + 1) * size < 65536 then va + (j + 1) * size else 0)).run t with | .ok _ t => some t | .error _ _ => none) block)
    let (_, s2) ← okOf ((heapStore ml 1 (cls + 1)).run (block (65536 / size)))
    let (l, s3) ← okOf ((heapLoc (heapAsid h) va false).run s2)
    let (nx, s4) ← okOf ((loadLoc l 8).run s3)
    some () : Option Unit) = some () := by decide +kernel
theorem test_SizeClasses_3 : (do
    let n : Nat := 1000
    guard (1 ≤ n)
    guard (n ≤ 65536)
    let k := 5
    guard (k < heapClass n)
    some () : Option Unit) = some () := by decide +kernel
theorem test_SizeClasses_4 : (do
    let d : Reg := 5
    let a : Reg := 2
    let nf : Bool := false
    let s : State := heaped
    let c : Nat := 0
    guard (s.atSlot c = true)
    let (n, s1) ← s.take c false a
    guard (1 ≤ n.toNat)
    guard (n.toNat ≤ 65536)
    let t ← s1.resident c
    guard (s1.heap (c / 256) t ≠ [])
    guard (heapAsid (s1.heap (c / 256) t) = (s1.core c).asid)
    let ((x, h), s2) ← okOf ((allocate (s1.heap (c / 256) t) (heapClass n.toNat)).run s1)
    guard ((x ≠ 0 ∨ nf = true))
    let s3 ← State.giveLate { s2 with heaps := tput s2.heaps (256 * (c / 256) + t) h } c .alloc d (BitVec.ofNat 64 x)
    some () : Option Unit) = some () := by decide +kernel
theorem test_SizeClasses_5 : (do
    let d : Reg := 5
    let a : Reg := 7
    let s : State := on { runs nums with rs := store 16 fun i => BitVec.ofNat 64 (i - 7) }
    let c : Nat := 0
    guard (s.atSlot c = true)
    let (n, s1) ← s.take c false a
    guard ((n = 0 ∨ 65536 < n.toNat))
    guard (d.toNat < 0xf80)
    guard (d.toNat < (s.core c).wlim.toNat)
    some () : Option Unit) = some () := by decide +kernel
theorem test_Atomics_1 : (do
    let op : AmoOp := .add
    let ty : AmoTy := .i32
    let sp : Space := .mem
    let d : Reg := 5
    let a : Reg := 6
    let b : Reg := 1
    let s : State := atomic
    let c : Nat := 0
    guard (s.atSlot c = true)
    let (x, s1) ← s.take c false a
    let (y, s2) ← s1.take c false b
    let n : Nat := (amoWidth ty).1
    let (l, s3) ← okOf ((accessLoc sp (s2.core c).asid x n .atomic false).run s2)
    let (old, s4) ← okOf ((readLoc false l n).run s3)
    let (_, s5) ← okOf ((storeLoc l n (amoResult op ty old y)).run s4)
    let s6 ← (s4.storedTo s5 c false l).give c false d (extended n (amoWidth ty).2 old)
    some () : Option Unit) = some () := by decide +kernel
theorem test_Atomics_2 : (do
    let ty : AmoTy := .i64
    let sp : Space := .mem
    let d : Reg := 5
    let a : Reg := 6
    let b : Reg := 7
    let e : Reg := 4
    let s : State := { atomic with mem := [] }
    let c : Nat := 0
    guard (s.atSlot c = true)
    let (x, s1) ← s.take c false a
    let (y, s2) ← s1.take c false b
    let (z, s3) ← s2.take c false e
    let n : Nat := (amoWidth ty).1
    let (l, s4) ← okOf ((accessLoc sp (s3.core c).asid x n .atomic false).run s3)
    let (old, s5) ← okOf ((readLoc false l n).run s4)
    guard (old = y.toNat % 256 ^ n)
    let (_, s6) ← okOf ((storeLoc l n (z.toNat % 256 ^ n)).run s5)
    let s7 ← (s5.storedTo s6 c false l).give c false d (extended n (amoWidth ty).2 old)
    some () : Option Unit) = some () := by decide +kernel
theorem test_Atomics_3 : (do
    let ty : AmoTy := .i64
    let sp : Space := .mem
    let d : Reg := 5
    let a : Reg := 6
    let b : Reg := 3
    let e : Reg := 4
    let s : State := atomic
    let c : Nat := 0
    guard (s.atSlot c = true)
    let (x, s1) ← s.take c false a
    let (y, s2) ← s1.take c false b
    let (z, s3) ← s2.take c false e
    let n : Nat := (amoWidth ty).1
    let (l, s4) ← okOf ((accessLoc sp (s3.core c).asid x n .atomic false).run s3)
    let (old, s5) ← okOf ((readLoc false l n).run s4)
    guard (old ≠ y.toNat % 256 ^ n)
    let (v, s6) ← okOf ((loadOver false l n).run s5)
    let s7 ← s6.give c false d (extended n (amoWidth ty).2 old)
    some () : Option Unit) = some () := by decide +kernel
theorem test_Atomics_4 : (do
    let ty : FpTy := .f32
    let rm : RmF := .rne
    let sp : Space := .mem
    let d : Reg := 5
    let a : Reg := 6
    let b : Reg := 1
    let s : State := atomic
    let c : Nat := 0
    guard (s.atSlot c = true)
    let (x, s1) ← s.take c false a
    let (y, s2) ← s1.take c false b
    let n : Nat := (fpFmt ty).width / 8
    let (l, s3) ← okOf ((accessLoc sp (s2.core c).asid x n .atomic false).run s2)
    let (old, s4) ← okOf ((readLoc false l n).run s3)
    let (_, s5) ← okOf ((storeLoc l n ((fAdd (fpFmt ty) ((s2.core c).rm rm) old (y.toNat % 256 ^ n)).1 % 256 ^ n)).run s4)
    let s6 ← (s4.storedTo s5 c false l).give c false d (BitVec.ofNat 64 old)
    some () : Option Unit) = some () := by decide +kernel
theorem test_Barriers_1 : (do
    let d : Reg := 6
    let a : Reg := 1
    let s : State := on { runs (fun i => BitVec.ofNat 64 ([0, 3, 1023, 2, 2048, 0x500000003].getD i i)) with bars := [(3, { expect := 2, arrived := 1, phase := 65535 }), (1023, { expect := 3, arrived := 1, phase := 7 }), (2, { phase := 9 })] }
    let c : Nat := 0
    guard (s.atSlot c = true)
    let (x, s1) ← s.take c false a
    let (k, i) ← barrierNamed s c x
    guard ((barrier s1 k i).expect ≠ 0)
    let s2 ← State.give (barrierSet s1 k i (arrivedAt (barrier s1 k i))) c false d (BitVec.ofNat 64 (barrier s1 k i).phase)
    some () : Option Unit) = some () := by decide +kernel
theorem test_Barriers_2 : (do
    let d : Reg := 6
    let a : Reg := 1
    let s : State := on { runs (fun i => BitVec.ofNat 64 ([0, 3, 1023, 2, 2048, 0x500000003].getD i i)) with bars := [(3, { expect := 2, arrived := 1, phase := 65535 }), (1023, { expect := 3, arrived := 1, phase := 7 }), (2, { phase := 9 })] }
    let c : Nat := 0
    guard (s.atSlot c = true)
    let (x, s1) ← s.take c false a
    let (k, i) ← barrierNamed s c x
    guard ((barrier s1 k i).expect ≠ 0)
    guard (((s.core c).barAt.all fun p => p.1 != (s.core c).pc))
    guard ((s.give c false d 0).isSome = true)
    some () : Option Unit) = some () := by decide +kernel
theorem test_Barriers_3 : (do
    let d : Reg := 6
    let a : Reg := 1
    let s : State := on { runs (fun i => BitVec.ofNat 64 ([0, 3].getD i i)) with bars := [(3, { expect := 2, arrived := 0, phase := 4 })], barAt := some (0x1000, 0, 3, 3) }
    let c : Nat := 0
    guard (s.atSlot c = true)
    let (pc', k, i, p) ← (s.core c).barAt
    guard (pc' = (s.core c).pc)
    guard ((barrier s k i).phase ≠ p)
    let s1 ← (if (s.core c).barPop ≠ [] ∨ a.toNat < 0xf80 then some s else (s.take c false a).map (·.2))
    guard (noSourceWord a = false ∧ beyond (s.core c) a = false)
    let s2 ← s1.give c false d (BitVec.ofNat 64 (barrier s k i).phase)
    some () : Option Unit) = some () := by decide +kernel
theorem test_Barriers_4 : (do
    let d : Reg := 6
    let a : Reg := 2
    let b : Reg := 4
    let s : State := on { runs (fun i => BitVec.ofNat 64 ([0, 3, 1023, 2, 2048, 0x500000003].getD i i)) with bars := [(3, { expect := 2, arrived := 1, phase := 65535 }), (1023, { expect := 3, arrived := 1, phase := 7 }), (2, { phase := 9 })] }
    let c : Nat := 0
    guard (s.atSlot c = true)
    let (x, s1) ← s.take c false a
    let (y, s2) ← s1.take c false b
    let (k, i) ← barrierNamed s c x
    guard ((barrier s2 k i).phase ≠ y.toNat % 65536)
    let s3 ← s2.give c false d (BitVec.ofNat 64 (barrier s2 k i).phase)
    some () : Option Unit) = some () := by decide +kernel
theorem test_Barriers_5 : (do
    let a : Reg := 0
    let b : Reg := 4
    let s : State := on { runs (fun i => BitVec.ofNat 64 ([0, 3, 1023, 2, 2048, 0x500000003].getD i i)) with bars := [(3, { expect := 2, arrived := 1, phase := 65535 }), (1023, { expect := 3, arrived := 1, phase := 7 }), (2, { phase := 9 })] }
    let c : Nat := 0
    guard (s.atSlot c = true)
    let (x, s1) ← s.take c false a
    let (n, s2) ← s1.take c false b
    let (k, i) ← barrierNamed s c x
    guard (1 ≤ n.toNat)
    guard (n.toNat ≤ 2048)
    guard ((barrier s2 k i).arrived = 0)
    some () : Option Unit) = some () := by decide +kernel
theorem test_Deques_1 : (do
    let a : Reg := 4
    let s : State := { dequed with cores := [(0, { dequed.core 0 with sup := true })] }
    let c : Nat := 0
    guard (s.atSlot c = true)
    guard (blockHeld (s.core c) a 4 = true)
    let r : Rec := recordOf (blockRead s c a 4).1
    guard ((s.core c).sup = true)
    guard (r.ctrl.getLsbD 34 = true)
    guard (s.sysRoom c = true)
    some () : Option Unit) = some () := by decide +kernel
theorem test_Deques_2 : (do
    let a : Reg := 4
    let s : State := dequed
    let c : Nat := 0
    guard (s.atSlot c = true)
    guard (blockHeld (s.core c) a 4 = true)
    let r : Rec := recordOf (blockRead s c a 4).1
    let u : State := (blockRead s c a 4).2
    guard (((s.core c).sup = false ∨ r.ctrl.getLsbD 34 = false))
    guard (dequeLog (s.core c) ≤ 20)
    guard (dequeSpill (s.core c) % 32 = 0)
    guard (dequeHolds (s.core c) < dequeCap (s.core c))
    let s1 ← (match dequeSlot (s.core c) (dequeBot (s.core c)) with | some o => some (touched (spadSet u c ((s.core c).spad.setRec o r)) c o 32) | none => (okOf ((unitWrite (spillWork u c) .mem (dequeSpillAt (s.core c) (dequeBot (s.core c))) r.bytes).run u)).map (fun z => z.2.setCore c { z.2.core c with demand := none }))
    some () : Option Unit) = some () := by decide +kernel
theorem test_Deques_3 : (do
    let d : Reg := 8
    let s : State := dequed
    let c : Nat := 0
    guard (s.atSlot c = true)
    guard (blockHeld (s.core c) d 4 = true)
    let (f, t) ← popped s c
    guard (blockHeld (t.core c) d 4 = true)
    some () : Option Unit) = some () := by decide +kernel
theorem test_Deques_4 : (do
    let d : Reg := 8
    let a : Reg := 0
    let s : State := dequed
    let c : Nat := 0
    guard (s.atSlot c = true)
    let (x, s1) ← s.take c false a
    guard (x.toNat < Nat.min 2048 (s.nP c))
    guard (blockHeld (s.core c) d 4 = true)
    let (f, t) ← stolen s1 c (s.base c + x.toNat)
    guard (blockHeld (t.core c) d 4 = true)
    some () : Option Unit) = some () := by decide +kernel
theorem test_Sends_1 : (do
    let a : Reg := 1
    let s : State := on { runs (fun i => BitVec.ofNat 64 ([0x40, 0x700000080, 0x7ff00000000, 0x8000000000000000, 0].getD i i)) with task := some { job with launch := some 3 } }
    let c : Nat := 0
    guard (s.atSlot c = true)
    let (x, s1) ← s.take c false a
    let dst ← coreNamed s c x
    guard (x.toNat % 2 ^ 32 < 2 ^ 18)
    guard (x.toNat % 32 = 0)
    guard (s1.linkFree dst = true)
    some () : Option Unit) = some () := by decide +kernel
theorem test_Sends_2 : (do
    let a : Reg := 8
    let b : Reg := 2
    let s : State := on { runs (fun i => BitVec.ofNat 64 ([0x40, 0x700000080, 0x7ff00000000, 0x8000000000000000, 0].getD i i)) with task := some { job with launch := some 3 } }
    let c : Nat := 0
    guard (s.atSlot c = true)
    guard (blockHeld (s.core c) a 8 = true)
    let (y, s1) ← (blockRead s c a 8).2.take c false b
    guard (y.toNat % 2 ^ 32 = 0)
    let dst ← coreNamed s c y
    guard (s1.linkFree dst = true)
    some () : Option Unit) = some () := by decide +kernel
theorem test_Sends_3 : (do
    let a : Reg := 8
    let b : Reg := 3
    let s : State := { on { runs (fun i => BitVec.ofNat 64 ([0x40, 0x700000080, 0x7ff00000000, 0x8000000000000000, 0].getD i i)) with task := some { job with launch := some 3 } } with launches := [{ (default : Launch) with no := 3, q := 2 }], queues := [{ (default : Queue) with q := 2, held := true, evbase := 0x4000, evlog := 3, qcb := 0x8000 }] }
    let c : Nat := 0
    guard (s.atSlot c = true)
    guard (blockHeld (s.core c) a 8 = true)
    let (y, s1) ← (blockRead s c a 8).2.take c false b
    guard (y.toNat % 2 ^ 32 = 0)
    guard (y = 0x8000000000000000)
    some () : Option Unit) = some () := by decide +kernel
theorem test_Sends_4 : (do
    let a : Reg := 1
    let b : Reg := 2
    let s : State := on { runs (fun i => BitVec.ofNat 64 ([0x40, 0x700000080, 0x7ff00000000, 0x8000000000000000, 0].getD i i)) with task := some { job with launch := some 3 } }
    let c : Nat := 0
    guard (s.atSlot c = true)
    let (x, s1) ← s.take c false a
    let (y, s2) ← s1.take c false b
    some () : Option Unit) = some () := by decide +kernel
theorem test_TaskEnds_2 : (do
    let s : State := on (runs nums)
    let c : Nat := 0
    guard (s.atSlot c = true)
    let t ← (s.core c).task
    guard ((s.core c).pend = [])
    guard ((s.core c).cmds = [])
    guard ((s.parts.all fun p => p.core != some c || p.reg == 0xfff) = true)
    guard (t.kind ≠ .member)
    guard (((s.core c).inTrap = false ∨ (s.core c).trapCode = 0 ∨ (s.core c).requeued = true))
    some () : Option Unit) = some () := by decide +kernel
theorem test_TaskEnds_3 : (do
    let s : State := { on { runs nums with inTrap := true, trapCode := 4, task := some { job with launch := some 3 } } with launches := [{ (default : Launch) with no := 3, st := .running }] }
    let c : Nat := 0
    guard (s.atSlot c = true)
    let t ← (s.core c).task
    guard ((s.core c).pend = [])
    guard ((s.core c).cmds = [])
    guard ((s.parts.all fun p => p.core != some c || p.reg == 0xfff) = true)
    guard (t.kind ≠ .member)
    guard (t.kind ≠ .firmware)
    guard ((s.core c).inTrap = true)
    guard ((s.core c).trapCode ≠ 0)
    guard ((s.core c).requeued = false)
    some () : Option Unit) = some () := by decide +kernel
theorem test_TaskEnds_4 : (do
    let s : State := team
    let c : Nat := 0
    guard (s.atSlot c = true)
    let t ← (s.core c).task
    guard ((s.core c).pend = [])
    guard ((s.core c).cmds = [])
    guard ((s.parts.all fun p => p.core != some c || p.reg == 0xfff) = true)
    guard (t.kind = .member)
    guard ((s.core c).inTrap = false)
    let i ← (s.core c).inst
    let x ← tget none s.insts i
    some () : Option Unit) = some () := by decide +kernel
theorem test_TaskEnds_5 : (do
    let s : State := on { runs nums with cmds := [cmd0] }
    let c : Nat := 0
    guard (s.atSlot c = true)
    guard ((s.core c).pend ≠ [] ∨ (s.core c).cmds ≠ [] ∨ (s.parts.any fun p => p.core == some c && p.reg != 0xfff) = true)
    some () : Option Unit) = some () := by decide +kernel
theorem test_Teams_1 : (do
    let d : Reg := 5
    let s : State := team
    let c : Nat := 0
    guard (s.atSlot c = true)
    let s1 ← s.give c false d (match (s.core c).inst.bind (tget none s.insts) with | none => 0 | some x => BitVec.ofNat 64 (2 ^ 32 * x.k + 2 ^ 16 * (x.group (s.core c).role).length + 2 ^ 8 * ((x.group (s.core c).role).findIdx? (· == c)).getD 0 + (if x.clu then 16 else 0) + (s.core c).role))
    some () : Option Unit) = some () := by decide +kernel
theorem test_Teams_2 : (do
    let d : Reg := 5
    let a : Reg := 2
    let s : State := team
    let c : Nat := 0
    guard (s.atSlot c = true)
    let (x, s1) ← s.take c false a
    let s2 ← s1.give c false d (match ((s1.core c).inst.bind (tget none s1.insts)).bind (·.role (x.toNat % 16)) with | none => 0 | some (kind, where_, _, mem) => BitVec.ofNat 64 (2 ^ 56 * kind + 2 ^ 48 * where_ + mem))
    some () : Option Unit) = some () := by decide +kernel
theorem test_Teams_3 : (do
    let a : Reg := 5
    let lmap : BitVec 16 := 5
    let s : State := on (runs nums)
    let c : Nat := 0
    guard (s.atSlot c = true)
    guard (listHeld (s.core c) a lmap = true)
    guard ((s.core c).inst = none)
    some () : Option Unit) = some () := by decide +kernel
theorem test_Teams_4 : (do
    let role : BitVec 4 := 1
    let rcv : BitVec 4 := 2
    let pipe : BitVec 3 := 0
    let a : Reg := 5
    let lmap : BitVec 16 := 5
    let s : State := team
    let c : Nat := 0
    guard (s.atSlot c = true)
    guard (listHeld (s.core c) a lmap = true)
    let i ← (s.core c).inst
    let x ← tget none s.insts i
    guard (((x.role role.toNat).map (·.1)) = some 1)
    guard (((x.role rcv.toNat).map (·.1)) = some 1)
    let n : Nat := (x.group role.toNat).length
    let m : Nat := (x.group rcv.toNat).length
    guard ((n = 1 ∨ n = m))
    guard (x.mayPass c = true)
    let words : List Nat := listNamed (s.core c) a lmap
    guard ((s.core c).role = role.toNat)
    guard ((∀ j ∈ words, (s.core c).holds j = true))
    let rcpt := ((if n = 1 then x.group rcv.toNat else ((x.group rcv.toNat)[((x.group role.toNat).findIdx? (· == c)).getD 0]?).toList).filter x.live.contains)
    guard ((∀ r ∈ rcpt, (x.pipe pipe.toNat role.toNat rcv.toNat c r).length < 16))
    some () : Option Unit) = some () := by decide +kernel
theorem test_Teams_5 : (do
    let role : BitVec 4 := 1
    let rcv : BitVec 4 := 2
    let pipe : BitVec 3 := 1
    let a : Reg := 5
    let lmap : BitVec 16 := 5
    let s : State := receiver
    let c : Nat := 0
    guard (s.atSlot c = true)
    guard (listHeld (s.core c) a lmap = true)
    let i ← (s.core c).inst
    let x ← tget none s.insts i
    guard (((x.role role.toNat).map (·.1)) = some 1)
    guard (((x.role rcv.toNat).map (·.1)) = some 1)
    let n : Nat := (x.group role.toNat).length
    let m : Nat := (x.group rcv.toNat).length
    guard ((n = 1 ∨ n = m))
    guard (x.mayPass c = true)
    let words : List Nat := listNamed (s.core c) a lmap
    guard ((s.core c).role = rcv.toNat)
    guard (role ≠ rcv)
    guard ((s.core c).isFw = false)
    guard ((∀ j ∈ words, ((s.core c).rsLine? j).isSome = true))
    let from_ := (if n = 1 then (x.group role.toNat).getD 0 0 else (x.group role.toNat).getD (((x.group rcv.toNat).findIdx? (· == c)).getD 0) 0)
    let (v, rest) ← (match x.pipe pipe.toNat role.toNat rcv.toNat from_ c with | v :: rest => some (v, rest) | [] => none)
    some () : Option Unit) = some () := by decide +kernel
theorem test_TrapEntry_1 : (do
    let s : State := on { runs nums with tvec := 0x4000, twb := 0x40, twl := 64, fpc := 0x2001, fcause := 0x64000 ||| 0x20000, lstart := 5, fwb := 0x20, fwl := 16, role := 3 }
    let c : Nat := 0
    guard ((s.core c).undo = [])
    guard (handled (s.core c) = true)
    some () : Option Unit) = some () := by decide +kernel
theorem test_TrapEntry_2 : (do
    let s : State := { on { runs nums with task := some { job with launch := some 3 } } with launches := [{ (default : Launch) with no := 3, st := .running }] }
    let c : Nat := 0
    guard ((s.core c).undo = [])
    guard (handled (s.core c) = false)
    let t ← (s.core c).task
    guard ((s.core c).stopAt = none)
    guard ((s.core c).cmds = [])
    guard (t.kind ≠ .firmware)
    guard ((t.kind ≠ .member ∨ (s.core c).inst = none))
    some () : Option Unit) = some () := by decide +kernel
theorem test_TrapEntry_3 : (do
    let s : State := { on { runs nums with task := some { job with kind := .member, launch := some 3 }, inst := some 4, role := 1 } with launches := [{ (default : Launch) with no := 3, st := .running }], insts := [(4, some { (default : Inst) with launch := 3, cores := [(0, 1)], live := [0], st := .running })] }
    let c : Nat := 0
    guard ((s.core c).undo = [])
    guard (handled (s.core c) = false)
    let t ← (s.core c).task
    guard ((s.core c).stopAt = none)
    guard ((s.core c).cmds = [])
    guard (t.kind = .member)
    let i ← (s.core c).inst
    some () : Option Unit) = some () := by decide +kernel
theorem test_TrapEntry_4 : (do
    let s : State := { on { runs nums with cmds := [cmd0], task := some { job with launch := some 3 } } with launches := [{ (default : Launch) with no := 3, st := .running }] }
    let c : Nat := 0
    guard ((s.core c).undo = [])
    guard (handled (s.core c) = false)
    let t ← (s.core c).task
    guard ((s.core c).stopAt = none)
    guard ((s.core c).cmds ≠ [])
    some () : Option Unit) = some () := by decide +kernel
theorem test_Traps_1 : (do
    let a : Reg := 3
    let s : State := on { runs nums with tvec := 0x4000, twb := 0x40, twl := 64, fpc := 0x2001, fcause := 0x64000 ||| 0x20000, lstart := 5, fwb := 0x20, fwl := 16, role := 3 }
    let c : Nat := 0
    guard (s.atSlot c = true)
    let (x, s1) ← s.take c false a
    guard (handled (s1.core c) = true)
    some () : Option Unit) = some () := by decide +kernel
theorem test_Traps_2 : (do
    let s : State := on { runs nums with inTrap := true, trapCode := 3, tvec := 0x4000, twb := 0x40, twl := 64, fpc := 0x2001, fcause := 0x64000 ||| 0x20000, lstart := 5, fwb := 0x20, fwl := 16, role := 3 }
    let c : Nat := 0
    guard (s.atSlot c = true)
    guard ((s.core c).inTrap = true)
    guard (((s.core c).task.map (·.kind)) != some .fault)
    guard (windowCode { s.core c with inTrap := false } (s.core c).fwb.toNat (s.core c).fwl.toNat = none)
    some () : Option Unit) = some () := by decide +kernel
theorem test_Traps_3 : (do
    let s : State := on { runs nums with tvec := 0x4000, twb := 0x40, twl := 64, fpc := 0x2001, fcause := 0x64000 ||| 0x20000, lstart := 5, fwb := 0x20, fwl := 16, role := 3 }
    let c : Nat := 0
    guard (s.atSlot c = true)
    guard ((s.core c).inTrap = false ∨ ((s.core c).task.map (·.kind)) = some .fault)
    some () : Option Unit) = some () := by decide +kernel
theorem test_Translation_1 : (do
    let s : State := { on { runs places with sup := true, task := some { job with kind := .firmware }, fwregs := [(0, 1), (1, 0x1001), (2, 0x2180), (3, 511), (5, 1023)], rs := (store 4 nums).map fun l => (l.1, { l.2 with dirty := true }), l1tlb := [page, { page with asid := 2 }] } with ctlb := [(0, [page, { page with asid := 2, va := 0x200000 }])], roots := [(1, 0x3001)] }
    let c : Nat := 0
    guard (s.atSlot c = true)
    guard ((s.core c).sup = true)
    guard ((s.core c).isFw = true)
    guard (settled s = true)
    guard (writable s = true)
    guard (s.pinHit none (fun _ => true) = false)
    some () : Option Unit) = some () := by decide +kernel
theorem test_Translation_2 : (do
    let a : Reg := 0
    let s : State := { on { runs places with sup := true, task := some { job with kind := .firmware }, fwregs := [(0, 1), (1, 0x1001), (2, 0x2180), (3, 511), (5, 1023)], rs := (store 4 nums).map fun l => (l.1, { l.2 with dirty := true }), l1tlb := [page, { page with asid := 2 }] } with ctlb := [(0, [page, { page with asid := 2, va := 0x200000 }])], roots := [(1, 0x3001)] }
    let c : Nat := 0
    guard (s.atSlot c = true)
    guard ((s.core c).sup = true)
    let (x, s1) ← s.take c false a
    guard (x.toNat < 1024)
    guard (((s1.core c).isFw = true ∨ x.toNat = (s1.core c).asid))
    guard (settled s1 = true)
    guard (writable s1 = true)
    guard (s1.pinHit (some x.toNat) (fun _ => true) = false)
    some () : Option Unit) = some () := by decide +kernel
theorem test_Translation_3 : (do
    let a : Reg := 0
    let b : Reg := 2
    let s : State := { on { runs places with sup := true, task := some { job with kind := .firmware }, fwregs := [(0, 1), (1, 0x1001), (2, 0x2180), (3, 511), (5, 1023)], rs := (store 4 nums).map fun l => (l.1, { l.2 with dirty := true }), l1tlb := [page, { page with asid := 2 }] } with ctlb := [(0, [page, { page with asid := 2, va := 0x200000 }])], roots := [(1, 0x3001)] }
    let c : Nat := 0
    guard (s.atSlot c = true)
    guard ((s.core c).sup = true)
    let (x, s1) ← s.take c false a
    let (y, s2) ← s1.take c false b
    guard (x.toNat < 1024)
    guard ((y.toNat < 2 ^ 56 ∨ 2 ^ 64 - 2 ^ 56 ≤ y.toNat))
    guard (((s2.core c).isFw = true ∨ x.toNat = (s2.core c).asid))
    guard (settled s2 = true)
    guard (writable s2 = true)
    guard (s2.pinHit (some x.toNat) (fun _ => true) = false)
    some () : Option Unit) = some () := by decide +kernel
theorem test_Translation_4 : (do
    let d : Reg := 4
    let a : Reg := 0
    let b : Reg := 1
    let s : State := { on { runs places with sup := true, task := some { job with kind := .firmware }, fwregs := [(0, 1), (1, 0x1001), (2, 0x2180), (3, 511), (5, 1023)], rs := (store 4 nums).map fun l => (l.1, { l.2 with dirty := true }), l1tlb := [page, { page with asid := 2 }] } with ctlb := [(0, [page, { page with asid := 2, va := 0x200000 }])], roots := [(1, 0x3001)] }
    let c : Nat := 0
    guard (s.atSlot c = true)
    guard ((s.core c).sup = true)
    let (x, s1) ← s.take c false a
    let (y, s2) ← s1.take c false b
    guard (x.toNat < 1024)
    guard (y &&& 0xfff0000000000ffe = 0)
    guard (((s2.core c).isFw = true ∨ x.toNat = (s2.core c).asid))
    let s3 ← s2.give c false d (tget 0 s.roots x.toNat)
    guard (settled s3 = true)
    guard (writable s3 = true)
    guard (s3.pinHit (some x.toNat) (fun _ => true) = false)
    some () : Option Unit) = some () := by decide +kernel
theorem test_Translation_5 : (do
    let d : Reg := 4
    let s : State := { on { runs (fun i => [1, 0x1001, 0x2180, 5, 3].getD i (nums i)) with sup := true, wd := 77, l1tlb := [page] } with ctlb := [(0, [page])] }
    let c : Nat := 0
    guard (s.atSlot c = true)
    guard ((s.core c).sup = true)
    let s1 ← s.give c false d (BitVec.ofNat 64 (s.core c).wd)
    some () : Option Unit) = some () := by decide +kernel
theorem test_Translation_6 : (do
    let a : Reg := 0
    let s : State := { on { runs (fun i => [1, 0x1001, 0x2180, 5, 3].getD i (nums i)) with sup := true, wd := 77, l1tlb := [page] } with ctlb := [(0, [page])] }
    let c : Nat := 0
    guard (s.atSlot c = true)
    guard ((s.core c).sup = true)
    let (x, s1) ← s.take c false a
    guard (x.toNat < (s1.core c).tasklimL)
    some () : Option Unit) = some () := by decide +kernel
theorem test_Translation_7 : (do
    let d : Reg := 4
    let a : Reg := 3
    let i : Instr := .partctlSplit 4 3
    let s : State := { on { runs places with sup := true, task := some { job with kind := .firmware }, fwregs := [(0, 1), (1, 0x1001), (2, 0x2180), (3, 511), (5, 1023)], rs := (store 4 nums).map fun l => (l.1, { l.2 with dirty := true }), l1tlb := [page, { page with asid := 2 }] } with ctlb := [(0, [page, { page with asid := 2, va := 0x200000 }])], roots := [(1, 0x3001)] }
    let c : Nat := 0
    guard (i ∈ [Instr.partctlSplit d a, Instr.partctlMerge d a])
    guard (s.atSlot c = true)
    guard ((s.core c).sup = true)
    guard ((s.core c).isFw = true)
    let (x, s1) ← s.take c false a
    guard (1 ≤ x.toNat)
    guard (x.toNat ≤ 511)
    guard (d.toNat < 0xf80)
    guard (d.toNat < (s.core c).wlim.toNat)
    some () : Option Unit) = some () := by decide +kernel
theorem test_Translation_8 : (do
    let d : Reg := 0xffe
    let a : Reg := 3
    let i : Instr := .partctlSplit 0xffe 3
    let s : State := { on { runs places with sup := true, task := some { job with kind := .firmware }, fwregs := [(0, 1), (1, 0x1001), (2, 0x2180), (3, 511), (5, 1023)], rs := (store 4 nums).map fun l => (l.1, { l.2 with dirty := true }), l1tlb := [page, { page with asid := 2 }] } with ctlb := [(0, [page, { page with asid := 2, va := 0x200000 }])], roots := [(1, 0x3001)] }
    let c : Nat := 0
    guard (i ∈ [Instr.partctlSplit d a, Instr.partctlMerge d a])
    guard (s.atSlot c = true)
    guard ((s.core c).sup = true)
    guard ((s.core c).isFw = true)
    let (x, s1) ← s.take c false a
    guard (1 ≤ x.toNat)
    guard (x.toNat ≤ 511)
    guard (0xf80 ≤ d.toNat)
    guard ((s.give c false d 0).isSome = true)
    guard ((d = 0xfff ∨ noPlaceKept s1 c d = true))
    some () : Option Unit) = some () := by decide +kernel
theorem test_Deprecated_1 : (do
    let d : Reg := 7
    let a : Reg := 0
    let s : State := { on { runs (fun i => BitVec.ofNat 64 ([1, 5, 0x04000020, 0x07f00010, 0x8005].getD i (0x2000 + 8 * i))) with l1i := [marked], l1tlb := [page], rbl := 0x1000 } with featacc := [(0, 1)], mem := (List.range 512).map fun i => (0x2000 + i, BitVec.ofNat 8 (7 * i + 200)) }
    let c : Nat := 0
    guard (s.atSlot c = true)
    guard (s.feat 0 = true)
    guard (d ≠ a)
    guard (a.toNat < 0xf80)
    guard (d.toNat < 0xf80)
    let (x, s1) ← s.take c false a
    let s2 ← s1.give c false d (x - 1)
    guard (x = 1)
    some () : Option Unit) = some () := by decide +kernel
theorem test_Deprecated_2 : (do
    let slot : BitVec 3 := 2
    let d : Reg := 7
    let a : Reg := 1
    let off : BitVec 41 := 0
    let s : State := { on { runs (fun i => BitVec.ofNat 64 ([1, 5, 0x04000020, 0x07f00010, 0x8005].getD i (0x2000 + 8 * i))) with l1i := [marked], l1tlb := [page], rbl := 0x1000 } with featacc := [(0, 1)], mem := (List.range 512).map fun i => (0x2000 + i, BitVec.ofNat 8 (7 * i + 200)) }
    let c : Nat := 0
    guard (s.atSlot c = true)
    guard (s.feat 0 = true)
    guard (d ≠ a)
    guard (a.toNat < 0xf80)
    guard (d.toNat < 0xf80)
    let (x, s1) ← s.take c false a
    let s2 ← s1.give c false d (x - 1)
    guard (x ≠ 1)
    let (_, s3) ← okOf ((checkTarget (target (s.core c).pc slot off)).run s2)
    some () : Option Unit) = some () := by decide +kernel
theorem test_Deprecated_3 : (do
    let n : Bool := true
    let d : Reg := 4
    let a : Reg := 5
    let b : Reg := 9
    let e : Reg := 6
    let m : Reg := 4
    let s : State := { on { runs (fun i => BitVec.ofNat 64 ([1, 5, 0x04000020, 0x07f00010, 0x8005].getD i (0x2000 + 8 * i))) with l1i := [marked], l1tlb := [page], rbl := 0x1000 } with featacc := [(0, 1)], mem := (List.range 512).map fun i => (0x2000 + i, BitVec.ofNat 8 (7 * i + 200)) }
    let c : Nat := 0
    guard (s.atSlot c = true)
    guard (s.feat 0 = true)
    guard ((d ≠ 0xfff → d ≠ a ∧ d ≠ e ∧ ∀ r ∈ [b, m], ¬ (r.toNat < 0xf80 ∧ r.toNat / 16 = d.toNat)))
    let (mk, s0) ← s.maskOf c m
    let (p, s1) ← s0.take c true b
    let (ts, s2) ← okOf ((gatherFrom mk (anySo s1 c .mem .load mk fun l => p + BitVec.ofNat 64 (8 * l)) p 16 0).run s1)
    let (x, s3) ← s2.lanes c a mk
    let (z, s4) ← s3.lanes c e mk
    let s5 ← s4.giveLanes c d mk (fun l => (List.range 8).foldl (fun acc j => acc + (if n then ((x.getD l 0).extractLsb' (8 * j) 8).setWidth 64 * ((ts.getD l 0).extractLsb' (8 * j) 8).setWidth 64 else ((x.getD l 0).extractLsb' (8 * j) 8).signExtend 64 * ((ts.getD l 0).extractLsb' (8 * j) 8).signExtend 64)) (z.getD l 0))
    some () : Option Unit) = some () := by decide +kernel
theorem test_Deprecated_4 : (do
    let d : Reg := 7
    let a : Reg := 2
    let s : State := { on { runs (fun i => BitVec.ofNat 64 ([1, 5, 0x04000020, 0x07f00010, 0x8005].getD i (0x2000 + 8 * i))) with l1i := [marked], l1tlb := [page], rbl := 0x1000 } with featacc := [(0, 1)], mem := (List.range 512).map fun i => (0x2000 + i, BitVec.ofNat 8 (7 * i + 200)) }
    let c : Nat := 0
    guard (s.atSlot c = true)
    guard (s.feat 0 = true)
    guard (d ≠ a)
    guard (a.toNat < 0xf80)
    guard (d.toNat < 0xf80)
    let (x, s1) ← s.take c false a
    guard (x.toNat < 2 ^ 32)
    let s2 ← s1.give c false d (BitVec.ofNat 64 (2 ^ 20 * (s.core c).wlim.toNat + (s.core c).wbase.toNat))
    guard (windowCode (s.core c) (x.toNat % 2 ^ 20 : Nat) (x.toNat / 2 ^ 20) = none)
    some () : Option Unit) = some () := by decide +kernel
theorem test_HostRegisters_1 : (do
    let k : Nat := 0
    let s : State := State.reset
    guard (k < 4)
    guard (s.featlock = false)
    some () : Option Unit) = some () := by decide +kernel
theorem test_HostRegisters_3 : (do
    let k : Nat := 3
    let s : State := { State.reset with featlock := true }
    guard (k < 4)
    guard (s.featlock = true)
    some () : Option Unit) = some () := by decide +kernel
theorem test_HostRegisters_4 : (do
    let k : Nat := 0
    let s : State := State.reset
    guard (s.mbcmd.getLsbD 31 = false)
    guard (k < 4)
    some () : Option Unit) = some () := by decide +kernel
theorem test_HostRegisters_5 : (do
    let v : W64 := 0x1234567880000005
    let s : State := { State.reset with featerr := true, mbBusy := true }
    guard (s.mbcmd.getLsbD 31 = false)
    guard (v.getLsbD 31 = true)
    some () : Option Unit) = some () := by decide +kernel
theorem test_HostRegisters_6 : (do
    let v : W64 := 0x1234567840000005
    let s : State := { State.reset with featerr := true, mbBusy := true }
    guard (s.mbcmd.getLsbD 31 = false)
    guard (v.getLsbD 31 = false)
    some () : Option Unit) = some () := by decide +kernel
theorem test_HostRegisters_8 : (do
    let k : Nat := 0
    let s : State := { State.reset with mbcmd := 0x80000005 }
    guard (s.mbcmd.getLsbD 31 = true)
    guard (k < 4)
    some () : Option Unit) = some () := by decide +kernel
theorem test_HostRegisters_9 : (do
    let width : Nat := 4
    let off : Nat := 8
    guard (barRegister off ≠ some width)
    some () : Option Unit) = some () := by decide +kernel
theorem test_HostRegisters_15 : (do
    let k := 0
    guard (k < 4)
    some () : Option Unit) = some () := by decide +kernel
theorem test_HostRegisters_17 : (do
    let n : Nat := 3
    let s : State := State.reset
    guard (n < 16)
    let w : FmtWin := tget {} s.fw n
    guard (w.ctl.getLsbD 0 = false)
    some () : Option Unit) = some () := by decide +kernel
theorem test_HostRegisters_20 : (do
    let n : Nat := 3
    let v : W64 := 0x5
    let s : State := fmt
    guard (n < 16)
    let w : FmtWin := tget {} s.fw n
    guard (w.ctl.getLsbD 0 = false)
    guard (v.getLsbD 0 = true)
    guard (s.fwOk n { w with ctl := v &&& 0x000ffffffffff00c#64 } = true)
    some () : Option Unit) = some () := by decide +kernel
theorem test_HostRegisters_21 : (do
    let n : Nat := 3
    let v : W64 := 0x1
    let s : State := State.reset
    guard (n < 16)
    let w : FmtWin := tget {} s.fw n
    guard (w.ctl.getLsbD 0 = false)
    guard (v.getLsbD 0 = true)
    guard (s.fwOk n { w with ctl := v &&& 0x000ffffffffff00c#64 } = false)
    some () : Option Unit) = some () := by decide +kernel
theorem test_HostRegisters_23 : (do
    let v : W64 := 10000
    guard (10000 ≤ v.toNat % 2 ^ 32)
    some () : Option Unit) = some () := by decide +kernel
theorem test_HostRegisters_24 : (do
    let v : W64 := 9999
    guard (v.toNat % 2 ^ 32 < 10000)
    some () : Option Unit) = some () := by decide +kernel
theorem test_HostRegisters_25 : (do
    let v : W64 := 200
    let s : State := State.reset
    guard (v.toNat % 2 ^ 20 ≤ s.swgrace.toNat)
    some () : Option Unit) = some () := by decide +kernel
theorem test_HostRegisters_26 : (do
    let v : W64 := 50000
    let s : State := State.reset
    guard (s.swdead.toNat ≤ v.toNat % 2 ^ 20)
    some () : Option Unit) = some () := by decide +kernel
theorem test_HostRegisters_27 : (do
    let off : Nat := 0x100000
    let v : W64 := 0xfedcba98e0050001
    let lv ← monLevel off
    guard (off % 16 = 0)
    guard (monAdmits lv (v.toNat % 2 ^ 16) = true)
    some () : Option Unit) = some () := by decide +kernel
theorem test_HostAccesses_1 : (do
    let q : Nat := 3
    let v : BitVec 32 := 6
    let s : State := { State.reset with queues := [{ (default : Queue) with q := 3, held := true, logsz := 4, head := 0xfffffffe, tail := 0xfffffffe, tenant := 7, evbase := 0x4000, evlog := 4, qcb := 0x8000 }], featacc := [(0, 0x7f)] }
    let qu ← s.queue? q
    guard (qu.held = true)
    guard (qu.draining = false)
    guard (qu.status / 2 % 2 = 0)
    guard ((v.toNat + 2 ^ 32 - qu.head) % 2 ^ 32 ≤ 2 ^ qu.logsz)
    some () : Option Unit) = some () := by decide +kernel
theorem test_HostAccesses_2 : (do
    let q : Nat := 3
    let v : BitVec 32 := 15
    let s : State := { State.reset with queues := [{ (default : Queue) with q := 3, held := true, logsz := 4, head := 0xfffffffe, tail := 0xfffffffe, tenant := 7, evbase := 0x4000, evlog := 4, qcb := 0x8000 }], featacc := [(0, 0x7f)] }
    let qu ← s.queue? q
    guard (qu.held = true)
    guard (qu.draining = false)
    guard (qu.status / 2 % 2 = 0)
    guard (2 ^ qu.logsz < (v.toNat + 2 ^ 32 - qu.head) % 2 ^ 32)
    some () : Option Unit) = some () := by decide +kernel
theorem test_HostAccesses_3 : (do
    let q : Nat := 3
    let s : State := { State.reset with queues := [{ (default : Queue) with q := 3, held := true, draining := true, logsz := 4, head := 0xfffffffe, tail := 0xfffffffe, tenant := 7, evbase := 0x4000, evlog := 4, qcb := 0x8000 }], featacc := [(0, 0x7f)] }
    let qu ← s.queue? q
    guard ((qu.draining = true ∨ qu.status / 2 % 2 = 1 ∨ qu.held = false))
    some () : Option Unit) = some () := by decide +kernel
theorem test_HostAccesses_4 : (do
    let q : Nat := 3
    let v : W64 := 0x100000005
    let s : State := { State.reset with queues := [{ (default : Queue) with q := 3, held := true, logsz := 4, head := 0xfffffffe, tail := 0xfffffffe, tenant := 7, evbase := 0x4000, evlog := 4, qcb := 0x8000 }], featacc := [(0, 0x7f)] }
    let qu ← s.queue? q
    guard (v.toNat < 2 ^ 33)
    some () : Option Unit) = some () := by decide +kernel
theorem test_HostAccesses_5 : (do
    let tenant : Nat := 255
    let dev : Nat := 0x3fffff
    let status : Nat := 1
    let s : State := { State.reset with queues := [{ (default : Queue) with q := 3, held := true, logsz := 4, head := 0xfffffffe, tail := 0xfffffffe, tenant := 7, evbase := 0x4000, evlog := 4, qcb := 0x8000 }], featacc := [(0, 0x7f)] }
    guard (s.feat 3 = true)
    guard (status < 2)
    guard (dev < 2 ^ 22)
    guard (tenant < 256)
    some () : Option Unit) = some () := by decide +kernel
theorem test_HostAccesses_6 : (do
    let pa : Nat := 0x2001
    let bs : List Byte := [1, 2, 0, 4, 5]
    let s : State := { State.reset with mem := [(0x2000, 5), (0x2003, 6), (0x2045, 8)], stale := [(0x2003, { old := 9, core := 4 }), (0x2044, { old := 1, core := 2 })], poison := [0x2000 / 64], dir := [(0x81, { owner := some 4, sharers := [4], ovf := false, bcast := false })] }
    guard (pa + bs.length ≤ 0xc000000000)
    guard (s.mem.wf = true)
    guard ((List.range 2).all fun l => s.mayWrite 2048 (0x80 + l))
    some () : Option Unit) = some () := by decide +kernel
theorem test_HostAccesses_7 : (do
    let pa : Nat := 0x2040
    let n : Nat := 16
    let s : State := { State.reset with mem := [(0x2000, 5), (0x2003, 6), (0x2045, 8)], stale := [(0x2003, { old := 9, core := 4 }), (0x2044, { old := 1, core := 2 })], poison := [0x2000 / 64], dir := [(0x81, { owner := some 4, sharers := [4], ovf := false, bcast := false })] }
    guard (pa + n ≤ 0xc000000000)
    guard ((∀ l ∈ s.poison, 64 * l + 64 ≤ pa ∨ pa + n ≤ 64 * l))
    some () : Option Unit) = some () := by decide +kernel
theorem test_MailboxQueues_1 : (do
    let s : State := { State.reset with mbcmd := 0x80000002, mbarg := [], mbRefuse := true }
    let i : Instr := .unregq
    let code ← mailboxCommand i
    guard (s.mbcmd.getLsbD 31 = true)
    guard (s.mbcmd.toNat % 256 = code)
    guard (s.mbBusy = false)
    guard (s.mgmt.alive = true)
    guard (s.mgmt.layer = 2)
    guard (s.mbRefuse = true)
    some () : Option Unit) = some () := by decide +kernel
theorem test_MailboxQueues_2 : (do
    let s : State := { State.reset with mbcmd := 0x80000001, mbarg := [(1, 4096)] }
    guard (issued s 1 = true)
    let q : Nat := (argument s 1).toNat
    guard (4095 < q)
    some () : Option Unit) = some () := by decide +kernel
theorem test_MailboxQueues_3 : (do
    let s : State := { State.reset with mbcmd := 0x80000001, mbarg := [(0, 1), (1, 4095)], queues := [{ (default : Queue) with q := 4095 }] }
    guard (issued s 1 = true)
    let q : Nat := (argument s 1).toNat
    guard (q ≤ 4095)
    guard ((s.queue? q).isSome = true)
    some () : Option Unit) = some () := by decide +kernel
theorem test_MailboxQueues_4 : (do
    let s : State := { State.reset with mbcmd := 0x80000001, mbarg := [(0, 0x8040), (1, 3)] }
    guard (issued s 1 = true)
    let pa : Nat := (argument s 0).toNat
    let q : Nat := (argument s 1).toNat
    guard (q ≤ 4095)
    guard (s.queue? q = none)
    guard ((pa % 128 ≠ 0 ∨ 0xc000000000 < pa + 128))
    some () : Option Unit) = some () := by decide +kernel
theorem test_MailboxQueues_5 : (do
    let s : State := { State.reset with mbcmd := 0x80000001, mbarg := [(0, 0x8000), (1, 3)] }
    guard (issued s 1 = true)
    let pa : Nat := (argument s 0).toNat
    let q : Nat := (argument s 1).toNat
    guard (q ≤ 4095)
    guard (s.queue? q = none)
    guard ((s.qcbOk (s.mem.bytes pa 128) = false ∨ s.anyPoison pa 128 = true))
    some () : Option Unit) = some () := by decide +kernel
theorem test_MailboxQueues_6 : (do
    let s : State := { State.reset with mbcmd := 0x80000001, mbarg := [(0, 0x8000), (1, 3)], asidOwner := [(1, 7)], mem := (List.range 8).filterMap (fun i => if [0x00,0x40,0,0,0,0,0,0].getD i 0 = (0 : Nat) then none else some (0x8000 + i, BitVec.ofNat 8 ([0x00,0x40,0,0,0,0,0,0].getD i 0))) ++ [(0x8008, 4), (0x8009, 1), (0x800a, 7), (0x800c, 1), (0x8021, 0x60), (0x8028, 5)] }
    guard (issued s 1 = true)
    let pa : Nat := (argument s 0).toNat
    let q : Nat := (argument s 1).toNat
    guard (q ≤ 4095)
    guard (s.queue? q = none)
    guard (pa % 128 = 0)
    guard (pa + 128 ≤ 0xc000000000)
    guard (s.qcbOk (s.mem.bytes pa 128) = true)
    guard (s.anyPoison pa 128 = false)
    guard (frontWrites s pa = true)
    guard (s.mem.wf = true)
    guard (s.queues = [])
    some () : Option Unit) = some () := by decide +kernel
theorem test_MailboxQueues_7 : (do
    let s : State := { State.reset with mbcmd := 0x80000002, mbarg := [(1, 4096)] }
    guard (issued s 2 = true)
    let q : Nat := (argument s 1).toNat
    guard (4095 < q)
    some () : Option Unit) = some () := by decide +kernel
theorem test_MailboxQueues_8 : (do
    let s : State := { State.reset with mbcmd := 0x80000002, mbarg := [(1, 3)] }
    guard (issued s 2 = true)
    let q : Nat := (argument s 1).toNat
    guard (q ≤ 4095)
    guard (s.queue? q = none)
    some () : Option Unit) = some () := by decide +kernel
theorem test_MailboxQueues_9 : (do
    let s : State := { State.reset with mbcmd := 0x80000002, mbarg := [(1, 3)], queues := [{ (default : Queue) with q := 3 }] }
    guard (issued s 2 = true)
    let q : Nat := (argument s 1).toNat
    guard (q ≤ 4095)
    guard ((s.queue? q).isSome = true)
    some () : Option Unit) = some () := by decide +kernel
theorem test_MailboxQueues_10 : (do
    let s : State := { State.reset with mbcmd := 0x80000002, mbarg := [(1, 3)], mbBusy := true, queues := [{ (default : Queue) with q := 3, draining := true }], launches := [{ (default : Launch) with q := 3, st := .done }] }
    guard (s.mbcmd.getLsbD 31 = true)
    guard (s.mbcmd.toNat % 256 = 2)
    guard (s.mbBusy = true)
    let q : Nat := (argument s 1).toNat
    guard ((∀ l ∈ s.launches, l.q = q → l.st = .done))
    some () : Option Unit) = some () := by decide +kernel
theorem test_MailboxQueues_11 : (do
    let s : State := { State.reset with mbcmd := 0x80000002, mbarg := [(1, 3)], mbBusy := true, queues := [{ (default : Queue) with q := 3, draining := true }], launches := [{ (default : Launch) with q := 3, st := .running }] }
    guard (s.mbcmd.getLsbD 31 = true)
    guard (s.mbcmd.toNat % 256 = 2)
    guard (s.mbBusy = true)
    let q : Nat := (argument s 1).toNat
    guard ((∃ l ∈ s.launches, l.q = q ∧ l.st ≠ .done))
    some () : Option Unit) = some () := by decide +kernel
theorem test_MailboxQueues_12 : (do
    let s : State := { State.reset with mbcmd := 0x80000003, mbarg := [(1, 4096)] }
    guard (issued s 3 = true)
    let q : Nat := (argument s 1).toNat
    guard (4095 < q)
    some () : Option Unit) = some () := by decide +kernel
theorem test_MailboxQueues_13 : (do
    let s : State := { State.reset with mbcmd := 0x80000003, mbarg := [(1, 3)] }
    guard (issued s 3 = true)
    let q : Nat := (argument s 1).toNat
    guard (q ≤ 4095)
    guard (s.queue? q = none)
    some () : Option Unit) = some () := by decide +kernel
theorem test_MailboxQueues_17 : (do
    let s : State := { State.reset with mbcmd := 0x80000004, mbarg := [(1, 7), (2, 9)], launches := [{ (default : Launch) with no := 2, tenant := 7, lid := 9, st := .running }, { (default : Launch) with no := 5, tenant := 7, lid := 9, st := .waiting }] }
    guard (issued s 4 = true)
    let l ← (s.launches.find? fun l => l.tenant == (argument s 1).toNat && l.lid == (argument s 2).toNat && (l.st == .waiting || l.st == .gated))
    some () : Option Unit) = some () := by decide +kernel
theorem test_MailboxQueues_18 : (do
    let s : State := { State.reset with mbcmd := 0x80000004, mbarg := [(1, 7), (2, 8)], launches := [{ (default : Launch) with no := 2, tenant := 7, lid := 9, st := .running }, { (default : Launch) with no := 5, tenant := 7, lid := 9, st := .waiting }] }
    guard (issued s 4 = true)
    guard ((∀ l ∈ s.launches, l.tenant = (argument s 1).toNat → l.lid = (argument s 2).toNat → l.st ≠ .waiting ∧ l.st ≠ .gated))
    some () : Option Unit) = some () := by decide +kernel
theorem test_MailboxQueues_19 : (do
    let cmd : BitVec 8 := 0
    let s : State := { State.reset with mbcmd := 0x80000000, mbarg := [] }
    guard ((cmd.toNat = 0 ∨ 16 ≤ cmd.toNat))
    guard (issued s cmd.toNat = true)
    some () : Option Unit) = some () := by decide +kernel
theorem test_MailboxTenants_1 : (do
    let s : State := { State.reset with mbcmd := 0x8000000b, mbarg := [(0, 0x8000), (1, 7)] }
    guard (issued s 0x0b = true)
    let pa : Nat := (argument s 0).toNat
    let t : Nat := (argument s 1).toNat
    guard ((255 < t ∨ pa % 64 ≠ 0 ∨ inMemory pa 128 = false ∨ s.anyPoison pa 128 = true ∨ tenantOk (s.physBytes pa 128) = false))
    some () : Option Unit) = some () := by decide +kernel
theorem test_MailboxTenants_2 : (do
    let s : State := { State.reset with mbcmd := 0x8000000b, mbarg := [(0, 0x8000), (1, 9)], nodes := [{ n := 1, tset := [7, 9], resident := some 9, requests := [], partReq := none, phase := .steady, quiet := [], late := [], judged := false, graced := false, used := true }], mem := [(0x8009, 0x10), (0x8010, 8), (0x801c, 1), (0x8029, 0x10), (0x8031, 4), (0x8038, 0xff), (0x8039, 0xff), (0x803a, 1)] }
    guard (issued s 0x0b = true)
    let pa : Nat := (argument s 0).toNat
    let t : Nat := (argument s 1).toNat
    guard (t ≤ 255)
    guard (pa % 64 = 0)
    guard (inMemory pa 128 = true)
    guard (s.anyPoison pa 128 = false)
    guard (tenantOk (s.physBytes pa 128) = true)
    guard (((∃ x ∈ s.nodes, x.resident = some t) ∨ ∃ v ∈ s.saved, v.tenant = t))
    some () : Option Unit) = some () := by decide +kernel
theorem test_MailboxTenants_3 : (do
    let s : State := { State.reset with mbcmd := 0x8000000b, mbarg := [(0, 0x8000), (1, 7)], nodes := [{ n := 1, tset := [7, 9], resident := some 9, requests := [], partReq := none, phase := .steady, quiet := [], late := [], judged := false, graced := false, used := true }], mem := [(0x8009, 0x10), (0x8010, 8), (0x801c, 1), (0x8029, 0x10), (0x8031, 4), (0x8038, 0xff), (0x8039, 0xff), (0x803a, 1)], launches := [{ (default : Launch) with tenant := 7, st := .done, regions := [default] }] }
    guard (issued s 0x0b = true)
    let pa : Nat := (argument s 0).toNat
    let t : Nat := (argument s 1).toNat
    guard (t ≤ 255)
    guard (pa % 64 = 0)
    guard (inMemory pa 128 = true)
    guard (s.anyPoison pa 128 = false)
    guard (tenantOk (s.physBytes pa 128) = true)
    guard ((∀ x ∈ s.nodes, x.resident ≠ some t))
    guard ((∀ v ∈ s.saved, v.tenant ≠ t))
    some () : Option Unit) = some () := by decide +kernel
theorem test_MailboxTenants_4 : (do
    let s : State := { State.reset with mbcmd := 0x8000000c, mbarg := [(1, 1024), (2, 7)] }
    guard (issued s 0x0c = true)
    let a : Nat := (argument s 1).toNat
    let t : Nat := (argument s 2).toNat
    guard ((1023 < a ∨ 255 < t ∨ argument s 3 &&& 0xfff0000000000ffe ≠ 0))
    some () : Option Unit) = some () := by decide +kernel
theorem test_MailboxTenants_5 : (do
    let s : State := { State.reset with mbcmd := 0x8000000c, mbarg := [(1, 5), (2, 7), (3, 0x3001)], asidOwner := [(5, 9)], queues := [{ (default : Queue) with asid := 5, tenant := 9 }] }
    guard (issued s 0x0c = true)
    let a : Nat := (argument s 1).toNat
    let t : Nat := (argument s 2).toNat
    guard (a ≤ 1023)
    guard (t ≤ 255)
    guard (argument s 3 &&& 0xfff0000000000ffe = 0)
    guard (tget 256 s.asidOwner a ≠ 256)
    guard (tget 256 s.asidOwner a ≠ t)
    guard (((∃ q ∈ s.queues, q.asid = a ∧ q.tenant = tget 256 s.asidOwner a) ∨ ∃ l ∈ s.launches, l.asid = a ∧ l.tenant = tget 256 s.asidOwner a ∧ l.st ≠ .done))
    some () : Option Unit) = some () := by decide +kernel
theorem test_MailboxTenants_6 : (do
    let s : State := { State.reset with mbcmd := 0x8000000c, mbarg := [(1, 5), (2, 7), (3, 0x3001)], asidOwner := [(5, 9)], queues := [{ (default : Queue) with asid := 5, tenant := 7 }] }
    guard (issued s 0x0c = true)
    let a : Nat := (argument s 1).toNat
    let t : Nat := (argument s 2).toNat
    guard (a ≤ 1023)
    guard (t ≤ 255)
    guard (argument s 3 &&& 0xfff0000000000ffe = 0)
    guard ((tget 256 s.asidOwner a = 256 ∨ tget 256 s.asidOwner a = t ∨ (∀ q ∈ s.queues, q.asid = a → q.tenant ≠ tget 256 s.asidOwner a) ∧ ∀ l ∈ s.launches, l.asid = a → l.tenant = tget 256 s.asidOwner a → l.st = .done))
    guard (s.pinHit (some a) (fun _ => true) = false)
    let u ← s.rsDrop (some a) (fun _ => true)
    some () : Option Unit) = some () := by decide +kernel
theorem test_MailboxTenants_7 : (do
    let s : State := { State.reset with mbcmd := 0x8000000d, mbarg := [(0, 0x8000), (1, 3)], nodes := [{ n := 1, tset := [7, 9], resident := some 9, requests := [], partReq := none, phase := .steady, quiet := [], late := [], judged := false, graced := false, used := true }], mem := [(0x8001, 2), (0x801f, 0x80)] }
    guard (issued s 0x0d = true)
    let pa : Nat := (argument s 0).toNat
    let n : Nat := (argument s 1).toNat
    guard ((s.node? n = none ∨ inMemory pa 32 = false ∨ s.anyPoison pa 32 = true))
    some () : Option Unit) = some () := by decide +kernel
theorem test_MailboxTenants_8 : (do
    let s : State := { State.reset with mbcmd := 0x8000000d, mbarg := [(0, 0x8000), (1, 1)], nodes := [{ n := 1, tset := [7, 9], resident := some 9, requests := [], partReq := none, phase := .steady, quiet := [], late := [], judged := false, graced := false, used := true }], mem := [(0x8001, 4)] }
    guard (issued s 0x0d = true)
    let pa : Nat := (argument s 0).toNat
    let n : Nat := (argument s 1).toNat
    let set : List Nat := (List.range 256).filter (fun t => (leNat (s.physBytes pa 32)).testBit t)
    let x ← s.node? n
    guard (inMemory pa 32 = true)
    guard (s.anyPoison pa 32 = false)
    guard ((∃ t ∈ x.tset, t ∉ set ∧ (x.resident = some t ∨ ∃ v ∈ s.saved, v.tenant = t ∧ v.node = n)))
    some () : Option Unit) = some () := by decide +kernel
theorem test_MailboxTenants_9 : (do
    let s : State := { State.reset with mbcmd := 0x8000000d, mbarg := [(0, 0x8000), (1, 1)], nodes := [{ n := 1, tset := [7, 9], resident := some 9, requests := [], partReq := none, phase := .steady, quiet := [], late := [], judged := false, graced := false, used := true }], mem := [(0x8001, 2), (0x801f, 0x80)] }
    guard (issued s 0x0d = true)
    let pa : Nat := (argument s 0).toNat
    let n : Nat := (argument s 1).toNat
    let set : List Nat := (List.range 256).filter (fun t => (leNat (s.physBytes pa 32)).testBit t)
    let x ← s.node? n
    guard (inMemory pa 32 = true)
    guard (s.anyPoison pa 32 = false)
    guard ((∀ t ∈ x.tset, t ∉ set → x.resident ≠ some t ∧ ∀ v ∈ s.saved, v.tenant = t → v.node ≠ n))
    some () : Option Unit) = some () := by decide +kernel
theorem test_MailboxTenants_10 : (do
    let s : State := { State.reset with mbcmd := 0x8000000e, mbarg := [(1, 3), (2, 7)], nodes := [{ n := 1, tset := [7, 9], resident := some 9, requests := [], partReq := none, phase := .steady, quiet := [], late := [], judged := false, graced := false, used := true }], tenants := [(7, some { rsbase := 0, rsstride := 0, rswords := 4, dwb := 0, twb := 0, twl := 1, tvec := 0, tasklim := 0x1000, demandlim := 0x400, ways := 3, hasid := 5 }), (9, some { rsbase := 0, rsstride := 0, rswords := 4, dwb := 0, twb := 0, twl := 1, tvec := 0, tasklim := 0x1000, demandlim := 0x400, ways := 3, hasid := 6 })], asidOwner := [(5, 7), (6, 9)] }
    guard (issued s 0x0e = true)
    guard (s.tickDue = false)
    let n : Nat := (argument s 1).toNat
    let t : Nat := (argument s 2).toNat
    guard ((s.node? n = none ∨ tget none s.tenants t = none))
    some () : Option Unit) = some () := by decide +kernel
theorem test_MailboxTenants_11 : (do
    let s : State := { State.reset with mbcmd := 0x8000000e, mbarg := [(1, 1), (2, 7)], nodes := [{ n := 1, tset := [9], resident := some 9, requests := [], partReq := none, phase := .steady, quiet := [], late := [], judged := false, graced := false, used := true }], tenants := [(7, some { rsbase := 0, rsstride := 0, rswords := 4, dwb := 0, twb := 0, twl := 1, tvec := 0, tasklim := 0x1000, demandlim := 0x400, ways := 3, hasid := 5 }), (9, some { rsbase := 0, rsstride := 0, rswords := 4, dwb := 0, twb := 0, twl := 1, tvec := 0, tasklim := 0x1000, demandlim := 0x400, ways := 3, hasid := 6 })], asidOwner := [(5, 7), (6, 9)] }
    guard (issued s 0x0e = true)
    guard (s.tickDue = false)
    let n : Nat := (argument s 1).toNat
    let t : Nat := (argument s 2).toNat
    let x ← s.node? n
    let d ← tget none s.tenants t
    guard ((t ∉ x.tset ∨ tget 256 s.asidOwner d.hasid ≠ t))
    some () : Option Unit) = some () := by decide +kernel
theorem test_MailboxTenants_12 : (do
    let s : State := { State.reset with mbcmd := 0x8000000e, mbarg := [(1, 2), (2, 7)], nodes := [{ n := 2, tset := [7, 9], resident := some 9, requests := [], partReq := none, phase := .steady, quiet := [], late := [], judged := false, graced := false, used := true }, { n := 3, tset := [7, 9], resident := some 7, requests := [], partReq := none, phase := .steady, quiet := [], late := [], judged := false, graced := false, used := true }], tenants := [(7, some { rsbase := 0, rsstride := 0, rswords := 4, dwb := 0, twb := 0, twl := 1, tvec := 0, tasklim := 0x1000, demandlim := 0x400, ways := 3, hasid := 5 }), (9, some { rsbase := 0, rsstride := 0, rswords := 4, dwb := 0, twb := 0, twl := 1, tvec := 0, tasklim := 0x1000, demandlim := 0x400, ways := 3, hasid := 6 })], asidOwner := [(5, 7), (6, 9)] }
    guard (issued s 0x0e = true)
    guard (s.tickDue = false)
    let n : Nat := (argument s 1).toNat
    let t : Nat := (argument s 2).toNat
    let x ← s.node? n
    let d ← tget none s.tenants t
    guard (t ∈ x.tset)
    guard (tget 256 s.asidOwner d.hasid = t)
    guard ((∃ y ∈ s.nodes, y.resident = some t))
    guard ((∀ y ∈ s.nodes, y.resident = some t → y.n ≠ n))
    some () : Option Unit) = some () := by decide +kernel
theorem test_MailboxTenants_13 : (do
    let s : State := { State.reset with mbcmd := 0x8000000e, mbarg := [(1, 2), (2, 7)], nodes := [{ n := 2, tset := [7, 9], resident := some 9, requests := [], partReq := none, phase := .steady, quiet := [], late := [], judged := false, graced := false, used := true }, { n := 3, tset := [7, 9], resident := none, requests := [], partReq := none, phase := .steady, quiet := [], late := [], judged := false, graced := false, used := true }], tenants := [(7, some { rsbase := 0, rsstride := 0, rswords := 4, dwb := 0, twb := 0, twl := 1, tvec := 0, tasklim := 0x1000, demandlim := 0x400, ways := 3, hasid := 5 }), (9, some { rsbase := 0, rsstride := 0, rswords := 4, dwb := 0, twb := 0, twl := 1, tvec := 0, tasklim := 0x1000, demandlim := 0x400, ways := 3, hasid := 6 })], asidOwner := [(5, 7), (6, 9)], saved := [{ (default : Saved) with tenant := 7, node := 1 }] }
    guard (issued s 0x0e = true)
    guard (s.tickDue = false)
    let n : Nat := (argument s 1).toNat
    let t : Nat := (argument s 2).toNat
    let x ← s.node? n
    let d ← tget none s.tenants t
    guard (t ∈ x.tset)
    guard (tget 256 s.asidOwner d.hasid = t)
    guard ((∃ v ∈ s.saved, v.tenant = t))
    guard ((∀ v ∈ s.saved, v.tenant = t → nodeDepth v.node ≠ nodeDepth n))
    some () : Option Unit) = some () := by decide +kernel
theorem test_MailboxTenants_14 : (do
    let s : State := { State.reset with mbcmd := 0x8000000e, mbarg := [(1, 1), (2, 7)], nodes := [{ n := 1, tset := [7, 9], resident := some 9, requests := [], partReq := none, phase := .steady, quiet := [], late := [], judged := false, graced := false, used := true }], tenants := [(7, some { rsbase := 0, rsstride := 0, rswords := 4, dwb := 0, twb := 0, twl := 1, tvec := 0, tasklim := 0x1000, demandlim := 0x400, ways := 3, hasid := 5 }), (9, some { rsbase := 0, rsstride := 0, rswords := 4, dwb := 0, twb := 0, twl := 1, tvec := 0, tasklim := 0x1000, demandlim := 0x400, ways := 3, hasid := 6 })], asidOwner := [(5, 7), (6, 9)] }
    guard (issued s 0x0e = true)
    guard (s.tickDue = false)
    let n : Nat := (argument s 1).toNat
    let t : Nat := (argument s 2).toNat
    let x ← s.node? n
    let d ← tget none s.tenants t
    guard (t ∈ x.tset)
    guard (tget 256 s.asidOwner d.hasid = t)
    guard ((∀ y ∈ s.nodes, y.resident = some t → y.n = n))
    guard ((∀ v ∈ s.saved, v.tenant = t → nodeDepth v.node = nodeDepth n))
    some () : Option Unit) = some () := by decide +kernel
theorem test_MailboxTenants_15 : (do
    let s : State := { State.reset with mbcmd := 0x8000000f, mbarg := [(1, 2), (2, 3)] }
    guard (issued s 0x0f = true)
    let n : Nat := (argument s 2).toNat
    guard ((1 < (argument s 1).toNat ∨ n = 0 ∨ 256 ≤ n))
    some () : Option Unit) = some () := by decide +kernel
theorem test_MailboxTenants_16 : (do
    let s : State := { State.reset with mbcmd := 0x8000000f, mbarg := [(1, 1), (2, 255)] }
    guard (issued s 0x0f = true)
    let n : Nat := (argument s 2).toNat
    guard ((argument s 1).toNat ≤ 1)
    guard (1 ≤ n)
    guard (n < 256)
    some () : Option Unit) = some () := by decide +kernel
theorem test_MailboxManagement_1 : (do
    let s : State := { State.reset with mbcmd := 0x80000005, mbarg := [(1, 2)] }
    guard (issued s 5 = true)
    let n : Nat := (argument s 1).toNat
    guard (s.node? n = none)
    some () : Option Unit) = some () := by decide +kernel
theorem test_MailboxManagement_2 : (do
    let s : State := { State.reset with mbcmd := 0x80000005, mbarg := [(1, 1)], stale := [(0x2003, { old := 9, core := 4 }), (0x2004, { old := 9, core := 2000 })] }
    guard (issued s 5 = true)
    let n : Nat := (argument s 1).toNat
    guard ((s.node? n).isSome = true)
    some () : Option Unit) = some () := by decide +kernel
theorem test_MailboxManagement_7 : (do
    let s : State := { State.reset with mbcmd := 0x80000007, mbarg := [(0, 0x7000000000000), (1, 1), (2, 0x20)] }
    guard (issued s 7 = true)
    let pa : Nat := 0x8000000000000 + (argument s 0).toNat
    let n : Nat := (argument s 1).toNat
    guard (0xf000000000000 < pa + n)
    some () : Option Unit) = some () := by decide +kernel
theorem test_MailboxManagement_8 : (do
    let s : State := { State.reset with mbcmd := 0x80000007, mbarg := [(0, 0x1000), (1, 4), (2, 0x20)], poison := [(0x8000000000000 + 0x1000) / 64] }
    guard (issued s 7 = true)
    let pa : Nat := 0x8000000000000 + (argument s 0).toNat
    let n : Nat := (argument s 1).toNat
    guard (pa + n ≤ 0xf000000000000)
    guard (s.anyPoison pa n = true)
    some () : Option Unit) = some () := by decide +kernel
theorem test_MailboxManagement_9 : (do
    let s : State := { State.reset with mbcmd := 0x80000007, mbarg := [(0, 0x1000), (1, 4), (2, 0x20)], mem := [(0x8000000001001, 7), (0x8000000001003, 9)] }
    guard (issued s 7 = true)
    let pa : Nat := 0x8000000000000 + (argument s 0).toNat
    let n : Nat := (argument s 1).toNat
    guard (pa + n ≤ 0xf000000000000)
    guard (s.anyPoison pa n = false)
    some () : Option Unit) = some () := by decide +kernel
theorem test_MailboxManagement_10 : (do
    let s : State := { State.reset with mbcmd := 0x80000008, mbarg := [] }
    guard (issued s 8 = true)
    some () : Option Unit) = some () := by decide +kernel
theorem test_MailboxManagement_11 : (do
    let s : State := { State.reset with mbcmd := 0x80000009, mbarg := [], mgmt := { State.reset.mgmt with floor := 5 } }
    guard (issued s 9 = true)
    some () : Option Unit) = some () := by decide +kernel
theorem test_MailboxManagement_12 : (do
    let s : State := { State.reset with mbcmd := 0x8000000a, mbarg := [] }
    guard (issued s 0x0a = true)
    some () : Option Unit) = some () := by decide +kernel
theorem test_LaunchIntake_1 : (do
    let s : State := { State.reset with sel := 3, queues := [{ (default : Queue) with q := 3, held := true, logsz := 4, head := 0xffffffff, tail := 2, tenant := 7, asid := 1, base := 0x10000, evbase := 0x4000, evlog := 4, qcb := 0x8000 }], mem := [(0x10780, 9), (0x10784, 1), (0x107ff, 5)] }
    let qu : Queue := (s.queues.getD 0 default)
    guard (s.sel < 6)
    guard ((s.launches.filter fun l => l.st != .done).length < 4096)
    guard (s.nextQueue s.sel = some qu)
    guard (s.queues = [qu])
    guard (qu.held = true)
    guard (qu.bell = none)
    guard (qu.status = 0)
    guard (qu.tail ≠ qu.head)
    let pa : Nat := qu.base + 128 * (qu.head % 2 ^ qu.logsz)
    guard (s.anyPoison pa 128 = false)
    guard (frontWrites s (qu.qcb + 20) = true)
    guard (s.mem.wf = true)
    some () : Option Unit) = some () := by decide +kernel
theorem test_LaunchIntake_2 : (do
    let s : State := { State.reset with sel := 3, nodes := [{ n := 1, tset := [7], resident := some 7, requests := [], partReq := none, phase := .steady, quiet := [], late := [], judged := false, graced := false, used := true }], asidOwner := [(1, 7)], queues := [{ (default : Queue) with q := 3, held := true, logsz := 4, head := 0xffffffff, tail := 2, tenant := 7, asid := 1, base := 0x10000, evbase := 0x4000, evlog := 4, qcb := 0x8000 }], launches := [{ (default : Launch) with no := 3, q := 3, tenant := 7, lid := 0, part := 1, asid := 1, raw := List.replicate 128 0, st := .accepted, nent := 1, ent := { code := 4096, ctrl := 0x20000 }, preds := [0, 0, 0, 0], slotPa := 0x10000 }], featacc := [(0, 0x7f)], mem := Memory.setBytes (Memory.setBytes (Memory.setBytes (Memory.setBytes (Memory.setBytes walkTo 0x3000 (leBytes 0x1000 8 ++ [0, 1, 0, 0, 0, 0, 0, 0, 1, 2, 2, 0, 3, 0, 0, 0])) 0x3400 ([1, 1, 0, 0, 1, 0, 0, 0] ++ leBytes 0x3500 8 ++ leBytes 0x3600 8)) 0x3500 (leBytes 5 4 ++ [0, 0, 0, 0] ++ leBytes 0x40 4 ++ leBytes 0x80 4)) 0x3600 (leBytes 0x8000000 8 ++ leBytes 9 8)) 0x3700 (leBytes 0x1000 8 ++ leBytes 5 8 ++ leBytes 6 8 ++ leBytes 0x20000 8), roots := [(0, 0x9001), (1, 0x9001)] }
    let l ← s.launch? s.sel
    guard (l.st = .accepted)
    guard (¬ recordGood l)
    some () : Option Unit) = some () := by decide +kernel
theorem test_LaunchIntake_3 : (do
    let s : State := { State.reset with sel := 3, nodes := [{ n := 1, tset := [9], resident := some 7, requests := [], partReq := none, phase := .steady, quiet := [], late := [], judged := false, graced := false, used := true }], asidOwner := [(1, 7)], queues := [{ (default : Queue) with q := 3, held := true, logsz := 4, head := 0xffffffff, tail := 2, tenant := 7, asid := 1, base := 0x10000, evbase := 0x4000, evlog := 4, qcb := 0x8000 }], launches := [{ (default : Launch) with no := 3, q := 3, tenant := 7, lid := 9, part := 1, asid := 1, raw := List.replicate 128 0, st := .accepted, nent := 1, ent := { code := 4096, ctrl := 0x20000 }, preds := [0, 0, 0, 0], slotPa := 0x10000 }], featacc := [(0, 0x7f)], mem := Memory.setBytes (Memory.setBytes (Memory.setBytes (Memory.setBytes (Memory.setBytes walkTo 0x3000 (leBytes 0x1000 8 ++ [0, 1, 0, 0, 0, 0, 0, 0, 1, 2, 2, 0, 3, 0, 0, 0])) 0x3400 ([1, 1, 0, 0, 1, 0, 0, 0] ++ leBytes 0x3500 8 ++ leBytes 0x3600 8)) 0x3500 (leBytes 5 4 ++ [0, 0, 0, 0] ++ leBytes 0x40 4 ++ leBytes 0x80 4)) 0x3600 (leBytes 0x8000000 8 ++ leBytes 9 8)) 0x3700 (leBytes 0x1000 8 ++ leBytes 5 8 ++ leBytes 6 8 ++ leBytes 0x20000 8), roots := [(0, 0x9001), (1, 0x9001)] }
    let l ← s.launch? s.sel
    guard (l.st = .accepted)
    guard (recordGood l)
    guard (¬ owned s l)
    some () : Option Unit) = some () := by decide +kernel
theorem test_LaunchIntake_4 : (do
    let s : State := { State.reset with sel := 3, nodes := [{ n := 1, tset := [7], resident := some 7, requests := [], partReq := none, phase := .steady, quiet := [], late := [], judged := false, graced := false, used := true }], asidOwner := [(1, 7)], queues := [{ (default : Queue) with q := 3, held := true, logsz := 4, head := 0xffffffff, tail := 2, tenant := 7, asid := 1, base := 0x10000, evbase := 0x4000, evlog := 4, qcb := 0x8000 }], launches := [{ (default : Launch) with no := 3, q := 3, tenant := 7, lid := 9, part := 1, asid := 1, raw := List.replicate 128 0, st := .accepted, nent := 2, enta := 0x4000000000, ent := { code := 4096, ctrl := 0x20000 }, preds := [0, 0, 0, 0], slotPa := 0x10000 }], featacc := [(0, 0x7f)], mem := Memory.setBytes (Memory.setBytes (Memory.setBytes (Memory.setBytes (Memory.setBytes walkTo 0x3000 (leBytes 0x1000 8 ++ [0, 1, 0, 0, 0, 0, 0, 0, 1, 2, 2, 0, 3, 0, 0, 0])) 0x3400 ([1, 1, 0, 0, 1, 0, 0, 0] ++ leBytes 0x3500 8 ++ leBytes 0x3600 8)) 0x3500 (leBytes 5 4 ++ [0, 0, 0, 0] ++ leBytes 0x40 4 ++ leBytes 0x80 4)) 0x3600 (leBytes 0x8000000 8 ++ leBytes 9 8)) 0x3700 (leBytes 0x1000 8 ++ leBytes 5 8 ++ leBytes 6 8 ++ leBytes 0x20000 8), roots := [(0, 0x9001), (1, 0x9001)] }
    let l ← s.launch? s.sel
    guard (l.st = .accepted)
    guard (recordGood l)
    guard (owned s l)
    guard (1 < l.nent)
    let (e, t) ← errOf ((feReadAll l 1 l.enta (32 * l.nent)).run s)
    some () : Option Unit) = some () := by decide +kernel
theorem test_LaunchIntake_5 : (do
    let s : State := { State.reset with sel := 3, nodes := [{ n := 1, tset := [7], resident := some 7, requests := [], partReq := none, phase := .steady, quiet := [], late := [], judged := false, graced := false, used := true }], asidOwner := [(1, 7)], queues := [{ (default : Queue) with q := 3, held := true, logsz := 4, head := 0xffffffff, tail := 2, tenant := 7, asid := 1, base := 0x10000, evbase := 0x4000, evlog := 4, qcb := 0x8000 }], launches := [{ (default : Launch) with no := 3, q := 3, tenant := 7, lid := 9, part := 1, asid := 1, raw := List.replicate 128 0, st := .accepted, nent := 1, team := 0x3000, ent := { code := 4096, ctrl := 0x20000 }, preds := [0, 0, 0, 0], slotPa := 0x10000 }], featacc := [(0, 0x6f)], mem := Memory.setBytes (Memory.setBytes (Memory.setBytes (Memory.setBytes (Memory.setBytes walkTo 0x3000 (leBytes 0x1000 8 ++ [0, 1, 0, 0, 0, 0, 0, 0, 1, 2, 2, 0, 3, 0, 0, 0])) 0x3400 ([1, 1, 0, 0, 1, 0, 0, 0] ++ leBytes 0x3500 8 ++ leBytes 0x3600 8)) 0x3500 (leBytes 5 4 ++ [0, 0, 0, 0] ++ leBytes 0x40 4 ++ leBytes 0x80 4)) 0x3600 (leBytes 0x8000000 8 ++ leBytes 9 8)) 0x3700 (leBytes 0x1000 8 ++ leBytes 5 8 ++ leBytes 6 8 ++ leBytes 0x20000 8), roots := [(0, 0x9001), (1, 0x9001)] }
    let l ← s.launch? s.sel
    guard (l.st = .accepted)
    guard (recordGood l)
    guard (owned s l)
    guard (l.nent = 1)
    guard (l.team ≠ 0)
    guard (s.feat 4 = false)
    some () : Option Unit) = some () := by decide +kernel
theorem test_LaunchIntake_6 : (do
    let s : State := { State.reset with sel := 3, nodes := [{ n := 1, tset := [7], resident := some 7, requests := [], partReq := none, phase := .steady, quiet := [], late := [], judged := false, graced := false, used := true }], asidOwner := [(1, 7)], queues := [{ (default : Queue) with q := 3, held := true, logsz := 4, head := 0xffffffff, tail := 2, tenant := 7, asid := 1, base := 0x10000, evbase := 0x4000, evlog := 4, qcb := 0x8000 }], launches := [{ (default : Launch) with no := 3, q := 3, tenant := 7, lid := 9, part := 1, asid := 1, raw := List.replicate 128 0, st := .accepted, nent := 1, team := 0x4000000000, ent := { code := 4096, ctrl := 0x20000 }, preds := [0, 0, 0, 0], slotPa := 0x10000 }], featacc := [(0, 0x7f)], mem := Memory.setBytes (Memory.setBytes (Memory.setBytes (Memory.setBytes (Memory.setBytes walkTo 0x3000 (leBytes 0x1000 8 ++ [0, 1, 0, 0, 0, 0, 0, 0, 1, 2, 2, 0, 3, 0, 0, 0])) 0x3400 ([1, 1, 0, 0, 1, 0, 0, 0] ++ leBytes 0x3500 8 ++ leBytes 0x3600 8)) 0x3500 (leBytes 5 4 ++ [0, 0, 0, 0] ++ leBytes 0x40 4 ++ leBytes 0x80 4)) 0x3600 (leBytes 0x8000000 8 ++ leBytes 9 8)) 0x3700 (leBytes 0x1000 8 ++ leBytes 5 8 ++ leBytes 6 8 ++ leBytes 0x20000 8), roots := [(0, 0x9001), (1, 0x9001)] }
    let l ← s.launch? s.sel
    guard (l.st = .accepted)
    guard (recordGood l)
    guard (owned s l)
    guard (l.nent = 1)
    let es := [(l.ent, BitVec.ofNat 64 (l.slotPa + 96))]
    let s1 := s
    let l1 := { l with entries := es }
    guard (l.team ≠ 0)
    guard (s.feat 4 = true)
    let (e, t) ← errOf ((feReadAll l1 2 l.team 136).run s1)
    some () : Option Unit) = some () := by decide +kernel
theorem test_LaunchIntake_7 : (do
    let s : State := { State.reset with sel := 3, nodes := [{ n := 1, tset := [7], resident := some 7, requests := [], partReq := none, phase := .steady, quiet := [], late := [], judged := false, graced := false, used := true }], asidOwner := [(1, 7)], queues := [{ (default : Queue) with q := 3, held := true, logsz := 4, head := 0xffffffff, tail := 2, tenant := 7, asid := 1, base := 0x10000, evbase := 0x4000, evlog := 4, qcb := 0x8000 }], launches := [{ (default : Launch) with no := 3, q := 3, tenant := 7, lid := 9, part := 1, asid := 1, raw := List.replicate 128 0, st := .accepted, nent := 1, team := 0x3001, ent := { code := 4096, ctrl := 0x20000 }, preds := [0, 0, 0, 0], slotPa := 0x10000 }], featacc := [(0, 0x7f)], mem := Memory.setBytes (Memory.setBytes (Memory.setBytes (Memory.setBytes (Memory.setBytes walkTo 0x3000 (leBytes 0x1000 8 ++ [0, 1, 0, 0, 0, 0, 0, 0, 1, 2, 2, 0, 3, 0, 0, 0])) 0x3400 ([1, 1, 0, 0, 1, 0, 0, 0] ++ leBytes 0x3500 8 ++ leBytes 0x3600 8)) 0x3500 (leBytes 5 4 ++ [0, 0, 0, 0] ++ leBytes 0x40 4 ++ leBytes 0x80 4)) 0x3600 (leBytes 0x8000000 8 ++ leBytes 9 8)) 0x3700 (leBytes 0x1000 8 ++ leBytes 5 8 ++ leBytes 6 8 ++ leBytes 0x20000 8), roots := [(0, 0x9001), (1, 0x9001)] }
    let l ← s.launch? s.sel
    guard (l.st = .accepted)
    guard (recordGood l)
    guard (owned s l)
    guard (l.nent = 1)
    let es := [(l.ent, BitVec.ofNat 64 (l.slotPa + 96))]
    let s1 := s
    let l1 := { l with entries := es }
    guard (l.team ≠ 0)
    guard (s.feat 4 = true)
    let (d, t) ← okOf ((feReadAll l1 2 l.team 136).run s1)
    guard (¬ teamGood l.team d)
    some () : Option Unit) = some () := by decide +kernel
theorem test_LaunchIntake_8 : (do
    let s : State := { State.reset with sel := 3, nodes := [{ n := 1, tset := [7], resident := some 7, requests := [], partReq := none, phase := .steady, quiet := [], late := [], judged := false, graced := false, used := true }], asidOwner := [(1, 7)], queues := [{ (default : Queue) with q := 3, held := true, logsz := 4, head := 0xffffffff, tail := 2, tenant := 7, asid := 1, base := 0x10000, evbase := 0x4000, evlog := 4, qcb := 0x8000 }], launches := [{ (default : Launch) with no := 3, q := 3, tenant := 7, lid := 9, part := 1, asid := 1, raw := List.replicate 128 0, st := .accepted, nent := 1, team := 0x3000, ent := { code := 4096, ctrl := 0x20000 }, preds := [0, 0, 0, 0], slotPa := 0x10000 }], featacc := [(0, 0x7f)], mem := Memory.setBytes (Memory.setBytes (Memory.setBytes (Memory.setBytes (Memory.setBytes walkTo 0x3000 (leBytes 0x1000 8 ++ [0, 1, 0, 0, 0xff, 0xff, 0, 0, 1, 2, 2, 0, 3, 0, 0, 0])) 0x3400 ([1, 1, 0, 0, 1, 0, 0, 0] ++ leBytes 0x3500 8 ++ leBytes 0x3600 8)) 0x3500 (leBytes 5 4 ++ [0, 0, 0, 0] ++ leBytes 0x40 4 ++ leBytes 0x80 4)) 0x3600 (leBytes 0x8000000 8 ++ leBytes 9 8)) 0x3700 (leBytes 0x1000 8 ++ leBytes 5 8 ++ leBytes 6 8 ++ leBytes 0x20000 8), roots := [(0, 0x9001), (1, 0x9001)] }
    let l ← s.launch? s.sel
    guard (l.st = .accepted)
    guard (recordGood l)
    guard (owned s l)
    guard (l.nent = 1)
    let es := [(l.ent, BitVec.ofNat 64 (l.slotPa + 96))]
    let s1 := s
    let l1 := { l with entries := es }
    guard (l.team ≠ 0)
    guard (s.feat 4 = true)
    let (d, t) ← okOf ((feReadAll l1 2 l.team 136).run s1)
    guard (teamGood l.team d)
    guard (instances l.part d = none)
    some () : Option Unit) = some () := by decide +kernel
theorem test_LaunchIntake_9 : (do
    let s : State := { State.reset with sel := 3, nodes := [{ n := 1, tset := [7], resident := some 7, requests := [], partReq := none, phase := .steady, quiet := [], late := [], judged := false, graced := false, used := true }], asidOwner := [(1, 7)], queues := [{ (default : Queue) with q := 3, held := true, logsz := 4, head := 0xffffffff, tail := 2, tenant := 7, asid := 1, base := 0x10000, evbase := 0x4000, evlog := 4, qcb := 0x8000 }], launches := [{ (default : Launch) with no := 3, q := 3, tenant := 7, lid := 9, part := 1, asid := 1, raw := List.replicate 128 0, st := .accepted, nent := 1, team := 0x3000, wset := 0x4000000000, ent := { code := 4096, ctrl := 0x20000 }, preds := [0, 0, 0, 0], slotPa := 0x10000 }], featacc := [(0, 0x7f)], mem := Memory.setBytes (Memory.setBytes (Memory.setBytes (Memory.setBytes (Memory.setBytes walkTo 0x3000 (leBytes 0x1000 8 ++ [0, 1, 0, 0, 0, 0, 0, 0, 1, 2, 2, 0, 3, 0, 0, 0])) 0x3400 ([1, 1, 0, 0, 1, 0, 0, 0] ++ leBytes 0x3500 8 ++ leBytes 0x3600 8)) 0x3500 (leBytes 5 4 ++ [0, 0, 0, 0] ++ leBytes 0x40 4 ++ leBytes 0x80 4)) 0x3600 (leBytes 0x8000000 8 ++ leBytes 9 8)) 0x3700 (leBytes 0x1000 8 ++ leBytes 5 8 ++ leBytes 6 8 ++ leBytes 0x20000 8), roots := [(0, 0x9001), (1, 0x9001)] }
    let l ← s.launch? s.sel
    guard (l.st = .accepted)
    guard (recordGood l)
    guard (owned s l)
    guard (l.nent = 1)
    let es := [(l.ent, BitVec.ofNat 64 (l.slotPa + 96))]
    let s1 := s
    let l1 := { l with entries := es }
    let (l2, s2) ← (if l1.team = 0 then some (l1, s1) else do
      guard (s.feat 4 = true)
      let (dd, tt) ← okOf ((feReadAll l1 2 l1.team 136).run s1)
      guard (teamGood l1.team dd)
      let nn ← instances l1.part dd
      some ({ l1 with desc := dd, ninst := nn }, tt))
    guard (l.wset ≠ 0)
    let (e, t) ← errOf ((feReadAll l2 5 l.wset 64).run s2)
    some () : Option Unit) = some () := by decide +kernel
theorem test_LaunchIntake_10 : (do
    let s : State := { State.reset with sel := 3, nodes := [{ n := 1, tset := [7], resident := some 7, requests := [], partReq := none, phase := .steady, quiet := [], late := [], judged := false, graced := false, used := true }], asidOwner := [(1, 7)], queues := [{ (default : Queue) with q := 3, held := true, logsz := 4, head := 0xffffffff, tail := 2, tenant := 7, asid := 1, base := 0x10000, evbase := 0x4000, evlog := 4, qcb := 0x8000 }], launches := [{ (default : Launch) with no := 3, q := 3, tenant := 7, lid := 9, part := 1, asid := 1, raw := List.replicate 128 0, st := .accepted, nent := 1, wset := 0x3400, ent := { code := 4096, ctrl := 0x20000 }, preds := [0, 0, 0, 0], slotPa := 0x10000 }], featacc := [(0, 0x7f)], mem := Memory.setBytes (Memory.setBytes (Memory.setBytes (Memory.setBytes (Memory.setBytes walkTo 0x3000 (leBytes 0x1000 8 ++ [0, 1, 0, 0, 0, 0, 0, 0, 1, 2, 2, 0, 3, 0, 0, 0])) 0x3400 ([1, 1, 0, 1, 1, 0, 0, 0] ++ leBytes 0x3500 8 ++ leBytes 0x3600 8)) 0x3500 (leBytes 5 4 ++ [0, 0, 0, 0] ++ leBytes 0x40 4 ++ leBytes 0x80 4)) 0x3600 (leBytes 0x8000000 8 ++ leBytes 9 8)) 0x3700 (leBytes 0x1000 8 ++ leBytes 5 8 ++ leBytes 6 8 ++ leBytes 0x20000 8), roots := [(0, 0x9001), (1, 0x9001)] }
    let l ← s.launch? s.sel
    guard (l.st = .accepted)
    guard (recordGood l)
    guard (owned s l)
    guard (l.nent = 1)
    let es := [(l.ent, BitVec.ofNat 64 (l.slotPa + 96))]
    let s1 := s
    let l1 := { l with entries := es }
    let (l2, s2) ← (if l1.team = 0 then some (l1, s1) else do
      guard (s.feat 4 = true)
      let (dd, tt) ← okOf ((feReadAll l1 2 l1.team 136).run s1)
      guard (teamGood l1.team dd)
      let nn ← instances l1.part dd
      some ({ l1 with desc := dd, ninst := nn }, tt))
    guard (l.wset ≠ 0)
    let (h, s3) ← okOf ((feReadAll l2 5 l.wset 64).run s2)
    guard (¬ headerGood l.wset h)
    some () : Option Unit) = some () := by decide +kernel
theorem test_LaunchIntake_11 : (do
    let s : State := { State.reset with sel := 3, nodes := [{ n := 1, tset := [7], resident := some 7, requests := [], partReq := none, phase := .steady, quiet := [], late := [], judged := false, graced := false, used := true }], asidOwner := [(1, 7)], queues := [{ (default : Queue) with q := 3, held := true, logsz := 4, head := 0xffffffff, tail := 2, tenant := 7, asid := 1, base := 0x10000, evbase := 0x4000, evlog := 4, qcb := 0x8000 }], launches := [{ (default : Launch) with no := 3, q := 3, tenant := 7, lid := 9, part := 1, asid := 1, raw := List.replicate 128 0, st := .accepted, nent := 1, wset := 0x3400, ent := { code := 4096, ctrl := 0x20000 }, preds := [0, 0, 0, 0], slotPa := 0x10000 }], featacc := [(0, 0x7f)], mem := Memory.setBytes (Memory.setBytes (Memory.setBytes (Memory.setBytes (Memory.setBytes walkTo 0x3000 (leBytes 0x1000 8 ++ [0, 1, 0, 0, 0, 0, 0, 0, 1, 2, 2, 0, 3, 0, 0, 0])) 0x3400 ([1, 1, 0, 0, 1, 0, 0, 0] ++ leBytes 0x4000000000 8)) 0x3500 (leBytes 5 4 ++ [0, 0, 0, 0] ++ leBytes 0x40 4 ++ leBytes 0x80 4)) 0x3600 (leBytes 0x8000000 8 ++ leBytes 9 8)) 0x3700 (leBytes 0x1000 8 ++ leBytes 5 8 ++ leBytes 6 8 ++ leBytes 0x20000 8), roots := [(0, 0x9001), (1, 0x9001)] }
    let l ← s.launch? s.sel
    guard (l.st = .accepted)
    guard (recordGood l)
    guard (owned s l)
    guard (l.nent = 1)
    let es := [(l.ent, BitVec.ofNat 64 (l.slotPa + 96))]
    let s1 := s
    let l1 := { l with entries := es }
    let (l2, s2) ← (if l1.team = 0 then some (l1, s1) else do
      guard (s.feat 4 = true)
      let (dd, tt) ← okOf ((feReadAll l1 2 l1.team 136).run s1)
      guard (teamGood l1.team dd)
      let nn ← instances l1.part dd
      some ({ l1 with desc := dd, ninst := nn }, tt))
    guard (l.wset ≠ 0)
    let (h, s3) ← okOf ((feReadAll l2 5 l.wset 64).run s2)
    guard (headerGood l.wset h)
    let (e, t) ← errOf ((feReadAll l2 5 (num h 8 8) (16 * num h 0 1)).run s3)
    some () : Option Unit) = some () := by decide +kernel
theorem test_LaunchIntake_12 : (do
    let s : State := { State.reset with sel := 3, nodes := [{ n := 1, tset := [7], resident := some 7, requests := [], partReq := none, phase := .steady, quiet := [], late := [], judged := false, graced := false, used := true }], asidOwner := [(1, 7)], queues := [{ (default : Queue) with q := 3, held := true, logsz := 4, head := 0xffffffff, tail := 2, tenant := 7, asid := 1, base := 0x10000, evbase := 0x4000, evlog := 4, qcb := 0x8000 }], launches := [{ (default : Launch) with no := 3, q := 3, tenant := 7, lid := 9, part := 1, asid := 1, raw := List.replicate 128 0, st := .accepted, nent := 1, wset := 0x3400, ent := { code := 4096, ctrl := 0x20000 }, preds := [0, 0, 0, 0], slotPa := 0x10000 }], featacc := [(0, 0x7f)], mem := Memory.setBytes (Memory.setBytes (Memory.setBytes (Memory.setBytes (Memory.setBytes walkTo 0x3000 (leBytes 0x1000 8 ++ [0, 1, 0, 0, 0, 0, 0, 0, 1, 2, 2, 0, 3, 0, 0, 0])) 0x3400 ([1, 1, 0, 0, 1, 0, 0, 0] ++ leBytes 0x3500 8 ++ leBytes 0x3600 8)) 0x3500 (leBytes 5 4 ++ [3, 0, 0, 0] ++ leBytes 0x40 4 ++ leBytes 0x80 4)) 0x3600 (leBytes 0x8000000 8 ++ leBytes 9 8)) 0x3700 (leBytes 0x1000 8 ++ leBytes 5 8 ++ leBytes 6 8 ++ leBytes 0x20000 8), roots := [(0, 0x9001), (1, 0x9001)] }
    let l ← s.launch? s.sel
    guard (l.st = .accepted)
    guard (recordGood l)
    guard (owned s l)
    guard (l.nent = 1)
    let es := [(l.ent, BitVec.ofNat 64 (l.slotPa + 96))]
    let s1 := s
    let l1 := { l with entries := es }
    let (l2, s2) ← (if l1.team = 0 then some (l1, s1) else do
      guard (s.feat 4 = true)
      let (dd, tt) ← okOf ((feReadAll l1 2 l1.team 136).run s1)
      guard (teamGood l1.team dd)
      let nn ← instances l1.part dd
      some ({ l1 with desc := dd, ninst := nn }, tt))
    guard (l.wset ≠ 0)
    let (h, s3) ← okOf ((feReadAll l2 5 l.wset 64).run s2)
    guard (headerGood l.wset h)
    let (rt, s4) ← okOf ((feReadAll l2 5 (num h 8 8) (16 * num h 0 1)).run s3)
    guard (¬ regionsGood l.part rt (num h 0 1))
    some () : Option Unit) = some () := by decide +kernel
theorem test_LaunchIntake_13 : (do
    let s : State := { State.reset with sel := 3, nodes := [{ n := 1, tset := [7], resident := some 7, requests := [], partReq := none, phase := .steady, quiet := [], late := [], judged := false, graced := false, used := true }], asidOwner := [(1, 7)], queues := [{ (default : Queue) with q := 3, held := true, logsz := 4, head := 0xffffffff, tail := 2, tenant := 7, asid := 1, base := 0x10000, evbase := 0x4000, evlog := 4, qcb := 0x8000 }], launches := [{ (default : Launch) with no := 3, q := 3, tenant := 7, lid := 9, part := 1, asid := 1, raw := List.replicate 128 0, st := .accepted, nent := 1, wset := 0x3400, ent := { code := 4096, ctrl := 0x20000 }, preds := [0, 0, 0, 0], slotPa := 0x10000 }], featacc := [(0, 0x7f)], mem := Memory.setBytes (Memory.setBytes (Memory.setBytes (Memory.setBytes (Memory.setBytes walkTo 0x3000 (leBytes 0x1000 8 ++ [0, 1, 0, 0, 0, 0, 0, 0, 1, 2, 2, 0, 3, 0, 0, 0])) 0x3400 ([1, 1, 0, 0, 1, 0, 0, 0] ++ leBytes 0x3500 8 ++ leBytes 0x4000000000 8)) 0x3500 (leBytes 5 4 ++ [0, 0, 0, 0] ++ leBytes 0x40 4 ++ leBytes 0x80 4)) 0x3600 (leBytes 0x8000000 8 ++ leBytes 9 8)) 0x3700 (leBytes 0x1000 8 ++ leBytes 5 8 ++ leBytes 6 8 ++ leBytes 0x20000 8), roots := [(0, 0x9001), (1, 0x9001)] }
    let l ← s.launch? s.sel
    guard (l.st = .accepted)
    guard (recordGood l)
    guard (owned s l)
    guard (l.nent = 1)
    let es := [(l.ent, BitVec.ofNat 64 (l.slotPa + 96))]
    let s1 := s
    let l1 := { l with entries := es }
    let (l2, s2) ← (if l1.team = 0 then some (l1, s1) else do
      guard (s.feat 4 = true)
      let (dd, tt) ← okOf ((feReadAll l1 2 l1.team 136).run s1)
      guard (teamGood l1.team dd)
      let nn ← instances l1.part dd
      some ({ l1 with desc := dd, ninst := nn }, tt))
    guard (l.wset ≠ 0)
    let (h, s3) ← okOf ((feReadAll l2 5 l.wset 64).run s2)
    guard (headerGood l.wset h)
    let (rt, s4) ← okOf ((feReadAll l2 5 (num h 8 8) (16 * num h 0 1)).run s3)
    guard (regionsGood l.part rt (num h 0 1))
    let (e, t) ← errOf ((feReadAll l2 5 (num h 16 8) (16 * num h 4 4)).run s4)
    some () : Option Unit) = some () := by decide +kernel
theorem test_LaunchIntake_14 : (do
    let s : State := { State.reset with sel := 3, nodes := [{ n := 1, tset := [7], resident := some 7, requests := [], partReq := none, phase := .steady, quiet := [], late := [], judged := false, graced := false, used := true }], asidOwner := [(1, 7)], queues := [{ (default : Queue) with q := 3, held := true, logsz := 4, head := 0xffffffff, tail := 2, tenant := 7, asid := 1, base := 0x10000, evbase := 0x4000, evlog := 4, qcb := 0x8000 }], launches := [{ (default : Launch) with no := 3, q := 3, tenant := 7, lid := 9, part := 1, asid := 1, raw := List.replicate 128 0, st := .accepted, nent := 1, wset := 0x3400, ent := { code := 4096, ctrl := 0x20000 }, preds := [0, 0, 0, 0], slotPa := 0x10000 }], featacc := [(0, 0x7f)], mem := Memory.setBytes (Memory.setBytes (Memory.setBytes (Memory.setBytes (Memory.setBytes walkTo 0x3000 (leBytes 0x1000 8 ++ [0, 1, 0, 0, 0, 0, 0, 0, 1, 2, 2, 0, 3, 0, 0, 0])) 0x3400 ([1, 1, 0, 0, 1, 0, 0, 0] ++ leBytes 0x3500 8 ++ leBytes 0x3600 8)) 0x3500 (leBytes 5 4 ++ [0, 0, 0, 0] ++ leBytes 0x40 4 ++ leBytes 0x80 4)) 0x3600 (leBytes 0x4000000 8 ++ leBytes 9 8)) 0x3700 (leBytes 0x1000 8 ++ leBytes 5 8 ++ leBytes 6 8 ++ leBytes 0x20000 8), roots := [(0, 0x9001), (1, 0x9001)] }
    let l ← s.launch? s.sel
    guard (l.st = .accepted)
    guard (recordGood l)
    guard (owned s l)
    guard (l.nent = 1)
    let es := [(l.ent, BitVec.ofNat 64 (l.slotPa + 96))]
    let s1 := s
    let l1 := { l with entries := es }
    let (l2, s2) ← (if l1.team = 0 then some (l1, s1) else do
      guard (s.feat 4 = true)
      let (dd, tt) ← okOf ((feReadAll l1 2 l1.team 136).run s1)
      guard (teamGood l1.team dd)
      let nn ← instances l1.part dd
      some ({ l1 with desc := dd, ninst := nn }, tt))
    guard (l.wset ≠ 0)
    let (h, s3) ← okOf ((feReadAll l2 5 l.wset 64).run s2)
    guard (headerGood l.wset h)
    let (rt, s4) ← okOf ((feReadAll l2 5 (num h 8 8) (16 * num h 0 1)).run s3)
    guard (regionsGood l.part rt (num h 0 1))
    let (x, t) ← okOf ((feReadAll l2 5 (num h 16 8) (16 * num h 4 4)).run s4)
    guard (¬ extentsGood x (num h 4 4))
    some () : Option Unit) = some () := by decide +kernel
theorem test_LaunchIntake_15 : (do
    let s : State := { State.reset with sel := 3, nodes := [{ n := 1, tset := [7], resident := some 7, requests := [], partReq := none, phase := .steady, quiet := [], late := [], judged := false, graced := false, used := true }], asidOwner := [(1, 7)], queues := [{ (default : Queue) with q := 3, held := true, logsz := 4, head := 0xffffffff, tail := 2, tenant := 7, asid := 1, base := 0x10000, evbase := 0x4000, evlog := 4, qcb := 0x8000 }], launches := [{ (default : Launch) with no := 3, q := 3, tenant := 7, lid := 9, part := 1, asid := 1, raw := List.replicate 128 0, st := .accepted, nent := 1, wset := 0x3400, team := 0x3000, ent := { code := 4096, ctrl := 0x20000 }, preds := [0, 0, 0, 9], slotPa := 0x10000 }], featacc := [(0, 0x7f)], mem := Memory.setBytes (Memory.setBytes (Memory.setBytes (Memory.setBytes (Memory.setBytes walkTo 0x3000 (leBytes 0x1000 8 ++ [0, 1, 0, 0, 0, 0, 0, 0, 1, 2, 2, 0, 3, 0, 0, 0])) 0x3400 ([1, 1, 0, 0, 1, 0, 0, 0] ++ leBytes 0x3500 8 ++ leBytes 0x3600 8)) 0x3500 (leBytes 5 4 ++ [0, 0, 0, 0] ++ leBytes 0x40 4 ++ leBytes 0x80 4)) 0x3600 (leBytes 0x8000000 8 ++ leBytes 9 8)) 0x3700 (leBytes 0x1000 8 ++ leBytes 5 8 ++ leBytes 6 8 ++ leBytes 0x20000 8), roots := [(0, 0x9001), (1, 0x9001)] }
    let l ← s.launch? s.sel
    guard (l.st = .accepted)
    guard (recordGood l)
    guard (owned s l)
    guard (l.nent = 1)
    let es := [(l.ent, BitVec.ofNat 64 (l.slotPa + 96))]
    let s1 := s
    let l1 := { l with entries := es }
    let (l2, s2) ← (if l1.team = 0 then some (l1, s1) else do
      guard (s.feat 4 = true)
      let (dd, tt) ← okOf ((feReadAll l1 2 l1.team 136).run s1)
      guard (teamGood l1.team dd)
      let nn ← instances l1.part dd
      some ({ l1 with desc := dd, ninst := nn }, tt))
    let (l3, s3) ← (if l2.wset = 0 then some (l2, s2) else do
      let (hh, ss1) ← okOf ((feReadAll l2 5 l2.wset 64).run s2)
      guard (headerGood l2.wset hh)
      let (rt, ss2) ← okOf ((feReadAll l2 5 (num hh 8 8) (16 * num hh 0 1)).run ss1)
      guard (regionsGood l2.part rt (num hh 0 1))
      let (xx, tt) ← okOf ((feReadAll l2 5 (num hh 16 8) (16 * num hh 4 4)).run ss2)
      guard (extentsGood xx (num hh 4 4))
      some ({ l2 with regions := (List.range (num hh 0 1)).map (regionIn rt), record := num hh 1 1 == 1, extents := (List.range (num hh 4 4)).map fun i => (num xx (16 * i) 8, num xx (16 * i + 8) 8) }, tt))
    guard ((∃ e ∈ l.preds, ¬ predGood s l.lid e))
    some () : Option Unit) = some () := by decide +kernel
theorem test_LaunchIntake_16 : (do
    let s : State := { State.reset with sel := 3, nodes := [{ n := 1, tset := [7], resident := some 7, requests := [], partReq := none, phase := .steady, quiet := [], late := [], judged := false, graced := false, used := true }], asidOwner := [(1, 7)], queues := [{ (default : Queue) with q := 3, held := true, logsz := 4, head := 0xffffffff, tail := 2, tenant := 7, asid := 1, base := 0x10000, evbase := 0x4000, evlog := 4, qcb := 0x8000 }], launches := [{ (default : Launch) with no := 3, q := 3, tenant := 7, lid := 9, part := 1, asid := 1, raw := List.replicate 128 0, st := .accepted, nent := 1, wset := 0x3400, team := 0x3000, ent := { code := 4096, ctrl := 0x20000 }, preds := [0, 0x100000005, 0, 0x300000001], slotPa := 0x10000 }], featacc := [(0, 0x7f)], mem := Memory.setBytes (Memory.setBytes (Memory.setBytes (Memory.setBytes (Memory.setBytes walkTo 0x3000 (leBytes 0x1000 8 ++ [0, 1, 0, 0, 0, 0, 0, 0, 1, 2, 2, 0, 3, 0, 0, 0])) 0x3400 ([1, 1, 0, 0, 1, 0, 0, 0] ++ leBytes 0x3500 8 ++ leBytes 0x3600 8)) 0x3500 (leBytes 5 4 ++ [0, 0, 0, 0] ++ leBytes 0x40 4 ++ leBytes 0x80 4)) 0x3600 (leBytes 0x8000000 8 ++ leBytes 9 8)) 0x3700 (leBytes 0x1000 8 ++ leBytes 5 8 ++ leBytes 6 8 ++ leBytes 0x20000 8), roots := [(0, 0x9001), (1, 0x9001)] }
    let l ← s.launch? s.sel
    guard (l.st = .accepted)
    guard (recordGood l)
    guard (owned s l)
    guard (l.nent = 1)
    let es := [(l.ent, BitVec.ofNat 64 (l.slotPa + 96))]
    let s1 := s
    let l1 := { l with entries := es }
    let (l2, s2) ← (if l1.team = 0 then some (l1, s1) else do
      guard (s.feat 4 = true)
      let (dd, tt) ← okOf ((feReadAll l1 2 l1.team 136).run s1)
      guard (teamGood l1.team dd)
      let nn ← instances l1.part dd
      some ({ l1 with desc := dd, ninst := nn }, tt))
    let (l3, s3) ← (if l2.wset = 0 then some (l2, s2) else do
      let (hh, ss1) ← okOf ((feReadAll l2 5 l2.wset 64).run s2)
      guard (headerGood l2.wset hh)
      let (rt, ss2) ← okOf ((feReadAll l2 5 (num hh 8 8) (16 * num hh 0 1)).run ss1)
      guard (regionsGood l2.part rt (num hh 0 1))
      let (xx, tt) ← okOf ((feReadAll l2 5 (num hh 16 8) (16 * num hh 4 4)).run ss2)
      guard (extentsGood xx (num hh 4 4))
      some ({ l2 with regions := (List.range (num hh 0 1)).map (regionIn rt), record := num hh 1 1 == 1, extents := (List.range (num hh 4 4)).map fun i => (num xx (16 * i) 8, num xx (16 * i + 8) 8) }, tt))
    guard ((∀ e ∈ l.preds, predGood s l.lid e))
    some () : Option Unit) = some () := by decide +kernel
theorem test_LaunchIntake_17 : (do
    let s : State := { State.reset with sel := 3, nodes := [{ n := 1, tset := [7], resident := some 7, requests := [], partReq := none, phase := .steady, quiet := [], late := [], judged := false, graced := false, used := true }], asidOwner := [(1, 7)], queues := [{ (default : Queue) with q := 3, held := true, logsz := 4, head := 0xffffffff, tail := 2, tenant := 7, asid := 1, base := 0x10000, evbase := 0x4000, evlog := 4, qcb := 0x8000 }], launches := [{ (default : Launch) with no := 3, q := 3, tenant := 7, lid := 9, part := 1, asid := 1, raw := List.replicate 128 0, st := .accepted, nent := 1, team := 0x3000, ent := { code := 4096, ctrl := 0x20000 }, preds := [0, 0, 0, 0], slotPa := 0x10000 }], featacc := [(0, 0x7d)], mem := Memory.setBytes (Memory.setBytes (Memory.setBytes (Memory.setBytes (Memory.setBytes walkTo 0x3000 (leBytes 0x1000 8 ++ [0, 1, 0, 0, 0, 0, 0, 0, 1, 2, 2, 0, 3, 0, 0, 0])) 0x3400 ([1, 1, 0, 0, 1, 0, 0, 0] ++ leBytes 0x3500 8 ++ leBytes 0x3600 8)) 0x3500 (leBytes 5 4 ++ [0, 0, 0, 0] ++ leBytes 0x40 4 ++ leBytes 0x80 4)) 0x3600 (leBytes 0x8000000 8 ++ leBytes 9 8)) 0x3700 (leBytes 0x1000 8 ++ leBytes 5 8 ++ leBytes 6 8 ++ leBytes 0x20000 8), roots := [(0, 0x9001), (1, 0x9001)] }
    let l ← s.launch? s.sel
    guard (l.st = .accepted)
    guard (recordGood l)
    guard (owned s l)
    guard (l.nent = 1)
    let es := [(l.ent, BitVec.ofNat 64 (l.slotPa + 96))]
    let s1 := s
    let l1 := { l with entries := es }
    let (l2, s2) ← (if l1.team = 0 then some (l1, s1) else do
      guard (s.feat 4 = true)
      let (dd, tt) ← okOf ((feReadAll l1 2 l1.team 136).run s1)
      guard (teamGood l1.team dd)
      let nn ← instances l1.part dd
      some ({ l1 with desc := dd, ninst := nn }, tt))
    let (l3, s3) ← (if l2.wset = 0 then some (l2, s2) else do
      let (hh, ss1) ← okOf ((feReadAll l2 5 l2.wset 64).run s2)
      guard (headerGood l2.wset hh)
      let (rt, ss2) ← okOf ((feReadAll l2 5 (num hh 8 8) (16 * num hh 0 1)).run ss1)
      guard (regionsGood l2.part rt (num hh 0 1))
      let (xx, tt) ← okOf ((feReadAll l2 5 (num hh 16 8) (16 * num hh 4 4)).run ss2)
      guard (extentsGood xx (num hh 4 4))
      some ({ l2 with regions := (List.range (num hh 0 1)).map (regionIn rt), record := num hh 1 1 == 1, extents := (List.range (num hh 4 4)).map fun i => (num xx (16 * i) 8, num xx (16 * i + 8) 8) }, tt))
    guard ((∀ e ∈ l.preds, e = 0))
    guard (s.feat 1 = false)
    guard (l.wset = 0)
    guard (l.extents = [])
    some () : Option Unit) = some () := by decide +kernel
theorem test_LaunchIntake_18 : (do
    let s : State := { State.reset with sel := 3, nodes := [{ n := 1, tset := [7], resident := some 7, requests := [], partReq := none, phase := .steady, quiet := [], late := [], judged := false, graced := false, used := true }], launches := [{ (default : Launch) with no := 3, q := 3, tenant := 7, lid := 9, part := 1, asid := 1, st := .placing, ninst := 2, desc := leBytes 0x1000 8 ++ [0, 2, 3, 0, 2, 0, 0, 0, 1, 2, 2, 0, 3, 0, 0, 0, 2, 0, 0, 0, 0, 0, 0, 0] ++ List.replicate 100 0, regions := [{ name := 5, space := 0, keep := false, off := 0x40, size := 0x80 }, { name := 6, space := 2, keep := true, off := 0, size := 0x40 }], entries := [({ code := 4096, ctrl := 0x20000 }, 0x40), ({ code := 8192 }, 0x60)] }], cores := [(0, { spad := [(0x45, 7), (0x200, 1), (0x3fff8, 9)], cspad := [(3, 1)] })], dspad := [(0, [(5, 6)])] }
    let l ← s.launch? s.sel
    guard (s.placeable l = true)
    let k ← s.rootIndex l.part
    guard (s.memOk = true)
    some () : Option Unit) = some () := by decide +kernel
theorem test_LaunchEnds_1 : (do
    let s : State := { State.reset with sel := 4, nodes := [{ n := 1, tset := [7], resident := some 7, requests := [], partReq := none, phase := .steady, quiet := [], late := [], judged := false, graced := false, used := true }], launches := [{ (default : Launch) with no := 3, q := 3, tenant := 7, lid := 9, part := 1, asid := 1, st := .running }], cores := [(0, { vecs with task := none, rbl := 0x1000, l1i := [marked] })], insts := [(4, some { (default : Inst) with launch := 3, k := 0, st := .queued, prog := 0x1000, nroles := 3, roles := [(1, 1, 2, 1), (2, 0, 0, 0), (3, 0, 0, 0)], drift := 4, cores := [(0, 1)], seqs := [(0, 2)], eng := some (0, 3) })] }
    let x ← tget none s.insts s.sel
    guard (s.takenBy x = true)
    guard (s.membersIdle x = true)
    let l ← s.launch? x.launch
    guard ((x.cores.map (·.1)).Nodup)
    guard ((x.seqs.map (·.1)).Nodup)
    guard ((∀ m ∈ x.cores, (s.core m.1).dwb.toNat + x.wwords m.2 ≤ (s.core m.1).rbl.toNat ∧ ∀ j ∈ List.range (2), (s.core m.1).holds ((s.core m.1).dwb.toNat + j) = true))
    some () : Option Unit) = some () := by decide +kernel
theorem test_LaunchEnds_2 : (do
    let s : State := { State.reset with sel := 4, nodes := [{ n := 1, tset := [7], resident := some 7, requests := [], partReq := none, phase := .steady, quiet := [], late := [], judged := false, graced := false, used := true }], launches := [{ (default : Launch) with no := 3, q := 3, tenant := 7, lid := 9, part := 1, asid := 1, st := .running }], cores := [(0, { vecs with task := none, rbl := 1, l1i := [marked] })], insts := [(4, some { (default : Inst) with launch := 3, k := 0, st := .queued, prog := 0x1000, nroles := 3, roles := [(1, 1, 2, 1), (2, 0, 0, 0), (3, 0, 0, 0)], drift := 4, cores := [(0, 1)], seqs := [(0, 2)], eng := some (0, 3) })] }
    let x ← tget none s.insts s.sel
    guard (s.takenBy x = true)
    guard (s.membersIdle x = true)
    let l ← s.launch? x.launch
    guard (x.faulted = false)
    guard ((∃ m ∈ x.cores, (s.core m.1).rbl.toNat < (s.core m.1).dwb.toNat + x.wwords m.2))
    some () : Option Unit) = some () := by decide +kernel
theorem test_LaunchEnds_3 : (do
    let s : State := { State.reset with sel := 3, nodes := [{ n := 1, tset := [7], resident := some 7, requests := [], partReq := none, phase := .steady, quiet := [], late := [], judged := false, graced := false, used := true }], launches := [{ (default : Launch) with no := 3, q := 3, tenant := 7, lid := 9, part := 1, asid := 1, st := .running, released := true }], cores := [(0, {})] }
    let l ← s.launch? s.sel
    guard (l.st = .running)
    guard (l.released = true)
    let nd ← s.node? l.part
    guard (nd.resident = some l.tenant)
    guard ((∀ x ∈ s.cores, s.nodeOf x.1 = l.part → x.2.clearOf l.no = true))
    guard ((∀ x ∈ s.net, Arrival.launch x.2.2 ≠ some l.no))
    guard ((∀ x ∈ s.posts, Posted.launch x.2 ≠ some l.no))
    some () : Option Unit) = some () := by decide +kernel
theorem test_LaunchEnds_4 : (do
    let s : State := { State.reset with sel := 3, nodes := [{ n := 1, tset := [7], resident := some 7, requests := [], partReq := none, phase := .steady, quiet := [], late := [], judged := false, graced := false, used := true }], launches := [{ (default : Launch) with no := 3, q := 3, tenant := 7, lid := 9, part := 1, asid := 1, st := .running, released := true }], cores := [(0, { vecs with task := some { job with launch := some 3 } })] }
    let l ← s.launch? s.sel
    guard (l.st = .running)
    guard (l.released = true)
    let nd ← s.node? l.part
    guard (nd.resident = some l.tenant)
    guard ((∃ x ∈ s.cores, s.nodeOf x.1 = l.part ∧ ((∃ t, x.2.task = some t ∧ t.launch = some l.no) ∨ (∃ e ∈ x.2.ready, e.launch = some l.no) ∨ (∃ m ∈ x.2.inbox, m.launch = some l.no) ∨ (∃ e ∈ x.2.sysring, e.launch = some l.no) ∨ dequeHolds x.2 ≠ 0)))
    some () : Option Unit) = some () := by decide +kernel
theorem test_LaunchEnds_5 : (do
    let s : State := { State.reset with sel := 1, nodes := [{ n := 1, tset := [7], resident := some 7, requests := [], partReq := none, phase := .steady, quiet := [], late := [], judged := false, graced := false, used := true }], launches := [{ (default : Launch) with no := 3, q := 3, tenant := 7, lid := 9, part := 1, asid := 1, st := .ending, rootK := some 0, lfl := 1 }], cores := [(0, {})], stale := [(5, { old := 1, core := 7 })] }
    let l : Launch := (s.launches.getD 0 default)
    guard (l ∈ s.launches)
    guard (l.part = s.sel)
    guard (l.st = .ending)
    guard (l.rootK.isSome = true)
    guard (l.lfl % 2 = 1)
    guard (l.flushed = false)
    some () : Option Unit) = some () := by decide +kernel
theorem test_LaunchEnds_6 : (do
    let s : State := { State.reset with sel := 3, nodes := [{ n := 1, tset := [7], resident := some 7, requests := [], partReq := none, phase := .steady, quiet := [], late := [], judged := false, graced := false, used := true }], launches := [{ (default : Launch) with no := 3, q := 3, tenant := 7, lid := 9, part := 1, asid := 1, st := .ending, rootK := some 0, lfl := 1 }], cores := [(0, {})] }
    let l ← s.launch? s.sel
    guard (l.st = .ending)
    guard (l.rootK.isSome = true)
    guard (l.lfl % 2 = 1)
    guard (l.flushed = false)
    some () : Option Unit) = some () := by decide +kernel
theorem test_LaunchEnds_7 : (do
    let s : State := { State.reset with feq := [{ pa := 0x100, bytes := [1] }], sel := 3, nodes := [{ n := 1, tset := [7], resident := some 7, requests := [], partReq := none, phase := .steady, quiet := [], late := [], judged := false, graced := false, used := true }], launches := [{ (default : Launch) with no := 3, q := 3, tenant := 7, lid := 9, part := 1, asid := 1, st := .ending, faults := true, fcode := 9, nfault := 3 }], cores := [(0, {})], queues := [{ (default : Queue) with q := 3, held := true, logsz := 4, head := 0xffffffff, tail := 2, tenant := 7, asid := 1, base := 0x10000, evbase := 0x4000, evlog := 4, qcb := 0x8000 }] }
    let l ← s.launch? s.sel
    guard (l.st = .ending)
    let w : W64 := BitVec.ofNat 64 (l.lid + 2 ^ 32 * (1 + (if l.faults then 2 else 0) + (if l.strag then 4 else 0) + (if l.reason ≠ 0 then 8 else 0) + 16 * l.reason + (if l.pfail then 256 else 0)) + 2 ^ 48 * l.fcode)
    let n : W64 := BitVec.ofNat 64 l.ndisp
    guard ((l.rootK = none ∨ l.lfl % 2 = 0 ∨ l.flushed = true))
    let s1 := if l.published then s else launchSet (if l.cev = 0 then s else match s.feWrite l.asid l.cev [w, n, BitVec.ofNat 64 l.nfault, BitVec.ofNat 64 l.time] with | some z => z | none => s.postEvent l.q 8 0 l.lid w n) l.no (fun x => { x with published := true })
    guard (s1.feq ≠ [])
    some () : Option Unit) = some () := by decide +kernel
theorem test_LaunchEnds_8 : (do
    let s : State := { State.reset with dir := [(0x200, { ({} : DirEnt) with ovf := true })], sel := 3, nodes := [{ n := 1, tset := [7], resident := some 7, requests := [], partReq := none, phase := .steady, quiet := [], late := [], judged := false, graced := false, used := true }], launches := [{ (default : Launch) with no := 3, q := 3, tenant := 7, lid := 9, part := 1, asid := 1, st := .ending, faults := true, fcode := 9, nfault := 3 }], cores := [(0, {}), (homeOf 0x8000, { sysring := [.overflow 0x200 5] })], queues := [{ (default : Queue) with q := 3, held := true, logsz := 4, head := 0xffffffff, tail := 2, tenant := 7, asid := 1, base := 0x10000, evbase := 0x4000, evlog := 4, qcb := 0x8000 }] }
    let l ← s.launch? s.sel
    guard (l.st = .ending)
    let w : W64 := BitVec.ofNat 64 (l.lid + 2 ^ 32 * (1 + (if l.faults then 2 else 0) + (if l.strag then 4 else 0) + (if l.reason ≠ 0 then 8 else 0) + 16 * l.reason + (if l.pfail then 256 else 0)) + 2 ^ 48 * l.fcode)
    let n : W64 := BitVec.ofNat 64 l.ndisp
    guard ((l.rootK = none ∨ l.lfl % 2 = 0 ∨ l.flushed = true))
    let s1 := if l.published then s else launchSet (if l.cev = 0 then s else match s.feWrite l.asid l.cev [w, n, BitVec.ofNat 64 l.nfault, BitVec.ofNat 64 l.time] with | some z => z | none => s.postEvent l.q 8 0 l.lid w n) l.no (fun x => { x with published := true })
    guard (s1.feq = [])
    let s2 := if l.posted then s1 else launchSet (if l.reason ≠ 0 ∨ l.pfail = true then s1.postEvent l.q 1 0 l.lid w n else if l.faults then s1.postEvent l.q 2 l.fcode l.lid w n else s1) l.no (fun x => { x with posted := true })
    guard (s2.feq ≠ [])
    some () : Option Unit) = some () := by decide +kernel
theorem test_LaunchEnds_9 : (do
    let s : State := { State.reset with sel := 3, nodes := [{ n := 1, tset := [7], resident := some 7, requests := [], partReq := none, phase := .steady, quiet := [], late := [], judged := false, graced := false, used := true }], launches := [{ (default : Launch) with no := 3, q := 3, tenant := 7, lid := 9, part := 1, asid := 1, st := .ending, faults := true, fcode := 9, nfault := 3 }], cores := [(0, {})], queues := [{ (default : Queue) with q := 3, held := true, logsz := 4, head := 0xffffffff, tail := 2, tenant := 7, asid := 1, base := 0x10000, evbase := 0x4000, evlog := 4, qcb := 0x8000 }] }
    let l ← s.launch? s.sel
    guard (l.st = .ending)
    let w : W64 := BitVec.ofNat 64 (l.lid + 2 ^ 32 * (1 + (if l.faults then 2 else 0) + (if l.strag then 4 else 0) + (if l.reason ≠ 0 then 8 else 0) + 16 * l.reason + (if l.pfail then 256 else 0)) + 2 ^ 48 * l.fcode)
    let n : W64 := BitVec.ofNat 64 l.ndisp
    guard ((l.rootK = none ∨ l.lfl % 2 = 0 ∨ l.flushed = true))
    let s1 := if l.published then s else launchSet (if l.cev = 0 then s else match s.feWrite l.asid l.cev [w, n, BitVec.ofNat 64 l.nfault, BitVec.ofNat 64 l.time] with | some z => z | none => s.postEvent l.q 8 0 l.lid w n) l.no (fun x => { x with published := true })
    guard (s1.feq = [])
    let s2 := if l.posted then s1 else launchSet (if l.reason ≠ 0 ∨ l.pfail = true then s1.postEvent l.q 1 0 l.lid w n else if l.faults then s1.postEvent l.q 2 l.fcode l.lid w n else s1) l.no (fun x => { x with posted := true })
    guard (s2.feq = [])
    some () : Option Unit) = some () := by decide +kernel
theorem test_LaunchEnds_10 : (do
    let s : State := { State.reset with mem := codeLine, roots := [(0, 0x9001), (1, 0x9001)] }
    let asid : Nat := 1
    let va : Nat := 0x2008
    let (pa, x, t) ← exOk (s.feXlate asid va .store)
    guard ((physKind pa = .device ∨ physKind pa = .host))
    guard (frontWrites t pa = true)
    guard (t.mem.wf = true)
    some () : Option Unit) = some () := by decide +kernel
theorem test_Dispatching_1 : (do
    let s : State := { State.reset with cores := [(0, { vecs with task := none, rbl := 0x1000, sysring := [.firmware {}, .overflow 4 5] })], mem := codeLine, roots := [(0, 0x9001), (1, 0x9001)] }
    let c : Nat := 0
    guard (c = s.sel)
    guard (s.free c = true)
    guard ((s.core c).taken = none)
    let e :: t := (s.core c).sysring | none
    some () : Option Unit) = some () := by decide +kernel
theorem test_Dispatching_2 : (do
    let s : State := { State.reset with cores := [(0, { vecs with task := none, rbl := 0x1000, inbox := [{ tr := { code := 0x1000, ctrl := 0x60000 }, payload := [7, 8, 9], src := 0x300000004, launch := none }], inboxRun := 7, ready := [{ tr := { code := 0x1000, frame := 5, arg := 6, ctrl := 0x40000 }, src := 0x2000, origin := 0, launch := none, restarts := 0, passed := 0 }] })], mem := codeLine, roots := [(0, 0x9001), (1, 0x9001)] }
    let c : Nat := 0
    guard (c = s.sel)
    guard (s.free c = true)
    guard ((s.core c).taken = none)
    guard ((s.core c).sysring = [])
    guard ((s.core c).quiescing = false)
    let m :: t := (s.core c).inbox | none
    guard (((s.core c).inboxRun < 8 ∨ (s.core c).ready = []))
    some () : Option Unit) = some () := by decide +kernel
theorem test_Dispatching_3 : (do
    let s : State := { State.reset with cores := [(0, { vecs with task := none, rbl := 0x1000, ready := [{ tr := { code := 0x1000, frame := 5, arg := 6, ctrl := 0x40000 }, src := 0x2000, origin := 0, launch := none, restarts := 0, passed := 0 }] })], mem := codeLine, roots := [(0, 0x9001), (1, 0x9001)] }
    let c : Nat := 0
    guard (c = s.sel)
    guard (s.free c = true)
    guard ((s.core c).taken = none)
    let i := 0
    guard ((s.core c).sysring = [])
    guard ((s.core c).quiescing = false)
    guard (((s.core c).inbox = [] ∨ 8 ≤ (s.core c).inboxRun))
    let e ← (s.core c).ready[i]?
    guard (((64 ≤ e.passed ∧ ∀ j ∈ List.range (i), ∀ x, (s.core c).ready[j]? = some x → x.passed < 64) ∨ (∀ x ∈ (s.core c).ready, x.passed < 64 ∧ classOf x ≤ classOf e) ∧ ∀ j ∈ List.range (i), ∀ x, (s.core c).ready[j]? = some x → classOf x < classOf e))
    some () : Option Unit) = some () := by decide +kernel
theorem test_Dispatching_4 : (do
    let s : State := { State.reset with cores := [(0, { vecs with task := none, rbl := 0x1000, spad := [(0x37fc0, 1), (0x37fc8, 3), (0x38040, 66), (0x3805c, 8)] })], mem := codeLine, roots := [(0, 0x9001), (1, 0x9001)] }
    let c : Nat := 0
    guard (c = s.sel)
    guard (s.free c = true)
    guard ((s.core c).taken = none)
    guard ((s.core c).sysring = [])
    guard ((s.core c).quiescing = false)
    guard ((s.core c).inbox = [])
    guard ((s.core c).ready = [])
    guard (dequeHolds (s.core c) ≠ 0)
    some () : Option Unit) = some () := by decide +kernel
theorem test_Dispatching_5 : (do
    let e : Entry := ({ tr := { code := 0x1000, frame := 5, arg := 6, ctrl := 0x10000 }, src := 0x2000, origin := 0, launch := none, restarts := 0, passed := 0 } : Entry)
    guard (controlGood e = false)
    some () : Option Unit) = some () := by decide +kernel
theorem test_Dispatching_6 : (do
    let e : Entry := ({ tr := { code := 0x1000, frame := 5, arg := 6, ctrl := 0x400040000 }, src := 0x2000, origin := 0, launch := none, restarts := 0, passed := 0 } : Entry)
    guard (controlGood e = true)
    guard (e.tr.ctrl.getLsbD 34 = true)
    some () : Option Unit) = some () := by decide +kernel
theorem test_Dispatching_7 : (do
    let s : State := { State.reset with cores := [(0, { vecs with task := none, rbl := 0x1000, taken := none, l1tlb := [{ page with asid := 0 }] })], mem := codeLine, roots := [(0, 0x9001), (1, 0x9001)], ctlb := [(0, [{ page with asid := 0 }])] }
    let c : Nat := 0
    let e : Entry := ({ tr := { code := 0x1005, frame := 5, arg := 6, ctrl := 0x40000 }, src := 0x2000, origin := 0, launch := none, restarts := 0, passed := 0 } : Entry)
    let t : Task := { kind := .normal, tr := e.tr, src := e.src, origin := e.origin, launch := e.launch, restarts := e.restarts, asid := s.recAsid c e.launch, answers := 0 }
    let u : State := s.renew c e.launch
    let k : Core := u.core c
    guard (controlGood e = true)
    guard (e.tr.ctrl.getLsbD 34 = false)
    let (.trap f, s1) ← errOf ((checkTarget e.tr.code).run { u.setCore c { started k t false with demand := k.demand } with cur := .core c }) | none
    some () : Option Unit) = some () := by decide +kernel
theorem test_Dispatching_8 : (do
    let s : State := { State.reset with cores := [(0, { vecs with task := none, rbl := 0x1000, taken := none, dwb := 0xffe })], mem := codeLine, roots := [(0, 0x9001), (1, 0x9001)] }
    let c : Nat := 0
    let e : Entry := ({ tr := { code := 0x1000, frame := 5, arg := 6, ctrl := 0x40000 }, src := 0x2000, origin := 0, launch := none, restarts := 0, passed := 0 } : Entry)
    let t : Task := { kind := .normal, tr := e.tr, src := e.src, origin := e.origin, launch := e.launch, restarts := e.restarts, asid := s.recAsid c e.launch, answers := 0 }
    let u : State := s.renew c e.launch
    let k : Core := u.core c
    guard (controlGood e = true)
    guard (e.tr.ctrl.getLsbD 34 = false)
    let (_, s1) ← okOf ((checkTarget e.tr.code).run { u.setCore c { started k t false with demand := k.demand } with cur := .core c })
    guard (k.rbl.toNat < k.dwb.toNat + windowOf e)
    some () : Option Unit) = some () := by decide +kernel
theorem test_Dispatching_9 : (do
    let s : State := { State.reset with cores := [(0, { vecs with task := none, rbl := 0x1000, taken := none, l1tlb := [{ page with asid := 0 }] })], mem := codeLine, roots := [(0, 0x9001), (1, 0x9001)], ctlb := [(0, [{ page with asid := 0 }])] }
    let c : Nat := 0
    let e : Entry := ({ tr := { code := 0x1000, frame := 5, arg := 6, ctrl := 0x40000 }, src := 0x2000, origin := 0, launch := none, restarts := 0, passed := 0 } : Entry)
    let p : List W64 := [7, 8, 9]
    let t : Task := { kind := .normal, tr := e.tr, src := e.src, origin := e.origin, launch := e.launch, restarts := e.restarts, asid := s.recAsid c e.launch, answers := 0 }
    let u : State := s.renew c e.launch
    let k : Core := u.core c
    guard (controlGood e = true)
    guard (e.tr.ctrl.getLsbD 34 = false)
    let (_, s1) ← okOf ((checkTarget e.tr.code).run { u.setCore c { started k t false with demand := k.demand } with cur := .core c })
    guard (k.dwb.toNat + windowOf e ≤ k.rbl.toNat)
    let (_, s2) ← okOf ((writeWords k.dwb.toNat (([e.tr.frame, e.tr.arg] ++ p).take (windowOf e)) 0).run s1)
    some () : Option Unit) = some () := by decide +kernel
theorem test_Dispatching_10 : (do
    let t : W64 := 0x1005
    guard (wellFormedPc t = false)
    some () : Option Unit) = some () := by decide +kernel
theorem test_Dispatching_11 : (do
    let t : W64 := 0x1002
    let s : State := on paged
    guard (wellFormedPc t = true)
    let ((.line l), s1) ← okOf ((fetchLine (lineAddr t)).run s) | none
    some () : Option Unit) = some () := by decide +kernel
theorem test_Dispatching_12 : (do
    let t : W64 := 0x1000
    let s : State := on imaged
    guard (wellFormedPc t = true)
    let (.undecodable, s1) ← okOf ((fetchLine (lineAddr t)).run s) | none
    some () : Option Unit) = some () := by decide +kernel
theorem test_Dispatching_13 : (do
    let s : State := { State.reset with cores := [(0, { vecs with task := none, rbl := 0x1000, stealPos := 3 })], mem := codeLine, roots := [(0, 0x9001), (1, 0x9001)] }
    let c : Nat := 0
    guard (c = s.sel)
    guard (s.free c = true)
    guard ((s.core c).taken = none)
    guard ((s.core c).quiescing = false)
    guard ((s.core c).sysring = [])
    guard ((s.core c).inbox = [])
    guard ((s.core c).ready = [])
    guard (dequeHolds (s.core c) = 0)
    guard ((s.core c).stealAt ≤ (s.core c).cycle)
    guard ((s.victims c) ≠ [])
    let v ← (s.victims c)[(s.core c).stealPos % (s.victims c).length]?
    some () : Option Unit) = some () := by decide +kernel
theorem test_Dispatching_14 : (do
    let s : State := { State.reset with cores := [(0, { vecs with task := none, rbl := 0x1000, levelAt := 5 })], mem := codeLine, roots := [(0, 0x9001), (1, 0x9001)] }
    let c : Nat := 0
    guard (c = s.sel)
    guard ((s.core c).cycle < (s.core c).levelAt)
    some () : Option Unit) = some () := by decide +kernel
theorem test_Dispatching_15 : (do
    let s : State := { State.reset with cores := [(0, { vecs with task := none, rbl := 0x1000, ready := [{ tr := { code := 0x1000, frame := 5, arg := 6, ctrl := 0x40000 }, src := 0x2000, origin := 0, launch := none, restarts := 0, passed := 0 }] })], mem := codeLine, roots := [(0, 0x9001), (1, 0x9001)] }
    let c : Nat := 0
    guard (c = s.sel)
    guard ((s.core c).levelAt ≤ (s.core c).cycle)
    guard ((∀ rcpt, s.lightest c = some rcpt → (s.core c).ready.length < (s.core rcpt).ready.length + 8))
    some () : Option Unit) = some () := by decide +kernel
theorem test_Dispatching_16 : (do
    let s : State := { State.reset with cores := [(0, { vecs with task := none, rbl := 0x1000, ready := List.replicate 20 { ({ tr := { code := 0x1000, frame := 5, arg := 6, ctrl := 0x40000 }, src := 0x2000, origin := 0, launch := none, restarts := 0, passed := 0 } : Entry) with tr := { code := 0x1000, frame := 5, arg := 6, ctrl := 0x1000100040000 } } })], mem := codeLine, roots := [(0, 0x9001), (1, 0x9001)] }
    let c : Nat := 0
    guard (c = s.sel)
    guard ((s.core c).levelAt ≤ (s.core c).cycle)
    let rcpt ← s.lightest c
    let m := (s.core rcpt).ready.length
    guard (m < 256)
    guard (m + 8 ≤ (s.core c).ready.length)
    guard ((s.core rcpt).held = [])
    guard (s.linkFree rcpt = true)
    guard (s.arrPosted rcpt = false)
    guard ((∀ e ∈ (s.core c).ready, e.tr.ctrl.getLsbD 32 = true ∧ s.inDomain e.tr (s.base c + e.origin) rcpt = true))
    some () : Option Unit) = some () := by decide +kernel
theorem test_Arrivals_1 : (do
    let s : State := { State.reset with sel := 1, nodes := [{ n := 1, tset := [7], resident := some 7, requests := [], partReq := none, phase := .steady, quiet := [], late := [], judged := false, graced := false, used := true }], net := [(4, 9, Arrival.decr 0 none), (7, 9, (.decr 0x3fe0 (some 3))), (7, 9, .ready { tr := { code := 0x1000, frame := 5, arg := 6, ctrl := 0x40000 }, src := 0x2000, origin := 0, launch := none, restarts := 0, passed := 0 })], cores := [(9, { vecs with task := none, spad := Memory.setRec [] 0x3fe0 { code := 0x1000, frame := 5, arg := 6, ctrl := 0x20007 } })] }
    guard (s.sel < s.net.length)
    let some (src, dst, .decr off l) := s.net[s.sel]? | none
    guard ((List.range s.sel).all fun j => match s.net[j]? with | some y => !(y.1 == src && y.2.1 == dst) | none => true)
    guard ((s.core dst).held = [])
    let r : Rec := (s.core dst).spad.rec off
    let n : Nat := r.ctrl.toNat % 65536
    guard (1 < n)
    some () : Option Unit) = some () := by decide +kernel
theorem test_Arrivals_2 : (do
    let s : State := { State.reset with sel := 1, nodes := [{ n := 1, tset := [7], resident := some 7, requests := [], partReq := none, phase := .steady, quiet := [], late := [], judged := false, graced := false, used := true }], net := [(4, 9, Arrival.decr 0 none), (7, 9, (.decr 0x3fe0 (some 3))), (7, 9, .ready { tr := { code := 0x1000, frame := 5, arg := 6, ctrl := 0x40000 }, src := 0x2000, origin := 0, launch := none, restarts := 0, passed := 0 })], cores := [(9, { vecs with task := none, spad := Memory.setRec [] 0x3fe0 { code := 0x1000, frame := 5, arg := 6, ctrl := 0x20000 } })] }
    guard (s.sel < s.net.length)
    let some (src, dst, .decr off l) := s.net[s.sel]? | none
    guard ((List.range s.sel).all fun j => match s.net[j]? with | some y => !(y.1 == src && y.2.1 == dst) | none => true)
    guard ((s.core dst).held = [])
    let r : Rec := (s.core dst).spad.rec off
    let n : Nat := r.ctrl.toNat % 65536
    guard (n = 0)
    some () : Option Unit) = some () := by decide +kernel
theorem test_Arrivals_3 : (do
    let s : State := { State.reset with sel := 1, nodes := [{ n := 1, tset := [7], resident := some 7, requests := [], partReq := none, phase := .steady, quiet := [], late := [], judged := false, graced := false, used := true }], net := [(4, 9, Arrival.decr 0 none), (7, 9, (.decr 0x3fe0 (some 3))), (7, 9, .ready { tr := { code := 0x1000, frame := 5, arg := 6, ctrl := 0x40000 }, src := 0x2000, origin := 0, launch := none, restarts := 0, passed := 0 })], cores := [(9, { vecs with task := none, spad := Memory.setRec [] 0x3fe0 { code := 0x1000, frame := 5, arg := 6, ctrl := 0x20001 } })] }
    guard (s.sel < s.net.length)
    let some (src, dst, .decr off l) := s.net[s.sel]? | none
    guard ((List.range s.sel).all fun j => match s.net[j]? with | some y => !(y.1 == src && y.2.1 == dst) | none => true)
    guard ((s.core dst).held = [])
    let r : Rec := (s.core dst).spad.rec off
    let n : Nat := r.ctrl.toNat % 65536
    guard (n = 1)
    guard (r.code ≠ 0)
    guard ((s.core dst).ready.length < 256)
    some () : Option Unit) = some () := by decide +kernel
theorem test_Arrivals_4 : (do
    let s : State := { State.reset with sel := 1, nodes := [{ n := 1, tset := [7], resident := some 7, requests := [], partReq := none, phase := .steady, quiet := [], late := [], judged := false, graced := false, used := true }], net := [(4, 9, Arrival.decr 0 none), (7, 9, (.decr 0x3fe0 (some 3))), (7, 9, .ready { tr := { code := 0x1000, frame := 5, arg := 6, ctrl := 0x40000 }, src := 0x2000, origin := 0, launch := none, restarts := 0, passed := 0 })], cores := [(9, { vecs with task := none, spad := Memory.setRec [] 0x3fe0 { code := 0x1000, frame := 5, arg := 6, ctrl := 0x20001 }, ready := List.replicate 256 { tr := { code := 0x1000, frame := 5, arg := 6, ctrl := 0x40000 }, src := 0x2000, origin := 0, launch := none, restarts := 0, passed := 0 } })] }
    guard (s.sel < s.net.length)
    let some (src, dst, .decr off l) := s.net[s.sel]? | none
    guard ((List.range s.sel).all fun j => match s.net[j]? with | some y => !(y.1 == src && y.2.1 == dst) | none => true)
    guard ((s.core dst).held = [])
    let r : Rec := (s.core dst).spad.rec off
    let n : Nat := r.ctrl.toNat % 65536
    guard (n = 1)
    guard (r.code ≠ 0)
    guard (256 ≤ (s.core dst).ready.length)
    some () : Option Unit) = some () := by decide +kernel
theorem test_Arrivals_5 : (do
    let s : State := { State.reset with sel := 0, nodes := [{ n := 1, tset := [7], resident := some 7, requests := [], partReq := none, phase := .steady, quiet := [], late := [], judged := false, graced := false, used := true }], net := [(7, 0, .decr (0x3ffe0 - 32 * 2) (some 3))], launches := [{ (default : Launch) with no := 3, q := 3, tenant := 7, lid := 9, part := 1, asid := 1, st := .running, rootK := some 2, released := false }], cores := [(0, { vecs with task := none, spad := [(0x3ffe0 - 32 * 2 + 24, 1)] })] }
    guard (s.sel < s.net.length)
    let some (src, dst, .decr off l) := s.net[s.sel]? | none
    guard ((List.range s.sel).all fun j => match s.net[j]? with | some y => !(y.1 == src && y.2.1 == dst) | none => true)
    guard ((s.core dst).held = [])
    let r : Rec := (s.core dst).spad.rec off
    let n : Nat := r.ctrl.toNat % 65536
    guard (n = 1)
    guard (r.code = 0)
    some () : Option Unit) = some () := by decide +kernel
theorem test_Arrivals_6 : (do
    let s : State := { State.reset with sel := 1, nodes := [{ n := 1, tset := [7], resident := some 7, requests := [], partReq := none, phase := .steady, quiet := [], late := [], judged := false, graced := false, used := true }], net := [(4, 9, Arrival.decr 0 none), (7, 9, (.decr 0x3fe0 (some 3))), (7, 9, .ready { tr := { code := 0x1000, frame := 5, arg := 6, ctrl := 0x40000 }, src := 0x2000, origin := 0, launch := none, restarts := 0, passed := 0 })], cores := [(9, { vecs with task := none, spad := Memory.setRec [] 0x3fe0 { code := 0x1000, frame := 5, arg := 6, ctrl := 0x20007 }, held := [.decr 0x40 none] })] }
    guard (s.sel < s.net.length)
    let some (src, dst, a) := s.net[s.sel]? | none
    guard ((List.range s.sel).all fun j => match s.net[j]? with | some y => !(y.1 == src && y.2.1 == dst) | none => true)
    guard ((match a with | .decr _ _ => true | _ => false) = true)
    guard ((s.core dst).held ≠ [])
    some () : Option Unit) = some () := by decide +kernel
theorem test_Arrivals_7 : (do
    let s : State := { State.reset with sel := 1, nodes := [{ n := 1, tset := [7], resident := some 7, requests := [], partReq := none, phase := .steady, quiet := [], late := [], judged := false, graced := false, used := true }], net := [(4, 9, Arrival.decr 0 none), (7, 9, (.msg { tr := { code := 0x1000, ctrl := 0x60000 }, payload := [7, 8, 9], src := 0x300000004, launch := none })), (7, 9, .ready { tr := { code := 0x1000, frame := 5, arg := 6, ctrl := 0x40000 }, src := 0x2000, origin := 0, launch := none, restarts := 0, passed := 0 })], cores := [(9, { vecs with task := none, pc := 1, halted := true })] }
    guard (s.sel < s.net.length)
    let some (src, dst, .msg m) := s.net[s.sel]? | none
    guard ((List.range s.sel).all fun j => match s.net[j]? with | some y => !(y.1 == src && y.2.1 == dst) | none => true)
    guard ((s.core dst).held = [])
    guard ((s.core dst).inbox.length < 64)
    some () : Option Unit) = some () := by decide +kernel
theorem test_Arrivals_8 : (do
    let s : State := { State.reset with sel := 1, nodes := [{ n := 1, tset := [7], resident := some 7, requests := [], partReq := none, phase := .steady, quiet := [], late := [], judged := false, graced := false, used := true }], net := [(4, 9, Arrival.decr 0 none), (7, 9, (.msg { tr := { code := 0x1000, ctrl := 0x60000 }, payload := [7, 8, 9], src := 0x300000004, launch := none })), (7, 9, .ready { tr := { code := 0x1000, frame := 5, arg := 6, ctrl := 0x40000 }, src := 0x2000, origin := 0, launch := none, restarts := 0, passed := 0 })], cores := [(9, { vecs with task := none, inbox := List.replicate 64 { tr := { code := 0x1000, ctrl := 0x60000 }, payload := [7, 8, 9], src := 0x300000004, launch := none } })] }
    guard (s.sel < s.net.length)
    let some (src, dst, .msg m) := s.net[s.sel]? | none
    guard ((List.range s.sel).all fun j => match s.net[j]? with | some y => !(y.1 == src && y.2.1 == dst) | none => true)
    guard (((s.core dst).held ≠ [] ∨ 64 ≤ (s.core dst).inbox.length))
    some () : Option Unit) = some () := by decide +kernel
theorem test_Arrivals_9 : (do
    let s : State := { State.reset with sel := 9, sel2 := 0, cores := [(9, { vecs with task := none, halted := true, held := [.msg { tr := { code := 0x1000, ctrl := 0x60000 }, payload := [7, 8, 9], src := 0x300000004, launch := none }, .decr 4 none], inbox := [{ tr := { code := 0x1000, ctrl := 0x60000 }, payload := [7, 8, 9], src := 0x300000004, launch := none }] })] }
    let c : Nat := 9
    guard (c = s.sel)
    guard (s.sel2 = 0)
    let .msg m :: t := (s.core c).held | none
    guard ((s.core c).inbox.length < 64)
    some () : Option Unit) = some () := by decide +kernel
theorem test_Arrivals_10 : (do
    let s : State := { State.reset with sel := 9, sel2 := 0, cores := [(9, { vecs with task := none, halted := true, held := [.ready { tr := { code := 0x1000, frame := 5, arg := 6, ctrl := 0x40000 }, src := 0x2000, origin := 0, launch := none, restarts := 0, passed := 0 }, .decr 4 none] })] }
    let c : Nat := 9
    guard (c = s.sel)
    guard (s.sel2 = 0)
    let .ready e :: t := (s.core c).held | none
    guard ((s.core c).ready.length < 256)
    some () : Option Unit) = some () := by decide +kernel
theorem test_Arrivals_11 : (do
    let s : State := { State.reset with sel := 9, sel2 := 1, cores := [(9, { vecs with task := none, halted := true, heldSys := [.overflow 3 4, .firmware {}], sysring := [.firmware {}] })] }
    let c : Nat := 9
    guard (c = s.sel)
    guard (s.sel2 = 1)
    let e :: t := (s.core c).heldSys | none
    guard ((s.core c).sysring.length < 64)
    some () : Option Unit) = some () := by decide +kernel
theorem test_Arrivals_12 : (do
    let s : State := { State.reset with sel := 9, sel2 := 1, cores := [(9, { vecs with task := none, halted := true, heldSys := [.overflow 3 4, .firmware {}], sysring := List.replicate 64 (.firmware {}) })] }
    let c : Nat := 9
    guard (c = s.sel)
    guard (s.sel2 = 1)
    let e :: t := (s.core c).heldSys | none
    guard (64 ≤ (s.core c).sysring.length)
    some () : Option Unit) = some () := by decide +kernel
theorem test_Arrivals_13 : (do
    let s : State := { State.reset with sel := 9, sel2 := 2, cores := [(9, { vecs with task := none, halted := true, sysring := [.firmware {}] })], posts := [(9, .sys (.overflow 3 4)), (3, .sys (.overflow 4 5))] }
    let c : Nat := 9
    guard (c = s.sel)
    guard (2 ≤ s.sel2)
    let (c0, p) :: t := s.posts | none
    guard (c0 = c)
    let .sys e := p | none
    guard ((s.core c).sysring.length < 64)
    guard ((s.core c).heldSys = [])
    some () : Option Unit) = some () := by decide +kernel
theorem test_Arrivals_14 : (do
    let s : State := { State.reset with sel := 9, sel2 := 2, cores := [(9, { vecs with task := none, halted := true, sysring := [.firmware {}] })], posts := [(9, .arr (.msg { tr := { code := 0x1000, ctrl := 0x60000 }, payload := [7, 8, 9], src := 0x300000004, launch := none })), (3, .sys (.overflow 4 5))] }
    let c : Nat := 9
    guard (c = s.sel)
    guard (2 ≤ s.sel2)
    let (c0, p) :: t := s.posts | none
    guard (c0 = c)
    let .arr a := p | none
    guard (s.linkFree c = true)
    some () : Option Unit) = some () := by decide +kernel
theorem test_Arrivals_16 : (do
    let s : State := { State.reset with sel := 9, sel2 := 1, cores := [(9, { vecs with task := none, halted := true, pend := [{ word := 9, kind := .partctl, val := 4, fw := true }, { word := 20, kind := .data, val := 77, fw := false }] })] }
    let c : Nat := 9
    guard (c = s.sel)
    let p ← (s.core c).pend[s.sel2]?
    guard ((List.range s.sel2).all fun j => match (s.core c).pend[j]? with | some q => q.word != p.word || q.fw != p.fw | none => true)
    guard (p.kind = .data)
    some () : Option Unit) = some () := by decide +kernel
theorem test_Arrivals_17 : (do
    let s : State := { State.reset with sel := 9, sel2 := 1, cores := [(9, { vecs with task := none, halted := true, pend := [{ word := 9, kind := .partctl, val := 4, fw := true }, { word := 20, kind := .alloc, val := 77, fw := false }] })] }
    let c : Nat := 9
    guard (c = s.sel)
    let p ← (s.core c).pend[s.sel2]?
    guard ((List.range s.sel2).all fun j => match (s.core c).pend[j]? with | some q => q.word != p.word || q.fw != p.fw | none => true)
    guard (p.kind = .alloc)
    some () : Option Unit) = some () := by decide +kernel
theorem test_PartitionControls_1 : (do
    let s : State := { State.reset with mbcmd := 0x8000000f, mbBusy := true, parts := [{ merge := false, node := 256, core := none, reg := 5, word := 5, fw := true, decided := none, waits := false }, { merge := false, node := 3, core := none, reg := 0, word := 0, fw := false, decided := none, waits := false }] }
    let v : Nat := 2
    guard (s.tickDue = false)
    let p :: t := s.parts | none
    guard (p.decided = none)
    guard (p.waits = false)
    guard (((256 ≤ p.node ∧ v = 2) ∨ (p.node < 256 ∧ v = 1 ∧ (p.merge = false → s.nodeIdle p.node = false) ∧ (p.merge = true → (s.nodeIdle (2 * p.node) && s.nodeIdle (2 * p.node + 1)) = false))))
    guard (p.core = none)
    some () : Option Unit) = some () := by decide +kernel
theorem test_PartitionControls_2 : (do
    let s : State := { State.reset with mbcmd := 0x8000000f, mbBusy := true, parts := [{ merge := false, node := 256, core := some 4, reg := 5, word := 5, fw := true, decided := none, waits := false }, { merge := false, node := 3, core := none, reg := 0, word := 0, fw := false, decided := none, waits := false }], cores := [(4, { pend := [{ word := 9, kind := .data, val := 4, fw := true }, { word := 5, kind := .partctl, val := 0, fw := true }] })] }
    let v : Nat := 2
    guard (s.tickDue = false)
    let p :: t := s.parts | none
    guard (p.decided = none)
    guard (p.waits = false)
    guard (((256 ≤ p.node ∧ v = 2) ∨ (p.node < 256 ∧ v = 1 ∧ (p.merge = false → s.nodeIdle p.node = false) ∧ (p.merge = true → (s.nodeIdle (2 * p.node) && s.nodeIdle (2 * p.node + 1)) = false))))
    let c := 4
    let i := 1
    guard (p.core = some c)
    guard (p.reg.toNat < 0xf80)
    guard (p.fw = true)
    guard ((s.core c).pend[i]? = some { word := p.word, kind := .partctl, val := 0, fw := true })
    guard ((List.range i).all fun j => match (s.core c).pend[j]? with | some q => q.word != p.word || !q.fw | none => true)
    some () : Option Unit) = some () := by decide +kernel
theorem test_PartitionControls_3 : (do
    let s : State := { State.reset with mbcmd := 0x8000000f, mbBusy := true, parts := [{ merge := false, node := 256, core := some 4, reg := 5, word := 5, fw := true, decided := none, waits := false }, { merge := false, node := 3, core := none, reg := 0, word := 0, fw := false, decided := none, waits := false }], cores := [(4, { pend := [{ word := 9, kind := .data, val := 4, fw := true }, { word := 5, kind := .data, val := 4, fw := true }, { word := 5, kind := .partctl, val := 0, fw := true }] })] }
    let v : Nat := 2
    guard (s.tickDue = false)
    let p :: t := s.parts | none
    guard (p.decided = none)
    guard (p.waits = false)
    guard (((256 ≤ p.node ∧ v = 2) ∨ (p.node < 256 ∧ v = 1 ∧ (p.merge = false → s.nodeIdle p.node = false) ∧ (p.merge = true → (s.nodeIdle (2 * p.node) && s.nodeIdle (2 * p.node + 1)) = false))))
    let c : Nat := 4
    let i : Nat := 1
    guard (p.core = some c)
    guard (p.reg.toNat < 0xf80)
    guard (p.fw = true)
    let q ← (s.core c).pend[i]?
    guard (q.word = p.word)
    guard (q.fw = true)
    guard (q.kind ≠ .partctl)
    guard ((List.range i).all fun j => match (s.core c).pend[j]? with | some q => q.word != p.word || !q.fw | none => true)
    some () : Option Unit) = some () := by decide +kernel
theorem test_PartitionControls_4 : (do
    let s : State := { State.reset with mbcmd := 0x8000000f, mbBusy := true, parts := [{ merge := false, node := 128, core := none, reg := 5, word := 5, fw := true, decided := none, waits := false }, { merge := false, node := 3, core := none, reg := 0, word := 0, fw := false, decided := none, waits := false }], nodes := [{ n := 128, tset := [7], resident := none, requests := [], partReq := none, phase := .steady, quiet := [], late := [], judged := false, graced := false, used := true }, { n := 129, tset := [7], resident := some 7, requests := [], partReq := none, phase := .steady, quiet := [], late := [], judged := false, graced := false, used := true }], cores := [(8, { portN := [4], portW := [5] }), (3, { portE := [1, 2] })] }
    guard (s.tickDue = false)
    let p :: t := s.parts | none
    guard (p.decided = none)
    guard (p.waits = false)
    guard (p.merge = false)
    guard (p.core = none)
    guard (1 ≤ p.node)
    guard (p.node < 256)
    let x ← s.node? p.node
    guard (s.nodeIdle p.node = true)
    guard ((∀ y ∈ s.nodes, y.n = p.node → y.resident = none ∧ y.phase = .steady))
    some () : Option Unit) = some () := by decide +kernel
theorem test_PartitionControls_5 : (do
    let s : State := { State.reset with mbcmd := 0x8000000f, mbBusy := true, parts := [{ merge := true, node := 64, core := none, reg := 5, word := 5, fw := true, decided := none, waits := false }, { merge := false, node := 3, core := none, reg := 0, word := 0, fw := false, decided := none, waits := false }], nodes := [{ n := 128, tset := [7], resident := none, requests := [], partReq := none, phase := .steady, quiet := [], late := [], judged := false, graced := false, used := true }, { n := 129, tset := [8, 7, 3], resident := none, requests := [], partReq := none, phase := .steady, quiet := [], late := [], judged := false, graced := false, used := true }], cores := [(8, { portN := [4], portW := [5] }), (3, { portE := [1, 2] })] }
    guard (s.tickDue = false)
    let p :: t := s.parts | none
    guard (p.decided = none)
    guard (p.waits = false)
    guard (p.merge = true)
    guard (p.core = none)
    guard (1 ≤ p.node)
    guard (p.node < 256)
    let x ← s.node? (2 * p.node)
    let y ← s.node? (2 * p.node + 1)
    guard (s.nodeIdle (2 * p.node) = true)
    guard (s.nodeIdle (2 * p.node + 1) = true)
    guard ((∀ z ∈ s.nodes, z.n = 2 * p.node ∨ z.n = 2 * p.node + 1 → z.resident = none ∧ z.phase = .steady))
    some () : Option Unit) = some () := by decide +kernel
theorem test_Copies_1 : (do
    let s : State := { State.reset with cores := [(0, { runs nums with cwp := [(3, 77)], spad := (List.range 64).map (fun i => (0x2100 + i, BitVec.ofNat 8 (i + 1))), chans := [(2, { bind := none, stop := none, items := [.copy { tag := 5, bind := { id := 4, cons := some (0, 3), consIdx := 0, ring := some (0, 0x4000), logn := 3 }, issuer := 0, asid := 1, sup := false, launch := none, dlim := 0x200000, src := 0x2100, dst := 0x40, sspace := .spad, dspace := .die, len := 60, kind := false, block := false, lay := none, started := false, moved := 0, c0 := 3, olds := [], outcome := none, demand := none }, .reset] })] })], roots := [(1, 0x9001)], mem := codeLine }
    let r : ChanRef := .core 0 2
    let .copy cp :: rest := (s.chan r).items | none
    guard (cp.started = false)
    guard (cp.block = false)
    guard (cp.lay = none)
    guard (s.ringFull cp.bind = false)
    some () : Option Unit) = some () := by decide +kernel
theorem test_Copies_2 : (do
    let s : State := { State.reset with cores := [(0, { runs nums with cwp := [(3, 77)], spad := (List.range 64).map (fun i => (0x2100 + i, BitVec.ofNat 8 (i + 1))), chans := [(2, { bind := none, stop := none, items := [.copy { tag := 5, bind := { id := 4, cons := some (0, 3), consIdx := 0, ring := some (0, 0x4000), logn := 3 }, issuer := 0, asid := 1, sup := false, launch := none, dlim := 0x200000, src := 0x2100, dst := 0x40, sspace := .spad, dspace := .die, len := 60, kind := false, block := false, lay := none, started := false, moved := 0, c0 := 3, olds := [], outcome := none, demand := none }] })] })], roots := [(1, 0x9001)], mem := codeLine }
    let eng : Bool := true
    let cp : Copy := ({ tag := 5, bind := { id := 4, cons := some (0, 3), consIdx := 0, ring := some (0, 0x4000), logn := 3 }, issuer := 0, asid := 1, sup := false, launch := none, dlim := 0x200000, src := 0x2100, dst := 0x40, sspace := .spad, dspace := .die, len := 60, kind := false, block := false, lay := none, started := false, moved := 0, c0 := 3, olds := [], outcome := none, demand := none } : Copy)
    guard (cp.lay = none)
    guard (!((List.range cp.len).all (fun i => decide (cp.sspace = .mem) || (!(eng && decide (cp.sspace = .spad)) && (match s.onchip cp.issuer cp.sspace ((cp.src + i) % 2 ^ 64) 1 with | some l => (match l with | .spad k _ => k == cp.issuer | .clu k _ => eng || k == cp.issuer | _ => true) | none => false))) && (List.range cp.len).all (fun i => decide (cp.dspace = .mem) || (s.onchip cp.issuer cp.dspace ((cp.dst + i) % 2 ^ 64) 1).isSome)))
    some () : Option Unit) = some () := by decide +kernel
theorem test_Copies_3 : (do
    let s : State := { State.reset with cores := [(0, { runs nums with cwp := [(3, 77)], spad := (List.range 64).map (fun i => (0x2100 + i, BitVec.ofNat 8 (i + 1))), chans := [(2, { bind := none, stop := none, items := [.copy { tag := 5, bind := { id := 4, cons := some (0, 3), consIdx := 0, ring := some (0, 0x4000), logn := 3 }, issuer := 0, asid := 1, sup := false, launch := none, dlim := 0x200000, src := 0x2100, dst := 0x40, sspace := .spad, dspace := .die, len := 60, kind := false, block := false, lay := none, started := false, moved := 0, c0 := 3, olds := [], outcome := none, demand := none }] })] })], roots := [(1, 0x9001)], mem := codeLine }
    let eng : Bool := false
    let cp : Copy := ({ tag := 5, bind := { id := 4, cons := some (0, 3), consIdx := 0, ring := some (0, 0x4000), logn := 3 }, issuer := 0, asid := 1, sup := false, launch := none, dlim := 0x200000, src := 0x2100, dst := 0x40, sspace := .spad, dspace := .die, len := 60, kind := false, block := false, lay := none, started := false, moved := 0, c0 := 3, olds := [], outcome := none, demand := none } : Copy)
    guard (cp.lay = none)
    guard ((List.range cp.len).all (fun i => decide (cp.sspace = .mem) || (!(eng && decide (cp.sspace = .spad)) && (match s.onchip cp.issuer cp.sspace ((cp.src + i) % 2 ^ 64) 1 with | some l => (match l with | .spad k _ => k == cp.issuer | .clu k _ => eng || k == cp.issuer | _ => true) | none => false))) && (List.range cp.len).all (fun i => decide (cp.dspace = .mem) || (s.onchip cp.issuer cp.dspace ((cp.dst + i) % 2 ^ 64) 1).isSome))
    guard (cp.dspace ≠ .mem)
    some () : Option Unit) = some () := by decide +kernel
theorem test_Copies_4 : (do
    let s : State := { State.reset with cores := [(0, { runs nums with cwp := [(3, 77)], spad := (List.range 64).map (fun i => (0x2100 + i, BitVec.ofNat 8 (i + 1))), chans := [(2, { bind := none, stop := none, items := [.copy { tag := 5, bind := { id := 4, cons := some (0, 3), consIdx := 0, ring := some (0, 0x4000), logn := 3 }, issuer := 0, asid := 1, sup := false, launch := none, dlim := 0x200000, src := 0x2100, dst := 0x40, sspace := .spad, dspace := .die, len := 60, kind := false, block := false, lay := none, started := false, moved := 0, c0 := 3, olds := [], outcome := none, demand := none }] })] })], roots := [(1, 0x9001)], mem := codeLine }
    let eng : Bool := false
    let cp : Copy := ({ tag := 5, bind := { id := 4, cons := some (0, 3), consIdx := 0, ring := some (0, 0x4000), logn := 3 }, issuer := 0, asid := 1, sup := false, launch := none, dlim := 0x200000, src := 0x2100, dst := 0x3040, sspace := .spad, dspace := .mem, len := 60, kind := false, block := false, lay := none, started := false, moved := 0, c0 := 3, olds := [], outcome := none, demand := none } : Copy)
    guard (cp.lay = none)
    guard ((List.range cp.len).all (fun i => decide (cp.sspace = .mem) || (!(eng && decide (cp.sspace = .spad)) && (match s.onchip cp.issuer cp.sspace ((cp.src + i) % 2 ^ 64) 1 with | some l => (match l with | .spad k _ => k == cp.issuer | .clu k _ => eng || k == cp.issuer | _ => true) | none => false))) && (List.range cp.len).all (fun i => decide (cp.dspace = .mem) || (s.onchip cp.issuer cp.dspace ((cp.dst + i) % 2 ^ 64) 1).isSome))
    guard (cp.dspace = .mem)
    some () : Option Unit) = some () := by decide +kernel
theorem test_Copies_5 : (do
    let s : State := { State.reset with cores := [(0, { runs nums with cwp := [(3, 77)], spad := (List.range 64).map (fun i => (0x2100 + i, BitVec.ofNat 8 (i + 1))), chans := [(2, { bind := none, stop := none, items := [.copy { tag := 5, bind := { id := 4, cons := some (0, 3), consIdx := 0, ring := some (0, 0x4000), logn := 3 }, issuer := 0, asid := 1, sup := false, launch := none, dlim := 0x200000, src := 0x2100, dst := 0x40, sspace := .spad, dspace := .die, len := 60, kind := false, block := false, lay := none, started := true, moved := 9, c0 := 3, olds := [], outcome := none, demand := none }] })] })], roots := [(1, 0x9001)], mem := codeLine }
    let r : ChanRef := .core 0 2
    let .copy cp :: rest := (s.chan r).items | none
    guard (cp.started = true)
    guard (cp.outcome = none)
    guard (cp.lay = none)
    some () : Option Unit) = some () := by decide +kernel
theorem test_Copies_6 : (do
    let s : State := { State.reset with cores := [(0, { runs nums with cwp := [(3, 77)], spad := (List.range 64).map (fun i => (0x2100 + i, BitVec.ofNat 8 (i + 1))), chans := [(2, { bind := none, stop := none, items := [.copy { tag := 5, bind := { id := 4, cons := some (0, 3), consIdx := 0, ring := some (0, 0x4000), logn := 3 }, issuer := 0, asid := 1, sup := false, launch := none, dlim := 0x200000, src := 0x2100, dst := 0x40, sspace := .spad, dspace := .die, len := 60, kind := false, block := false, lay := none, started := true, moved := 0, c0 := 3, olds := [], outcome := none, demand := none }] })] })], roots := [(1, 0x9001)], mem := codeLine }
    let c : Nat := 0
    let n : Nat := 2
    let d : Nat := 0
    let o : Nat := 0x40
    let .copy cp :: rest := (s.chan (.core c n)).items | none
    guard (cp.started = true)
    guard (cp.outcome = none)
    guard (cp.moved = 0)
    guard (cp.lay = none)
    guard (cp.issuer = c)
    guard (cp.olds = [])
    guard (cp.seen = [])
    guard (cp.pinS = none)
    guard (cp.pinD = none)
    guard (0 < cp.len)
    guard (cp.len ≤ 64)
    guard (cp.sspace = .spad)
    guard (cp.dspace = .die)
    guard (cp.src + cp.len ≤ 2 ^ 64)
    guard (cp.dst + cp.len ≤ 2 ^ 64)
    guard ((List.range cp.len).all fun i => decide (s.onchip c .spad (cp.src + i) 1 = some (.spad c (cp.src % 0x40000 + i))))
    guard ((List.range cp.len).all fun i => decide (s.onchip c .die (cp.dst + i) 1 = some (.die d (o + i))))
    guard (Memory.wf (tget [] s.dspad d) = true)
    some () : Option Unit) = some () := by decide +kernel
theorem test_Copies_7 : (do
    let s : State := { State.reset with cores := [(0, { runs nums with cwp := [(3, 77)], spad := (List.range 64).map (fun i => (0x2100 + i, BitVec.ofNat 8 (i + 1))), chans := [(2, { bind := none, stop := none, items := [.copy { tag := 5, bind := { id := 4, cons := some (0, 3), consIdx := 0, ring := some (0, 0x4000), logn := 3 }, issuer := 0, asid := 1, sup := false, launch := none, dlim := 0x200000, src := 0x1000, dst := 0x2040, sspace := .mem, dspace := .mem, len := 60, kind := false, block := false, lay := none, started := true, moved := 0, c0 := 3, olds := [], outcome := none, demand := none }] })] })], roots := [(1, 0x9001)], mem := codeLine }
    let c : Nat := 0
    let n : Nat := 2
    let .copy cp :: rest := (s.chan (.core c n)).items | none
    guard (cp.started = true)
    guard (cp.outcome = none)
    guard (cp.moved = 0)
    guard (cp.lay = none)
    guard (cp.olds = [])
    guard (cp.seen = [])
    guard (cp.pinS = none)
    guard (cp.pinD = none)
    guard (0 < cp.len)
    guard (cp.len ≤ 64)
    guard (cp.src < 2 ^ 64)
    guard (cp.dst < 2 ^ 64)
    guard (cp.src % 4096 + cp.len ≤ 4096)
    guard (cp.dst % 4096 + cp.len ≤ 4096)
    guard (cp.sspace = .mem)
    guard (cp.dspace = .mem)
    guard ((cp.src + cp.len ≤ cp.dst ∨ cp.dst + cp.len ≤ cp.src))
    let (.phys p so, s1) ← okOf ((unitLoc cp.work .mem cp.src 1 .load).run s) | none
    let (.phys q rcpt, s2) ← okOf ((unitLoc cp.work .mem cp.dst 1 .store).run s1) | none
    guard (p % 4096 = cp.src % 4096)
    guard (q % 4096 = cp.dst % 4096)
    guard (s1.poisoned p = false)
    guard ((∀ i ∈ List.range (cp.len), s2.poisoned (p + i) = false ∧ s2.linkError (q + i) = false))
    guard ((List.range 200).all fun j => let l := q / 64 + j; !decide (64 * l < q + cp.len) || s2.mayWrite (4096 + cp.issuer / 8) l)
    guard (s2.mem.wf = true)
    some () : Option Unit) = some () := by decide +kernel
theorem test_Copies_8 : (do
    let s : State := { State.reset with cores := [(0, { runs nums with cwp := [(3, 77)], spad := [(0x2100, 8)], chans := [(2, { bind := none, stop := none, items := [.copy { tag := 5, bind := { id := 4, cons := some (0, 3), consIdx := 0, ring := some (0, 0x2100), logn := 3 }, issuer := 0, asid := 1, sup := false, launch := none, dlim := 0x200000, src := 0x2100, dst := 0x40, sspace := .spad, dspace := .die, len := 60, kind := false, block := false, lay := none, started := false, moved := 0, c0 := 3, olds := [], outcome := some (0, 0, 0), demand := none }] })] })], roots := [(1, 0x9001)], mem := codeLine }
    let c : Nat := 0
    let n : Nat := 2
    let .copy cp :: rest := (s.chan (.core c n)).items | none
    let o ← cp.outcome
    guard (s.ringFull cp.bind = true)
    some () : Option Unit) = some () := by decide +kernel
theorem test_Copies_9 : (do
    let s : State := { State.reset with cores := [(0, { runs nums with cwp := [(3, 77)], spad := (List.range 64).map (fun i => (0x2100 + i, BitVec.ofNat 8 (i + 1))), chans := [(2, { bind := none, stop := some 2, items := [.copy { tag := 5, bind := { id := 4, cons := some (0, 3), consIdx := 0, ring := none, logn := 3 }, issuer := 0, asid := 1, sup := false, launch := none, dlim := 0x200000, src := 0x2100, dst := 0x40, sspace := .spad, dspace := .die, len := 60, kind := false, block := false, lay := none, started := false, moved := 0, c0 := 3, olds := [], outcome := some (0, 0, 0), demand := none }] })] })], roots := [(1, 0x9001)], mem := codeLine }
    let c : Nat := 0
    let n : Nat := 2
    let .copy cp :: rest := (s.chan (.core c n)).items | none
    let o ← cp.outcome
    guard (s.ringFull cp.bind = false)
    guard (cp.bind.ring = none)
    some () : Option Unit) = some () := by decide +kernel
theorem test_Copies_10 : (do
    let s : State := { State.reset with cores := [(0, { runs nums with cwp := [(3, 77)], spad := (List.range 64).map (fun i => (0x2100 + i, BitVec.ofNat 8 (i + 1))), chans := [(2, { bind := none, stop := some 2, items := [.copy { tag := 5, bind := { id := 4, cons := some (0, 3), consIdx := 0, ring := some (0, 0x4000), logn := 3 }, issuer := 0, asid := 1, sup := false, launch := none, dlim := 0x200000, src := 0x2100, dst := 0x40, sspace := .spad, dspace := .die, len := 60, kind := false, block := false, lay := none, started := false, moved := 60, c0 := 3, olds := [], outcome := some (0, 0, 0), demand := none }] })] })], roots := [(1, 0x9001)], mem := codeLine }
    let c : Nat := 0
    let n : Nat := 2
    let .copy cp :: rest := (s.chan (.core c n)).items | none
    let o ← cp.outcome
    guard (s.ringFull cp.bind = false)
    let (k, off) ← cp.bind.ring
    some () : Option Unit) = some () := by decide +kernel
theorem test_Commands_1 : (do
    let s : State := { State.reset with cores := [(0, { runs places with tiles := [(0, 0x3c), (1, 0x3c), (8193, 0x40)], scales := [(0, 3)], accs := [(0, 0x3f800000), (4096, 0xbf800000)], spad := [(0x2100, 5), (0x2101, 60)], cmds := [{ cmd0 with no := 9, op := .azero }, { cmd0 with no := 5, cid := 7, op := .mma, ty := .f16, d := 1, a := 0, b := 2, fl := 0, cfgD := 34576, cfgA := 33552, cfgB := 34064, started := false, outcome := none, lay := none, sp := .spad, wa := 0x2100, wb := 0, deps := [3, 4] }] })], roots := [(1, 0x9001)], mem := codeLine }
    let c : Nat := 0
    let p : Nat := 1
    let x ← (s.core c).cmds[p]?
    guard (x.started = false)
    guard (x.outcome = none)
    guard (x.gang = false)
    guard (x.deps.all fun n => (s.core c).cmds.all fun y => y.no != n)
    guard (x.op ∈ [CmdOp.mma, CmdOp.amov, CmdOp.tzero, CmdOp.azero])
    some () : Option Unit) = some () := by decide +kernel
theorem test_Commands_2 : (do
    let s : State := { State.reset with cores := [(0, { runs places with tiles := [(0, 0x3c), (1, 0x3c), (8193, 0x40)], scales := [(0, 3)], accs := [(0, 0x3f800000), (4096, 0xbf800000)], spad := [(0x2100, 5), (0x2101, 60)], cmds := [{ cmd0 with no := 9, op := .azero }, { cmd0 with no := 5, cid := 7, op := .tldq, ty := .f16, d := 1, a := 0, b := 2, fl := 0, cfgD := 34576, cfgA := 33552, cfgB := 34064, started := false, outcome := none, lay := none, sp := .spad, wa := 0x4000, wb := 64, deps := [3, 4] }] })], roots := [(1, 0x9001)], mem := codeLine }
    let c : Nat := 0
    let p : Nat := 1
    let x ← (s.core c).cmds[p]?
    guard (x.started = false)
    guard (x.outcome = none)
    guard (x.gang = false)
    guard (x.deps.all fun n => (s.core c).cmds.all fun y => y.no != n)
    guard (x.op = .tldq)
    some () : Option Unit) = some () := by decide +kernel
theorem test_Commands_3 : (do
    let s : State := { State.reset with cores := [(0, { runs places with tiles := [(0, 0x3c), (1, 0x3c), (8193, 0x40)], scales := [(0, 3)], accs := [(0, 0x3f800000), (4096, 0xbf800000)], spad := [(0x2100, 5), (0x2101, 60)], cmds := [{ cmd0 with no := 9, op := .azero }, { cmd0 with no := 5, cid := 7, op := .tld, ty := .f16, d := 1, a := 0, b := 2, fl := 0, cfgD := 34576, cfgA := 33552, cfgB := 34064, started := false, outcome := none, lay := none, sp := .spad, wa := 0x2100, wb := 0, deps := [3, 4] }] })], roots := [(1, 0x9001)], mem := codeLine }
    let c : Nat := 0
    let p : Nat := 1
    let x ← (s.core c).cmds[p]?
    guard (x.started = false)
    guard (x.outcome = none)
    guard (x.gang = false)
    guard (x.deps.all fun n => (s.core c).cmds.all fun y => y.no != n)
    guard (x.op ∈ [CmdOp.tld, CmdOp.tst, CmdOp.ast, CmdOp.ald])
    let (bs, s1) ← okOf ((unitRead x.work x.sp x.wa 64).run s)
    some () : Option Unit) = some () := by decide +kernel
theorem test_Commands_4 : (do
    let s : State := { State.reset with cores := [(0, { runs places with tiles := [(0, 0x3c), (1, 0x3c), (8193, 0x40)], scales := [(0, 3)], accs := [(0, 0x3f800000), (4096, 0xbf800000)], spad := [(0x2100, 5), (0x2101, 60)], cmds := [{ cmd0 with no := 9, op := .azero }, { cmd0 with no := 5, cid := 7, op := .tld, ty := .f16, d := 1, a := 0, b := 2, fl := 0, cfgD := 34576, cfgA := 33552, cfgB := 34064, started := false, outcome := some (2, 9), lay := none, sp := .spad, wa := 0x2100, wb := 0, deps := [3, 4] }] })], roots := [(1, 0x9001)], mem := codeLine }
    let c : Nat := 0
    let p : Nat := 1
    let x ← (s.core c).cmds[p]?
    let (o, code) ← x.outcome
    some () : Option Unit) = some () := by decide +kernel
theorem test_Commands_5 : (do
    let s : State := { State.reset with cores := [(0, { runs places with tiles := [(0, 0x3c), (1, 0x3c), (8193, 0x40)], scales := [(0, 3)], accs := [(0, 0x3f800000), (4096, 0xbf800000)], spad := [(0x2100, 5), (0x2101, 60)], cmds := [{ cmd0 with no := 9, op := .azero, started := true }, { cmd0 with no := 5, cid := 7, op := .tzero, ty := .f16, d := 1, a := 0, b := 2, fl := 0, cfgD := 34576, cfgA := 33552, cfgB := 34064, started := true, outcome := none, lay := none, sp := .spad, wa := 0x2100, wb := 0, deps := [3, 4] }] })], roots := [(1, 0x9001)], mem := codeLine }
    let c : Nat := 0
    let p : Nat := 1
    let x ← (s.core c).cmds[p]?
    let q := 0
    guard (x.outcome = none)
    guard (x.started = true)
    guard (x.op = .tzero)
    let y ← (s.core c).cmds[q]?
    guard (q ≠ p)
    guard (y.started = true)
    guard (y.outcome = none)
    some () : Option Unit) = some () := by decide +kernel
theorem test_Commands_8 : (do
    let s : State := { State.reset with cores := [(0, { runs places with tiles := [(0, 0x3c), (1, 0x3c), (8193, 0x40)], scales := [(0, 3)], accs := [(0, 0x3f800000), (4096, 0xbf800000)], spad := [(0x2100, 5), (0x2101, 60)], cmds := [{ cmd0 with no := 9, op := .azero }, { cmd0 with no := 5, cid := 7, op := .tzero, ty := .f16, d := 1, a := 0, b := 2, fl := 0, cfgD := 34576, cfgA := 33552, cfgB := 34064, started := true, outcome := none, lay := none, sp := .spad, wa := 0x2100, wb := 0, deps := [3, 4] }] })], roots := [(1, 0x9001)], mem := codeLine }
    let c : Nat := 0
    let p : Nat := 1
    let x ← (s.core c).cmds[p]?
    guard ((s.seqU (c / 8)).cmds.isEmpty && (List.range (s.core c).cmds.length).all fun q => q == p || (match (s.core c).cmds[q]? with | some y => !y.started || y.outcome.isSome | none => true))
    guard (x.olds = [])
    guard (x.outcome = none)
    guard (x.started = true)
    guard (x.op = .tzero)
    let j := 3
    guard (j < 64)
    let i := 5
    let w := 16
    guard (w * (i + 1) ≤ 1024)
    guard (i < 512)
    some () : Option Unit) = some () := by decide +kernel
theorem test_Commands_9 : (do
    let s : State := { State.reset with cores := [(0, { runs places with tiles := [(0, 0x3c), (1, 0x3c), (8193, 0x40)], scales := [(0, 3)], accs := [(0, 0x3f800000), (4096, 0xbf800000)], spad := [(0x2100, 5), (0x2101, 60)], cmds := [{ cmd0 with no := 9, op := .azero }, { cmd0 with no := 5, cid := 7, op := .azero, ty := .f16, d := 1, a := 0, b := 2, fl := 0, cfgD := 34576, cfgA := 33552, cfgB := 34064, started := true, outcome := none, lay := none, sp := .spad, wa := 0x2100, wb := 0, deps := [3, 4] }] })], roots := [(1, 0x9001)], mem := codeLine }
    let c : Nat := 0
    let p : Nat := 1
    let x ← (s.core c).cmds[p]?
    guard ((s.seqU (c / 8)).cmds.isEmpty && (List.range (s.core c).cmds.length).all fun q => q == p || (match (s.core c).cmds[q]? with | some y => !y.started || y.outcome.isSome | none => true))
    guard (x.olds = [])
    guard (x.outcome = none)
    guard (x.started = true)
    guard (x.op = .azero)
    some () : Option Unit) = some () := by decide +kernel
theorem test_Commands_10 : (do
    let s : State := { State.reset with cores := [(0, { runs places with tiles := [(0, 0x3c), (1, 0x3c), (8193, 0x40)], scales := [(0, 3)], accs := [(0, 0x3f800000), (4096, 0xbf800000)], spad := [(0x2100, 5), (0x2101, 60)], cmds := [{ cmd0 with no := 9, op := .azero }, { cmd0 with no := 5, cid := 7, op := .mma, ty := .f16, d := 1, a := 0, b := 2, fl := 0, cfgD := 34576, cfgA := 33552, cfgB := 34064, started := true, outcome := none, lay := none, sp := .spad, wa := 0x2100, wb := 0, deps := [3, 4] }] })], roots := [(1, 0x9001)], mem := codeLine }
    let c : Nat := 0
    let p : Nat := 1
    let x ← (s.core c).cmds[p]?
    guard ((s.seqU (c / 8)).cmds.isEmpty && (List.range (s.core c).cmds.length).all fun q => q == p || (match (s.core c).cmds[q]? with | some y => !y.started || y.outcome.isSome | none => true))
    guard (x.olds = [])
    guard (x.outcome = none)
    guard (x.started = true)
    guard (x.op = .mma)
    guard (x.gang = false)
    some () : Option Unit) = some () := by decide +kernel
theorem test_Commands_11 : (do
    let s : State := { State.reset with cores := [(0, { runs places with tiles := [(0, 0x3c), (1, 0x3c), (8193, 0x40)], scales := [(0, 3)], accs := [(0, 0x3f800000), (4096, 0xbf800000)], spad := [(0x2100, 5), (0x2101, 60)], cmds := [{ cmd0 with no := 9, op := .azero }, { cmd0 with no := 5, cid := 7, op := .amov, ty := .f16, d := 1, a := 0, b := 2, fl := 0, cfgD := 34576, cfgA := 33552, cfgB := 34064, started := true, outcome := none, lay := none, sp := .spad, wa := 0x2100, wb := 0, deps := [3, 4] }] })], roots := [(1, 0x9001)], mem := codeLine }
    let c : Nat := 0
    let p : Nat := 1
    let x ← (s.core c).cmds[p]?
    guard ((s.seqU (c / 8)).cmds.isEmpty && (List.range (s.core c).cmds.length).all fun q => q == p || (match (s.core c).cmds[q]? with | some y => !y.started || y.outcome.isSome | none => true))
    guard (x.olds = [])
    guard (x.outcome = none)
    guard (x.started = true)
    guard (x.op = .amov)
    guard ((s.core c).memOk = true)
    guard (x.cfgD % 256 ≤ 128)
    some () : Option Unit) = some () := by decide +kernel
theorem test_Commands_12 : (do
    let s : State := { State.reset with cores := [(0, { runs places with tiles := [(0, 0x3c), (1, 0x3c), (8193, 0x40)], scales := [(0, 3)], accs := [(0, 0x3f800000), (4096, 0xbf800000)], spad := [(0x2100, 5), (0x2101, 60)], cmds := [{ cmd0 with no := 9, op := .azero }, { cmd0 with no := 5, cid := 7, op := .tst, ty := .f16, d := 1, a := 0, b := 2, fl := 0, cfgD := 0x8710, cfgA := 33552, cfgB := 34064, started := true, outcome := none, lay := some { base := 0x2100, n0 := 8, n1 := 8, n2 := 1, s0 := 1, s1 := 64, s2 := 0, esize := 2, space := 1 }, sp := .spad, wa := 0x2100, wb := 0, deps := [3, 4] }] })], roots := [(1, 0x9001)], mem := codeLine }
    let c : Nat := 0
    let p : Nat := 1
    let x ← (s.core c).cmds[p]?
    guard ((s.seqU (c / 8)).cmds.isEmpty && (List.range (s.core c).cmds.length).all fun q => q == p || (match (s.core c).cmds[q]? with | some y => !y.started || y.outcome.isSome | none => true))
    guard (x.olds = [])
    guard (x.outcome = none)
    guard (x.started = true)
    let l := (((s.core c).cmds.getD 1 cmd0).lay.getD default)
    let st := fun j => (List.range j).foldl (fun t i => (rowStore x l i t).getD t) (if (s.core c).cmds.length < 2 then s else s.setCore c (s.core c))
    guard (x.lay = some l)
    guard (x.rows = 0)
    guard (s.sel2 = 0)
    let st : Nat → State := st
    guard (st 0 = (if (s.core c).cmds.length < 2 then s else s.setCore c (s.core c)))
    guard (x.op ∈ [CmdOp.tst, CmdOp.ast])
    guard ((List.range l.n1).all fun j => decide (rowStore x l j (st j) = some (st (j + 1))))
    some () : Option Unit) = some () := by decide +kernel
theorem test_Commands_13 : (do
    let s : State := { State.reset with cores := [(0, { runs places with tiles := [(0, 0x3c), (1, 0x3c), (8193, 0x40)], scales := [(0, 3)], accs := [(0, 0x3f800000), (4096, 0xbf800000)], spad := [(0x2100, 5), (0x2101, 60)], cmds := [{ cmd0 with no := 9, op := .azero }, { cmd0 with no := 5, cid := 7, op := .tld, ty := .f16, d := 1, a := 0, b := 2, fl := 0, cfgD := 0x8710, cfgA := 33552, cfgB := 34064, started := true, outcome := none, lay := some { base := 0x2100, n0 := 8, n1 := 8, n2 := 1, s0 := 1, s1 := 64, s2 := 0, esize := 2, space := 1 }, sp := .spad, wa := 0x2100, wb := 0, deps := [3, 4] }] })], roots := [(1, 0x9001)], mem := codeLine }
    let c : Nat := 0
    let p : Nat := 1
    let x ← (s.core c).cmds[p]?
    guard ((s.seqU (c / 8)).cmds.isEmpty && (List.range (s.core c).cmds.length).all fun q => q == p || (match (s.core c).cmds[q]? with | some y => !y.started || y.outcome.isSome | none => true))
    guard (x.olds = [])
    guard (x.outcome = none)
    guard (x.started = true)
    let l := (((s.core c).cmds.getD 1 cmd0).lay.getD default)
    let st := fun j => (List.range j).foldl (fun t i => (rowLoad x l i t).getD t) (if (s.core c).cmds.length < 2 then s else s.setCore c (s.core c))
    guard (x.lay = some l)
    guard (x.rows = 0)
    guard (s.sel2 = 0)
    let st : Nat → State := st
    guard (st 0 = (if (s.core c).cmds.length < 2 then s else s.setCore c (s.core c)))
    guard (x.op ∈ [CmdOp.tld, CmdOp.ald, CmdOp.tldq])
    guard ((List.range l.n1).all fun j => decide (rowLoad x l j (st j) = some (st (j + 1))))
    some () : Option Unit) = some () := by decide +kernel
theorem test_Commands_14 : (do
    let s : State := { State.reset with cores := [(0, { runs places with tiles := [(0, 0x3c), (1, 0x3c), (8193, 0x40)], scales := [(0, 3)], accs := [(0, 0x3f800000), (4096, 0xbf800000)], spad := [(0x2100, 5), (0x2101, 60)], cmds := [{ cmd0 with no := 9, op := .azero }, { cmd0 with no := 5, cid := 7, op := .tld, ty := .f16, d := 1, a := 0, b := 2, fl := 0, cfgD := 34576, cfgA := 33552, cfgB := 34064, started := true, outcome := none, lay := some { base := 0x3ff00, n0 := 8, n1 := 8, n2 := 1, s0 := 1, s1 := 64, s2 := 0, esize := 2, space := 1 }, sp := .spad, wa := 0x2100, wb := 0, deps := [3, 4] }] })], roots := [(1, 0x9001)], mem := codeLine }
    let c : Nat := 0
    let p : Nat := 1
    let x ← (s.core c).cmds[p]?
    guard ((s.seqU (c / 8)).cmds.isEmpty && (List.range (s.core c).cmds.length).all fun q => q == p || (match (s.core c).cmds[q]? with | some y => !y.started || y.outcome.isSome | none => true))
    guard (x.olds = [])
    guard (x.outcome = none)
    guard (x.started = true)
    let l := (((s.core c).cmds.getD 1 cmd0).lay.getD default)
    let st := fun j => (List.range j).foldl (fun t i => (rowLoad x l i t).getD t) (if (s.core c).cmds.length < 2 then s else s.setCore c (s.core c))
    guard (x.lay = some l)
    guard (x.rows = 0)
    guard (s.sel2 = 0)
    let st : Nat → State := st
    guard (st 0 = (if (s.core c).cmds.length < 2 then s else s.setCore c (s.core c)))
    let j := 4
    guard (j < l.n1)
    guard (x.op ∈ [CmdOp.tld, CmdOp.ald, CmdOp.tldq])
    guard ((List.range j).all fun j => decide (rowLoad x l j (st j) = some (st (j + 1))))
    let (.fault code ad, u) ← errOf ((readElems x.work l j l.n0).run (st j)) | none
    some () : Option Unit) = some () := by decide +kernel
theorem test_Commands_15 : (do
    let s : State := { State.reset with sel := 1, cores := (List.range 8).map (fun p => (8 + p, { runs places with tiles := [(0, 0x3c), (1, 0x3c), (8193, 0x40)], scales := [(0, 3)], accs := [(0, 0x3f800000), (4096, 0xbf800000)], spad := [(0x2100, 5), (0x2101, 60)], cmds := [{ cmd0 with no := 5, op := .mma, ty := .f16, d := p % 4, a := p % 3, b := (p + 1) % 4, fl := 8, cfgA := 0x8310, cfgB := 0x8310 + 256 * p, core := 8 + p, gangNo := 2, deps := [4], joined := false, started := false, outcome := none }] })) }
    let row : Nat := 1
    let g : Nat := 2
    let x : Nat → Cmd := fun p => (s.core (8 * row + p)).cmds.getD 0 cmd0
    guard (row = s.sel)
    guard ((∀ p ∈ List.range (8), (s.core (8 * row + p)).cmds = [x p] ∧ (x p).op = .mma ∧ 8 ≤ (x p).fl ∧ (x p).gangNo = g ∧ (x p).joined = false ∧ (x p).outcome = none))
    some () : Option Unit) = some () := by decide +kernel
theorem test_Commands_16 : (do
    let s : State := { State.reset with sel := 1, cores := (List.range 8).map (fun p => (8 + p, { runs places with tiles := [(0, 0x3c), (1, 0x3c), (8193, 0x40)], scales := [(0, 3)], accs := [(0, 0x3f800000), (4096, 0xbf800000)], spad := [(0x2100, 5), (0x2101, 60)], cmds := [{ cmd0 with no := 5, op := .mma, ty := .f16, d := p % 4, a := p % 3, b := (p + 1) % 4, fl := 8, cfgA := 0x8310, cfgB := 0x8310 + 256 * p, core := 8 + p, gangNo := 2, deps := [4], joined := true, started := false, outcome := none }] })) }
    let row : Nat := 1
    let g : Nat := 2
    let d : Nat := 8
    let x : Nat → Cmd := fun p => (s.core (8 * row + p)).cmds.getD 0 cmd0
    guard ((s.seqU row).cmds = [])
    guard ((∀ p ∈ List.range (8), (s.core (8 * row + p)).cmds = [x p] ∧ (x p).op = .mma ∧ 8 ≤ (x p).fl ∧ (x p).gangNo = g ∧ (x p).core = 8 * row + p ∧ (x p).olds = [] ∧ (x p).joined = true ∧ (x p).outcome = none ∧ cfgDepth (x p).cfgA = d))
    guard ((∀ p ∈ List.range (8), (x p).started = false ∧ ∀ n ∈ (x p).deps, (x p).no ≠ n))
    let p := 3
    guard (p < 8)
    some () : Option Unit) = some () := by decide +kernel
theorem test_Commands_17 : (do
    let s : State := { State.reset with sel := 1, cores := (List.range 8).map (fun p => (8 + p, { runs places with tiles := [(0, 0x3c), (1, 0x3c), (8193, 0x40)], scales := [(0, 3)], accs := [(0, 0x3f800000), (4096, 0xbf800000)], spad := [(0x2100, 5), (0x2101, 60)], cmds := [{ cmd0 with no := 5, op := .mma, ty := .f16, d := p % 4, a := p % 3, b := (p + 1) % 4, fl := 8, cfgA := 0x8310, cfgB := 0x8310 + 256 * p, core := 8 + p, gangNo := 2, deps := [4], joined := true, started := true, outcome := none }] })) }
    let row : Nat := 1
    let g : Nat := 2
    let d : Nat := 8
    let x : Nat → Cmd := fun p => (s.core (8 * row + p)).cmds.getD 0 cmd0
    guard ((s.seqU row).cmds = [])
    guard ((∀ p ∈ List.range (8), (s.core (8 * row + p)).cmds = [x p] ∧ (x p).op = .mma ∧ 8 ≤ (x p).fl ∧ (x p).gangNo = g ∧ (x p).core = 8 * row + p ∧ (x p).olds = [] ∧ (x p).joined = true ∧ (x p).outcome = none ∧ cfgDepth (x p).cfgA = d))
    guard ((∀ p ∈ List.range (8), (x p).started = true))
    let p := 3
    guard (p < 8)
    some () : Option Unit) = some () := by decide +kernel
theorem test_Commands_18 : (do
    let s : State := { State.reset with seqs := [(1, { cmds := [{ cmd0 with no := 5, op := .mma, ty := .f16, d := 1, a := 2, b := 3, fl := 8, cfgA := 0x8310, cfgBs := (List.range 8).map (fun p => 0x8310 + 256 * p), core := 2048 + 1, deps := [72, 16, 79], joined := false, started := false }] })], cores := (List.range 8).map (fun p => (8 + p, { runs places with tiles := [(0, 0x3c), (1, 0x3c), (8193, 0x40)], scales := [(0, 3)], tcfg := if p = 5 then [(2, 0x8710), (3, 0x8310)] else [(2, 0x8710), (3, 0x8310)], accs := [(0, 0x3f800000), (4096, 0xbf800000)], spad := [(0x2100, 5), (0x2101, 60)], cmds := [] })) }
    let q : Nat := 1
    let p : Nat := 0
    let x ← (s.seqU q).cmds[p]?
    guard (x.started = false)
    guard (x.outcome = none)
    guard (x.deps.all fun n => (if n % 16 = 8 then (s.seqU q).cmds else (s.core (8 * q + n % 16)).cmds).all fun y => y.no != n / 16)
    guard (x.joined = false)
    some () : Option Unit) = some () := by decide +kernel
theorem test_Commands_19 : (do
    let s : State := { State.reset with seqs := [(1, { cmds := [{ cmd0 with no := 5, op := .mma, ty := .f16, d := 1, a := 2, b := 3, fl := 8, cfgA := 0x8310, cfgBs := (List.range 8).map (fun p => 0x8310 + 256 * p), core := 2048 + 1, deps := [], joined := true, started := false }] })], cores := (List.range 8).map (fun p => (8 + p, { runs places with tiles := [(0, 0x3c), (1, 0x3c), (8193, 0x40)], scales := [(0, 3)], tcfg := if p = 5 then [(2, 0x8710), (3, 0x8310)] else [(2, 0x8710), (3, 0x8310)], accs := [(0, 0x3f800000), (4096, 0xbf800000)], spad := [(0x2100, 5), (0x2101, 60)], cmds := [] })) }
    let q : Nat := 1
    let p : Nat := 0
    let x ← (s.seqU q).cmds[p]?
    guard (x.started = false)
    guard (x.outcome = none)
    guard (x.deps.all fun n => (if n % 16 = 8 then (s.seqU q).cmds else (s.core (8 * q + n % 16)).cmds).all fun y => y.no != n / 16)
    guard (x.joined = true)
    guard ((x.op = .mma → ∀ j ∈ List.range (8), shaped { op := .mma, ty := x.ty, fl := 8 } 0 ((s.core (8 * q + j)).cfg x.a) ((s.core (8 * q + j)).cfg x.b) 0 = true ∧ cfgDepth ((s.core (8 * q + j)).cfg x.a) = cfgDepth ((s.core (8 * q)).cfg x.a)))
    some () : Option Unit) = some () := by decide +kernel
theorem test_Commands_20 : (do
    let s : State := { State.reset with seqs := [(1, { cmds := [{ cmd0 with no := 5, op := .mma, ty := .f16, d := 1, a := 2, b := 3, fl := 8, cfgA := 0x8310, cfgBs := (List.range 8).map (fun p => 0x8310 + 256 * p), core := 2048 + 1, deps := [], joined := true, started := false }] })], cores := (List.range 8).map (fun p => (8 + p, { runs places with tiles := [(0, 0x3c), (1, 0x3c), (8193, 0x40)], scales := [(0, 3)], tcfg := if p = 5 then [(2, 0x8510), (3, 0x8310)] else [(2, 0x8710), (3, 0x8310)], accs := [(0, 0x3f800000), (4096, 0xbf800000)], spad := [(0x2100, 5), (0x2101, 60)], cmds := [] })) }
    let q : Nat := 1
    let p : Nat := 0
    let x ← (s.seqU q).cmds[p]?
    guard (x.started = false)
    guard (x.outcome = none)
    guard (x.deps.all fun n => (if n % 16 = 8 then (s.seqU q).cmds else (s.core (8 * q + n % 16)).cmds).all fun y => y.no != n / 16)
    guard (x.joined = true)
    guard (x.op = .mma)
    guard ((List.range 8).any fun j => !shaped ({ op := .mma, ty := x.ty, fl := 8 } : CmdSpec) 0 ((s.core (8 * q + j)).cfg x.a) ((s.core (8 * q + j)).cfg x.b) 0 || cfgDepth ((s.core (8 * q + j)).cfg x.a) != cfgDepth ((s.core (8 * q)).cfg x.a))
    some () : Option Unit) = some () := by decide +kernel
theorem test_Commands_21 : (do
    let s : State := { State.reset with seqs := [(1, { cmds := [{ cmd0 with no := 5, op := .mma, ty := .f16, d := 1, a := 2, b := 3, fl := 8, cfgA := 0x8310, cfgBs := (List.range 8).map (fun p => 0x8310 + 256 * p), core := 2048 + 1, deps := [], joined := true, started := true }] })], cores := (List.range 8).map (fun p => (8 + p, { runs places with tiles := [(0, 0x3c), (1, 0x3c), (8193, 0x40)], scales := [(0, 3)], tcfg := if p = 5 then [(2, 0x8710), (3, 0x8310)] else [(2, 0x8710), (3, 0x8310)], accs := [(0, 0x3f800000), (4096, 0xbf800000)], spad := [(0x2100, 5), (0x2101, 60)], cmds := [] })) }
    let q : Nat := 1
    let d : Nat := 8
    let [x] := (s.seqU q).cmds | none
    guard (x.started = true)
    guard (x.outcome = none)
    guard (x.olds = [])
    guard ((s.seqU q).inst = none)
    guard ((∀ p ∈ List.range (8), (s.core (8 * q + p)).cmds = []))
    guard (d = cfgDepth x.cfgA)
    some () : Option Unit) = some () := by decide +kernel
theorem test_Stops_1 : (do
    let s : State := on { runs nums with dq := [] }
    let c : Nat := 0
    guard (s.atSlot c = true)
    some () : Option Unit) = some () := by decide +kernel
theorem test_Stops_2 : (do
    let s : State := { team with cur := .seq 3, seqs := [(3, { inst := some 6, role := 1 })] }
    let r : Nat := 3
    let i : Nat := 6
    guard (s.cur = .seq r)
    guard ((s.seqU r).inst = some i)
    some () : Option Unit) = some () := by decide +kernel
theorem test_Stops_3 : (do
    let s : State := { team with cur := .eng 0, engs := [(0, { inst := some 6, role := 1 })] }
    let g : Nat := 0
    let i : Nat := 6
    guard (s.cur = .eng g)
    guard ((s.engU g).inst = some i)
    some () : Option Unit) = some () := by decide +kernel
theorem test_Stops_4 : (do
    let s : State := { team with insts := team.insts.map (fun q => (q.1, q.2.map fun y => { y with faulted := true })), cores := [(0, { team.core 0 with task := some { job with kind := .member, launch := some 3 } }), (1, { team.core 0 with pc := 5 }), (5, { team.core 0 with pc := 6 })] }
    let i : Nat := 6
    let x ← tget none s.insts i
    guard (x.faulted = true)
    some () : Option Unit) = some () := by decide +kernel
theorem test_Stops_5 : (do
    let s : State := { team with cores := [(0, { team.core 0 with task := some { job with kind := .member, launch := some 3 } }), (1, { team.core 0 with pc := 5 }), (5, { team.core 0 with pc := 6 })] }
    let i : Nat := 6
    let x ← tget none s.insts i
    guard (x.faulted = false)
    guard (x.st = .running)
    let l ← s.launch? x.launch
    some () : Option Unit) = some () := by decide +kernel
theorem test_Stops_6 : (do
    let s : State := State.reset
    let c : Nat := 5
    guard ((2048 ≤ c ∨ (s.core c).task = none))
    some () : Option Unit) = some () := by decide +kernel
theorem test_Stops_7 : (do
    let s : State := { on { runs nums with task := some { job with launch := some 3 } } with launches := [{ (default : Launch) with no := 3, q := 3, tenant := 7, lid := 9, part := 1, asid := 1, st := .running }], queues := [{ (default : Queue) with q := 3, held := true, logsz := 4, head := 0xffffffff, tail := 2, tenant := 7, asid := 1, base := 0x10000, evbase := 0x4000, evlog := 4, qcb := 0x8000 }] }
    let c : Nat := 0
    guard (c < 2048)
    let t ← (s.core c).task
    guard (t.kind ≠ .firmware)
    guard ((match (s.core c).stopAt with | some st => !st.counted | none => true) = true)
    guard (t.kind ≠ .member)
    guard ((s.core c).cmds = [])
    some () : Option Unit) = some () := by decide +kernel
theorem test_Stops_8 : (do
    let s : State := { on { runs nums with task := some { job with launch := some 3 }, cmds := [cmd0] } with launches := [{ (default : Launch) with no := 3, q := 3, tenant := 7, lid := 9, part := 1, asid := 1, st := .running }], queues := [{ (default : Queue) with q := 3, held := true, logsz := 4, head := 0xffffffff, tail := 2, tenant := 7, asid := 1, base := 0x10000, evbase := 0x4000, evlog := 4, qcb := 0x8000 }] }
    let c : Nat := 0
    guard (c < 2048)
    let t ← (s.core c).task
    guard (t.kind ≠ .firmware)
    guard ((match (s.core c).stopAt with | some st => !st.counted | none => true) = true)
    guard ((s.core c).cmds ≠ [])
    some () : Option Unit) = some () := by decide +kernel
theorem test_Stops_9 : (do
    let s : State := { team with cores := [(0, { team.core 0 with task := some { job with kind := .member, launch := some 3 } }), (1, { team.core 0 with pc := 5 }), (5, { team.core 0 with pc := 6 })] }
    let c : Nat := 0
    let i : Nat := 6
    guard (c < 2048)
    let t ← (s.core c).task
    guard (t.kind = .member)
    guard ((s.core c).inst = some i)
    guard ((s.core c).stopAt = none)
    guard ((s.core c).cmds = [])
    let x ← tget none s.insts i
    guard (x.faulted = false)
    guard (x.st = .running)
    let l ← s.launch? x.launch
    some () : Option Unit) = some () := by decide +kernel
theorem test_Stops_10 : (do
    let s : State := { on { runs nums with task := some { job with tr := { ctrl := 0x200000000 }, kind := .normal, restarts := 0, launch := some 3 }, wd := 5 } with launches := [{ (default : Launch) with no := 3, q := 3, tenant := 7, lid := 9, part := 1, asid := 1, st := .running }] }
    let c : Nat := 0
    guard (c = s.sel)
    let t ← (s.core c).task
    guard ((t.kind = .normal ∨ t.kind = .sys))
    guard ((s.core c).held = [])
    guard ((s.core c).ready.length < 256)
    guard ((s.core c).stopAt = none)
    guard ((s.core c).wd < (s.core c).tasklimL)
    some () : Option Unit) = some () := by decide +kernel
theorem test_Stops_11 : (do
    let s : State := { on { runs nums with task := some { job with tr := { ctrl := 0x200000000 }, kind := .normal, restarts := 0, launch := some 3 }, wd := 0x400000 } with launches := [{ (default : Launch) with no := 3, q := 3, tenant := 7, lid := 9, part := 1, asid := 1, st := .running }] }
    let c : Nat := 0
    guard (c = s.sel)
    let t ← (s.core c).task
    guard ((t.kind = .normal ∨ t.kind = .sys))
    guard ((s.core c).held = [])
    guard ((s.core c).ready.length < 256)
    guard ((s.core c).stopAt = none)
    guard ((s.core c).dq = [])
    guard ((s.core c).tasklimL ≤ (s.core c).wd)
    guard ((s.core c).ending = none)
    guard ((s.core c).pend = [])
    guard ((s.core c).cmds = [])
    some () : Option Unit) = some () := by decide +kernel
theorem test_Stops_12 : (do
    let s : State := { on { runs nums with task := some { job with tr := { ctrl := 0x200000000 }, kind := .normal, restarts := 0, launch := some 3 }, wd := 0x400000, cmds := [cmd0] } with launches := [{ (default : Launch) with no := 3, q := 3, tenant := 7, lid := 9, part := 1, asid := 1, st := .running }] }
    let c : Nat := 0
    guard (c = s.sel)
    let t ← (s.core c).task
    guard ((t.kind = .normal ∨ t.kind = .sys))
    guard ((s.core c).held = [])
    guard ((s.core c).ready.length < 256)
    guard ((s.core c).stopAt = none)
    guard ((s.core c).dq = [])
    guard ((s.core c).tasklimL ≤ (s.core c).wd)
    let [x] := (s.core c).cmds | none
    some () : Option Unit) = some () := by decide +kernel
theorem test_Stops_13 : (do
    let s : State := { on { runs nums with task := some { job with tr := { ctrl := 0x200000000 }, kind := .normal, restarts := 0, launch := some 3 }, wd := 0x400000, ending := some (33, 0), cmds := [cmd0] } with launches := [{ (default : Launch) with no := 3, q := 3, tenant := 7, lid := 9, part := 1, asid := 1, st := .running }] }
    let c : Nat := 0
    guard (c = s.sel)
    let t ← (s.core c).task
    guard ((t.kind = .normal ∨ t.kind = .sys))
    guard ((s.core c).held = [])
    guard ((s.core c).ready.length < 256)
    guard ((s.core c).stopAt = none)
    guard ((s.core c).dq = [])
    guard ((s.core c).tasklimL ≤ (s.core c).wd)
    let code := 0x21
    let (code', a) ← (s.core c).ending
    guard (code' = code)
    some () : Option Unit) = some () := by decide +kernel
theorem test_Stops_14 : (do
    let s : State := { on { runs nums with task := some { job with tr := { ctrl := 0x200000000 }, kind := .normal, restarts := 0, launch := some 3 }, dq := [{ pc := 0, instr := .vbcast 0x10 0xffc 0xfff, seq := 4, resume := none, vals := [], popped := [], lines := [] }], stopAt := some { waited := 4096, counted := false } } with launches := [{ (default : Launch) with no := 3, q := 3, tenant := 7, lid := 9, part := 1, asid := 1, st := .running }] }
    let c : Nat := 0
    guard (c = s.sel)
    let t ← (s.core c).task
    guard ((t.kind = .normal ∨ t.kind = .sys))
    guard ((s.core c).held = [])
    guard ((s.core c).ready.length < 256)
    let st ← (s.core c).stopAt
    guard (st.counted = false)
    guard ((s.core c).pend = [])
    guard ((s.core c).cmds = [])
    guard (4096 ≤ st.waited)
    guard (s.portBlocked c = true)
    some () : Option Unit) = some () := by decide +kernel
theorem test_Stops_15 : (do
    let s : State := { on { runs nums with task := some { job with tr := { ctrl := 0x200000000 }, kind := .normal, restarts := 0, launch := some 3 }, dq := [{ pc := 1, instr := .xst 2 3, seq := 3, resume := none, vals := [], popped := [], lines := [] }], stopAt := some { waited := 95, counted := false } } with launches := [{ (default : Launch) with no := 3, q := 3, tenant := 7, lid := 9, part := 1, asid := 1, st := .running }] }
    let c : Nat := 0
    guard (c = s.sel)
    let t ← (s.core c).task
    guard ((t.kind = .normal ∨ t.kind = .sys))
    guard ((s.core c).held = [])
    guard ((s.core c).ready.length < 256)
    let st ← (s.core c).stopAt
    guard ((st.waited < 4096 ∨ s.portBlocked c = false))
    some () : Option Unit) = some () := by decide +kernel
theorem test_Residency_1 : (do
    let s : State := { State.reset with sel := 3, nodes := [{ n := 1, tset := [7], resident := some 7, requests := [], partReq := none, phase := .steady, quiet := [], late := [], judged := false, graced := false, used := true }], launches := [{ (default : Launch) with no := 3, q := 3, tenant := 7, lid := 9, part := 1, asid := 1, st := .waiting, preds := [0x100000005, 0, 0, 0] }, { (default : Launch) with no := 1, q := 3, tenant := 7, lid := 5, part := 1, asid := 1, st := .done, reason := 4 }, { (default : Launch) with no := 2, q := 3, tenant := 7, lid := 6, part := 1, asid := 1, st := .running }], cores := [(0, {})], signals := [(7, [{ (default : Signal) with dev := 4194304, lid := 3, status := 1 }])], featacc := [(0, 2)] }
    let a : Nat := 3
    let l ← s.launch? a
    guard (l.st = .waiting)
    guard ((∃ e ∈ l.preds, predBroken s l.tenant e))
    some () : Option Unit) = some () := by decide +kernel
theorem test_Residency_2 : (do
    let s : State := { State.reset with sel := 3, nodes := [{ n := 1, tset := [7], resident := some 7, requests := [], partReq := none, phase := .steady, quiet := [], late := [], judged := false, graced := false, used := true }], launches := [{ (default : Launch) with no := 3, q := 3, tenant := 7, lid := 9, part := 1, asid := 1, st := .waiting, preds := [0x100000006, 0, 0, 0] }, { (default : Launch) with no := 1, q := 3, tenant := 7, lid := 5, part := 1, asid := 1, st := .done, reason := 4 }, { (default : Launch) with no := 2, q := 3, tenant := 7, lid := 6, part := 1, asid := 1, st := .running }], cores := [(0, {})], signals := [(7, [{ (default : Signal) with dev := 4194304, lid := 3, status := 1 }])], featacc := [(0, 2)] }
    let a : Nat := 3
    let l ← s.launch? a
    guard (l.st = .waiting)
    guard ((∀ e ∈ l.preds, ¬ predBroken s l.tenant e))
    guard ((∃ e ∈ l.preds, predOpen s l.tenant e))
    some () : Option Unit) = some () := by decide +kernel
theorem test_Residency_3 : (do
    let s : State := { State.reset with sel := 3, nodes := [{ n := 1, tset := [7], resident := some 7, requests := [], partReq := none, phase := .steady, quiet := [], late := [], judged := false, graced := false, used := true }], launches := [{ (default : Launch) with no := 3, q := 3, tenant := 7, lid := 9, part := 1, asid := 1, st := .waiting, preds := [0, 0, 0, 0] }, { (default : Launch) with no := 1, q := 3, tenant := 7, lid := 5, part := 1, asid := 1, st := .done, reason := 4 }, { (default : Launch) with no := 2, q := 3, tenant := 7, lid := 6, part := 1, asid := 1, st := .running }], cores := [(0, {})], signals := [(7, [{ (default : Signal) with dev := 4194304, lid := 3, status := 1 }])], featacc := [(0, 2)] }
    let a : Nat := 3
    let l ← s.launch? a
    guard (l.st = .waiting)
    guard ((∀ e ∈ l.preds, ¬ predBroken s l.tenant e ∧ ¬ predOpen s l.tenant e))
    some () : Option Unit) = some () := by decide +kernel
theorem test_Residency_4 : (do
    let s : State := { State.reset with pages := [], frames := [(0x30000, 0x2000)], unreach := [(1, 5)], sel := 3, mem := codeLine, roots := [(1, 0x9001)], launches := [{ (default : Launch) with no := 3, q := 3, tenant := 7, lid := 9, part := 1, asid := 1, st := .gated, extents := [(0, 1)], rth := 255 }], featacc := [(0, 2)], asked := [] }
    let a : Nat := 3
    let l ← s.launch? a
    guard (l.st = .gated)
    guard (gateB s l (homeB s l) = true)
    some () : Option Unit) = some () := by decide +kernel
theorem test_Residency_5 : (do
    let s : State := { State.reset with pages := [{ asid := 1, va := 0x2000, size := 0x1000, bytes := [(3, 4), (0xfff, 5)] }], frames := [(0x30000, 0x2000)], unreach := [(1, 5)], sel := 3, mem := (smallMap.filter fun b => b.1 < 0xd010 && b.1 != 0x20005) ++ [(0xd010, 0x1e), (0x30007, 9)], roots := [(1, 0x9001)], launches := [{ (default : Launch) with no := 3, q := 3, tenant := 7, lid := 9, part := 1, asid := 1, st := .gated, extents := [(0, 1)], rth := 255 }], featacc := [(0, 2)], asked := [] }
    let a : Nat := 3
    let l ← s.launch? a
    guard (l.st = .gated)
    guard (gateB s l (homeB s l) = false)
    some () : Option Unit) = some () := by decide +kernel
theorem test_Residency_6 : (do
    let s : State := { State.reset with pages := [{ asid := 1, va := 0x2000, size := 0x1000, bytes := [(3, 4), (0xfff, 5)] }], frames := [(0x30000, 0x2000)], unreach := [(1, 5)], sel := 3, mem := (smallMap.filter fun b => b.1 < 0xd010 && b.1 != 0x20005) ++ [(0xd010, 0x1e), (0x30007, 9)], roots := [(1, 0x9001)], launches := [{ (default : Launch) with no := 3, q := 3, tenant := 7, lid := 9, part := 1, asid := 1, st := .placing }], featacc := [(0, 2)], asked := [] }
    let a : Nat := 3
    let l ← s.launch? a
    guard (l.st ≠ .waiting)
    guard (l.st ≠ .gated)
    some () : Option Unit) = some () := by decide +kernel
theorem test_Residency_7 : (do
    let s : State := { State.reset with pages := [], frames := [(0x30000, 0x2000)], unreach := [(1, 5)], sel := 3, mem := codeLine, roots := [(1, 0x9001)], launches := [{ (default : Launch) with no := 3, q := 3, tenant := 7, lid := 9, part := 1, asid := 1, st := .gated, extents := [(0, 1)], rth := 255 }], featacc := [(0, 2)], asked := [(1, 0)] }
    let asid : Nat := 1
    let vp : Nat := 0
    guard (reportB s (asid, vp) = false)
    some () : Option Unit) = some () := by decide +kernel
theorem test_Residency_8 : (do
    let s : State := { State.reset with pages := [{ asid := 1, va := 0x2000, size := 0x1000, bytes := [(3, 4), (0xfff, 5)] }], frames := [(0x30000, 0x2000)], unreach := [(1, 5)], sel := 3, mem := (smallMap.filter fun b => b.1 < 0xd010 && b.1 != 0x20005) ++ [(0xd010, 0x1e), (0x30007, 9)], roots := [(1, 0x9001)], launches := [{ (default : Launch) with no := 3, q := 3, tenant := 7, lid := 9, part := 1, asid := 1, st := .gated, extents := [(0, 1)], rth := 255 }], featacc := [(0, 2)], asked := [(1, 0)] }
    let asid : Nat := 1
    let vp : Nat := 0
    guard (reportB s (asid, vp) = true)
    guard (s.unitNear asid vp = false)
    guard ((asid, vp) ∉ s.unreach)
    some () : Option Unit) = some () := by decide +kernel
theorem test_Residency_9 : (do
    let s : State := { State.reset with pages := [], frames := [(0x30000, 0x2000)], unreach := [(1, 5)], sel := 3, mem := codeLine, roots := [(1, 0x9001)], launches := [{ (default : Launch) with no := 3, q := 3, tenant := 7, lid := 9, part := 1, asid := 1, st := .gated, extents := [(0, 1)], rth := 255 }], featacc := [(0, 2)], asked := [] }
    let asid : Nat := 1
    let vp : Nat := 5
    guard (reportB s (asid, vp) = true)
    guard (s.unitNear asid vp = true)
    some () : Option Unit) = some () := by decide +kernel
theorem test_Residency_11 : (do
    let s : State := { State.reset with pages := [{ asid := 1, va := 0x2000, size := 0x1000, bytes := [(3, 4), (0xfff, 5)] }], frames := [(0x30000, 0x2000)], unreach := [(1, 5)], sel := 3, mem := (smallMap.filter fun b => b.1 < 0xd010 && b.1 != 0x20005) ++ [(0xd010, 0x1e), (0x30007, 9)], roots := [(1, 0x9001)], launches := [{ (default : Launch) with no := 3, q := 3, tenant := 7, lid := 9, part := 1, asid := 1, st := .gated, extents := [(0, 1)], rth := 255 }], featacc := [(0, 2)], asked := [(1, 0), (1, 4)] }
    let asid : Nat := 1
    let vp : Nat := 0
    guard (reportB s (asid, vp) = true)
    let [p] := s.pages | none
    guard (p.asid = asid)
    guard (p.va / 0x200000 ≤ vp)
    guard (vp ≤ (p.va + p.size - 1) / 0x200000)
    let [f] := s.frames | none
    guard (0 < p.size)
    let ea ← s.leafOf p.asid p.va p.size
    guard (mayComeUp s p f.1 ea)
    some () : Option Unit) = some () := by decide +kernel
theorem test_Residency_12 : (do
    let s : State := { State.reset with cores := [(0, { runs nums with demand := some { asid := 1, va := 0x2345, waited := 5, limit := 9, expired := false }, demandD := some { asid := 1, va := 0x2349, waited := 9, limit := 9, expired := false } })], pages := [{ asid := 1, va := 0x2000, size := 0x1000, bytes := [(3, 4), (0xfff, 5)] }], frames := [(0x30000, 0x2000)], unreach := [(1, 5)], sel := 3, mem := (smallMap.filter fun b => b.1 < 0xd010 && b.1 != 0x20005) ++ [(0xd010, 0x1e), (0x30007, 9)], roots := [(1, 0x9001)], launches := [{ (default : Launch) with no := 3, q := 3, tenant := 7, lid := 9, part := 1, asid := 1, st := .gated, extents := [(0, 1)], rth := 255 }], featacc := [(0, 2)], asked := [] }
    let w : Waiter := .core 0
    let frame : Nat := 0x30000
    let d ← s.demandOf w
    let [p] := s.pages | none
    guard (p.asid = d.asid)
    guard (p.va ≤ d.va)
    guard (d.va < p.va + p.size)
    let ea ← s.leafOf p.asid p.va p.size
    guard (mayComeUp s p frame ea)
    some () : Option Unit) = some () := by decide +kernel
theorem test_Residency_13 : (do
    let s : State := { State.reset with cores := [(0, { runs nums with demand := some { asid := 1, va := 0x2345, waited := 5, limit := 9, expired := false }, demandD := some { asid := 1, va := 0x2349, waited := 9, limit := 9, expired := false } })], pages := [{ asid := 1, va := 0x2000, size := 0x1000, bytes := [(3, 4), (0xfff, 5)] }], frames := [(0x30000, 0x2000)], unreach := [(1, 5)], sel := 3, mem := (smallMap.filter fun b => b.1 < 0xd010 && b.1 != 0x20005) ++ [(0xd010, 0x1e), (0x30007, 9)], roots := [(1, 0x9001)], launches := [{ (default : Launch) with no := 3, q := 3, tenant := 7, lid := 9, part := 1, asid := 1, st := .gated, extents := [(0, 1)], rth := 255 }], featacc := [(0, 2)], asked := [] }
    let w : Waiter := .data 0
    let d ← s.demandOf w
    guard (d.limit ≤ d.waited)
    some () : Option Unit) = some () := by decide +kernel
theorem test_Residency_14 : (do
    let s : State := { State.reset with cores := [(0, { runs nums with demand := some { asid := 1, va := 0x2345, waited := 5, limit := 9, expired := false }, demandD := some { asid := 1, va := 0x2349, waited := 9, limit := 9, expired := false } })], pages := [{ asid := 1, va := 0x2000, size := 0x1000, bytes := [(3, 4), (0xfff, 5)] }], frames := [(0x30000, 0x2000)], unreach := [(1, 5)], sel := 3, mem := (smallMap.filter fun b => b.1 < 0xd010 && b.1 != 0x20005) ++ [(0xd010, 0x1e), (0x30007, 9)], roots := [(1, 0x9001)], launches := [{ (default : Launch) with no := 3, q := 3, tenant := 7, lid := 9, part := 1, asid := 1, st := .gated, extents := [(0, 1)], rth := 255 }], featacc := [(0, 2)], asked := [] }
    let w : Waiter := .core 0
    let d ← s.demandOf w
    guard ((match w with | .launch _ => false | _ => true) = true)
    guard (d.waited < d.limit)
    some () : Option Unit) = some () := by decide +kernel
theorem test_Residency_15 : (do
    let s : State := { State.reset with frames := [(0x80000000, 0x40000000)], mem := giantMap, roots := [(1, 0x9001)], featacc := [(0, 2)], ctlb := [(0, [{ page with va := 0, size := 0x40000000, pa := 0x40000000 }])], stale := [(0x40000005, { old := 4, core := 3 })], saved := [], nodes := [{ (default : Node) with n := 1, phase := .saved, gone := some 7 }], asidOwner := [(1, 7)] }
    let asid : Nat := 1
    let va : W64 := 0x2345
    guard (canonical57 va.toNat = true)
    let (ea0, n, pa) ← s.leafAt asid va.toNat
    guard (s.anyPoison pa n = false)
    guard (pa + n ≤ 0xc000000000)
    guard (s.mapCount pa n = 1)
    guard (s.pinnedRange pa n = false)
    let s1 ← s.forget asid (va.toNat / n * n) n
    let (ea, n', pa') ← s1.leafAt asid va.toNat
    guard (n' = n)
    guard (pa' = pa)
    guard (s1.mem.wf = true)
    guard ((ea + 8 ≤ pa ∨ pa + n ≤ ea))
    guard (frontWrites s1 ea = true)
    let f := 0x80000000
    guard (frameFree s f n)
    guard ((f + n ≤ pa ∨ pa + n ≤ f))
    guard ((ea + 8 ≤ f ∨ f + n ≤ ea))
    guard (s.ovsub = true)
    guard (s.nodes.any fun x => decide (x.phase = .saved ∧ x.gone = some (tget 256 s.asidOwner asid)))
    some () : Option Unit) = some () := by decide +kernel
theorem test_Residency_17 : (do
    let s : State := { State.reset with frames := [(0x80000000, 0x40000000)], mem := giantMap, roots := [(1, 0x9001)], featacc := [(0, 2)], ctlb := [(0, [{ page with va := 0, size := 0x40000000, pa := 0x40000000 }])], stale := [(0x40000005, { old := 4, core := 3 })], saved := [], nodes := [{ (default : Node) with n := 1, phase := .saved, gone := some 8 }], asidOwner := [(1, 7)] }
    let asid : Nat := 1
    let va : W64 := 0x2345
    guard (canonical57 va.toNat = true)
    let (ea0, n, pa) ← s.leafAt asid va.toNat
    guard (s.anyPoison pa n = false)
    guard (pa + n ≤ 0xc000000000)
    guard (s.mapCount pa n = 1)
    guard (s.pinnedRange pa n = false)
    let s1 ← s.forget asid (va.toNat / n * n) n
    let (ea, n', pa') ← s1.leafAt asid va.toNat
    guard (n' = n)
    guard (pa' = pa)
    guard (s1.mem.wf = true)
    guard ((ea + 8 ≤ pa ∨ pa + n ≤ ea))
    guard (frontWrites s1 ea = true)
    guard ((s.ovsub = false ∨ ∀ x ∈ s.nodes, x.phase = .saved → x.gone ≠ some (tget 256 s.asidOwner asid)))
    some () : Option Unit) = some () := by decide +kernel
theorem test_Residency_19 : (do
    let s : State := { State.reset with cores := [(0, runs nums)], mem := codeLine, roots := [(1, 0x9001)] }
    let c : Nat := 0
    let line : W64 := 0x1008
    guard ((s.core c).task.isSome = true)
    guard (s.sel = 0)
    guard (s.sel2 = 0)
    let (r, s1) ← okOf ((fetchLine ((line >>> 6) <<< 6)).run { s with cur := .core c })
    let .line x := r | none
    some () : Option Unit) = some () := by decide +kernel
theorem test_Residency_20 : (do
    let s : State := on (runs nums)
    let c : Nat := 0
    let line : W64 := 0x1000
    guard ((s.core c).task.isSome = true)
    guard (s.sel = 0)
    guard (s.sel2 = 0)
    let (e, s1) ← errOf ((fetchLine ((line >>> 6) <<< 6)).run { s with cur := .core c })
    some () : Option Unit) = some () := by decide +kernel
theorem test_Switches_1 : (do
    let s : State := State.reset
    guard (s.time / s.swtick.toNat ≤ s.lastTick / s.swtick.toNat)
    some () : Option Unit) = some () := by decide +kernel
theorem test_Switches_2 : (do
    let s : State := { State.reset with nodes := [{ n := 128, tset := [7, 9], resident := some 7, requests := [9], partReq := none, phase := .steady, quiet := [], late := [], judged := false, graced := false, used := true }, { n := 129, tset := [7, 9], resident := none, requests := [7], partReq := none, phase := .steady, quiet := [], late := [], judged := false, graced := false, used := true }, { n := 130, tset := [7, 9], resident := some 9, requests := [9, 7], partReq := none, phase := .steady, quiet := [], late := [], judged := false, graced := false, used := true }, { n := 131, tset := [7, 9], resident := some 3, requests := [], partReq := some (true, 131), phase := .steady, quiet := [], late := [], judged := false, graced := false, used := true }, { n := 132, tset := [7, 9], resident := none, requests := [], partReq := none, phase := .steady, quiet := [], late := [], judged := false, graced := false, used := true }, { n := 133, tset := [7, 9], resident := none, requests := [4], partReq := none, phase := .saved, quiet := [], late := [], judged := false, graced := false, used := true }, { n := 134, tset := [7, 9], resident := none, requests := [], partReq := some (true, 134), phase := .steady, quiet := [], late := [], judged := false, graced := false, used := true }, { n := 135, tset := [7, 9], resident := none, requests := [4], partReq := some (true, 134), phase := .steady, quiet := [], late := [], judged := false, graced := false, used := true }], time := 3000007, lastTick := 2000000, mbcmd := 0x8000000e, mbBusy := true, cores := [(0, { halted := true }), (20, { halted := true })] }
    guard (s.lastTick / s.swtick.toNat < s.time / s.swtick.toNat)
    guard (s.nodes.Pairwise fun x y => x.n ≠ y.n)
    some () : Option Unit) = some () := by decide +kernel
theorem test_Switches_3 : (do
    let s : State := { State.reset with nodes := [{ n := 64, tset := [7, 9], resident := some 7, requests := [9], partReq := none, phase := .quiesce 5000, quiet := [], late := [], judged := false, graced := false, used := true }], time := 9000, sel := 64, sel2 := 0 }
    let d : Nat := 0
    let x ← s.node? s.sel
    guard (d = s.sel2)
    let .quiesce t0 := x.phase | none
    guard (d ∉ x.quiet)
    guard (d ∈ nodeDies x.n)
    guard ((s.time < t0 + 1000 * s.swdead.toNat ∨ x.judged = true))
    guard (quietB s x.n d = true)
    some () : Option Unit) = some () := by decide +kernel
theorem test_Switches_4 : (do
    let s : State := { State.reset with nodes := [{ n := 64, tset := [7, 9], resident := some 7, requests := [9], partReq := none, phase := .quiesce 5000, quiet := [], late := [], judged := false, graced := false, used := true }], time := 9000, sel := 64, sel2 := 0, cores := [(3, { task := some job })] }
    let d : Nat := 0
    let x ← s.node? s.sel
    guard (d = s.sel2)
    let .quiesce t0 := x.phase | none
    guard (d ∉ x.quiet)
    guard (d ∈ nodeDies x.n)
    guard ((s.time < t0 + 1000 * s.swdead.toNat ∨ x.judged = true))
    guard (quietB s x.n d = false)
    some () : Option Unit) = some () := by decide +kernel
theorem test_Switches_5 : (do
    let s : State := { State.reset with nodes := [{ n := 64, tset := [7, 9], resident := some 7, requests := [9], partReq := none, phase := .quiesce 5000, quiet := [], late := [], judged := false, graced := false, used := true }], time := 54999, sel := 64 }
    let x ← s.node? s.sel
    guard (s.nodes.Pairwise fun x y => x.n ≠ y.n)
    let .quiesce t0 := x.phase | none
    guard (x.judged = false)
    guard (s.time < t0 + 1000 * s.swdead.toNat)
    some () : Option Unit) = some () := by decide +kernel
theorem test_Switches_6 : (do
    let s : State := { State.reset with nodes := [{ n := 64, tset := [7, 9], resident := some 7, requests := [9], partReq := none, phase := .quiesce 5000, quiet := [], late := [], judged := false, graced := false, used := true }], time := 55000, sel := 64 }
    let x ← s.node? s.sel
    guard (s.nodes.Pairwise fun x y => x.n ≠ y.n)
    let .quiesce t0 := x.phase | none
    guard (x.judged = false)
    guard (t0 + 1000 * s.swdead.toNat ≤ s.time)
    some () : Option Unit) = some () := by decide +kernel
theorem test_Switches_7 : (do
    let s : State := { State.reset with nodes := [{ n := 64, tset := [7, 9], resident := some 7, requests := [9], partReq := none, phase := .quiesce 5000, quiet := [], late := [0], judged := true, graced := false, used := true }], time := 205000, sel := 64 }
    let x ← s.node? s.sel
    guard (s.nodes.Pairwise fun x y => x.n ≠ y.n)
    let .quiesce t0 := x.phase | none
    guard (x.judged = true)
    guard (x.graced = false)
    guard (t0 + 1000 * s.swgrace.toNat ≤ s.time)
    some () : Option Unit) = some () := by decide +kernel
theorem test_Switches_8 : (do
    let s : State := { State.reset with nodes := [{ n := 64, tset := [7, 9], resident := some 7, requests := [9], partReq := none, phase := .quiesce 5000, quiet := [0], late := [], judged := false, graced := false, used := true }], sel := 64, dir := [(0x841, { ovf := true, sharers := [1, 2, 3, 4] })], cores := [(homeOf 0x21040, { sysring := [.overflow 0x841 5] }), (3, { rs := [(2, { tag := 2, pa := 0x21040, dirty := true, words := [1, 2, 3, 4, 5, 6, 7, 8] })] })] }
    let x ← s.node? s.sel
    guard (s.nodes.Pairwise fun x y => x.n ≠ y.n)
    let .quiesce t0 := x.phase | none
    let u ← x.resident
    guard ((nodeDies x.n).all fun d => x.quiet.contains d && quietB s x.n d)
    guard ((nodeCoreList x.n).any fun c => (s.core c).rs.any fun l => !s.rsMayWrite c l.2)
    some () : Option Unit) = some () := by decide +kernel
theorem test_Switches_9 : (do
    let s : State := { State.reset with nodes := [{ n := 64, tset := [7, 9], resident := some 7, requests := [9], partReq := none, phase := .quiesce 5000, quiet := [0], late := [], judged := false, graced := false, used := true }], sel := 64 }
    let x ← s.node? s.sel
    guard (s.nodes.Pairwise fun x y => x.n ≠ y.n)
    let .quiesce t0 := x.phase | none
    let u ← x.resident
    guard ((nodeDies x.n).all fun d => x.quiet.contains d && quietB s x.n d)
    guard ((nodeCoreList x.n).all fun c => (s.core c).rs.all fun l => s.rsMayWrite c l.2)
    some () : Option Unit) = some () := by decide +kernel
theorem test_Switches_10 : (do
    let s : State := { State.reset with nodes := [{ n := 128, tset := [7, 9], resident := none, requests := [9, 7], partReq := none, phase := .saved, quiet := [], late := [], judged := false, graced := false, used := true }], sel := 128, mbcmd := 0x8000000e }
    let x ← s.node? s.sel
    guard (s.nodes.Pairwise fun x y => x.n ≠ y.n)
    guard (x.phase = .saved)
    guard (x.partReq = none)
    let u :: rest := x.requests | none
    guard ((tget none s.tenants u = none ∨ u ∉ x.tset))
    some () : Option Unit) = some () := by decide +kernel
theorem test_Switches_11 : (do
    let s : State := { State.reset with nodes := [{ n := 128, tset := [7, 9], resident := none, requests := [9, 7], partReq := none, phase := .saved, quiet := [], late := [], judged := false, graced := false, used := true }], sel := 128, featacc := [(0, 2)], launches := [{ (default : Launch) with no := 3, q := 3, tenant := 9, lid := 9, part := 128, asid := 1, st := .running, extents := [(0, 5)], rth := 255 }], tenants := [(7, some { rsbase := 0x100000, rsstride := 0x1000, rswords := 256, dwb := 4, twb := 5, twl := 6, tvec := 0x1000, tasklim := 0x1000, demandlim := 0x400, ways := 3, hasid := 5 }), (9, some { rsbase := 0x200000, rsstride := 0x8000, rswords := 512, dwb := 8, twb := 9, twl := 7, tvec := 0x2000, tasklim := 0x2000, demandlim := 0x500, ways := 1, hasid := 6 })], mbcmd := 0x8000000e, mbBusy := true }
    let x ← s.node? s.sel
    guard (s.nodes.Pairwise fun x y => x.n ≠ y.n)
    guard (x.phase = .saved)
    guard (x.partReq = none)
    let u :: rest := x.requests | none
    let d ← tget none s.tenants u
    guard (u ∈ x.tset)
    guard (s.launches.any fun l => l.tenant == u && (l.st == .placing || l.st == .running) && !gateB s l true)
    some () : Option Unit) = some () := by decide +kernel
theorem test_Switches_12 : (do
    let s : State := { State.reset with nodes := [{ n := 128, tset := [7, 9], resident := none, requests := [9, 7], partReq := none, phase := .saved, quiet := [], late := [], judged := false, graced := false, used := true }], sel := 128, tenants := [(7, some { rsbase := 0x100000, rsstride := 0x1000, rswords := 256, dwb := 4, twb := 5, twl := 6, tvec := 0x1000, tasklim := 0x1000, demandlim := 0x400, ways := 3, hasid := 5 }), (9, some { rsbase := 0x200000, rsstride := 0x8000, rswords := 512, dwb := 8, twb := 9, twl := 7, tvec := 0x2000, tasklim := 0x2000, demandlim := 0x500, ways := 1, hasid := 6 })], mbcmd := 0x8000000e, mbBusy := true, cores := [(3, { halted := true, quiescing := true }), (4, { ready := [{ tr := { code := 0x1000, frame := 5, arg := 6, ctrl := 0x40000 }, src := 0x2000, origin := 0, launch := none, restarts := 0, passed := 0 }] })] }
    let x ← s.node? s.sel
    guard (s.nodes.Pairwise fun x y => x.n ≠ y.n)
    guard (x.phase = .saved)
    guard (x.partReq = none)
    let u :: rest := x.requests | none
    let d ← tget none s.tenants u
    guard (u ∈ x.tset)
    guard (s.launches.all fun l => l.tenant != u || !(l.st == .placing || l.st == .running) || gateB s l true)
    some () : Option Unit) = some () := by decide +kernel
theorem test_Switches_13 : (do
    let s : State := { State.reset with nodes := [{ n := 128, tset := [7, 9], resident := none, requests := [], partReq := some (true, 128), phase := .saved, quiet := [], late := [], judged := false, graced := false, used := true }], sel := 128 }
    let x ← s.node? s.sel
    guard (s.nodes.Pairwise fun x y => x.n ≠ y.n)
    guard (x.phase = .saved)
    guard ((x.partReq ≠ none ∨ x.requests = []))
    some () : Option Unit) = some () := by decide +kernel
theorem test_Management_1 : (do
    let s : State := { fmt with mem := [(5, 6)], poison := [7], time := 99, mgmt := { State.reset.mgmt with bootCount := 5, evseq := 7, mlog := [default], cap := 1300, shut := true, clocks := [(1, 2000)] } }
    guard (s.mem.wf = true)
    some () : Option Unit) = some () := by decide +kernel
theorem test_Management_2 : (do
    let s : State := State.reset
    guard ((s.mgmt.layer ≠ 0 ∨ s.mgmt.alive = false))
    some () : Option Unit) = some () := by decide +kernel
theorem test_Management_3 : (do
    let s : State := { State.reset with mgmt := { State.reset.mgmt with layer := 0, armed := true } }
    guard (s.mgmt.layer = 0)
    guard (s.mgmt.alive = true)
    some () : Option Unit) = some () := by decide +kernel
theorem test_Management_4 : (do
    let r : Sensors := { compute := [1, 2, 1150], base := [], hbm := [], watts := 0 }
    guard ((List.range 12).any fun d => (decide (d < 8) && decide (1150 ≤ r.compute.getD d 0)) || (decide (d < 4) && decide (1100 ≤ r.base.getD d 0)) || decide (1050 ≤ r.hbm.getD d 0))
    some () : Option Unit) = some () := by decide +kernel
theorem test_Management_5 : (do
    let r : Sensors := { compute := [1050, 1000, 1001, 1049], base := [900], hbm := [899], watts := 100 }
    let s : State := State.reset
    guard ((∀ d ∈ List.range (8), r.compute.getD d 0 < 1150))
    guard ((∀ d ∈ List.range (4), r.base.getD d 0 < 1100))
    guard ((∀ d ∈ List.range (12), r.hbm.getD d 0 < 1050))
    guard (twf 2250 none s.mgmt.clocks = true)
    guard (twf [] none s.mgmt.causes = true)
    some () : Option Unit) = some () := by decide +kernel
theorem test_Management_7 : (do
    let w : Nat := 1200
    guard (1200 ≤ w)
    guard (w ≤ 2800)
    some () : Option Unit) = some () := by decide +kernel
theorem test_Management_8 : (do
    let w : Nat := 1199
    guard ((w < 1200 ∨ 2800 < w))
    some () : Option Unit) = some () := by decide +kernel
theorem test_Management_13 : (do
    let w : Nat := 3
    guard (3 ≤ w)
    some () : Option Unit) = some () := by decide +kernel
theorem test_Management_15 : (do
    let n : Nat := 5
    let s : State := { fmt with time := 5, hold := 3 }
    guard (s.feat 3 = true)
    guard (s.time ≤ n)
    some () : Option Unit) = some () := by decide +kernel
theorem test_Management_16 : (do
    let n : Nat := 2
    let s : State := { fmt with time := 5 }
    guard (s.feat 3 = true)
    guard (n < s.time)
    some () : Option Unit) = some () := by decide +kernel
theorem test_Management_17 : (do
    let s : State := State.reset
    guard (s.feat 3 = false)
    some () : Option Unit) = some () := by decide +kernel
theorem test_FieldFaults_1 : (do
    let i : Instr := .xclr 3
    let s : State := on (runs nums)
    let c : Nat := 0
    let n ← featureRow i
    guard (s.feat n = false)
    guard (s.atSlot c = true)
    some () : Option Unit) = some () := by decide +kernel
theorem test_FieldFaults_2 : (do
    let i : Instr := .tlbiAll
    let s : State := on (runs nums)
    let c : Nat := 0
    guard (s.atSlot c = true)
    guard (((supervisorRow i = true ∧ (s.core c).sup = false) ∨ (firmwareRow i = true ∧ (s.core c).isFw = false)))
    some () : Option Unit) = some () := by decide +kernel
theorem test_FieldFaults_3 : (do
    let i : Instr := .add .i64 0xf90 1 2
    let s : State := on (runs nums)
    let c : Nat := 0
    let (d, a, b, f) ← twoSource i
    guard (s.atSlot c = true)
    guard (aPort d = false)
    guard (aPort a = false)
    guard (aPort b = false)
    guard ((noDestWord d || noSourceWord a || noSourceWord b) = true)
    some () : Option Unit) = some () := by decide +kernel
theorem test_FieldFaults_4 : (do
    let i : Instr := .add .i64 3 1 128
    let s : State := on (runs nums)
    let c : Nat := 0
    let (d, a, b, f) ← twoSource i
    guard (s.atSlot c = true)
    guard (aPort d = false)
    guard (aPort a = false)
    guard (aPort b = false)
    guard ((noDestWord d || noSourceWord a || noSourceWord b) = false)
    guard ((beyond (s.core c) d || beyond (s.core c) a || beyond (s.core c) b) = true)
    some () : Option Unit) = some () := by decide +kernel
theorem test_FieldFaults_5 : (do
    let i : Instr := .ld .n32 5 6 1
    let s : State := on { runs places with portN := [4, 5] }
    let c : Nat := 0
    let (d, a, ofs, sp, n, sg, dcr) ← loadOf i
    guard (s.atSlot c = true)
    guard (d.toNat < 0xf80)
    guard (d.toNat < (s.core c).wlim.toNat)
    let (x, s1) ← s.take c false a
    guard ((x + ofs).toNat % n ≠ 0)
    some () : Option Unit) = some () := by decide +kernel
theorem test_FieldFaults_6 : (do
    let i : Instr := .st .b32 5 6 1
    let s : State := on { runs places with portN := [5, 4], qd := [3] }
    let c : Nat := 0
    let (d, a, ofs, sp, n, dcr) ← storeOf i
    guard (s.atSlot c = true)
    let (v, s0) ← s.take c false d
    let (x, s1) ← s0.take c false a
    guard ((x + ofs).toNat % n ≠ 0)
    some () : Option Unit) = some () := by decide +kernel
theorem test_AccessPlaces_1 : (do
    let s : State := { State.reset with nodes := [{ (default : Node) with n := 1 }] }
    let c : Nat := 5
    let d : Nat := 0
    let m : Nat := 0
    let P : Nat := (2048 / 2 ^ 0)
    let first : Nat := (2048 / 2 ^ 0 * 0)
    guard (s.nodeOf c = 2 ^ d + m)
    guard (m < 2 ^ d)
    guard (d ≤ 8)
    guard (P = 2048 / 2 ^ d)
    guard (first = P * m)
    some () : Option Unit) = some () := by decide +kernel
theorem test_AccessPlaces_4 : (do
    let n : Nat := 8
    let x : W64 := 0x2341
    guard (x.toNat % n ≠ 0)
    some () : Option Unit) = some () := by decide +kernel
theorem test_AccessPlaces_5 : (do
    let s : State := { on (runs nums) with mem := smallMap, roots := [(1, 0x9001)] }
    let sp : Space := .spad
    let n : Nat := 8
    let x : W64 := 0x40000
    guard (x.toNat % n = 0)
    guard (sp ≠ .mem)
    guard (s.onchip s.actor sp x.toNat n = none)
    some () : Option Unit) = some () := by decide +kernel
theorem test_AccessPlaces_6 : (do
    let s : State := { on (runs nums) with mem := smallMap, roots := [(1, 0x9001)] }
    let sp : Space := .spad
    let n : Nat := 8
    let x : W64 := 0x40
    guard (x.toNat % n = 0)
    guard (sp ≠ .mem)
    let l ← s.onchip s.actor sp x.toNat n
    some () : Option Unit) = some () := by decide +kernel
theorem test_AccessPlaces_7 : (do
    let s : State := { on (runs nums) with mem := smallMap, roots := [(1, 0x9001)] }
    let asid : Nat := 1
    let n : Nat := 8
    let x : W64 := 0x3340
    let acc : Acc2 := .load
    guard (x.toNat % n = 0)
    let (e, s1) ← errOf ((coreXlate asid x.toNat acc.xl (!(s.core s.actor).sup)).run s)
    some () : Option Unit) = some () := by decide +kernel
theorem test_AccessPlaces_8 : (do
    let s : State := { on { runs nums with l1tlb := [{ page with r := false }] } with roots := [(1, 1)] }
    let asid : Nat := 1
    let n : Nat := 8
    let x : W64 := 0x2340
    let acc : Acc2 := .atomic
    guard (x.toNat % n = 0)
    let ((pa, t), s1) ← okOf ((coreXlate asid x.toNat acc.xl (!(s.core s.actor).sup)).run s)
    guard (acc = .atomic)
    guard (t.r = false)
    some () : Option Unit) = some () := by decide +kernel
theorem test_AccessPlaces_9 : (do
    let s : State := { on { runs nums with l1tlb := [{ page with pa := 0, ok := 0 }] } with roots := [(1, 1)] }
    let asid : Nat := 1
    let n : Nat := 8
    let x : W64 := 0x2340
    let acc : Acc2 := .load
    guard (x.toNat % n = 0)
    let ((pa, t), s1) ← okOf ((coreXlate asid x.toNat acc.xl (!(s.core s.actor).sup)).run s)
    guard ((acc = .atomic → t.r = true))
    guard (pa < 0xc000000000)
    some () : Option Unit) = some () := by decide +kernel
theorem test_AccessPlaces_10 : (do
    let s : State := { on { runs nums with l1tlb := [{ page with pa := 0xc000000000, ok := 0 }] } with roots := [(1, 1)] }
    let asid : Nat := 1
    let n : Nat := 8
    let x : W64 := 0x2340
    let acc : Acc2 := .load
    guard (x.toNat % n = 0)
    let ((pa, t), s1) ← okOf ((coreXlate asid x.toNat acc.xl (!(s.core s.actor).sup)).run s)
    guard ((acc = .atomic → t.r = true))
    guard (0xc000000000 ≤ pa)
    guard (pa < 0x8000000000000)
    some () : Option Unit) = some () := by decide +kernel
theorem test_AccessPlaces_11 : (do
    let s : State := { on { runs nums with l1tlb := [{ page with pa := 0x8000000000000, ok := 0 }] } with roots := [(1, 1)] }
    let asid : Nat := 1
    let n : Nat := 8
    let x : W64 := 0x2340
    let acc : Acc2 := .load
    guard (x.toNat % n = 0)
    let ((pa, t), s1) ← okOf ((coreXlate asid x.toNat acc.xl (!(s.core s.actor).sup)).run s)
    guard ((acc = .atomic → t.r = true))
    guard (0x8000000000000 ≤ pa)
    guard (pa < 0xf000000000000)
    some () : Option Unit) = some () := by decide +kernel
theorem test_AccessPlaces_12 : (do
    let s : State := { on { runs nums with l1tlb := [{ page with pa := 0xf300000000000, ok := 0 }] } with roots := [(1, 1)] }
    let asid : Nat := 1
    let n : Nat := 8
    let x : W64 := 0x2340
    let acc : Acc2 := .load
    guard (x.toNat % n = 0)
    let ((pa, t), s1) ← okOf ((coreXlate asid x.toNat acc.xl (!(s.core s.actor).sup)).run s)
    guard ((acc = .atomic → t.r = true))
    guard (0xf000000000000 ≤ pa)
    guard (pa < 0xfff0000000000)
    guard (s1.aliasWin pa = none)
    some () : Option Unit) = some () := by decide +kernel
theorem test_AccessPlaces_13 : (do
    let s : State := { on { runs nums with l1tlb := [{ page with pa := 0xf300000000000, ok := 0 }] } with roots := [(1, 1)], fw := [(3, { size := 0x400000, ctl := 0x8000000000000001, xb := 0xf300000000000 })], featacc := [(0, 0x7f)] }
    let asid : Nat := 1
    let n : Nat := 8
    let x : W64 := 0x2340
    let acc : Acc2 := .load
    guard (x.toNat % n = 0)
    let ((pa, t), s1) ← okOf ((coreXlate asid x.toNat acc.xl (!(s.core s.actor).sup)).run s)
    guard ((acc = .atomic → t.r = true))
    guard (0xf000000000000 ≤ pa)
    guard (pa < 0xfff0000000000)
    let w ← s1.aliasWin pa
    some () : Option Unit) = some () := by decide +kernel
theorem test_AccessPlaces_14 : (do
    let s : State := { on { runs nums with l1tlb := [{ page with pa := 0xfff0000000000, ok := 0 }] } with roots := [(1, 1)] }
    let asid : Nat := 1
    let n : Nat := 8
    let x : W64 := 0x2340
    let acc : Acc2 := .load
    guard (x.toNat % n = 0)
    let ((pa, t), s1) ← okOf ((coreXlate asid x.toNat acc.xl (!(s.core s.actor).sup)).run s)
    guard ((acc = .atomic → t.r = true))
    guard (0xfff0000000000 ≤ pa)
    some () : Option Unit) = some () := by decide +kernel
theorem test_AccessPlaces_15 : (do
    let s : State := { on { runs nums with task := some { job with kind := .firmware } } with time := 0 }
    let c : Nat := 0
    let va : Nat := 0x8000000001234
    let acc : Acc := .load
    guard (s.cur = .core c)
    guard ((s.core c).isFw = true)
    guard (acc ≠ .fill)
    guard (va < 2 ^ 52)
    guard (physKind va ≠ .unassigned)
    some () : Option Unit) = some () := by decide +kernel
theorem test_AccessPlaces_16 : (do
    let s : State := { on { runs nums with task := some { job with kind := .firmware } } with time := 0 }
    let c : Nat := 0
    let va : Nat := 0xc000000000
    let acc : Acc := .load
    guard (s.cur = .core c)
    guard ((s.core c).isFw = true)
    guard (acc ≠ .fill)
    guard ((2 ^ 52 ≤ va ∨ physKind va = .unassigned))
    some () : Option Unit) = some () := by decide +kernel
theorem test_AccessPlaces_17 : (do
    let s : State := { on (runs nums) with mem := smallMap, roots := [(1, 0x9001)] }
    let c : Nat := 0
    let asid : Nat := 1
    let va : Nat := 0x100000000000000
    guard (s.cur = .core c)
    guard ((s.core c).isFw = false)
    guard (va < 2 ^ 64)
    guard (((va / 2 ^ 56 ≠ 0 ∧ va / 2 ^ 56 ≠ 255) ∨ (tget 0 s.roots asid).getLsbD 0 = false))
    some () : Option Unit) = some () := by decide +kernel
theorem test_AccessPlaces_18 : (do
    let s : State := on paged
    let c : Nat := 0
    let asid : Nat := 1
    let va : Nat := 0x2345
    let acc : Acc := .load
    let user : Bool := true
    guard (s.cur = .core c)
    guard ((s.core c).isFw = false)
    guard (va < 2 ^ 64)
    guard ((va / 2 ^ 56 = 0 ∨ va / 2 ^ 56 = 255))
    guard ((tget 0 s.roots asid).getLsbD 0 = true)
    let t :: l := (s.core c).l1tlb | none
    guard (t.asid = asid)
    guard (t.va ≤ va)
    guard (va < t.va + t.size)
    guard (acc ∈ [Acc.load, .store, .fetch])
    guard ((user = true → t.u = true))
    guard ((acc = .load → t.r = true))
    guard ((acc = .store → t.w = true ∧ t.d = true))
    guard ((acc = .fetch → t.x = true))
    guard ((s.core c).demand = none)
    some () : Option Unit) = some () := by decide +kernel
theorem test_AccessPlaces_19 : (do
    let s : State := { on (runs nums) with mem := smallMap, roots := [(1, 0x9001)], poison := [0x9000 / 64] }
    let c : Nat := 0
    let asid : Nat := 1
    let va : Nat := 0x2345
    let root : Nat := 0x9000
    let lv : Nat := 0
    let acc : Acc := .load
    guard (walksAfresh s c asid va root)
    guard (acc ∈ [Acc.load, .store, .fetch])
    guard (walkComes s.mem va root lv)
    guard ((List.range 5).any fun j => decide (lv ≤ j) && s.poisoned (entryOf s.mem va root j))
    some () : Option Unit) = some () := by decide +kernel
theorem test_AccessPlaces_20 : (do
    let s : State := { on (runs nums) with mem := smallMap.map (fun b => if b.1 = 0xd010 then (b.1, 0x1e) else b), roots := [(1, 0x9001)] }
    let c : Nat := 0
    let asid : Nat := 1
    let va : Nat := 0x2345
    let root : Nat := 0x9000
    let lv : Nat := 0
    let acc : Acc := .load
    guard (walksAfresh s c asid va root)
    guard (acc ∈ [Acc.load, .store, .fetch])
    guard (walkComes s.mem va root lv)
    let e : Nat := entryAt s.mem va root lv
    guard ((∀ j ∈ List.range (5), lv ≤ j → s.poisoned (entryOf s.mem va root j) = false))
    guard ((lv = 0 → e.testBit 59 = true → ¬ groupPoisoned s (entryOf s.mem va root 0)))
    guard (e.testBit 0 = false)
    guard (s.feat 1 = false)
    some () : Option Unit) = some () := by decide +kernel
theorem test_AccessPlaces_21 : (do
    let s : State := { on (runs nums) with mem := smallMap.map (fun b => if b.1 = 0xd010 then (b.1, 0x1e) else b), roots := [(1, 0x9001)], unreach := [(1, 0)], featacc := [(0, 2)] }
    let c : Nat := 0
    let asid : Nat := 1
    let va : Nat := 0x2345
    let root : Nat := 0x9000
    let lv : Nat := 0
    let acc : Acc := .load
    guard (walksAfresh s c asid va root)
    guard (acc ∈ [Acc.load, .store, .fetch])
    guard (walkComes s.mem va root lv)
    let e : Nat := entryAt s.mem va root lv
    guard ((∀ j ∈ List.range (5), lv ≤ j → s.poisoned (entryOf s.mem va root j) = false))
    guard ((lv = 0 → e.testBit 59 = true → ¬ groupPoisoned s (entryOf s.mem va root 0)))
    guard (e.testBit 0 = false)
    guard (s.feat 1 = true)
    guard ((asid, va / 0x200000) ∈ s.unreach)
    guard ((asid, va / 0x200000) ∉ s.raised)
    some () : Option Unit) = some () := by decide +kernel
theorem test_AccessPlaces_22 : (do
    let s : State := { on (runs nums) with mem := smallMap.map (fun b => if b.1 = 0xd010 then (b.1, 0x1e) else b), roots := [(1, 0x9001)], featacc := [(0, 2)] }
    let c : Nat := 0
    let asid : Nat := 1
    let va : Nat := 0x2345
    let root : Nat := 0x9000
    let lv : Nat := 0
    let acc : Acc := .load
    guard (walksAfresh s c asid va root)
    guard (acc ∈ [Acc.load, .store, .fetch])
    guard (walkComes s.mem va root lv)
    let e : Nat := entryAt s.mem va root lv
    guard ((∀ j ∈ List.range (5), lv ≤ j → s.poisoned (entryOf s.mem va root j) = false))
    guard ((lv = 0 → e.testBit 59 = true → ¬ groupPoisoned s (entryOf s.mem va root 0)))
    guard (e.testBit 0 = false)
    guard (s.feat 1 = true)
    guard (((asid, va / 0x200000) ∉ s.unreach ∨ (asid, va / 0x200000) ∈ s.raised))
    guard (s.heldBelow asid va = false)
    some () : Option Unit) = some () := by decide +kernel
theorem test_AccessPlaces_23 : (do
    let s : State := { on (runs nums) with mem := smallMap.map (fun b => if b.1 = 0xd010 then (b.1, 0x1e) else b), roots := [(1, 0x9001)], featacc := [(0, 2)], pages := [{ asid := 1, va := 0x2000, size := 0x1000, bytes := [] }] }
    let c : Nat := 0
    let asid : Nat := 1
    let va : Nat := 0x2345
    let root : Nat := 0x9000
    let lv : Nat := 0
    let acc : Acc := .load
    guard (walksAfresh s c asid va root)
    guard (acc ∈ [Acc.load, .store, .fetch])
    guard (walkComes s.mem va root lv)
    let e : Nat := entryAt s.mem va root lv
    guard ((∀ j ∈ List.range (5), lv ≤ j → s.poisoned (entryOf s.mem va root j) = false))
    guard ((lv = 0 → e.testBit 59 = true → ¬ groupPoisoned s (entryOf s.mem va root 0)))
    guard (e.testBit 0 = false)
    guard (s.feat 1 = true)
    guard (((asid, va / 0x200000) ∉ s.unreach ∨ (asid, va / 0x200000) ∈ s.raised))
    guard (s.heldBelow asid va = true)
    some () : Option Unit) = some () := by decide +kernel
theorem test_AccessPlaces_24 : (do
    let s : State := { on (runs nums) with mem := smallMap.map (fun b => if b.1 = 0xd010 then (b.1, 0xf) else b), roots := [(1, 0x9001)] }
    let c : Nat := 0
    let asid : Nat := 1
    let va : Nat := 0x2345
    let root : Nat := 0x9000
    let lv : Nat := 0
    let acc : Acc := .load
    let user : Bool := true
    guard (walksAfresh s c asid va root)
    guard (acc ∈ [Acc.load, .store, .fetch])
    guard (walkComes s.mem va root lv)
    let e : Nat := entryAt s.mem va root lv
    guard ((∀ j ∈ List.range (5), lv ≤ j → s.poisoned (entryOf s.mem va root j) = false))
    guard ((lv = 0 → e.testBit 59 = true → ¬ groupPoisoned s (entryOf s.mem va root 0)))
    guard (e.testBit 0 = true)
    guard (entryBad lv e ∨ (entryLeaf lv e ∧ (¬ leafSound lv e ∨ ¬ leafPermits e acc user)))
    some () : Option Unit) = some () := by decide +kernel
theorem test_AccessPlaces_25 : (do
    let s : State := { on (runs nums) with mem := smallMap, roots := [(1, 0x9001)] }
    let c : Nat := 0
    let asid : Nat := 1
    let va : Nat := 0x2345
    let root : Nat := 0x9000
    let lv : Nat := 0
    let acc : Acc := .load
    let user : Bool := true
    guard (walksAfresh s c asid va root)
    guard (acc ∈ [Acc.load, .store, .fetch])
    guard (walkComes s.mem va root lv)
    let e : Nat := entryAt s.mem va root lv
    guard ((∀ j ∈ List.range (5), lv ≤ j → s.poisoned (entryOf s.mem va root j) = false))
    guard ((lv = 0 → e.testBit 59 = true → ¬ groupPoisoned s (entryOf s.mem va root 0)))
    guard (e.testBit 0 = true)
    guard (¬ entryBad lv e)
    guard (entryLeaf lv e)
    guard (leafSound lv e)
    guard (leafPermits e acc user)
    guard (s.launches.all fun l => (s.core c).launch != some l.no || !l.record || (s.poison.isEmpty && s.dir.isEmpty))
    some () : Option Unit) = some () := by decide +kernel
theorem test_DecodeEncode_1 : (do
    let i : Instr := .add .i64 5 6 7
    let w : Word96 := (0x0020001401801c0000001800 : Word96)
    guard (WellFormed i = true)
    guard (encode i = some w)
    some () : Option Unit) = some () := by decide +kernel
theorem test_DecodeEncode_2 : (do
    let w : Word96 := (0x0020001401801c0000001800 : Word96)
    let i : Instr := .add .i64 5 6 7
    guard ((match decode w with | .ok j => i == j | _ => false) = true)
    some () : Option Unit) = some () := by decide +kernel
theorem test_StepRuns_2 : (do
    let s : State := State.reset
    guard (s.mgmt.shut = false)
    some () : Option Unit) = some () := by decide +kernel
theorem test_StepRuns_3 : (do
    let s : State := { State.reset with mgmt := { State.reset.mgmt with shut := true } }
    guard (s.mgmt.shut = true)
    some () : Option Unit) = some () := by decide +kernel
theorem test_StepRuns_4 : (do
    let s : State := { State.reset with time := 1000000 }
    guard (s.mgmt.shut = false)
    guard (s.lastTick / s.swtick.toNat < s.time / s.swtick.toNat)
    some () : Option Unit) = some () := by decide +kernel
theorem test_StepRuns_5 : (do
    let s : State := { on imaged with agenda := [.slot 0 false] }
    let c : Nat := 0
    guard (undisturbed s = true)
    let (.slot c lag, s1) := s.pick | none
    guard (c < 2048)
    let u : State := { s1 with cur := .core c, lag := lag }
    guard ((u.core c).task.isSome = true)
    guard ((u.core c).stopAt = none)
    guard ((u.core c).ending = none)
    guard ((u.core c).wd < (u.core c).tasklimL)
    guard (wellFormedPc (u.core c).pc = true)
    let (.undecodable, u1) ← okOf ((fetchLine (lineAddr (u.core c).pc)).run u) | none
    guard ((u.core c).dq = [])
    some () : Option Unit) = some () := by decide +kernel
theorem test_StepRuns_6 : (do
    let s : State := { on { runs nums with l1i := [{ marked with bits := (0x1f#512) <<< 480 ||| 0x0020001401801c0000001800, mask := rolesOf ((0x1f#512) <<< 480 ||| 0x0020001401801c0000001800) }] } with agenda := [.slot 0 false] }
    let c : Nat := 0
    guard (undisturbed s = true)
    let (.slot c lag, s1) := s.pick | none
    guard (c < 2048)
    let u : State := { s1 with cur := .core c, lag := lag }
    guard ((u.core c).task.isSome = true)
    guard ((u.core c).stopAt = none)
    guard ((u.core c).ending = none)
    guard ((u.core c).wd < (u.core c).tasklimL)
    guard (wellFormedPc (u.core c).pc = true)
    let (.line l, u1) ← okOf ((fetchLine (lineAddr (u.core c).pc)).run u) | none
    guard (l.mask = rolesOf l.bits)
    let w := slotOf l.bits ((u.core c).pc.toNat % 8)
    let cls := clsOf l.bits ((u.core c).pc.toNat % 8)
    let i := .add .i64 5 6 7
    guard (takesSlot (u.core c).role w = true)
    guard ((match decodeSlot cls w with | .ok j => if lineRsv l.bits = 0 then i == j else i == .unassignedOpcode 0x01 (lineAddr (u.core c).pc) (cls == .d || cls == .e) | .error _ => i == .unassignedOpcode 0x01 (lineAddr (u.core c).pc) (cls == .d || cls == .e)) = true)
    let .next t := exec i { u1 with slotCls := cls } | none
    some () : Option Unit) = some () := by decide +kernel
theorem test_StepRuns_7 : (do
    let s : State := { on { runs nums with l1i := [{ marked with bits := (0x1f#512) <<< 480 ||| (0x9020001401801c0000001800#512), mask := rolesOf ((0x1f#512) <<< 480 ||| (0x9020001401801c0000001800#512)) }] } with agenda := [.slot 0 false] }
    let c : Nat := 0
    guard (undisturbed s = true)
    let (.slot c lag, s1) := s.pick | none
    guard (c < 2048)
    let u : State := { s1 with cur := .core c, lag := lag }
    guard ((u.core c).task.isSome = true)
    guard ((u.core c).stopAt = none)
    guard ((u.core c).ending = none)
    guard ((u.core c).wd < (u.core c).tasklimL)
    guard (wellFormedPc (u.core c).pc = true)
    let (.line l, u1) ← okOf ((fetchLine (lineAddr (u.core c).pc)).run u) | none
    guard (l.mask = rolesOf l.bits)
    let w := slotOf l.bits ((u.core c).pc.toNat % 8)
    guard (takesSlot (u.core c).role w = false)
    guard (isHand w = false)
    guard (((u.core c).inst = none ∨ (u.core c).pc.toNat % 8 ≠ 0 ∨ l.mask.testBit 0 = true ∨ l.mask.testBit (u.core c).role = true))
    some () : Option Unit) = some () := by decide +kernel
theorem test_StepRuns_8 : (do
    let s : State := { on { runs nums with inst := some 6, l1i := [{ marked with bits := (0x1f#512) <<< 480 ||| ((List.range 5).foldl (fun b k => b ||| (0x9020001401801c0000001800#512 <<< (96 * k))) 0#512), mask := rolesOf ((0x1f#512) <<< 480 ||| ((List.range 5).foldl (fun b k => b ||| (0x9020001401801c0000001800#512 <<< (96 * k))) 0#512)) }] } with agenda := [.slot 0 false] }
    let c : Nat := 0
    guard (undisturbed s = true)
    let (.slot c lag, s1) := s.pick | none
    guard (c < 2048)
    let u : State := { s1 with cur := .core c, lag := lag }
    guard ((u.core c).task.isSome = true)
    guard ((u.core c).stopAt = none)
    guard ((u.core c).ending = none)
    guard ((u.core c).wd < (u.core c).tasklimL)
    guard (wellFormedPc (u.core c).pc = true)
    let (.line l, u1) ← okOf ((fetchLine (lineAddr (u.core c).pc)).run u) | none
    guard (l.mask = rolesOf l.bits)
    guard ((u.core c).inst ≠ none)
    guard ((u.core c).pc.toNat % 8 = 0)
    guard (l.mask.testBit 0 = false)
    guard (l.mask.testBit (u.core c).role = false)
    guard ((∀ k ∈ List.range (5), isHand (slotOf l.bits k) = false))
    some () : Option Unit) = some () := by decide +kernel
theorem test_StepRuns_9 : (do
    let s : State := { on { runs nums with dq := [{ pc := 0x1000, instr := .vfma .f64 .rtz 2 3 4 5 0xfff, seq := 0, resume := none, vals := [], popped := [], lines := [] }] } with agenda := [.data 0] }
    let c : Nat := 0
    guard (undisturbed s = true)
    let (.data c, s1) := s.pick | none
    guard (c < 2048)
    let h :: r := (s1.core c).dq | none
    let .next t := exec h.instr { s1 with cur := .data c, slotCls := .d } | none
    some () : Option Unit) = some () := by decide +kernel
theorem test_StepRuns_10 : (do
    let s : State := { ringed with agenda := [.act .deviceReset 3 4] }
    guard (undisturbed s = true)
    let (.act i a b, s1) := s.pick | none
    guard (isEvent i = true)
    let .next t := exec i { s1 with sel := a, sel2 := b } | none
    some () : Option Unit) = some () := by decide +kernel
theorem test_StepRuns_11 : (do
    let s : State := State.reset
    let w : Word96 := (0x0020001401801c0000001800 : Word96)
    let i : Instr := .add .i64 5 6 7
    guard (s.mem.wf = true)
    guard ((match decode w with | .ok j => i == j | _ => false) = true)
    some () : Option Unit) = some () := by decide +kernel
theorem test_StepKeepsMemOk_1 : (do
    let s : State := { on { runs nums with l1i := [{ marked with bits := (0x1f#512) <<< 480 ||| 0x0020001401801c0000001800 }] } with agenda := [.slot 0 false] }
    guard (s.memOk = true)
    let .next t := step s | none
    some () : Option Unit) = some () := by decide +kernel
theorem test_ResetValues_2 : (do
    let c := 5
    guard (c < 2048)
    some () : Option Unit) = some () := by decide +kernel
theorem test_ResetValues_3 : (do
    let n := 3
    guard (n < 256)
    some () : Option Unit) = some () := by decide +kernel
theorem test_ResetValues_4 : (do
    let n := 3
    guard (n < 1024)
    some () : Option Unit) = some () := by decide +kernel
theorem test_ResetValues_6 : (do
    let n := 3
    guard (n < 16)
    some () : Option Unit) = some () := by decide +kernel
theorem test_ResetValues_7 : (do
    let n := 3
    guard (n < 4)
    some () : Option Unit) = some () := by decide +kernel

/-! The log that GETLOG writes has a length between two bounds, whatever the certificates are. -/
/-- A GETLOG that has been issued, with a destination and a size. -/
def asked (ha sz : W64) : State := { State.reset with mbcmd := 0x80000006, mbarg := [(0, ha), (1, sz)] }
abbrev overrun : State := asked 0x7000000000000 0x200
abbrev short : State := asked 0x1000 0
abbrev roomy : State := asked 0x1000 0x200000000
/-- The same with a poisoned line under the destination. -/
def spoilt : State := { roomy with poison := [0x200000000040] }
theorem asked_bounds (ha sz : W64) : 132 ≤ (logAnswer (asked ha sz)).length ∧
    (logAnswer (asked ha sz)).length ≤ 132 + 3 * 2 ^ 30 := by
  have e : (asked ha sz).mgmt.mlog = [] := rfl
  simp only [logAnswer, e, List.length_append, length_leBytes, List.length_take, List.length_replicate, List.flatMap_nil,
    threeCertificates, List.map_cons, List.map_nil, List.flatten_cons, List.flatten_nil, List.length_nil]
  omega
theorem spoilt_log : logAnswer spoilt = logAnswer roomy := rfl
theorem test_MailboxManagement_3 : issued overrun 6 = true ∧
    0xf000000000000 < 0x8000000000000 + (argument overrun 0).toNat + (logAnswer overrun).length := by
  have h : 132 ≤ (logAnswer overrun).length ∧ (logAnswer overrun).length ≤ 132 + 3 * 2 ^ 30 := asked_bounds _ _
  refine ⟨rfl, ?_⟩
  have e : (argument overrun 0).toNat = 0x7000000000000 := rfl
  omega
theorem test_MailboxManagement_4 : issued short 6 = true ∧
    0x8000000000000 + (argument short 0).toNat + (logAnswer short).length ≤ 0xf000000000000 ∧
    (argument short 1).toNat < (logAnswer short).length := by
  have h : 132 ≤ (logAnswer short).length ∧ (logAnswer short).length ≤ 132 + 3 * 2 ^ 30 := asked_bounds _ _
  have e : (argument short 0).toNat = 0x1000 := rfl
  have f : (argument short 1).toNat = 0 := rfl
  exact ⟨rfl, by omega, by omega⟩
theorem test_MailboxManagement_5 : issued spoilt 6 = true ∧
    0x8000000000000 + (argument spoilt 0).toNat + (logAnswer spoilt).length ≤ 0xf000000000000 ∧
    (logAnswer spoilt).length ≤ (argument spoilt 1).toNat ∧
    spoilt.anyPoison (0x8000000000000 + (argument spoilt 0).toNat) (logAnswer spoilt).length = true := by
  have h : 132 ≤ (logAnswer spoilt).length ∧ (logAnswer spoilt).length ≤ 132 + 3 * 2 ^ 30 := by
    rw [spoilt_log]; exact asked_bounds _ _
  have e : (argument spoilt 0).toNat = 0x1000 := rfl
  have f : (argument spoilt 1).toNat = 0x200000000 := rfl
  have g : spoilt.poison = [0x200000000040] := rfl
  refine ⟨rfl, by omega, by omega, ?_⟩
  simp only [State.anyPoison, g, List.any_cons, List.any_nil, Bool.or_false, Bool.and_eq_true, decide_eq_true_eq, e]
  omega
theorem test_MailboxManagement_6 : issued roomy 6 = true ∧
    0x8000000000000 + (argument roomy 0).toNat + (logAnswer roomy).length ≤ 0xf000000000000 ∧
    (logAnswer roomy).length ≤ (argument roomy 1).toNat ∧ roomy.mem.wf = true ∧
    roomy.anyPoison (0x8000000000000 + (argument roomy 0).toNat) (logAnswer roomy).length = false ∧
    ∀ l, roomy.mayWrite 2048 l = true := by
  have h : 132 ≤ (logAnswer roomy).length ∧ (logAnswer roomy).length ≤ 132 + 3 * 2 ^ 30 := asked_bounds _ _
  have e : (argument roomy 0).toNat = 0x1000 := rfl
  have f : (argument roomy 1).toNat = 0x200000000 := rfl
  exact ⟨rfl, by omega, by omega, rfl, rfl, fun _ => rfl⟩

/-! A queue's control block whose INTEG matches, and one whose INTEG does not, whatever the key is. -/
/-- The block's bytes but INTEG; EVLOG is the last. -/
def blockBytes (evlog : Byte) : Memory :=
  [(0x8001, 0x40), (0x8008, 4), (0x8009, 1), (0x800a, 7), (0x800c, 1), (0x8021, 0x60), (0x8028, evlog)]
/-- The INTEG of those bytes. -/
def blockInteg (evlog : Byte) : Nat := State.reset.integOf 0x8000 ((blockBytes evlog).bytes 0x8000 20)
def heldQueue : Queue :=
  { (default : Queue) with q := 3, qcb := 0x8000, status := 7, evbase := 0x4000, evlog := 4, logsz := 2 }
/-- A QRESUME of queue 3 whose block holds v as INTEG. -/
def resuming (evlog : Byte) (v : Nat) : State :=
  { State.reset with
    mbcmd := 0x80000003, mbarg := [(1, 3)], queues := [heldQueue], mem := (blockBytes evlog).setLe 0x8010 4 v }
theorem blockBytes_wf (e : Byte) (h : e ≠ 0) : (blockBytes e).wf = true := by simpa [blockBytes, Memory.wf, twf] using h
theorem blockInteg_lt (e : Byte) : blockInteg e < 2 ^ 32 := by
  have h : ∀ l : List Byte, leNat l < 256 ^ l.length := by
    intro l
    induction l with
    | nil => decide
    | cons b l ih => simp only [leNat, List.length_cons, Nat.pow_succ]; have := b.isLt; omega
  refine Nat.lt_of_lt_of_le (h _) ?_
  calc 256 ^ _ ≤ 256 ^ 4 := Nat.pow_le_pow_right (by decide) (List.length_take_le 4 _)
    _ = 2 ^ 32 := by decide
theorem resuming_get (e : Byte) (v a : Nat) (h : e ≠ 0) (ha : a < 0x8010 ∨ 0x8014 ≤ a) :
    (resuming e v).mem.get a = (blockBytes e).get a :=
  Memory.get_setLe_out 0x8010 4 v a (blockBytes_wf e h) ha
/-- The block's INTEG as the model computes it from the memory that holds v. -/
theorem resuming_integ (e : Byte) (v : Nat) (h : e ≠ 0) :
    (resuming e v).integOf 0x8000 ((resuming e v).mem.bytes 0x8000 20) = blockInteg e := by
  have t : ∀ m : Memory, (m.bytes 0x8000 20).take 16 = m.bytes 0x8000 16 := fun _ => rfl
  have g : (resuming e v).mem.bytes 0x8000 16 = (blockBytes e).bytes 0x8000 16 := by
    simp [Memory.bytes, resuming_get e v _ h]
  simp only [State.integOf, blockInteg, t, g]
  rfl
theorem resuming_read (e : Byte) (v : Nat) (h : e ≠ 0) : (resuming e v).mem.le 0x8010 4 = v % 2 ^ 32 :=
  Memory.le_setLe 0x8010 4 v (blockBytes_wf e h)
theorem resuming_evOk (e : Byte) (v : Nat) (h : e ≠ 0) :
    evOk ((resuming e v).mem.bytes 0x8000 48) = evOk ((blockBytes e).bytes 0x8000 48) := by
  simp [evOk, fieldAt, Memory.bytes, resuming_get e v _ h]
theorem test_MailboxQueues_14 : let s := resuming 3 (blockInteg 3); issued s 3 = true ∧ (argument s 1).toNat = 3 ∧
    s.queue? 3 = some heldQueue ∧ s.queues = [heldQueue] ∧ s.anyPoison heldQueue.qcb 48 = false ∧
    s.mem.le (heldQueue.qcb + 16) 4 = s.integOf heldQueue.qcb (s.mem.bytes heldQueue.qcb 20) ∧
    evOk (s.mem.bytes heldQueue.qcb 48) = false := by
  refine ⟨rfl, rfl, rfl, rfl, rfl, ?_, ?_⟩
  · exact ((resuming_read 3 _ (by decide)).trans (Nat.mod_eq_of_lt (blockInteg_lt 3))).trans
      (resuming_integ 3 _ (by decide)).symm
  · exact (resuming_evOk 3 _ (by decide)).trans (by decide)
theorem test_MailboxQueues_15 : let s := resuming 5 (blockInteg 5); issued s 3 = true ∧ (argument s 1).toNat = 3 ∧
    s.queue? 3 = some heldQueue ∧ s.queues = [heldQueue] ∧ s.anyPoison heldQueue.qcb 48 = false ∧
    s.mem.le (heldQueue.qcb + 16) 4 = s.integOf heldQueue.qcb (s.mem.bytes heldQueue.qcb 20) ∧
    evOk (s.mem.bytes heldQueue.qcb 48) = true ∧ heldQueue.bell = none ∧
    frontWrites s (heldQueue.qcb + 24) = true ∧ s.mem.wf = true := by
  refine ⟨rfl, rfl, rfl, rfl, rfl, ?_, ?_, rfl, rfl, Memory.wf_setLe _ _ _ (blockBytes_wf 5 (by decide))⟩
  · exact ((resuming_read 5 _ (by decide)).trans (Nat.mod_eq_of_lt (blockInteg_lt 5))).trans
      (resuming_integ 5 _ (by decide)).symm
  · exact (resuming_evOk 5 _ (by decide)).trans (by decide)
theorem test_MailboxQueues_16 : let s := resuming 5 (blockInteg 5 + 1); issued s 3 = true ∧ (argument s 1).toNat = 3 ∧
    s.queue? 3 = some heldQueue ∧ s.queues = [heldQueue] ∧ s.anyPoison heldQueue.qcb 48 = false ∧
    s.mem.le (heldQueue.qcb + 16) 4 ≠ s.integOf heldQueue.qcb (s.mem.bytes heldQueue.qcb 20) := by
  refine ⟨rfl, rfl, rfl, rfl, rfl, fun h => ?_⟩
  have a := resuming_read 5 (blockInteg 5 + 1) (by decide)
  have b := resuming_integ 5 (blockInteg 5 + 1) (by decide)
  have c := blockInteg_lt 5
  have d : (blockInteg 5 + 1) % 2 ^ 32 = blockInteg 5 := a.symm.trans (Eq.trans h b)
  omega

/-! Links toward core 9 that are full, however many words they hold. -/
def crowded : State :=
  { State.reset with
    sel := 9, sel2 := 2, posts := [(9, .arr (.decr 0 none))],
    net := List.replicate (Config.linkRoom 9) (4, 9, .decr 0 none) }
theorem test_Arrivals_15 : crowded.sel = 9 ∧ 2 ≤ crowded.sel2 ∧ crowded.posts = [(9, .arr (.decr 0 none))] ∧
    crowded.linkFree 9 = false := by
  refine ⟨rfl, by decide, rfl, ?_⟩
  simp [State.linkFree, crowded]

end Sys2Proof.Tests
end

section
/-!
PROOFS. What the decoder's parsers of rows 0xa and 0xb accept (06 R128, R131, R137; 08 R183, R198 to R201): from a word that
decodes, the fields that must be zero, or 0xfff, and the instruction it is.
-/
namespace Sys2Proof

/-! ## The parser's steps -/

theorem need_eq_ok {p : Bool} {e : Reject} {k : Except Reject Instr} {i : Instr} :
    need p e k = .ok i ↔ p = true ∧ k = .ok i := by
  cases p <;> simp [need]
theorem fn0_eq_ok {w : Word96} {k : Except Reject Instr} {i : Instr} : fn0 w k = .ok i ↔ fFn w = 0 ∧ k = .ok i := by
  simp [fn0, need_eq_ok]
theorem useR_eq_ok {u : Use} {w : Word96} {k : Except Reject Instr} {i : Instr} :
    useR u w k = .ok i ↔ okR u w = true ∧ k = .ok i := need_eq_ok
theorem useK_eq_ok {u : Use} {w : Word96} {k : Except Reject Instr} {i : Instr} :
    useK u w k = .ok i ↔ okK u w = true ∧ k = .ok i := need_eq_ok
/-- A word whose decoding to an instruction is absurd is rejected. -/
theorem rejected_of_not_ok {r : Except Reject Instr} (h : ∀ i, r ≠ .ok i) : ∃ e, r = .error e := by
  cases r with
  | error e => exact ⟨e, rfl⟩
  | ok i => exact absurd rfl (h i)

/-! ## Fields that an instruction does not use -/

theorem okR_b {u : Use} {w : Word96} (h : okR u w = true) (hu : u.b = false) : rB (fLow w) = 0 := by
  simp [okR, hu] at h; simp [h]
theorem okR_c {u : Use} {w : Word96} (h : okR u w = true) (hu : u.c = false) : rC (fLow w) = 0 := by
  simp [okR, hu] at h; simp [h]
theorem okK_a {u : Use} {w : Word96} (h : okK u w = true) (hu : u.a = false) : fA w = 0 := by
  simp [okK, hu] at h; simp [h]
theorem okK_z {u : Use} {w : Word96} (h : okK u w = true) : kZ (fLow w) = 0 := by
  simp [okK] at h; simp [h]

/-! ## Shapes of words -/

theorem rC_of_pVr {k : Reg → Reg → Reg → Reg → Instr} {w : Word96} {i : Instr} (h : pVr k w = .ok i) :
    rC (fLow w) = 0 := by
  obtain ⟨-, h⟩ := fn0_eq_ok.mp h
  obtain ⟨hu, -⟩ := useR_eq_ok.mp h
  exact okR_c hu rfl
theorem rM_of_pUnmasked {k : Reg → Reg → Reg → Instr} {w : Word96} {i : Instr} (h : pUnmasked k w = .ok i) :
    rM (fLow w) = 0xfff := by
  obtain ⟨-, h⟩ := fn0_eq_ok.mp h
  obtain ⟨-, h⟩ := useR_eq_ok.mp h
  exact eq_of_beq (need_eq_ok.mp h).1
theorem eq_of_pZip {k : Bool → Reg → Reg → Reg → Reg → Instr} {w : Word96} {i : Instr} (h : pZip k w = .ok i) :
    i = k ((rFl (fLow w)).getLsbD 0) (fD w) (fA w) (rB (fLow w)) (rM (fLow w)) := by
  obtain ⟨-, h⟩ := fn0_eq_ok.mp h
  obtain ⟨-, h⟩ := useR_eq_ok.mp h
  exact (Except.ok.inj (need_eq_ok.mp h).2).symm

/-! ## The opcodes of these rows -/

section Opcodes
variable {w : Word96}

theorem decode_vbcast (h : fOpc w = 0xa8) : decode w =
    fn0 w (useR { d := true, a := true, m := true } w (.ok (.vbcast (fD w) (fA w) (rM (fLow w))))) := by
  simp [decode, h, decRowA]
theorem decode_vbcastk (h : fOpc w = 0xa9) : decode w =
    fn0 w (useK { d := true, m := true } w (.ok (.vbcastk (fD w) (rM (fLow w)) (kKw (fLow w)) (kKo (fLow w))))) := by
  simp [decode, h, decRowA]
theorem decode_vins (h : fOpc w = 0xaa) : decode w = pUnmasked .vins w := by simp [decode, h, decRowA]
theorem decode_vext (h : fOpc w = 0xab) : decode w = pUnmasked .vext w := by simp [decode, h, decRowA]
theorem decode_vmask (h : fOpc w = 0xac) : decode w =
    fn0 w (useR { d := true, a := true, m := true } w (.ok (.vmask (fD w) (fA w) (rM (fLow w))))) := by
  simp [decode, h, decRowA]
theorem decode_vperm (h : fOpc w = 0xb0) : decode w = pVr .vperm w := by simp [decode, h, decRowB]
theorem decode_vrot (h : fOpc w = 0xb1) : decode w = pVr .vrot w := by simp [decode, h, decRowB]
theorem decode_vzip (h : fOpc w = 0xb2) : decode w = pZip .vzip w := by simp [decode, h, decRowB]
theorem decode_vunzip (h : fOpc w = 0xb3) : decode w = pZip .vunzip w := by simp [decode, h, decRowB]
theorem decode_vcompress (h : fOpc w = 0xb4) : decode w = pUnmasked .vcompress w := by simp [decode, h, decRowB]
theorem decode_vexpand (h : fOpc w = 0xb5) : decode w = pUnmasked .vexpand w := by simp [decode, h, decRowB]

end Opcodes

/-- A word of `vbcast` or `vmask` has B and C zero (08 R198). -/
theorem zeroBC_of_decode {w : Word96} {i : Instr} (ho : fOpc w = 0xa8 ∨ fOpc w = 0xac) (h : decode w = .ok i) :
    rB (fLow w) = 0 ∧ rC (fLow w) = 0 := by
  have hu : okR { d := true, a := true, m := true } w = true := by
    rcases ho with ho | ho
    · rw [decode_vbcast ho] at h; exact (useR_eq_ok.mp (fn0_eq_ok.mp h).2).1
    · rw [decode_vmask ho] at h; exact (useR_eq_ok.mp (fn0_eq_ok.mp h).2).1
  exact ⟨okR_b hu rfl, okR_c hu rfl⟩
/-- A word of `vbcastk` has A and the K form's reserved bits zero (06 R137, 08 R198). -/
theorem zeroAZ_of_decode {w : Word96} {i : Instr} (ho : fOpc w = 0xa9) (h : decode w = .ok i) :
    fA w = 0 ∧ kZ (fLow w) = 0 := by
  rw [decode_vbcastk ho] at h
  have hu := (useK_eq_ok.mp (fn0_eq_ok.mp h).2).1
  exact ⟨okK_a hu rfl, okK_z hu⟩

end Sys2Proof
end

section
/-!
PROOFS. The shapes of the broadcasts, the lane moves and the permutes (08 R198 to R201) that `Laws/Shapes.lean` has no
lemma for, and what a vector destination keeps or takes under the masks they use.
-/
namespace Sys2Proof.Machine

/-! ## Masks of one lane and of none -/

theorem laneOn_two_pow (i l : Nat) : laneOn (2 ^ i) l = decide (i = l) := by
  rw [← Nat.testBit_two_pow, Nat.testBit_eq_decide_div_mod_eq, laneOn, Nat.shiftRight_eq_div_pow]
  exact Bool.beq_eq_decide_eq ..
theorem laneOn_zero (l : Nat) : laneOn 0 l = false := by simp [laneOn]
theorem eachLane_zero (g : State → Nat → State) (s : State) : eachLane 0 g s = s := by
  simp [eachLane, laneOn_zero]
/-- A mask of one lane does something in that lane alone. -/
theorem eachLane_two_pow {i : Nat} (hi : i < 16) (g : State → Nat → State) (s : State) :
    eachLane (2 ^ i) g s = g s i := by
  have upTo : ∀ n, (List.range n).foldl (fun u l => if laneOn (2 ^ i) l then g u l else u) s =
      if i < n then g s i else s := by
    intro n
    induction n with
    | zero => simp
    | succ n ih =>
      rw [List.range_succ, List.foldl_append, ih]
      simp only [List.foldl_cons, List.foldl_nil, laneOn_two_pow, decide_eq_true_eq]
      rcases Nat.lt_trichotomy i n with h | h | h
      · rw [if_pos h, if_neg (by omega), if_pos (by omega)]
      · subst h; simp
      · rw [if_neg (by omega), if_neg (by omega), if_neg (by omega)]
  rw [eachLane, upTo, if_pos hi]

/-! ## Vector destinations -/

section Destinations
variable {s t : State} {c m i : Nat} {d : Reg} {f g : Nat → W64} {v : W64}

/-- Only the values of a vector's sixteen lanes are written. -/
theorem giveLanes_congr (h : ∀ l < 16, f l = g l) : s.giveLanes c d m f = s.giveLanes c d m g := by
  have hf : eachLane m (fun u l => u.putAt c ((s.core c).wbase.toNat + 16 * d.toNat + l) (f l)) s =
      eachLane m (fun u l => u.putAt c ((s.core c).wbase.toNat + 16 * d.toNat + l) (g l)) s :=
    List.foldl_ext _ _ _ fun u l hl => by simp only [h l (List.mem_range.mp hl)]
  simp only [State.giveLanes, hf]
/-- With no lane enabled nothing is written. -/
theorem giveLanes_zero (h : s.giveLanes c d 0 f = some t) : t = s := by
  simp only [State.giveLanes, eachLane_zero] at h
  split at h
  · exact (Option.some.inj h).symm
  · split at h
    · exact (Option.some.inj h).symm
    · cases h
/-- With one lane enabled its word is written (R100). -/
theorem writeLane_giveLanes (hc : s.cur = .core c) (hq : (s.core c).dq = []) (hi : i < 16)
    (h : s.giveLanes c d (2 ^ i) (fun _ => v) = some t) : writeLane d i v s = .ok ⟨⟩ t := by
  simp only [State.giveLanes, eachLane_two_pow hi] at h
  split at h
  · rename_i hz
    have : d = 0xfff := by simpa using hz
    subst this
    obtain rfl := Option.some.inj h; rfl
  · split at h
    · rename_i hv
      obtain rfl := Option.some.inj h
      exact writeLane_ok hc hq hv hi (by rw [laneOn_two_pow]; exact decide_eq_true rfl)
    · cases h

end Destinations

/-! ## Shapes -/

section Shapes
variable {i : Instr} {s s1 s2 s3 s4 : State} {c m : Nat} {d a b mr : Reg} {x : List W64} {w v : W64}

/-- A vector field that is read whole passes its check. -/
theorem lanes_good_vw {p : Nat} {dt : Bool} (hc : s.cur = .core c) (h : s.lanes c a m = some (x, s1)) :
    Fld.good s dt (s.core c).wlim.toNat (.vw p a) = true :=
  lanes_good (p := p) (d := dt) hc h

/-- A word in every enabled lane. -/
theorem broadcast_ok (hs : s.atSlot c = true) (ho : Instr.open_ i) (hdata : isData i = true)
    (ha : s.take c true a = some (v, s1)) (hm : s1.maskOf c mr = some (m, s2))
    (hd : s2.giveLanes c d m (fun _ => v) = some s3) :
    perform i [.vd d, .ws 54 a, .mask 18 mr] (do
      let x ← readW a
      let mk ← readMask mr
      writeV d mk fun _ => x
      return .fall) s = .next (s3.goes c (nextPc (s.core c).pc)) := by
  have hc := atSlot_cur hs; have hq := atSlot_dq hs
  have l1 := take_like (d := c) ha
  have l2 := l1.trans (mask_like hm).1
  refine perform_fall hs ho ?_ ?_ ((l2.trans (giveLanes_like hd)).dq.trans hq)
  · rw [hdata]
    simp only [List.all_cons, List.all_nil, Bool.and_true, Bool.and_eq_true]
    exact ⟨giveLanes_good' hc l2 hd, take_good hc ha, mask_good' hc l1 hm⟩
  · rw [M_bind_ok (readW_take hc hq ha), M_bind_ok (readMask_ok (like_actor hc l1) hm),
      M_bind_ok (writeV_ok (l2.cur.trans hc) (l2.dq.trans hq) hd)]
    rfl
/-- A constant in every enabled lane. -/
theorem broadcastK_ok {kw : BitVec 3} {ko : BitVec 17} (hs : s.atSlot c = true) (ho : Instr.open_ i)
    (hm : s.maskOf c mr = some (m, s1)) (hk : (s.core c).constOf kw ko = some v)
    (hd : s1.giveLanes c d m (fun _ => v) = some s2) :
    perform i [.vd d, .mask 18 mr] (do
      let mk ← readMask mr
      let x ← readK kw ko
      writeV d mk fun _ => x
      return .fall) s = .next (s2.goes c (nextPc (s.core c).pc)) := by
  have hc := atSlot_cur hs; have hq := atSlot_dq hs
  obtain ⟨l1, hk1⟩ := mask_like (d := c) hm
  refine perform_fall hs ho ?_ ?_ ((l1.trans (giveLanes_like hd)).dq.trans hq)
  · simp only [List.all_cons, List.all_nil, Bool.and_true, Bool.and_eq_true]
    exact ⟨giveLanes_good' hc l1 hd, mask_good hc hm⟩
  · rw [M_bind_ok (readMask_ok (actor_core hc) hm), M_bind_ok (readK_ok (like_actor hc l1) (by rw [hk1]; exact hk)),
      M_bind_ok (writeV_ok (l1.cur.trans hc) (l1.dq.trans hq) hd)]
    rfl
/-- A word in the lane that a second word numbers. -/
theorem execVins_ok (hs : s.atSlot c = true) (ha : s.take c true a = some (v, s1)) (hb : s1.take c true b = some (w, s2))
    (hd : s2.giveLanes c d (if w.toNat < 16 then 2 ^ w.toNat else 0) (fun _ => v) = some s3) :
    execVins d a b s = .next (s3.goes c (nextPc (s.core c).pc)) := by
  have hc := atSlot_cur hs; have hq := atSlot_dq hs
  have l1 := take_like (d := c) ha
  have l2 := l1.trans (take_like hb)
  refine perform_fall hs ⟨rfl, rfl, rfl, rfl, nofun⟩ ?_ ?_ ((l2.trans (giveLanes_like hd)).dq.trans hq)
  · simp only [List.all_cons, List.all_nil, Bool.and_true, Bool.and_eq_true]
    exact ⟨giveLanes_good' hc l2 hd, take_good hc ha, take_good' hc l1 hb⟩
  · rw [M_bind_ok (readW_take hc hq ha), M_bind_ok (readW_take (l1.cur.trans hc) (l1.dq.trans hq) hb)]
    by_cases hw : w.toNat < 16
    · rw [if_pos hw] at hd ⊢
      rw [M_bind_ok (writeLane_giveLanes (l2.cur.trans hc) (l2.dq.trans hq) hw hd)]; rfl
    · rw [if_neg hw] at hd ⊢
      rw [giveLanes_zero hd]; rfl
/-- A vector read whole and a word, to a word. -/
theorem lanePick_ok {f : List W64 → W64 → W64} (hs : s.atSlot c = true) (ho : Instr.open_ i) (hdata : isData i = true)
    (ha : s.lanes c a 0xffff = some (x, s1)) (hb : s1.take c true b = some (w, s2))
    (hd : s2.give c true d (f x w) = some s3) :
    perform i [.wd d, .vw 54 a, .ws 42 b] (do
      let x ← readV a
      let w ← readW b
      put d (f x w)) s = .next (s3.goes c (nextPc (s.core c).pc)) := by
  have hc := atSlot_cur hs; have hq := atSlot_dq hs
  have l1 := (lanes_like (d := c) ha).1
  have l2 := l1.trans (take_like hb)
  refine perform_fall hs ho ?_ ?_ ((l2.trans (give_like hd)).dq.trans hq)
  · rw [hdata]
    simp only [List.all_cons, List.all_nil, Bool.and_true, Bool.and_eq_true]
    exact ⟨give_good' hc l2 hd, lanes_good_vw hc ha, take_good' hc l1 hb⟩
  · rw [M_bind_ok (readV_ok (actor_core hc) ha), M_bind_ok (readW_take (l1.cur.trans hc) (l1.dq.trans hq) hb),
      put_ok (l2.cur.trans hc) (l2.dq.trans hq) hd]
/-- A vector read whole and a word, to a whole vector. -/
theorem laneSelect_ok {f : List W64 → W64 → Nat → W64} (hs : s.atSlot c = true) (ho : Instr.open_ i)
    (hdata : isData i = true) (ha : s.lanes c a 0xffff = some (x, s1)) (hb : s1.take c true b = some (w, s2))
    (hd : s2.giveLanes c d 0xffff (f x w) = some s3) :
    perform i [.vd d, .vw 54 a, .ws 42 b] (do
      let x ← readV a
      let w ← readW b
      writeV d 0xffff (f x w)
      return .fall) s = .next (s3.goes c (nextPc (s.core c).pc)) := by
  have hc := atSlot_cur hs; have hq := atSlot_dq hs
  have l1 := (lanes_like (d := c) ha).1
  have l2 := l1.trans (take_like hb)
  refine perform_fall hs ho ?_ ?_ ((l2.trans (giveLanes_like hd)).dq.trans hq)
  · rw [hdata]
    simp only [List.all_cons, List.all_nil, Bool.and_true, Bool.and_eq_true]
    exact ⟨giveLanes_good' hc l2 hd, lanes_good_vw hc ha, take_good' hc l1 hb⟩
  · rw [M_bind_ok (readV_ok (actor_core hc) ha), M_bind_ok (readW_take (l1.cur.trans hc) (l1.dq.trans hq) hb),
      M_bind_ok (writeV_ok (l2.cur.trans hc) (l2.dq.trans hq) hd)]
    rfl
/-- A vector read whole and a word, to the enabled lanes. -/
theorem execVrot_ok (hs : s.atSlot c = true) (ha : s.lanes c a 0xffff = some (x, s1))
    (hb : s1.take c true b = some (w, s2)) (hm : s2.maskOf c mr = some (m, s3))
    (hd : s3.giveLanes c d m (fun l => x.getD ((l + w.toNat) % 16) 0) = some s4) :
    execVrot d a b mr s = .next (s4.goes c (nextPc (s.core c).pc)) := by
  have hc := atSlot_cur hs; have hq := atSlot_dq hs
  have l1 := (lanes_like (d := c) ha).1
  have l2 := l1.trans (take_like hb)
  have l3 := l2.trans (mask_like hm).1
  refine perform_fall hs ⟨rfl, rfl, rfl, rfl, nofun⟩ ?_ ?_ ((l3.trans (giveLanes_like hd)).dq.trans hq)
  · simp only [List.all_cons, List.all_nil, Bool.and_true, Bool.and_eq_true]
    exact ⟨giveLanes_good' hc l3 hd, lanes_good_vw hc ha, take_good' hc l1 hb, mask_good' hc l2 hm⟩
  · rw [M_bind_ok (readV_ok (actor_core hc) ha), M_bind_ok (readW_take (l1.cur.trans hc) (l1.dq.trans hq) hb),
      M_bind_ok (readMask_ok (like_actor hc l2) hm)]
    exact M_bind_ok (writeV_ok (l3.cur.trans hc) (l3.dq.trans hq) hd)

end Shapes

end Sys2Proof.Machine
end

section
/-!
PROOFS. The values of the lane moves and the permutes (08 R198 to R201): the machine computes those of the rules.
-/
namespace Sys2Proof.Claims
open Sys2Proof.Machine

/-- A sum of powers of two has the bits it is the sum of. -/
theorem powerSum_bits (p : Nat → Bool) (n : Nat) :
    let y := (List.range n).foldl (fun acc l => if p l then acc + 2 ^ l else acc) 0
    y < 2 ^ n ∧ ∀ j, y.testBit j = (decide (j < n) && p j) := by
  induction n with
  | zero => simp
  | succ n ih =>
    simp only [List.range_succ, List.foldl_append, List.foldl_cons, List.foldl_nil]
    generalize (List.range n).foldl (fun acc l => if p l then acc + 2 ^ l else acc) 0 = y at ih ⊢
    obtain ⟨hlt, hbit⟩ := ih
    have hpow : 2 ^ (n + 1) = 2 ^ n + 2 ^ n := by omega
    have hlast : ∀ j, j ≠ n → (j < n + 1 ↔ j < n) := fun j hj => by omega
    cases hp : p n with
    | true =>
      refine ⟨by rw [if_pos rfl]; omega, fun j => ?_⟩
      rw [if_pos rfl, ← Nat.or_two_pow_eq_add_of_lt hlt, Nat.testBit_or, hbit, Nat.testBit_two_pow]
      by_cases hj : j = n
      · simp [hj, hp]
      · simp [hlast j hj, Ne.symm hj]
    | false =>
      refine ⟨by rw [if_neg nofun]; omega, fun j => ?_⟩
      rw [if_neg nofun, hbit]
      by_cases hj : j = n
      · simp [hj, hp]
      · simp [hlast j hj]
theorem getLsbD_ofBits {n : Nat} (hn : n ≤ 64) (p : Nat → Bool) (j : Nat) :
    (ofBits n p).getLsbD j = (decide (j < n) && p j) := by
  by_cases hj : j < n
  · have h64 : j < 64 := Nat.lt_of_lt_of_le hj hn
    simp only [ofBits, BitVec.getLsbD_setWidth, BitVec.getLsbD_ofBoolListLE, List.getD_eq_getElem?_getD]
    simp [hj, h64]
  · simp [ofBits, hj]
/-- `vmask`: the bits of the lanes that a test picks (R198). -/
theorem laneBits_eq (mk : Nat) (p : Nat → Bool) : w64 (laneBits mk p) = ofBits 16 fun l => laneOn mk l && p l := by
  apply BitVec.eq_of_getLsbD_eq
  intro j hj
  rw [getLsbD_ofBits (by decide), w64, BitVec.getLsbD_ofNat, laneBits,
    (powerSum_bits (fun l => laneOn mk l && p l) 16).2 j, decide_eq_true hj, Bool.true_and]

/-- The j-th element of `range` that a test picks is the one before which it picks j. -/
theorem filter_range_getElem? (p : Nat → Bool) (n j : Nat) :
    ((List.range n).filter p)[j]? =
      (List.range n).find? fun k => p k && ((List.range k).filter p).length == j := by
  induction n with
  | zero => rfl
  | succ n ih =>
    rw [List.range_succ, List.filter_append, List.find?_append, List.getElem?_append, ← ih]
    by_cases hj : j < ((List.range n).filter p).length
    · simp [hj]
    · rw [if_neg hj, List.getElem?_eq_none (Nat.le_of_not_lt hj), Option.none_or]
      cases hp : p n with
      | true =>
        by_cases he : ((List.range n).filter p).length = j
        · simp [hp, he]
        · have : j - ((List.range n).filter p).length ≠ 0 := by omega
          simp [hp, he, this]
      | false => simp [hp]
/-- The elements of `range` below a bound, of those that a test picks. -/
theorem filter_range_filter_lt (p : Nat → Bool) {n l : Nat} (hl : l ≤ n) :
    ((List.range n).filter p).filter (· < l) = (List.range l).filter p := by
  obtain ⟨k, rfl⟩ := Nat.exists_eq_add_of_le hl
  have below : ((List.range l).filter p).filter (· < l) = (List.range l).filter p :=
    List.filter_eq_self.mpr fun a ha => by simpa using (List.mem_filter.mp ha).1
  have above : (((List.range k).map (l + ·)).filter p).filter (· < l) = [] :=
    List.filter_eq_nil_iff.mpr fun a ha => by
      obtain ⟨b, -, rfl⟩ := List.mem_map.mp (List.mem_filter.mp ha).1
      simp
  rw [List.range_add, List.filter_append, List.filter_append, below, above, List.append_nil]

theorem picked_getElem? (w : W64) (j : Nat) :
    (picked w)[j]? = (List.range 16).find? fun k => w.getLsbD k && onesBelow w k == j := filter_range_getElem? ..
/-- `vexpand`: as many lanes of A stand before lane l's as the mask word picks before l (R201). -/
theorem expanded_eq (x : List W64) (w : W64) {l : Nat} (hl : l < 16) :
    (if bitOf w l then laneAt x ((picked w).filter (· < l)).length else 0) = expanded x w l := by
  rw [picked, filter_range_filter_lt _ (Nat.le_of_lt hl)]; rfl
/-- `vzip` (R200). -/
theorem zipped_eq (hi : Bool) (x y : List W64) (l : Nat) :
    laneAt (if l % 2 == 0 then x else y) (8 * bN hi + l / 2) =
      (if l % 2 = 0 then x else y).getD ((if hi then 8 else 0) + l / 2) 0 := by
  cases hi <;> simp [laneAt, bN]
/-- `vunzip` (R200). -/
theorem unzipped_eq (hi : Bool) (x y : List W64) (l : Nat) :
    laneAt (if l < 8 then x else y) (2 * (l % 8) + bN hi) =
      (if l < 8 then x else y).getD (2 * (l % 8) + if hi then 1 else 0) 0 := rfl

end Sys2Proof.Claims
end

section
/-!
PROOFS. The broadcasts, the lane moves and the permutes (08 R198 to R201).
-/
namespace Sys2Proof.Claims
open Sys2Proof.Machine

/-- Settles O18: each form by its shape's lemma, and its word by what its parser accepts. -/
theorem laneMoves : Obligations.LaneMoves := by
  unfold Obligations.LaneMoves
  refine ⟨?vbcast, ?vbcastk, ?vins, ?vext, ?vmask, fun w => ⟨?zeroBC, ?zeroAZ, ?unmasked⟩⟩
  case vbcast =>
    intro s s1 s2 s3 c mk d a m x hs ha hm hd
    exact broadcast_ok hs ⟨rfl, rfl, rfl, rfl, nofun⟩ rfl ha hm hd
  case vbcastk =>
    intro s s1 s2 c mk d m kw ko w hs hm hk hd
    exact broadcastK_ok hs ⟨rfl, rfl, rfl, rfl, nofun⟩ hm hk hd
  case vins =>
    intro s s1 s2 s3 c d a b x i hs ha hb hd
    exact execVins_ok hs ha hb hd
  case vext =>
    intro s s1 s2 s3 c d a b x i hs ha hb hd
    exact lanePick_ok (f := fun x i => if i.toNat < 16 then x.getD i.toNat 0 else 0) hs ⟨rfl, rfl, rfl, rfl, nofun⟩ rfl
      ha hb hd
  case vmask =>
    intro s s1 s2 s3 c mk d a m x hs hm ha hd
    rw [← laneBits_eq] at hd
    exact vecToWord_ok (f := fun x mk => w64 (laneBits mk fun l => laneAt x l != 0)) hs ⟨rfl, rfl, rfl, rfl, nofun⟩ rfl
      hm ha hd
  case zeroBC =>
    intro ho hn
    refine rejected_of_not_ok fun i h => ?_
    obtain ⟨hb, hc⟩ := zeroBC_of_decode ho h
    exact hn.elim (· hb) (· hc)
  case zeroAZ =>
    intro ho hn
    refine rejected_of_not_ok fun i h => ?_
    obtain ⟨ha, hz⟩ := zeroAZ_of_decode ho h
    exact hn.elim (· ha) (· hz)
  case unmasked =>
    intro ho hn
    refine rejected_of_not_ok fun i h => hn ?_
    rcases ho with ho | ho
    · rw [decode_vins ho] at h; exact rM_of_pUnmasked h
    · rw [decode_vext ho] at h; exact rM_of_pUnmasked h

/-- A permute of two vectors sets the lanes that its rule gives. -/
theorem exec_permuted {i : Instr} {s s1 s2 s3 s4 : State} {c mk : Nat} {d a b m : Reg}
    {f : List W64 → List W64 → Nat → W64} {x y : List W64} (hi : permuted i = some (d, a, b, m, f))
    (hs : s.atSlot c = true) (ha : s.lanes c a 0xffff = some (x, s1)) (hb : s1.lanes c b 0xffff = some (y, s2))
    (hm : s2.maskOf c m = some (mk, s3)) (hd : s3.giveLanes c d mk (f x y) = some s4) :
    exec i s = .next (s4.goes c (nextPc (s.core c).pc)) := by
  cases i <;> try cases hi
  case vperm =>
    exact vecPerm_ok hs ⟨rfl, rfl, rfl, rfl, nofun⟩ ha hb hm hd
  case vzip hi =>
    refine vecPerm_ok hs ⟨rfl, rfl, rfl, rfl, nofun⟩ ha hb hm ?_
    rwa [giveLanes_congr fun l _ => zipped_eq hi x y l]
  case vunzip hi =>
    refine vecPerm_ok hs ⟨rfl, rfl, rfl, rfl, nofun⟩ ha hb hm ?_
    rwa [giveLanes_congr fun l _ => unzipped_eq hi x y l]

section Selections
variable {s s1 s2 s3 : State} {c : Nat} {d a b : Reg} {x : List W64} {w : W64}

theorem execVcompress_ok (hs : s.atSlot c = true) (ha : s.lanes c a 0xffff = some (x, s1))
    (hb : s1.take c true b = some (w, s2)) (hd : s2.giveLanes c d 0xffff (compressed x w) = some s3) :
    execVcompress d a b s = .next (s3.goes c (nextPc (s.core c).pc)) := by
  refine laneSelect_ok hs ⟨rfl, rfl, rfl, rfl, nofun⟩ rfl ha hb ?_
  refine (giveLanes_congr fun j _ => ?_).trans hd
  rw [picked_getElem?]; rfl
theorem execVexpand_ok (hs : s.atSlot c = true) (ha : s.lanes c a 0xffff = some (x, s1))
    (hb : s1.take c true b = some (w, s2)) (hd : s2.giveLanes c d 0xffff (expanded x w) = some s3) :
    execVexpand d a b s = .next (s3.goes c (nextPc (s.core c).pc)) := by
  refine laneSelect_ok hs ⟨rfl, rfl, rfl, rfl, nofun⟩ rfl ha hb ?_
  exact (giveLanes_congr fun _ hl => expanded_eq x w hl).trans hd

end Selections

/-- Settles O19: each permute by its shape's lemma, and its word by what its parser accepts. -/
theorem permutes : Obligations.Permutes := by
  unfold Obligations.Permutes
  refine ⟨?permuted, ?vrot, ?select, fun w => ⟨?zeroC, fun i h => ⟨?vzip, ?vunzip⟩, ?unmasked⟩⟩
  case permuted =>
    intro i s s1 s2 s3 s4 c mk d a b m f x y hi hs ha hb hm hd
    exact exec_permuted hi hs ha hb hm hd
  case vrot =>
    intro s s1 s2 s3 s4 c mk d a b m x r hs ha hb hm hd
    exact execVrot_ok hs ha hb hm hd
  case select =>
    intro s s1 s2 c d a b x w hs ha hb
    exact ⟨fun s3 hd => execVcompress_ok hs ha hb hd, fun s3 hd => execVexpand_ok hs ha hb hd⟩
  case zeroC =>
    intro ho hn
    refine rejected_of_not_ok fun i h => hn ?_
    rcases ho with ho | ho
    · rw [decode_vperm ho] at h; exact rC_of_pVr h
    · rw [decode_vrot ho] at h; exact rC_of_pVr h
  case vzip =>
    intro ho
    rw [decode_vzip ho] at h; exact eq_of_pZip h
  case vunzip =>
    intro ho
    rw [decode_vunzip ho] at h; exact eq_of_pZip h
  case unmasked =>
    intro ho hn
    refine rejected_of_not_ok fun i h => hn ?_
    rcases ho with ho | ho
    · rw [decode_vcompress ho] at h; exact rM_of_pUnmasked h
    · rw [decode_vexpand ho] at h; exact rM_of_pUnmasked h

end Sys2Proof.Claims
end
